-- ==== Sys2Proof/Word.lean ====
section
/-! DEFINITION. The plainest types that every file of the model uses. -/

namespace Sys2Proof

/-- One byte of a message or of frame memory. -/
abbrev Byte := BitVec 8

/-- One 32-bit register of the host window (R169). -/
abbrev Word := BitVec 32

/-- A link. Link *n* of the manual (1 to 6) is the value *n* − 1. -/
abbrev LinkId := Fin 6

/-- A handle, index:generation (00_scope.md, Handles). -/
structure Handle where
  index : BitVec 8
  gen   : BitVec 8
  deriving DecidableEq, Repr

/-- The null handle 0:0. -/
def Handle.null : Handle := ⟨0, 0⟩

/-- A party that holds claims: client 0 is the fill engine, client *n* is link *n*. -/
inductive Client where
  | fill
  | link (n : LinkId)
  deriving DecidableEq, Repr

end Sys2Proof
end

