-- ==== Sys2Proof/Config.lean ====
section
/-! DEFINITION. The values that the manual leaves open: constants with no body, so that no proof can see what they
are, and the strap setting of the part that `State.reset` describes. -/

namespace Sys2Proof.Config

/-- The memory-size strap of the part described by `State.reset` (R82). DESIGN CHOICE, unsafe (log 5): the board
decides it; POWER_ON carries the value of any board. -/
def strapAtReset : BitVec 2 := 0

/-- The undefined content of a byte of frame memory that nothing has written since a power-on (R98): the first
argument names the power cycle, the second is the byte's address (log 6). -/
opaque undefinedByte : Nat → Nat → Byte

/-- Whether the byte at the third argument's address, carried by the abandoned write whose number is the second
argument, reached memory before the soft reset that the first argument names (R120: it may or may not; log 7). -/
opaque abandonedByteLands : Nat → Nat → Nat → Bool

/-- Whether the DISABLE cause comes before the HOST cause when one link control write takes both (R151 and R188 make
them one event and give no order; log 9). -/
opaque disableBeforeHost : Nat → Bool

/-- The sequence in the completion of a FILL whose surface has no change part when it ends (R144 states none; log 10).
-/
opaque unstatedSequence : Nat → Word

/-- The torn flag in the same completion (log 10). -/
opaque unstatedTorn : Nat → Bool

/-- A byte of a written pixel that the WRITE did not bring (R113 states none): the first argument is the draw, the
second the byte's place in the written span (log 43). -/
opaque unsentByte : Nat → Nat → Byte

end Sys2Proof.Config
end

