-- ==== Sys2Proof/Syntax.lean ====
section
/-! DEFINITION. The commands of the block: one constructor of `Instr` for each row of spec/opcode_table.json. -/

namespace Sys2Proof

/-- Which part of a row is taken. Some rows hold two events of the manual with a point between them at which another
event may come (R19 and R20, R25, R47 and R178, R59, R105, R131, R145). `whole` takes the row's events one after
another; `firstEvent` takes the first only, and the row's rest is taken when the row comes again (log 4). -/
inductive Extent where
  | whole
  | firstEvent
  deriving DecidableEq, Repr

/-- A client frame after its kind byte: the tag, the body length field and the body delivered (R187). -/
structure Frame where
  tag  : Byte
  len  : BitVec 16
  body : List Byte
  deriving DecidableEq, Repr

/-- The five control requests that use a control credit (09_client_links.md, 9.3). -/
inductive ControlKind where
  | detach
  | claim
  | release
  | renew
  | changes
  deriving DecidableEq, Repr

/-- The two outbound queues of a link (R158). -/
inductive Channel where
  | control
  | access
  deriving DecidableEq, Repr

/-- One command of the block, a row of spec/opcode_table.json. A host write carries the 32-bit word written. -/
inductive Instr where
  | powerOn (strap : BitVec 2)
  | softReset (w : Word)
  | submit (w : Word)
  | complPop (w : Word)
  | interruptStatusWrite (w : Word)
  | interruptEnableWrite (w : Word)
  | tickDivWrite (w : Word)
  | warnEighthsWrite (w : Word)
  | complThreshWrite (w : Word)
  | enable (n : LinkId) (b : Bool)
  | reset (n : LinkId) (b : Bool)
  | linkEventClear (second : Bool) (w : Word)
  | faultPolicyWrite (n : LinkId) (w : Word)
  | registerWrite (a : BitVec 10) (w : Word)
  | create
  | modify (x : Extent)
  | retire
  | drainEnd
  | inspect (x : Extent)
  | changes
  | resolveRetry (x : Extent)
  | resolveSkip
  | resolveFlush
  | revoke (x : Extent)
  | space
  | fill
  | stopFill (x : Extent)
  | unknownCommand
  | attach (n : LinkId) (f : Frame)
  | controlRequest (n : LinkId) (k : ControlKind) (f : Frame)
  | undefinedKindFrame (n : LinkId) (kind : Byte)
  | read (n : LinkId) (f : Frame)
  | write (n : LinkId) (f : Frame)
  | claim (n : LinkId) (x : Extent)
  | release (n : LinkId)
  | renew (n : LinkId) (x : Extent)
  | changesQuery (n : LinkId) (x : Extent)
  | changesAnswer (n : LinkId)
  | detach (n : LinkId)
  | lost (n : LinkId)
  | teardownRemoval (n : LinkId)
  | outboundSend (n : LinkId) (c : Channel)
  | burstJudging (n : LinkId)
  | reload (n : LinkId) (x : Extent)
  | transactionCompletion (n : LinkId) (k : Nat) (err : Bool)
  | claimDrainEnd (c : Client) (slot : Fin 16)
  | revokedDrainEnd (c : Client) (slot : Fin 16)
  | tick
  | leaseExpiry (c : Client) (slot : Fin 16)
  | timedOut (c : Client) (slot : Fin 16)
  | fillClaim
  | fillReload
  | fillCompletion (k : Nat)
  | scrubCompletion
  deriving DecidableEq, Repr

end Sys2Proof
end

