-- ==== Sys2Proof/WellFormed.lean ====
section
/-! DEFINITION. The checks on a command's operands that do not depend on the state. -/

namespace Sys2Proof

/-- The kind codes of the eight messages a client sends (11.5). -/
def clientKinds : List Byte := [0x01, 0x02, 0x03, 0x04, 0x05, 0x06, 0x10, 0x11]

/-- A slot number that the client's claim table has: 0 to 15 for a link, 0 for the fill engine (R27). -/
def slotExists : Client → Fin 16 → Bool
  | .fill, k => k == 0
  | .link _, _ => true

/-- The operands of a command lie in the ranges that its row gives them. A command whose operands do not is answered
by `exec` as an event that does not occur (log 3). -/
def Instr.wellFormed : Instr → Bool
  | .undefinedKindFrame _ kind => !clientKinds.contains kind
  | .claimDrainEnd c k => slotExists c k
  | .revokedDrainEnd c k => slotExists c k
  | .timedOut c k => slotExists c k
  | .leaseExpiry c _ => match c with
    | .fill => false
    | .link _ => true
  | .fillCompletion k => k < 2
  | .transactionCompletion _ k _ => k < 16
  | _ => true

end Sys2Proof
end

