-- ==== Sys2Proof/Decode.lean ====
section
/-! DEFINITION. The decoder that the host asks for. -/

namespace Sys2Proof

/-- The command that a word spells by the bits of spec/opcode_table.json. No row of that table gives bits ("fields"
is empty in all 54 rows, and there is no "fixed"), so no word spells a command. -/
def decodeTableWord (_nbits _w : Nat) : Option Instr := none

end Sys2Proof
end

