-- ==== Sys2Proof/Machine/State.lean ====
section
/-! DEFINITION. The state of the PS-640 as plain data, block by block, and its value after power-on. -/

namespace Sys2Proof.Machine

/-! ## Surface Table (01_surface_records.md) -/

/-- Pixel formats (00_scope.md). -/
inductive Format where
  | mono8 | rgb16 | rgb24 | argb32
  deriving DecidableEq, Repr

/-- One link's right on a surface (R5). -/
inductive Right where
  | none | read | write
  deriving DecidableEq, Repr

/-- The mode of a claim and the direction of a burst (11.1). -/
inductive Mode where
  | read | write
  deriving DecidableEq, Repr

/-- A run of consecutive blocks {first block, length} (00_scope.md, Frame memory blocks). -/
structure Run where
  first  : Nat
  length : Nat
  deriving DecidableEq, Repr

/-- A rectangle {x0, y0, x1, y1}, both corners inclusive (R4). -/
structure Rect where
  x0 : Nat
  y0 : Nat
  x1 : Nat
  y1 : Nat
  deriving DecidableEq, Repr

/-- The fields of a surface record that a FREE entry does not have (R1 to R6). -/
structure Desc where
  format  : Format
  width   : Nat
  height  : Nat
  pitch   : Nat
  blocks  : Nat
  runs    : List Run
  clip    : Option Rect
  rights  : Vector Right 6
  ceiling : Nat
  scrub   : Bool
  deriving DecidableEq, Repr

/-- The three states of an entry (R10). -/
inductive EntryState where
  | free
  | live (d : Desc)
  | retiring (d : Desc)
  deriving DecidableEq, Repr

/-- One entry: its state, its generation (R8), its stamp on the stamp board (R11) and its in-flight count (R7). -/
structure Entry where
  state    : EntryState
  gen      : BitVec 8
  stamp    : BitVec 16
  inFlight : Nat
  deriving DecidableEq, Repr

/-- The nine requesters of the table arbiter (R12). -/
inductive Requester where
  | commandEngine
  | claimEngine
  | fillEngine
  | reload (n : LinkId)
  deriving DecidableEq, Repr

/-- The Surface Table: its entries, the arbiter's pointer (R12) and the inspection buffer (R25). -/
structure SurfaceTable where
  entries    : Vector Entry 256
  pointer    : Requester
  inspection : Vector Word 32
  deriving DecidableEq, Repr

/-! ## Claim Engine (02_claims_and_grant_order.md, 03_leases_and_waiting_limits.md) -/

/-- Why a claim is revoked (2.7). -/
inductive Reason where
  | lease | host | rights | retired
  deriving DecidableEq, Repr

/-- How a RELEASING claim ends (R28). -/
inductive ReleaseKind where
  | plain
  | publish
  | revoked (r : Reason)
  deriving DecidableEq, Repr

/-- The state of a claim; the release kind is present while RELEASING (R28). -/
inductive ClaimState where
  | waiting
  | held
  | releasing (k : ReleaseKind)
  deriving DecidableEq, Repr

/-- A claim in its slot (R28), with the tag of the RELEASE that ends it (R41). -/
structure Claim where
  handle      : Handle
  mode        : Mode
  state       : ClaimState
  leaseLen    : Nat
  leaseLeft   : Nat
  warned      : Bool
  token       : BitVec 8
  waitLimit   : Nat
  waitLeft    : Nat
  outstanding : Nat
  tag         : Byte
  session     : BitVec 8
  releaseTag  : Byte
  deriving DecidableEq, Repr

/-- A control request that has passed R154 (9.3). -/
inductive CtrlReq where
  | claim (tag : Byte) (h : Handle) (mode : Mode) (lease : Nat) (wait : Nat)
  | release (tag : Byte) (slot : Nat) (publish : Bool)
  | renew (tag : Byte) (slot : Nat) (token : BitVec 8) (newLen : Option Nat)
  | changes (tag : Byte) (h : Handle) (since : Word)
  | detach (tag : Byte)
  deriving DecidableEq, Repr

/-- A read that waits for the Claim Engine's line to the arbiter (R32). A withdrawn request keeps its place and is
discarded when it comes to be decided (R162). -/
inductive LineEntry where
  | link (n : LinkId) (session : BitVec 8) (req : CtrlReq) (withdrawn : Bool)
  | fill
  deriving DecidableEq, Repr

/-- The Claim Engine: the claim tables (R27), each surface's wait queue head first (R30) and the line of reads (R32).
The writer and the reader set of a surface are views of the claim tables (`State.holders`). -/
structure ClaimEngine where
  tables : Vector (Vector (Option Claim) 16) 6
  filler : Option Claim
  queues : Vector (List Client) 256
  line   : List LineEntry
  deriving DecidableEq, Repr

/-! ## Change Tracker (04_change_tracking.md) -/

/-- A set of bands: band *b* is present when bit *b* is 1 (11.1). -/
abbrev BandSet := BitVec 64

/-- The change part of a surface (R69). The torn flag is set exactly while the torn set is non-empty. -/
structure ChangePart where
  handle   : Handle
  sequence : Word
  pending  : BandSet
  torn     : BandSet
  ring     : List (Word × BandSet)
  deriving DecidableEq, Repr

/-- The Change Tracker: a change part for each LIVE or RETIRING surface. -/
structure ChangeTracker where
  parts : Vector (Option ChangePart) 256
  deriving DecidableEq, Repr

/-! ## Block Allocator (05_frame_memory_blocks.md) -/

/-- The state of one block (R83). -/
inductive BlockState where
  | free
  | owned (i : BitVec 8)
  | scrubbing
  deriving DecidableEq, Repr

/-- The Block Allocator (R82 to R95). SCRUB_ACTIVE is set exactly while the scrub queue is non-empty. -/
structure Allocator where
  total         : Nat
  blocks        : List BlockState
  freeRuns      : List Run
  scrubQueue    : List Run
  free          : Nat
  owned         : Nat
  scrubbing     : Nat
  retiringOwned : Nat
  deriving DecidableEq, Repr

/-! ## Messages (chapter 11) -/

/-- The link codes (11.1): refusal reasons and fault and error kinds. -/
inductive LinkCode where
  | none | staleHandle | notLive | noRight | duplicate | tableFull | leaseRange | busy | notHeld
  | badMode | noLease | staleToken | noClaim | bounds | memory | flushed
  deriving DecidableEq, Repr

/-- The status of an answer to CHANGES (R77). -/
inductive ChangeStatus where
  | current | delta | full
  deriving DecidableEq, Repr

/-- The three actions of RESOLVE (7.7). -/
inductive ResolveAction where
  | retry | skip | flush
  deriving DecidableEq, Repr

/-- The kind and body of a message to a client (9.4, 11.5). -/
inductive Body where
  | attached (ctrl acc : Nat)
  | detached
  | granted (slot : Nat) (h : Handle) (mode : Mode) (seq : Word) (torn : Bool) (token : BitVec 8)
  | queued (slot position : Nat)
  | refused (reason : LinkCode) (token : BitVec 8)
  | released (slot : Nat) (h : Handle) (publish : Bool) (seq : Word) (torn : Bool)
  | renewed (slot : Nat) (h : Handle) (token : BitVec 8) (lease : Nat)
  | changeReport (h : Handle) (status : ChangeStatus) (torn : Bool) (seq : Word) (bands : BandSet)
  | revoked (slot : Nat) (h : Handle) (mode : Mode) (reason : Reason) (seq : Word) (torn : Bool)
  | timedOut (slot : Nat) (h : Handle) (mode : Mode)
  | leaseWarning (slot : Nat) (h : Handle) (left : Nat) (token : BitVec 8)
  | halted (h : Handle) (kind : LinkCode) (dir : Mode) (attempt : Nat)
  | resumed (action : ResolveAction) (answered : Nat)
  | readData (n : Nat) (data : List Byte)
  | writeDone (written : Nat)
  | accessError (kind : LinkCode)
  deriving DecidableEq, Repr

/-- A message to a client with its tag, the session it belongs to (R159) and its class, notice or response (R187). -/
structure Message where
  tag     : Byte
  session : BitVec 8
  notice  : Bool
  body    : Body
  deriving DecidableEq, Repr

/-! ## Access Path (06_pixel_access_path.md) -/

/-- A burst (R100): n pixels of row y from x; `data` is a WRITE's pixel data; `session` is the session it came in. -/
structure Burst where
  dir     : Mode
  tag     : Byte
  handle  : Handle
  x       : Nat
  y       : Nat
  n       : Nat
  data    : List Byte
  session : BitVec 8
  /-- No format was known when its length was checked, so that it faults STALE_HANDLE when it is judged (R157). -/
  formatless : Bool
  deriving DecidableEq, Repr

/-- A copy of a surface record in a descriptor slot (R103) or in the Fill Engine (R139). -/
structure Copy where
  handle : Handle
  stamp  : BitVec 16
  format : Format
  width  : Nat
  height : Nat
  pitch  : Nat
  clip   : Option Rect
  runs   : List Run
  deriving DecidableEq, Repr

/-- One transaction of a burst in the response queue: not completed, completed (with a read's data), or a read that
ended in an error (R115, R117). -/
inductive PartState where
  | issued
  | done (data : List Byte)
  | failed
  deriving DecidableEq, Repr

/-- A part of a burst: the number of its transaction and how that stands. -/
structure Part where
  txn   : Nat
  state : PartState
  deriving DecidableEq, Repr

/-- A burst in the response queue (R101): IN FLIGHT with its parts and, for a WRITE, its written count, or READY with
the body of its response. -/
inductive Response where
  | inFlight (b : Burst) (written : Nat) (parts : List Part)
  | ready (tag : Byte) (session : BitVec 8) (body : Body)
  deriving DecidableEq, Repr

/-- A request of a reload unit: for the head burst's judging (R104), for the length check of a WRITE that has arrived
(R157), or one whose burst or frame a teardown has removed, so that its reading is discarded (R157; log 16). -/
inductive ReloadJob where
  | judge
  | length
  | discarded
  deriving DecidableEq, Repr

/-- One lane of the Access Path. The head of `reloads` is the reload unit's pending request at the arbiter. -/
structure Lane where
  accessQ   : List Burst
  responseQ : List Response
  readSlot  : Option Copy
  writeSlot : Option Copy
  reloads   : List ReloadJob
  inFlight  : Nat
  deriving DecidableEq, Repr

/-! ## Fault Unit (07_held_streams_and_the_fault_queue.md) -/

/-- A link's fault policy (R122). -/
inductive Policy where
  | hold | answer
  deriving DecidableEq, Repr

/-- A link's access stream (7.2). -/
inductive Stream where
  | flowing | held | retrying
  deriving DecidableEq, Repr

/-- A fault record (R126). -/
structure FaultRecord where
  link    : LinkId
  kind    : LinkCode
  handle  : Handle
  x       : Nat
  y       : Nat
  n       : Nat
  dir     : Mode
  tag     : Byte
  attempt : Nat
  deriving DecidableEq, Repr

/-- What the Fault Unit keeps for one link: policy (R122), stream (R123) and last answered fault (R124), whose kind
is `none` and handle 0:0 when there is none. -/
structure LinkFaults where
  policy     : Policy
  stream     : Stream
  lastKind   : LinkCode
  lastHandle : Handle
  deriving DecidableEq, Repr

/-- The Fault Unit: the fault queue, head first (R127), and each link's part. -/
structure FaultUnit where
  queue : List FaultRecord
  links : Vector LinkFaults 6
  deriving DecidableEq, Repr

/-! ## Fill Engine (08_fill_engine.md) -/

/-- The engine's states (R139). -/
inductive FillState where
  | idle | waiting | writing | draining
  deriving DecidableEq, Repr

/-- The burst in progress: its uncompleted transactions and whether it is the last burst of its row (R143). -/
structure FillBurst where
  left    : Nat
  endsRow : Bool
  deriving DecidableEq, Repr

/-- The fill job (R139). `outdated` is the stamp guard's mark on the copy (R142); `reading` says that a service of the
arbiter is requested (R142, step 1); `withdrawAsked` and `withdrawTaken` follow the withdrawal of R145. -/
structure FillJob where
  tag           : Byte
  handle        : Handle
  x             : Nat
  y             : Nat
  w             : Nat
  h             : Nat
  value         : Word
  publish       : Bool
  waitLimit     : Nat
  nextRow       : Nat
  nextX         : Nat
  burst         : Option FillBurst
  stop          : Bool
  copy          : Copy
  outdated      : Bool
  reading       : Bool
  withdrawAsked : Bool
  withdrawTaken : Bool
  deriving DecidableEq, Repr

/-- The Fill Engine: its state, its job outside IDLE, and the values its status registers keep (R147). -/
structure FillEngine where
  state        : FillState
  job          : Option FillJob
  statusTag    : Byte
  statusHandle : Handle
  rowsDone     : Nat
  deriving DecidableEq, Repr

/-! ## Link Controllers (09_client_links.md) -/

/-- The four states of a link (R150). -/
inductive LinkState where
  | disabled | offline | online | teardown
  deriving DecidableEq, Repr

/-- The five causes that end a session (R161). -/
inductive Cause where
  | detach | lost | protocol | host | disable
  deriving DecidableEq, Repr

/-- The control request that has been taken and is not yet decided (R155): waiting for its read of the record, or a
CHANGES between its two stages (R76). -/
inductive Progress where
  | reading
  | answering (tag : Byte) (h : Handle) (since : Word)
  deriving DecidableEq, Repr

/-- A READ or WRITE frame at the link controller (R157). -/
structure AccessFrame where
  dir   : Mode
  frame : Frame
  deriving DecidableEq, Repr

/-- One link controller. `causes` holds the recorded causes of a teardown, the first cause first (R161); `arrivals`
holds the WRITE that waits for its length check and the frames behind it (R157); `events` has the event bits at the
positions of the link event register (11.6); `wire` is the frame last handed to the physical layer (log 19). -/
structure Link where
  state       : LinkState
  enable      : Bool
  session     : BitVec 8
  identity    : Word
  ctrlCredits : Nat
  accCredits  : Nat
  requests    : List CtrlReq
  progress    : Option Progress
  arrivals    : List AccessFrame
  causes      : List Cause
  detachTag   : Byte
  ctrlOut     : List Message
  accOut      : List Message
  events      : BitVec 6
  lastCause   : Option Cause
  wire        : List Byte
  deriving DecidableEq, Repr

/-! ## Command Engine (10_host_command_interface.md) -/

/-- A command record (R170): the kind code as written, the tag and a copy of the eight staging words. -/
structure CmdRecord where
  kind  : Byte
  tag   : Byte
  stage : Vector Word 8
  deriving DecidableEq, Repr

/-- How far the executing command has come: nothing yet; MODIFY after its update, with the new stamp (R19); INSPECT
part 2 after its read of the entry, with the state code and generation read (R25); REVOKE after its handle check
(R178); RESOLVE RETRY while the retried judging has not ended, with the link and the record it removed (R131). -/
inductive Stage where
  | fresh
  | modifyUpdated (stamp : BitVec 16)
  | inspectRead (state : Byte) (gen : BitVec 8)
  | revokeChecked
  | retrying (n : LinkId) (removed : FaultRecord)
  deriving DecidableEq, Repr

/-- The executing command (R172). -/
structure Executing where
  cmd   : CmdRecord
  stage : Stage
  deriving DecidableEq, Repr

/-- The cause of a BUSY outcome (11.3). -/
inductive BusyCause where
  | engine | surface
  deriving DecidableEq, Repr

/-- The outcomes of the commands (10.6). -/
inductive Verdict where
  | ok | badParam | tableFull | spacePending | noSpace | fragmented | staleHandle | notLive | noFault
  | refaulted (kind : LinkCode)
  | notRunning
  | busy (cause : BusyCause)
  | bounds | done | stopped | cancelled | retired | revoked | timedOut | unknownCommand
  deriving DecidableEq, Repr

/-- A completion record (R175); words beyond those listed read 0. -/
structure Completion where
  tag     : Byte
  kind    : Byte
  verdict : Verdict
  words   : List Word
  deriving DecidableEq, Repr

/-- A background command (R174): a RETIRE with the handle it retires, or the FILL. -/
structure Background where
  tag    : Byte
  kind   : Byte
  handle : Handle
  deriving DecidableEq, Repr

/-- The Command Engine. `drainEnds` lists the RETIRING entries whose drain condition holds, in the order it came to
hold (R174); `interval` is the TICK_DIV of the tick interval already running (R52; log 31). -/
structure CommandEngine where
  stage          : Vector Word 8
  queue          : List CmdRecord
  executing      : Option Executing
  completions    : List Completion
  reserved       : Nat
  background     : List Background
  drainEnds      : List (BitVec 8)
  tickDiv        : BitVec 10
  warnEighths    : BitVec 3
  complThresh    : BitVec 6
  micros         : Nat
  interval       : BitVec 10
  enables        : BitVec 7
  scrubIdle      : Bool
  memoryError    : Bool
  submitOverflow : Bool
  popEmpty       : Bool
  memoryMore     : Bool
  memoryBlock    : Nat
  deriving DecidableEq, Repr

/-! ## Frame Memory Interface (R114) -/

/-- Who issued a transaction: a lane or the Fill Engine, for the surface named, or the scrubber. -/
inductive Owner where
  | lane (n : LinkId) (h : Handle)
  | fill (h : Handle)
  | scrub
  deriving DecidableEq, Repr

/-- What a transaction does. A read holds the bytes it returns: those that the writes issued before it leave (log 20).
A write holds the bytes it has still to store. `zero` is the scrubber's write of a whole block (R93). -/
inductive TxnOp where
  | read (data : List Byte)
  | write (cells : List Host.Cell)
  | zero
  deriving DecidableEq, Repr

/-- A memory transaction (R113): its number, its issuer, its frame-memory byte address and its length. -/
structure Txn where
  id     : Nat
  owner  : Owner
  addr   : Nat
  length : Nat
  op     : TxnOp
  deriving DecidableEq, Repr

/-- The Frame Memory Interface: the transactions in flight in issue order, the next transaction's number, and the
frame memory's contents; `seed` names the power cycle whose undefined contents an unlisted byte has (log 6). -/
structure MemoryInterface where
  txns   : List Txn
  nextId : Nat
  mem    : List Host.Cell
  seed   : Nat
  deriving DecidableEq, Repr

/-! ## The machine -/

/-- The state of the part, with `pending`, the queue of the commands that wait, first in first out, and `draws`, the
counter that gives each free value its argument (log 8). -/
structure State where
  pending : List Instr
  cmd     : CommandEngine
  table   : SurfaceTable
  claims  : ClaimEngine
  tracker : ChangeTracker
  alloc   : Allocator
  lanes   : Vector Lane 6
  faults  : FaultUnit
  fill    : FillEngine
  links   : Vector Link 6
  fmi     : MemoryInterface
  draws   : Nat
  deriving DecidableEq, Repr

/-- The part never stops with a fault: what the manual calls a fault is an access that fails acceptance (R109), and it
has its effect. No command raises a `Fault`, so the type has no constructor. -/
inductive Fault where
  deriving DecidableEq, Repr

/-- The refusals of `exec`. -/
inductive Refusal where
  /-- Raised by an arm of `exec` whose command has no meaning yet (safe: the model stops where the part goes on). Every
  command has its meaning, so no arm raises it. -/
  | notModelled (mnemonic : String)
  deriving DecidableEq, Repr

/-- B for a strap value (R82): 0 gives 1024, 1 gives 2048, 2 gives 4096, and 3 is read as 0. -/
def blockCount (strap : BitVec 2) : Nat :=
  if strap = 1 then 2048 else if strap = 2 then 4096 else 1024

/-- The Command Engine after either reset (R184, R185). -/
def CommandEngine.reset : CommandEngine where
  stage := Vector.replicate 8 0
  queue := []
  executing := none
  completions := []
  reserved := 0
  background := []
  drainEnds := []
  tickDiv := 999
  warnEighths := 6
  complThresh := 1
  micros := 0
  interval := 999
  enables := 0
  scrubIdle := false
  memoryError := false
  submitOverflow := false
  popEmpty := false
  memoryMore := false
  memoryBlock := 0

/-- An entry at power-on (R13). -/
def Entry.reset : Entry := ⟨.free, 0, 0, 0⟩

/-- The Surface Table at power-on (R13). -/
def SurfaceTable.reset : SurfaceTable := ⟨Vector.replicate 256 Entry.reset, .commandEngine, Vector.replicate 32 0⟩

/-- The Claim Engine after either reset (R51). -/
def ClaimEngine.reset : ClaimEngine :=
  ⟨Vector.replicate 6 (Vector.replicate 16 none), none, Vector.replicate 256 [], []⟩

/-- The Change Tracker after either reset (R81). -/
def ChangeTracker.reset : ChangeTracker := ⟨Vector.replicate 256 none⟩

/-- The Block Allocator after a reset with B blocks (R98, R99). -/
def Allocator.reset (b : Nat) : Allocator where
  total := b
  blocks := List.replicate b .free
  freeRuns := [⟨0, b⟩]
  scrubQueue := []
  free := b
  owned := 0
  scrubbing := 0
  retiringOwned := 0

/-- A lane after either reset (R120). -/
def Lane.reset : Lane := ⟨[], [], none, none, [], 0⟩

/-- A link's part of the Fault Unit after either reset (R138). -/
def LinkFaults.reset : LinkFaults := ⟨.hold, .flowing, .none, Handle.null⟩

/-- The Fault Unit after either reset (R138). -/
def FaultUnit.reset : FaultUnit := ⟨[], Vector.replicate 6 LinkFaults.reset⟩

/-- The Fill Engine after either reset (R147, R148). -/
def FillEngine.reset : FillEngine := ⟨.idle, none, 0, Handle.null, 0⟩

/-- A link after either reset, with the session number given (R168). -/
def Link.reset (session : BitVec 8) : Link where
  state := .disabled
  enable := false
  session := session
  identity := 0
  ctrlCredits := 0
  accCredits := 0
  requests := []
  progress := none
  arrivals := []
  causes := []
  detachTag := 0
  ctrlOut := []
  accOut := []
  events := 0
  lastCause := none
  wire := []

/-- The part after power-on with the strap of `Config.strapAtReset` (R185), and no command waiting. -/
def State.reset : State where
  pending := []
  cmd := CommandEngine.reset
  table := SurfaceTable.reset
  claims := ClaimEngine.reset
  tracker := ChangeTracker.reset
  alloc := Allocator.reset (blockCount Config.strapAtReset)
  lanes := Vector.replicate 6 Lane.reset
  faults := FaultUnit.reset
  fill := FillEngine.reset
  links := Vector.replicate 6 (Link.reset 0)
  fmi := ⟨[], 0, [], 0⟩
  draws := 0

end Sys2Proof.Machine
end

