-- ==== Sys2Proof/Machine/Layout.lean ====
section
/-! DEFINITION. Bit fields, code tables and the byte layout of the messages to a client
(11_layouts_and_device_characteristics.md). -/

namespace Sys2Proof.Machine

/-- Bits [lo + len − 1 : lo] of a register word. -/
def field (w : Word) (lo len : Nat) : Nat := (w.extractLsb' lo len).toNat

/-- Bit [b] of a register word. -/
def flag (w : Word) (b : Nat) : Bool := w.getLsbD b

/-- A value placed at bit `lo` of a register word. -/
def place (lo v : Nat) : Word := BitVec.ofNat 32 (v <<< lo)

/-- 1 for true, 0 for false. -/
def bit : Bool → Nat
  | true => 1
  | false => 0

/-- A handle as 16 bits: index [15:8], generation [7:0] (11.1). -/
def handleCode (h : Handle) : BitVec 16 := h.index ++ h.gen

/-- The handle in bits [15:0] of a word (11.1). -/
def handleOf (w : Word) : Handle := ⟨w.extractLsb' 8 8, w.extractLsb' 0 8⟩

/-- Codes of 11.1. -/
def Format.code : Format → Nat
  | .mono8 => 0 | .rgb16 => 1 | .rgb24 => 2 | .argb32 => 3

/-- Bytes per pixel (00_scope.md, Pixel formats). -/
def Format.bpp : Format → Nat
  | .mono8 => 1 | .rgb16 => 2 | .rgb24 => 3 | .argb32 => 4

/-- The format that a code names (11.1). -/
def formatOf : Nat → Option Format
  | 0 => some .mono8 | 1 => some .rgb16 | 2 => some .rgb24 | 3 => some .argb32 | _ => none

/-- Codes of 11.1. -/
def Right.code : Right → Nat
  | .none => 0 | .read => 1 | .write => 2

/-- The right that a code names; 3 names none (R186). -/
def rightOf : Nat → Option Right
  | 0 => some .none | 1 => some .read | 2 => some .write | _ => none

/-- The six rights of a rights field [11:0]: link *n* occupies bits [2n−1:2n−2] (11.1). -/
def rightsOf (w : Word) : Option (Vector Right 6) := do
  let r1 ← rightOf (field w 0 2)
  let r2 ← rightOf (field w 2 2)
  let r3 ← rightOf (field w 4 2)
  let r4 ← rightOf (field w 6 2)
  let r5 ← rightOf (field w 8 2)
  let r6 ← rightOf (field w 10 2)
  return #v[r1, r2, r3, r4, r5, r6]

/-- A rights field's value (11.1). -/
def rightsCode (r : Vector Right 6) : Nat :=
  r[0].code + 4 * r[1].code + 16 * r[2].code + 64 * r[3].code + 256 * r[4].code + 1024 * r[5].code

/-- Codes of 11.1. -/
def Mode.code : Mode → Nat
  | .read => 0 | .write => 1

/-- The mode that a one-byte choice field names (R186). -/
def modeOf : Nat → Option Mode
  | 0 => some .read | 1 => some .write | _ => none

/-- The choice that a one-byte choice field names, 0 no and 1 yes (R186). -/
def choiceOf : Nat → Option Bool
  | 0 => some false | 1 => some true | _ => none

/-- Entry state codes (11.1). -/
def EntryState.code : EntryState → Byte
  | .free => 0 | .live _ => 1 | .retiring _ => 2

/-- Revocation reason codes (11.1). -/
def Reason.code : Reason → Nat
  | .lease => 1 | .host => 2 | .rights => 3 | .retired => 4

/-- Change status codes (11.1). -/
def ChangeStatus.code : ChangeStatus → Nat
  | .current => 0 | .delta => 1 | .full => 2

/-- RESOLVE action codes (11.1). -/
def ResolveAction.code : ResolveAction → Nat
  | .retry => 0 | .skip => 1 | .flush => 2

/-- The RESOLVE action that a code names (11.1). -/
def actionOf : Nat → Option ResolveAction
  | 0 => some .retry | 1 => some .skip | 2 => some .flush | _ => none

/-- The link codes (11.1). -/
def LinkCode.code : LinkCode → Nat
  | .none => 0 | .staleHandle => 1 | .notLive => 2 | .noRight => 3 | .duplicate => 4 | .tableFull => 5
  | .leaseRange => 6 | .busy => 7 | .notHeld => 8 | .badMode => 9 | .noLease => 10 | .staleToken => 11
  | .noClaim => 12 | .bounds => 13 | .memory => 14 | .flushed => 15

/-- Outcome codes (11.3). -/
def Verdict.code : Verdict → Nat
  | .ok => 0 | .badParam => 1 | .tableFull => 2 | .spacePending => 3 | .noSpace => 4 | .fragmented => 5
  | .staleHandle => 6 | .notLive => 7 | .noFault => 8 | .refaulted _ => 9 | .notRunning => 10 | .busy _ => 11
  | .bounds => 12 | .done => 13 | .stopped => 14 | .cancelled => 15 | .retired => 16 | .revoked => 17
  | .timedOut => 18 | .unknownCommand => 19

/-- BUSY causes (11.3). -/
def BusyCause.code : BusyCause → Nat
  | .engine => 1 | .surface => 2

/-- The qualifier of an outcome; 0 for all but BUSY and REFAULTED (R177). -/
def Verdict.qualifier : Verdict → Nat
  | .busy c => c.code
  | .refaulted k => k.code
  | _ => 0

/-- Link state codes (11.6). -/
def LinkState.code : LinkState → Nat
  | .disabled => 0 | .offline => 1 | .online => 2 | .teardown => 3

/-- Last teardown cause codes (11.6). -/
def Cause.code : Cause → Nat
  | .detach => 1 | .lost => 2 | .protocol => 3 | .host => 4 | .disable => 5

/-- The event bit that a cause sets, at its position in the link event register (11.6, R163). -/
def Cause.eventBit : Cause → BitVec 6
  | .detach => 0x01 | .lost => 0x02 | .protocol => 0x04 | .host => 0x08 | .disable => 0x10

/-- The event bit NOT_ATTACHED (11.6). -/
def notAttachedBit : BitVec 6 := 0x20

/-- Stream state codes (11.6). -/
def Stream.code : Stream → Nat
  | .flowing => 0 | .held => 1 | .retrying => 2

/-- Fault policy bit (11.6). -/
def Policy.code : Policy → Nat
  | .hold => 0 | .answer => 1

/-- Fill state codes (11.6). -/
def FillState.code : FillState → Nat
  | .idle => 0 | .waiting => 1 | .writing => 2 | .draining => 3

/-- The manual's number of a link, 1 to 6. -/
def linkNumber (n : LinkId) : Nat := n.val + 1

/-- The link that a number from 1 to 6 names. -/
def linkOf (k : Nat) : Option LinkId :=
  if h : 1 ≤ k ∧ k ≤ 6 then some ⟨k - 1, by omega⟩ else none

/-- The manual's number of a client, 0 to 6. -/
def clientNumber : Client → Nat
  | .fill => 0
  | .link n => n.val + 1

/-- Least significant byte first (chapter 11, opening). -/
def le16 (v : Nat) : List Byte := [BitVec.ofNat 8 v, BitVec.ofNat 8 (v / 256)]

/-- Least significant byte first (chapter 11, opening). -/
def le32 (v : Word) : List Byte :=
  [v.extractLsb' 0 8, v.extractLsb' 8 8, v.extractLsb' 16 8, v.extractLsb' 24 8]

/-- The eight bytes of a band set: band *b* is bit (*b* mod 8) of byte floor(*b* / 8) (11.1). -/
def le64 (v : BandSet) : List Byte :=
  [v.extractLsb' 0 8, v.extractLsb' 8 8, v.extractLsb' 16 8, v.extractLsb' 24 8,
   v.extractLsb' 32 8, v.extractLsb' 40 8, v.extractLsb' 48 8, v.extractLsb' 56 8]

/-- One byte holding a number. -/
def byteOf (v : Nat) : Byte := BitVec.ofNat 8 v

/-- The two bytes of a handle in a message (11.1). -/
def handleBytes (h : Handle) : List Byte := [h.gen, h.index]

/-- The kind byte of a message to a client (11.5). -/
def Body.kind : Body → Byte
  | .attached .. => 0x81 | .detached => 0x82 | .granted .. => 0x83 | .queued .. => 0x84 | .refused .. => 0x85
  | .released .. => 0x86 | .renewed .. => 0x87 | .changeReport .. => 0x88 | .revoked .. => 0x89
  | .timedOut .. => 0x8A | .leaseWarning .. => 0x8B | .halted .. => 0x8C | .resumed .. => 0x8D
  | .readData .. => 0x90 | .writeDone _ => 0x91 | .accessError _ => 0x92

/-- The body bytes of a message to a client, each field in order (11.5). -/
def Body.bytes : Body → List Byte
  | .attached c a => [byteOf c, byteOf a]
  | .detached => []
  | .granted k h m seq t tok => byteOf k :: handleBytes h ++ byteOf m.code :: le32 seq ++ [byteOf (bit t), tok]
  | .queued k p => [byteOf k, byteOf p]
  | .refused r tok => [byteOf r.code, tok]
  | .released k h p seq t => byteOf k :: handleBytes h ++ byteOf (bit p) :: le32 seq ++ [byteOf (bit t)]
  | .renewed k h tok l => byteOf k :: handleBytes h ++ tok :: le16 l
  | .changeReport h st t seq b => handleBytes h ++ [byteOf st.code, byteOf (bit t)] ++ le32 seq ++ le64 b
  | .revoked k h m r seq t =>
      byteOf k :: handleBytes h ++ [byteOf m.code, byteOf r.code] ++ le32 seq ++ [byteOf (bit t)]
  | .timedOut k h m => byteOf k :: handleBytes h ++ [byteOf m.code]
  | .leaseWarning k h l tok => byteOf k :: handleBytes h ++ le16 l ++ [tok]
  | .halted h kd d a => handleBytes h ++ [byteOf kd.code, byteOf d.code, byteOf a]
  | .resumed a n => [byteOf a.code, byteOf n]
  | .readData n d => byteOf (n - 1) :: d
  | .writeDone w => le16 w
  | .accessError k => [byteOf k.code]

/-- A message as it goes to the physical layer: the six-byte header, then the body (R187). -/
def Message.bytes (m : Message) : List Byte :=
  [m.body.kind, m.tag, m.session, byteOf (bit m.notice)] ++ le16 m.body.bytes.length ++ m.body.bytes

/-- The kind byte of a control request (11.5). -/
def controlCode : ControlKind → Byte
  | .detach => 0x02 | .claim => 0x03 | .release => 0x04 | .renew => 0x05 | .changes => 0x06

end Sys2Proof.Machine
end

