-- ==== Sys2Proof/Machine/Operands.lean ====
section
/-! DEFINITION. The parameters of a host command as its record's staging words give them (11.2), their range checks
(R15, R18, R186), and the fields of a client's frame (11.5, R187). -/

namespace Sys2Proof.Machine

/-- The kind codes of the ten host commands (11.2). -/
inductive CmdKind where
  | create | modify | retire | inspect | changes | resolve | revoke | space | fill | stopFill
  deriving DecidableEq, Repr

/-- The command that a kind code names (11.2); every other code names none (R173). -/
def cmdKindOf (k : Byte) : Option CmdKind :=
  match k.toNat with
  | 1 => some .create | 2 => some .modify | 3 => some .retire | 4 => some .inspect | 5 => some .changes
  | 6 => some .resolve | 7 => some .revoke | 8 => some .space | 9 => some .fill | 10 => some .stopFill
  | _ => none

/-- The command a record names. -/
def CmdRecord.command (r : CmdRecord) : Option CmdKind := cmdKindOf r.kind

/-- A rectangle from two staging words, x in [15:0] and y in [31:16] (11.2). -/
def rectOf (a b : Word) : Rect := ⟨field a 0 16, field a 16 16, field b 0 16, field b 16 16⟩

/-- Check 5 of R15: 0 ≤ x0 ≤ x1 ≤ width − 1 and 0 ≤ y0 ≤ y1 ≤ height − 1. -/
def clipInRange (r : Rect) (width height : Nat) : Bool :=
  decide (r.x0 ≤ r.x1 ∧ r.x1 < width ∧ r.y0 ≤ r.y1 ∧ r.y1 < height)

/-- The parameters of CREATE (11.2); `format` and `rights` are absent when the staging holds a code that names none. -/
structure CreateParams where
  format  : Option Format
  width   : Nat
  height  : Nat
  pitch   : Nat
  clip    : Option Rect
  rights  : Option (Vector Right 6)
  ceiling : Nat
  scrub   : Bool
  deriving DecidableEq, Repr

/-- CREATE's staging (11.2). STAGE3 and STAGE4 are read only when clip present is 1. -/
def createParams (st : Vector Word 8) : CreateParams where
  format := formatOf (field st[0] 0 8)
  width := field st[1] 0 16
  height := field st[1] 16 16
  pitch := field st[2] 0 16
  clip := if flag st[0] 16 then some (rectOf st[3] st[4]) else none
  rights := rightsOf st[5]
  ceiling := field st[2] 16 16
  scrub := flag st[0] 17

/-- Ceiling of a quotient. -/
def ceilDiv (a b : Nat) : Nat := (a + b - 1) / b

/-- CREATE's parameter checks in the order of their numbers (R15): the surface that the parameters describe, without
its run list, or the number of the first parameter that is out of range. -/
def CreateParams.check (p : CreateParams) : Except Nat Desc :=
  match p.format with
  | none => .error 1
  | some f =>
    if ¬(1 ≤ p.width ∧ p.width ≤ 4096) then .error 2
    else if ¬(1 ≤ p.height ∧ p.height ≤ 4096) then .error 3
    else if ¬(64 ≤ p.pitch ∧ p.pitch ≤ 16384 ∧ p.pitch % 64 = 0 ∧ p.width * f.bpp ≤ p.pitch) then .error 4
    else if (p.clip.all fun r => clipInRange r p.width p.height) = false then .error 5
    else match p.rights with
      | none => .error 6
      | some rs => .ok {
          format := f, width := p.width, height := p.height, pitch := p.pitch,
          blocks := ceilDiv (p.pitch * p.height) 16384, runs := [], clip := p.clip, rights := rs,
          ceiling := p.ceiling, scrub := p.scrub }

/-- MODIFY's clip action (R186): SET with a rectangle, CLEAR, or a code that names neither. -/
inductive ClipAction where
  | clear
  | set (r : Rect)
  | undefined
  deriving DecidableEq, Repr

/-- MODIFY's clip action as staged (11.2). With CLEAR the rectangle words are not read. -/
def clipAction (st : Vector Word 8) : ClipAction :=
  match field st[0] 16 8 with
  | 0 => .clear
  | 1 => .set (rectOf st[3] st[4])
  | _ => .undefined

/-- MODIFY's check 3 and the record it leaves (R18, R19): the new record, or the number of the first parameter out of
range, the clip (5) before the rights (6) (DEDUCED, log 58). -/
def modifyDesc (st : Vector Word 8) (d : Desc) : Except Nat Desc :=
  let settings (clip : Option Rect) : Except Nat Desc :=
    match rightsOf st[5] with
    | none => .error 6
    | some rs => .ok { d with clip := clip, rights := rs, ceiling := field st[1] 0 16, scrub := flag st[0] 24 }
  match clipAction st with
  | .undefined => .error 5
  | .clear => settings none
  | .set r => if clipInRange r d.width d.height then settings (some r) else .error 5

/-- The handle in STAGE0 [15:0] (11.2). -/
def stagedHandle (st : Vector Word 8) : Handle := handleOf st[0]

/-- The parameters of FILL (11.2). -/
structure FillParams where
  handle    : Handle
  publish   : Bool
  x         : Nat
  y         : Nat
  w         : Nat
  h         : Nat
  value     : Word
  waitLimit : Nat
  deriving DecidableEq, Repr

/-- FILL's staging (11.2). -/
def fillParams (st : Vector Word 8) : FillParams where
  handle := stagedHandle st
  publish := flag st[0] 16
  x := field st[1] 0 16
  y := field st[1] 16 16
  w := field st[2] 0 16
  h := field st[2] 16 16
  value := st[3]
  waitLimit := field st[4] 0 16

/-- REVOKE's target (R178): 0 ALL, 1 to 6 that link, 7 and above none. -/
inductive Target where
  | all
  | link (n : LinkId)
  deriving DecidableEq, Repr

/-- REVOKE's target as staged (11.2, R178). -/
def revokeTarget (st : Vector Word 8) : Option Target :=
  match field st[0] 16 8 with
  | 0 => some .all
  | k => (linkOf k).map Target.link

/-- RESOLVE's link as staged (11.2), none when it is not 1 to 6. -/
def resolveLink (st : Vector Word 8) : Option LinkId := linkOf (field st[0] 0 8)

/-- RESOLVE's action as staged (11.2), none when the code names none. -/
def resolveAction (st : Vector Word 8) : Option ResolveAction := actionOf (field st[0] 8 8)

/-- A 16-bit value of a message, least significant byte first. -/
def nat16 (lo hi : Byte) : Nat := lo.toNat + 256 * hi.toNat

/-- A 32-bit value of a message, least significant byte first. -/
def word32 (b0 b1 b2 b3 : Byte) : Word := b3 ++ b2 ++ b1 ++ b0

/-- The frame that follows a client message's kind byte (R187): the tag (byte 1), the body length (bytes 2 and 3, least
significant byte first) and the body delivered. The framing layer delivers each message whole (chapter 9, opening), so
bytes that do not fill a header are no message (log 45). -/
def readHeader : List Byte → Option (Byte × Frame)
  | kind :: tag :: lo :: hi :: body => some (kind, ⟨tag, hi ++ lo, body⟩)
  | _ => none

/-- The command that a message of link `n` is, by its kind byte (11.5, R154). -/
def messageCommand (n : LinkId) (bytes : List Byte) : Option Instr :=
  (readHeader bytes).map fun m =>
    if m.1 = 0x01 then .attach n m.2
    else if m.1 = controlCode .detach then .controlRequest n .detach m.2
    else if m.1 = controlCode .claim then .controlRequest n .claim m.2
    else if m.1 = controlCode .release then .controlRequest n .release m.2
    else if m.1 = controlCode .renew then .controlRequest n .renew m.2
    else if m.1 = controlCode .changes then .controlRequest n .changes m.2
    else if m.1 = 0x10 then .read n m.2
    else if m.1 = 0x11 then .write n m.2
    else .undefinedKindFrame n m.1

/-- The body length field agrees with the body delivered (R187). -/
def lengthAgrees (f : Frame) : Bool := f.len.toNat == f.body.length

/-- The fields of a control request (11.5), none when the frame fails check 1 of R154 (R186, R187). The new length of
a RENEW is not read when new length present is 0. -/
def parseControl (k : ControlKind) (f : Frame) : Option CtrlReq :=
  if lengthAgrees f = false then none
  else match k, f.body with
    | .detach, [] => some (.detach f.tag)
    | .claim, [g, i, m, l0, l1, w0, w1] =>
      (modeOf m.toNat).map fun mode => .claim f.tag ⟨i, g⟩ mode (nat16 l0 l1) (nat16 w0 w1)
    | .release, [k, p] => (choiceOf p.toNat).map fun publish => .release f.tag k.toNat publish
    | .renew, [k, tok, p, l0, l1] =>
      (choiceOf p.toNat).map fun present =>
        .renew f.tag k.toNat tok (if present then some (nat16 l0 l1) else none)
    | .changes, [g, i, s0, s1, s2, s3] => some (.changes f.tag ⟨i, g⟩ (word32 s0 s1 s2 s3))
    | _, _ => none

/-- The client identity word of an ATTACH (R153), none when the frame's length is not that of its layout. -/
def parseAttach (f : Frame) : Option Word :=
  if lengthAgrees f = false then none
  else match f.body with
    | [b0, b1, b2, b3] => some (word32 b0 b1 b2 b3)
    | _ => none

/-- The burst of a READ or WRITE frame that comes in the session given (R100), none when the frame fails check 1 of
R154: a READ has a body of 7 bytes, a WRITE has 7 bytes and then pixel data (R187). -/
def parseAccess (session : BitVec 8) (a : AccessFrame) : Option Burst :=
  if lengthAgrees a.frame = false then none
  else match a.dir, a.frame.body with
    | .read, [g, i, x0, x1, y0, y1, c] =>
      some ⟨.read, a.frame.tag, ⟨i, g⟩, nat16 x0 x1, nat16 y0 y1, c.toNat + 1, [], session, false⟩
    | .write, g :: i :: x0 :: x1 :: y0 :: y1 :: c :: data =>
      some ⟨.write, a.frame.tag, ⟨i, g⟩, nat16 x0 x1, nat16 y0 y1, c.toNat + 1, data, session, false⟩
    | _, _ => none

end Sys2Proof.Machine
end

