-- ==== Sys2Proof/Machine/Memory.lean ====
section
/-! DEFINITION. The frame memory's contents and the transactions of the Frame Memory Interface (R114). -/

namespace Sys2Proof.Machine

/-- The contents of the frame memory: (address, byte) cells, addresses strictly rising. An unlisted byte has no value
that the model gives (R98). -/
abbrev Memory := List Host.Cell

/-- The canonical form: addresses strictly rising. No entry can equal what an unlisted address reads as, which is no
value. -/
def Memory.wf : Memory → Bool
  | [] => true
  | [_] => true
  | a :: b :: rest => decide (a.1 < b.1) && Memory.wf (b :: rest)

/-- The value of a byte, none when nothing has written it since power-on. -/
def Memory.byte : Memory → Nat → Option Byte
  | [], _ => none
  | c :: rest, a => if c.1 = a then some c.2 else Memory.byte rest a

/-- One byte stored, keeping the canonical form. -/
def Memory.put : Memory → Nat → Byte → Memory
  | [], a, v => [(a, v)]
  | c :: rest, a, v =>
    if a < c.1 then (a, v) :: c :: rest
    else if a = c.1 then (a, v) :: rest
    else c :: Memory.put rest a v

/-- Cells stored one after another. -/
def Memory.store (m : Memory) (cells : List Host.Cell) : Memory :=
  cells.foldl (fun m c => m.put c.1 c.2) m

/-- The cells of consecutive bytes from an address. -/
def cellsFrom (a : Nat) : List Byte → List Host.Cell
  | [] => []
  | v :: rest => (a, v) :: cellsFrom (a + 1) rest

/-- The zero bytes of the 16,384-byte block that starts at an address (R93). -/
def zeroCells (a : Nat) : List Host.Cell := cellsFrom a (List.replicate 16384 0)

/-- The scrubber's write: all 16,384 bytes from an address become zero (R93). -/
def Memory.zeroBlock (m : Memory) (a : Nat) : Memory :=
  m.filter (fun c => c.1 < a) ++ zeroCells a ++ m.filter (fun c => a + 16384 ≤ c.1)

/-- The cells that a transaction in flight has still to store. -/
def Txn.cells (t : Txn) : List Host.Cell :=
  match t.op with
  | .read _ => []
  | .write cs => cs
  | .zero => zeroCells t.addr

/-- The byte that a transaction in flight has still to store at an address, if it has one. -/
def Txn.byteAt (t : Txn) (a : Nat) : Option Byte :=
  match t.op with
  | .read _ => none
  | .write cs => Memory.byte cs a
  | .zero => if t.addr ≤ a ∧ a < t.addr + 16384 then some 0 else none

/-- What a byte reads as once the writes in flight, in issue order, have been stored (R114): a read issued after a
write to the same byte returns the written byte, and of two writes the later-issued one stays. -/
def MemoryInterface.view (f : MemoryInterface) (a : Nat) : Option Byte :=
  match f.txns.reverse.findSome? fun t => t.byteAt a with
  | some v => some v
  | none => Memory.byte f.mem a

/-- The byte that a read returns; a byte that nothing has written has the free value of its power cycle (R98; log 6). -/
def MemoryInterface.readByte (f : MemoryInterface) (a : Nat) : Byte :=
  (f.view a).getD (Config.undefinedByte f.seed a)

/-- The bytes that a read issued now returns (log 20). -/
def MemoryInterface.readBytes (f : MemoryInterface) (a len : Nat) : List Byte :=
  (List.range len).map fun k => f.readByte (a + k)

/-- A transaction is issued: it takes the next number and joins the transactions in flight at the end (R113, R114). -/
def MemoryInterface.issue (f : MemoryInterface) (o : Owner) (a len : Nat) (op : TxnOp) : MemoryInterface :=
  { f with txns := f.txns ++ [⟨f.nextId, o, a, len, op⟩], nextId := f.nextId + 1 }

/-- A write's stored bytes cover those of the writes issued before it, which are not stored after them (R114). -/
def TxnOp.without (op : TxnOp) (cells : List Host.Cell) : TxnOp :=
  match op with
  | .write cs => .write (cs.filter fun c => !(cells.any fun d => d.1 == c.1))
  | o => o

/-- The interface ends the transaction with the number given. A write's bytes are in memory from here on; bytes that
an earlier-issued write still in flight has for the same addresses take no effect any more (R114). -/
def MemoryInterface.finish (f : MemoryInterface) (id : Nat) : MemoryInterface :=
  match f.txns.find? (fun t => t.id == id) with
  | none => f
  | some t =>
    match t.op with
    | .read _ => { f with txns := f.txns.filter fun u => u.id != id }
    | .zero => { f with txns := f.txns.filter (fun u => u.id != id), mem := Memory.zeroBlock f.mem t.addr }
    | .write cs =>
      { f with
        txns := (f.txns.filter fun u => u.id != id).map fun u =>
          if u.id < id then { u with op := u.op.without cs } else u
        mem := Memory.store f.mem cs }

/-- A soft reset abandons the transactions in flight (R114, R120). Each byte of an abandoned write may or may not
have reached memory, by the free choice that the reset's draw names (log 7). The numbers go on. -/
def MemoryInterface.abandon (f : MemoryInterface) (draw : Nat) : MemoryInterface :=
  { f with
    txns := []
    mem := f.txns.foldl (fun m t =>
      Memory.store m (t.cells.filter fun c => Config.abandonedByteLands draw t.id c.1)) f.mem }

/-- The transactions in flight of one issuer, oldest first. -/
def MemoryInterface.ofLane (f : MemoryInterface) (n : LinkId) : List Txn :=
  f.txns.filter fun t => match t.owner with
    | .lane m _ => m == n
    | _ => false

/-- The fill engine's transactions in flight, oldest first. -/
def MemoryInterface.ofFill (f : MemoryInterface) : List Txn :=
  f.txns.filter fun t => match t.owner with
    | .fill _ => true
    | _ => false

/-- The scrubber's transaction in flight (R93). -/
def MemoryInterface.ofScrub (f : MemoryInterface) : Option Txn :=
  f.txns.find? fun t => t.owner == .scrub

end Sys2Proof.Machine
end

