-- ==== Sys2Proof/Machine/Blocks.lean ====
section
/-! DEFINITION. The Block Allocator's own operations (05_frame_memory_blocks.md). -/

namespace Sys2Proof.Machine

/-- The block just after a run. -/
def Run.stop (r : Run) : Nat := r.first + r.length

/-- Whether a block lies in a run. -/
def Run.has (r : Run) (k : Nat) : Bool := decide (r.first ≤ k ∧ k < r.stop)

/-- A run left in the free-run list after `need` blocks have been taken from its start; it leaves the list when
nothing is left of it (R89). -/
def carve (r : Run) (need : Nat) (rest : List Run) : List Run :=
  if r.length = need then rest else ⟨r.first + need, r.length - need⟩ :: rest

/-- Step 1 of R89: the first `need` blocks of the run with the lowest first block among those long enough, and the
free-run list that is left. -/
def firstFit (need : Nat) : List Run → Option (Run × List Run)
  | [] => none
  | r :: rest =>
    if need ≤ r.length then some (⟨r.first, need⟩, carve r need rest)
    else (firstFit need rest).map fun p => (p.1, r :: p.2)

/-- Step 2 of R89: whole runs in ascending order until the next run can give what is still needed. -/
def takeRuns (need : Nat) : List Run → Option (List Run × List Run)
  | [] => none
  | r :: rest =>
    if need ≤ r.length then some ([⟨r.first, need⟩], carve r need rest)
    else (takeRuns (need - r.length) rest).map fun p => (r :: p.1, p.2)

/-- The runs that R89 chooses and the free-run list left; none where they would number more than 8. -/
def chooseRuns (need : Nat) (free : List Run) : Option (List Run × List Run) :=
  match firstFit need free with
  | some (r, rest) => some ([r], rest)
  | none =>
    match takeRuns need free with
    | some (taken, rest) => if taken.length ≤ 8 then some (taken, rest) else none
    | none => none

/-- The blocks of some runs put into a state (R83). -/
def setBlocks (runs : List Run) (st : BlockState) (blocks : List BlockState) : List BlockState :=
  blocks.zipIdx.map fun p => if runs.any (fun r => r.has p.2) then st else p.1

/-- The space checks of R88 and the allocation of R89, for N blocks owned by entry `i`. -/
def Allocator.allocate (a : Allocator) (n : Nat) (i : BitVec 8) : Except Verdict (List Run × Allocator) :=
  if a.free < n then
    if n ≤ a.free + a.scrubbing + a.retiringOwned then .error .spacePending else .error .noSpace
  else match chooseRuns n a.freeRuns with
    | none => .error .fragmented
    | some (runs, rest) => .ok (runs,
        { a with
          blocks := setBlocks runs (.owned i) a.blocks
          freeRuns := rest
          free := a.free - n
          owned := a.owned + n })

/-- A run of FREE blocks joins the free-run list and is merged with the runs it touches (R86). -/
def joinFree (r : Run) : List Run → List Run
  | [] => [r]
  | a :: rest =>
    if a.stop = r.first then
      match rest with
      | [] => [⟨a.first, a.length + r.length⟩]
      | b :: rest' =>
        if r.stop = b.first then ⟨a.first, a.length + r.length + b.length⟩ :: rest'
        else ⟨a.first, a.length + r.length⟩ :: b :: rest'
    else if r.stop = a.first then ⟨r.first, r.length + a.length⟩ :: rest
    else if r.first < a.first then r :: a :: rest
    else a :: joinFree r rest

/-- Return at drain end without scrub (R90): each run is merged in turn, in run-list order. -/
def Allocator.giveBack (a : Allocator) (runs : List Run) (n : Nat) : Allocator :=
  { a with
    blocks := setBlocks runs .free a.blocks
    freeRuns := runs.foldl (fun l r => joinFree r l) a.freeRuns
    owned := a.owned - n
    free := a.free + n
    retiringOwned := a.retiringOwned - n }

/-- Return at drain end with scrub (R91): the runs join the tail of the scrub queue unmerged. -/
def Allocator.giveToScrub (a : Allocator) (runs : List Run) (n : Nat) : Allocator :=
  { a with
    blocks := setBlocks runs .scrubbing a.blocks
    scrubQueue := a.scrubQueue ++ runs
    owned := a.owned - n
    scrubbing := a.scrubbing + n
    retiringOwned := a.retiringOwned - n }

/-- The scrub queue after the first block of its head run has been written (R94, step 2). -/
def shrinkHead : List Run → List Run
  | [] => []
  | r :: rest => if r.length ≤ 1 then rest else ⟨r.first + 1, r.length - 1⟩ :: rest

/-- Steps 1 and 2 of R94 for block `k`. -/
def Allocator.scrubbed (a : Allocator) (k : Nat) : Allocator :=
  { a with
    blocks := setBlocks [⟨k, 1⟩] .free a.blocks
    freeRuns := joinFree ⟨k, 1⟩ a.freeRuns
    scrubbing := a.scrubbing - 1
    free := a.free + 1
    scrubQueue := shrinkHead a.scrubQueue }

/-- The length of the longest free run, 0 when the list is empty (R96). -/
def Allocator.largestFree (a : Allocator) : Nat :=
  a.freeRuns.foldl (fun m r => max m r.length) 0

end Sys2Proof.Machine
end

