-- ==== Sys2Proof/Machine/Tracking.lean ====
section
/-! DEFINITION. The Change Tracker's own operations (04_change_tracking.md). -/

namespace Sys2Proof.Machine

/-- The band height, ceil(height / 64) (R68). -/
def bandHeight (height : Nat) : Nat := ceilDiv height 64

/-- The band of row `y` (R68). -/
def bandOf (height y : Nat) : Nat := y / bandHeight height

/-- The set of one band. -/
def oneBand (b : Nat) : BandSet := BitVec.twoPow 64 b

/-- Every non-empty band: bands 0 to ceil(height / bh) − 1 (R68). -/
def allBands (height : Nat) : BandSet :=
  (List.range (ceilDiv height (bandHeight height))).foldl (fun m b => m ||| oneBand b) 0

/-- A new change part (R69; step 5 of R17). -/
def ChangePart.fresh (h : Handle) : ChangePart := ⟨h, 0, 0, 0, []⟩

/-- The torn flag is set whenever the torn set is non-empty and clear whenever it is empty (R69). -/
def ChangePart.tornFlag (p : ChangePart) : Bool := p.torn != 0

/-- A band is added to the pending set (R70). -/
def ChangePart.mark (p : ChangePart) (b : Nat) : ChangePart := { p with pending := p.pending ||| oneBand b }

/-- Torn marking (R72). -/
def ChangePart.tear (p : ChangePart) : ChangePart :=
  if p.pending = 0 then p else { p with torn := p.torn ||| p.pending, pending := 0 }

/-- Publish (R73). -/
def ChangePart.publish (p : ChangePart) : ChangePart :=
  let ring := if 4 ≤ p.ring.length then p.ring.tail else p.ring
  { p with
    sequence := p.sequence + 1
    ring := ring ++ [(p.sequence + 1, p.pending ||| p.torn)]
    pending := 0
    torn := 0 }

/-- The union of the band sets of the newest `d` ring entries (R77). -/
def newestBands (ring : List (Word × BandSet)) (d : Nat) : BandSet :=
  (ring.reverse.take d).foldl (fun m e => m ||| e.2) 0

/-- The answer to a CHANGES with since sequence `since` on a surface of the height given (R77). -/
def ChangePart.answer (p : ChangePart) (height : Nat) (since : Word) : ChangeStatus × BandSet :=
  let d := (p.sequence - since).toNat
  if d = 0 then (.current, 0)
  else if d ≤ p.ring.length then (.delta, newestBands p.ring d)
  else (.full, allBands height)

end Sys2Proof.Machine
end

