-- ==== Sys2Proof/Machine/Geometry.lean ====
section
/-! DEFINITION. Trimming, translation and splitting of a span of pixels (R3, R110 to R112). -/

namespace Sys2Proof.Machine

/-- The frame-memory block of logical block `k`, found by walking the run list (R3). -/
def blockOf : List Run → Nat → Option Nat
  | [], _ => none
  | r :: rest, k => if k < r.length then some (r.first + k) else blockOf rest (k - r.length)

/-- The written span of a row's pixels x to x + n − 1 under a clip: its first pixel and its length (R110, R111). -/
def trim (clip : Option Rect) (x y n : Nat) : Nat × Nat :=
  match clip with
  | none => (x, n)
  | some c =>
    let xs := max x c.x0
    if y < c.y0 ∨ c.y1 < y then (xs, 0) else (xs, min (x + n) (c.x1 + 1) - xs)

/-- The transactions of a span of `len` bytes from byte `offset` of a surface: their frame-memory addresses and their
lengths (R111, R112). -/
def spanParts (runs : List Run) (offset len : Nat) : List (Nat × Nat) :=
  let k := offset / 16384
  let o := offset % 16384
  let part (k o len : Nat) : List (Nat × Nat) :=
    match blockOf runs k with
    | none => []
    | some b => [(b * 16384 + o, len)]
  if len = 0 then []
  else if o + len ≤ 16384 then part k o len
  else part k o (16384 - o) ++ part (k + 1) 0 (len - (16384 - o))

/-- The transactions of a span of `w` pixels from pixel `xs` of row `y` against a copy of the record (R111). -/
def Copy.parts (c : Copy) (y xs w : Nat) : List (Nat × Nat) :=
  spanParts c.runs (y * c.pitch + xs * c.format.bpp) (w * c.format.bpp)

/-- A copy of the record of the surface that a handle names (R103). -/
def copyOf (h : Handle) (stamp : BitVec 16) (d : Desc) : Copy :=
  ⟨h, stamp, d.format, d.width, d.height, d.pitch, d.clip, d.runs⟩

end Sys2Proof.Machine
end

