-- ==== Sys2Proof/Machine/Ops.lean ====
section
/-! DEFINITION. The named operations over the state that the meanings share: reading and updating one record, handles,
the table arbiter, completions, messages to a link and the start of a teardown. -/

namespace Sys2Proof.Machine

/-! ## Reading and updating one record -/

/-- The entry with an index. -/
def State.entry (s : State) (i : BitVec 8) : Entry := s.table.entries[i.toNat]'i.isLt

/-- One entry changed. -/
def State.modEntry (i : BitVec 8) (f : Entry → Entry) (s : State) : State :=
  { s with table := { s.table with entries := s.table.entries.set i.toNat (f (s.entry i)) i.isLt } }

/-- A surface's in-flight count rises by `t` (R7). -/
def State.raise (i : BitVec 8) (t : Nat) (s : State) : State :=
  s.modEntry i fun e => { e with inFlight := e.inFlight + t }

/-- A surface's in-flight count falls by one (R7). -/
def State.lower (i : BitVec 8) (s : State) : State :=
  s.modEntry i fun e => { e with inFlight := e.inFlight - 1 }

/-- A link's controller. -/
def State.link (s : State) (n : LinkId) : Link := s.links[n.val]

/-- One link controller changed. -/
def State.modLink (n : LinkId) (f : Link → Link) (s : State) : State :=
  { s with links := s.links.set n.val (f (s.link n)) }

/-- A link's lane. -/
def State.lane (s : State) (n : LinkId) : Lane := s.lanes[n.val]

/-- One lane changed. -/
def State.modLane (n : LinkId) (f : Lane → Lane) (s : State) : State :=
  { s with lanes := s.lanes.set n.val (f (s.lane n)) }

/-- A link's part of the Fault Unit. -/
def State.linkFaults (s : State) (n : LinkId) : LinkFaults := s.faults.links[n.val]

/-- One link's part of the Fault Unit changed. -/
def State.modFaults (n : LinkId) (f : LinkFaults → LinkFaults) (s : State) : State :=
  { s with faults := { s.faults with links := s.faults.links.set n.val (f (s.linkFaults n)) } }

/-- The wait queue of a surface, head first (R30). -/
def State.queue (s : State) (i : BitVec 8) : List Client := s.claims.queues[i.toNat]'i.isLt

/-- A surface's wait queue changed. -/
def State.modQueue (i : BitVec 8) (f : List Client → List Client) (s : State) : State :=
  { s with claims := { s.claims with queues := s.claims.queues.set i.toNat (f (s.queue i)) i.isLt } }

/-- The change part kept for an entry (R69). -/
def State.part (s : State) (i : BitVec 8) : Option ChangePart := s.tracker.parts[i.toNat]'i.isLt

/-- An entry's change part changed. -/
def State.modPart (i : BitVec 8) (f : Option ChangePart → Option ChangePart) (s : State) : State :=
  { s with tracker := { s.tracker with parts := s.tracker.parts.set i.toNat (f (s.part i)) i.isLt } }

/-- The Frame Memory Interface replaced. -/
def State.setFmi (f : MemoryInterface) (s : State) : State := { s with fmi := f }

/-- The counter of free values replaced (log 8). -/
def State.setDraws (d : Nat) (s : State) : State := { s with draws := d }

/-- The Block Allocator replaced. -/
def State.setAlloc (a : Allocator) (s : State) : State := { s with alloc := a }

/-- The Claim Engine's line replaced (R32). -/
def State.setLine (l : List LineEntry) (s : State) : State := { s with claims := { s.claims with line := l } }

/-- The fault queue replaced (R127). -/
def State.setRecords (q : List FaultRecord) (s : State) : State := { s with faults := { s.faults with queue := q } }

/-- The claim in a slot of a client's table; the fill engine's table has slot 0 only (R27). -/
def State.claimAt (s : State) (c : Client) (k : Fin 16) : Option Claim :=
  match c with
  | .fill => if k = 0 then s.claims.filler else none
  | .link n => s.claims.tables[n.val][k.val]

/-- A slot of a client's table written. -/
def State.setClaim (c : Client) (k : Fin 16) (v : Option Claim) (s : State) : State :=
  match c with
  | .fill => if k = 0 then { s with claims := { s.claims with filler := v } } else s
  | .link n => { s with claims := { s.claims with
      tables := s.claims.tables.set n.val (s.claims.tables[n.val].set k.val v) } }

/-- The slot numbers in ascending order. -/
def allSlots : List (Fin 16) := [0, 1, 2, 3, 4, 5, 6, 7, 8, 9, 10, 11, 12, 13, 14, 15]

/-- The links in ascending order. -/
def allLinks : List LinkId := [0, 1, 2, 3, 4, 5]

/-- The clients in ascending order. -/
def allClients : List Client := .fill :: allLinks.map Client.link

/-- A client's claim on the entry with an index and its slot: at most one (R27, law 5). -/
def State.findClaim (s : State) (c : Client) (i : BitVec 8) : Option (Fin 16 × Claim) :=
  allSlots.findSome? fun k =>
    match s.claimAt c k with
    | some cl => if cl.handle.index = i then some (k, cl) else none
    | none => none

/-- The lowest-numbered empty slot of a client's table (R27). -/
def State.emptySlot (s : State) (c : Client) : Option (Fin 16) :=
  match c with
  | .fill => if s.claims.filler.isNone then some 0 else none
  | .link _ => allSlots.find? fun k => (s.claimAt c k).isNone

/-- A claim that is HELD or RELEASING is a holder (R30). -/
def Claim.isHolder (cl : Claim) : Bool := cl.state != .waiting

/-- The holders of a surface, by ascending client: its writer and its reader set (R30). -/
def State.holders (s : State) (i : BitVec 8) : List (Client × Claim) :=
  allClients.filterMap fun c =>
    match s.findClaim c i with
    | some (_, cl) => if cl.isHolder then some (c, cl) else none
    | none => none

/-- Whether any client has a claim on a surface, in any state (R23). -/
def State.hasClaim (s : State) (i : BitVec 8) : Bool := allClients.any fun c => (s.findClaim c i).isSome

/-- Compatibility of a mode with a surface's holders (R31). -/
def State.compatible (s : State) (i : BitVec 8) (m : Mode) : Bool :=
  match m with
  | .read => (s.holders i).all fun p => p.2.mode == .read
  | .write => (s.holders i).isEmpty

/-! ## Handles (R9) -/

/-- The descriptor fields of a LIVE or RETIRING entry. -/
def EntryState.desc : EntryState → Option Desc
  | .free => none
  | .live d => some d
  | .retiring d => some d

/-- The three classes of a handle, with the record that the entry holds (R9). -/
inductive HandleClass where
  | stale
  | current (d : Desc)
  | retiring (d : Desc)
  deriving DecidableEq, Repr

/-- The class of a handle against the entry it names (R9). -/
def State.classify (s : State) (h : Handle) : HandleClass :=
  if h.index = 0 then .stale
  else
    let e := s.entry h.index
    match e.state with
    | .free => .stale
    | .live d => if e.gen = h.gen then .current d else .stale
    | .retiring d => if e.gen = h.gen then .retiring d else .stale

/-- The entry indexes that surfaces use, ascending (R1). -/
def surfaceIndexes : List (BitVec 8) := (List.range 255).map fun k => BitVec.ofNat 8 (k + 1)

/-- The lowest-numbered FREE entry (R17). -/
def State.freeEntry (s : State) : Option (BitVec 8) :=
  surfaceIndexes.find? fun i => (s.entry i).state == .free

/-- A generation advanced; 0 is passed over (R8). -/
def nextGen (g : BitVec 8) : BitVec 8 := if g = 255 then 1 else g + 1

/-- The sequence and the torn flag of a surface as messages carry them (R75). A surface with a claim has a change part
(R69); where there is none both read 0. -/
def State.seqTorn (s : State) (i : BitVec 8) : Word × Bool :=
  match s.part i with
  | some p => (p.sequence, p.tornFlag)
  | none => (0, false)

/-- The change part that a handle names: index and generation both match (R69). -/
def State.partOf (s : State) (h : Handle) : Option ChangePart :=
  match s.part h.index with
  | some p => if p.handle = h then some p else none
  | none => none

/-- The height of the surface in an entry, with which its non-empty bands are computed (R68). -/
def State.height (s : State) (i : BitVec 8) : Nat :=
  match (s.entry i).state.desc with
  | some d => d.height
  | none => 0

/-! ## The table arbiter (R12) -/

/-- The arbiter's ring. -/
def ring : List Requester :=
  [.commandEngine, .claimEngine, .fillEngine, .reload 0, .reload 1, .reload 2, .reload 3, .reload 4, .reload 5]

/-- The requester after one in the ring. -/
def Requester.next : Requester → Requester
  | .commandEngine => .claimEngine
  | .claimEngine => .fillEngine
  | .fillEngine => .reload 0
  | .reload n => if h : n.val < 5 then .reload ⟨n.val + 1, by omega⟩ else .commandEngine

/-- What CREATE does if it is decided now (R15 to R17, R88, R89): the outcome and result words of a refusal, or the
entry chosen, the surface with its run list, and the Block Allocator after the allocation. -/
def State.createPlan (s : State) (r : CmdRecord) : Except (Verdict × List Word) (BitVec 8 × Desc × Allocator) :=
  match (createParams r.stage).check with
  | .error k => .error (.badParam, [BitVec.ofNat 32 k])
  | .ok d =>
    match s.freeEntry with
    | none => .error (.tableFull, [])
    | some i =>
      match s.alloc.allocate d.blocks i with
      | .error v => .error (v, [])
      | .ok (runs, a) => .ok (i, { d with runs := runs }, a)

/-- Whether the executing command waits for a service of the arbiter (R173). A command that is refused without a read
(R9: index 0; R25 and R178: a parameter out of range; R16: a refused CREATE) asks for none (log 14). -/
def State.commandWantsPort (s : State) : Bool :=
  match s.cmd.executing with
  | some ⟨r, .fresh⟩ =>
    match r.command with
    | some .create => match s.createPlan r with
      | .ok _ => true
      | .error _ => false
    | some .modify => (stagedHandle r.stage).index != 0
    | some .retire => (stagedHandle r.stage).index != 0
    | some .inspect => field r.stage[0] 0 8 != 0 && decide (field r.stage[0] 8 8 ≤ 2)
    | some .revoke => (revokeTarget r.stage).isSome && (stagedHandle r.stage).index != 0
    | _ => false
  | _ => false

/-- Whether the Fill Engine waits for a service: the read of the executing FILL (R140), or the one that its next burst
asks for (R142, step 1); the latter is dropped when the fill ends before its service (DESIGN CHOICE, log 46). -/
def State.fillWantsPort (s : State) : Bool :=
  (match s.cmd.executing with
   | some ⟨r, .fresh⟩ =>
     r.command == some .fill && s.fill.state == .idle && (stagedHandle r.stage).index != 0
   | _ => false)
  || (match s.fill.job with
      | some j => j.reading
      | none => false)

/-- The requests that are pending at the arbiter (R12). -/
def State.wantsPort (s : State) : Requester → Bool
  | .commandEngine => !s.cmd.drainEnds.isEmpty || s.commandWantsPort
  | .claimEngine => !s.claims.line.isEmpty
  | .fillEngine => s.fillWantsPort
  | .reload n => !(s.lane n).reloads.isEmpty

/-- The ring from the pointer onward. -/
def ringFrom (p : Requester) : List Requester :=
  (ring.dropWhile fun r => r != p) ++ (ring.takeWhile fun r => r != p)

/-- The requester that the arbiter serves next: the first with a pending request from the pointer onward (R12). -/
def State.portTurn (s : State) : Option Requester := (ringFrom s.table.pointer).find? s.wantsPort

/-- A service of a requester moves the pointer to the one after it (R12). -/
def State.served (r : Requester) (s : State) : State :=
  { s with table := { s.table with pointer := r.next } }

/-- The stamp guard: every descriptor slot that holds the entry with the stamp that the entry now has is emptied, and
the Fill Engine's copy is marked out of date (R106, R142). -/
def State.stampGuard (i : BitVec 8) (s : State) : State :=
  let stamp := (s.entry i).stamp
  let guardSlot (c : Option Copy) : Option Copy :=
    match c with
    | some c => if c.handle.index = i ∧ c.stamp = stamp then none else some c
    | none => none
  { s with
    lanes := s.lanes.map fun l =>
      { l with readSlot := guardSlot l.readSlot, writeSlot := guardSlot l.writeSlot }
    fill := { s.fill with job := s.fill.job.map fun j =>
      if j.copy.handle.index = i ∧ j.copy.stamp = stamp then { j with outdated := true } else j } }

/-- One update of an entry by the arbiter with its stamp advanced (R1, R11), and the stamp guard (R106). -/
def State.updateEntry (i : BitVec 8) (f : Entry → Entry) (s : State) : State :=
  (s.modEntry i fun e => { f e with stamp := e.stamp + 1 }).stampGuard i

/-! ## Completions (R172 to R175) -/

/-- The executing command's completion is posted (R175): an immediate command executes until then (R173). -/
def State.post (v : Verdict) (ws : List Word) (s : State) : State :=
  match s.cmd.executing with
  | none => s
  | some e =>
    { s with cmd := { s.cmd with
        executing := none
        reserved := s.cmd.reserved - 1
        completions := s.cmd.completions ++ [⟨e.cmd.tag, e.cmd.kind, v, ws⟩] } }

/-- The executing command becomes background and keeps its reservation (R174). -/
def State.toBackground (h : Handle) (s : State) : State :=
  match s.cmd.executing with
  | none => s
  | some e =>
    { s with cmd := { s.cmd with
        executing := none
        background := s.cmd.background ++ [⟨e.cmd.tag, e.cmd.kind, h⟩] } }

/-- A background command's completion is posted and it leaves the list (R174, R175). -/
def State.postBackground (p : Background → Bool) (v : Verdict) (ws : List Word) (s : State) : State :=
  match s.cmd.background.find? p with
  | none => s
  | some b =>
    { s with cmd := { s.cmd with
        background := s.cmd.background.eraseP p
        reserved := s.cmd.reserved - 1
        completions := s.cmd.completions ++ [⟨b.tag, b.kind, v, ws⟩] } }

/-- The head of the command queue is taken when no command executes and a completion slot is left (R172). -/
def State.takeNext (s : State) : State :=
  match s.cmd.executing, s.cmd.queue with
  | none, r :: rest =>
    if s.cmd.completions.length + s.cmd.reserved < 32 then
      { s with cmd := { s.cmd with
          executing := some ⟨r, .fresh⟩, queue := rest, reserved := s.cmd.reserved + 1 } }
    else s
  | _, _ => s

/-- How far the executing command has come is recorded. -/
def State.setStage (st : Stage) (s : State) : State :=
  { s with cmd := { s.cmd with executing := s.cmd.executing.map fun e => { e with stage := st } } }

/-! ## The start of a teardown (R161, R162) and messages to a link (R158, R159) -/

/-- A request of link `n` in the Claim Engine's line is withdrawn; it keeps its place (R162, step 3). -/
def LineEntry.withdraw (n : LinkId) : LineEntry → LineEntry
  | .link m session req w => .link m session req (w || m == n)
  | .fill => .fill

/-- A RESOLVE RETRY whose burst a teardown removes completes NO_FAULT (R136), at the teardown's start and with no result
words (DEDUCED, log 17). -/
def State.abandonRetry (n : LinkId) (s : State) : State :=
  match s.cmd.executing with
  | some ⟨_, .retrying m _⟩ => if m = n then s.post .noFault [] else s
  | _ => s

/-- The link controller's part of the start of a teardown (R161, R162). -/
def Link.startTeardown (c : Cause) (l : Link) : Link :=
  { l with
    state := .teardown
    enable := l.enable && c != .disable
    causes := [c]
    ctrlCredits := 0
    accCredits := 0
    requests := []
    progress := none
    arrivals := []
    ctrlOut := []
    accOut := [] }

/-- The lane's part: its access queue is emptied without a response (R119), and what its reload unit still reads is
discarded (R157; log 16). -/
def Lane.startTeardown (l : Lane) : Lane :=
  { l with accessQ := [], reloads := l.reloads.map fun _ => .discarded }

/-- The requests of link `n` in the Claim Engine's line are withdrawn (R162, step 3). -/
def State.withdrawLine (n : LinkId) (s : State) : State :=
  s.setLine (s.claims.line.map (LineEntry.withdraw n))

/-- Teardown of an ONLINE link begins with its first cause (R161, R162). -/
def State.beginTeardown (n : LinkId) (c : Cause) (s : State) : State :=
  (((s.modLink n (Link.startTeardown c)).modLane n Lane.startTeardown).withdrawLine n).abandonRetry n

/-- A teardown cause is taken (R161): it begins a teardown of an ONLINE link, it is recorded during TEARDOWN, and it
is ignored in the other states. -/
def State.takeCause (n : LinkId) (c : Cause) (s : State) : State :=
  match (s.link n).state with
  | .online => s.beginTeardown n c
  | .teardown => s.modLink n fun l => { l with
      causes := if l.causes.contains c then l.causes else l.causes ++ [c]
      enable := l.enable && c != .disable }
  | _ => s

/-- The most messages that a control outbound queue holds (R158). -/
def controlQueueLimit : Nat := 72

/-- A control-channel message is handed to the link controller (R158, R159). A full queue is a loss of the link. -/
def State.handOver (n : LinkId) (m : Message) (s : State) : State :=
  let l := s.link n
  if l.state = .online ∧ l.session = m.session then
    if l.ctrlOut.length < controlQueueLimit then s.modLink n fun l => { l with ctrlOut := l.ctrlOut ++ [m] }
    else s.beginTeardown n .lost
  else s

/-- An access response is handed to the link controller (R116, R158, R159). -/
def State.handOverAccess (n : LinkId) (m : Message) (s : State) : State :=
  let l := s.link n
  if l.state = .online ∧ l.session = m.session then
    s.modLink n fun l => { l with accOut := l.accOut ++ [m] }
  else s

/-! ## Drain ends of retired surfaces (R23, R174) -/

/-- The drain condition of a RETIRING entry is examined; when it holds, its drain-end update is requested (R23). -/
def State.examineDrain (i : BitVec 8) (s : State) : State :=
  match (s.entry i).state with
  | .retiring _ =>
    if s.hasClaim i = false ∧ (s.entry i).inFlight = 0 ∧ s.cmd.drainEnds.contains i = false then
      { s with cmd := { s.cmd with drainEnds := s.cmd.drainEnds ++ [i] } }
    else s
  | _ => s

/-! ## The scrubber (R93) -/

/-- The scrubber issues its write when the scrub queue is not empty and no scrub write is in flight (R93). -/
def State.startScrub (s : State) : State :=
  match s.alloc.scrubQueue, s.fmi.ofScrub with
  | r :: _, none => s.setFmi (s.fmi.issue .scrub (r.first * 16384) 16384 .zero)
  | _, _ => s

end Sys2Proof.Machine
end

