-- ==== Sys2Proof/Machine/Grants.lean ====
section
/-! DEFINITION. The Claim Engine's shared operations: grants and queue service (2.4), drain ends (2.6), revocation
(2.7), removal at teardown (2.8), and the lease tick (chapter 3). -/

namespace Sys2Proof.Machine

/-! ## The end of a fill (R146) -/

/-- An accepted FILL ends: the engine returns to IDLE, discards its job and copy, and FILL completes with the outcome
given and its four result words (R144, R146). Where the surface has no change part any more, the sequence and the torn
flag of the completion are free values (log 10). A read of the record that the job still waits for goes with the job: it
uses no service of the arbiter (DESIGN CHOICE, log 46). -/
def State.fillEnd (v : Verdict) (s : State) : State :=
  match s.fill.job with
  | none => s
  | some j =>
    let idle := { s with fill := { s.fill with state := .idle, job := none } }
    let words (seq : Word) (torn : Bool) : List Word :=
      [BitVec.ofNat 32 s.fill.rowsDone, (handleCode j.handle).setWidth 32, seq, place 0 (bit torn)]
    match s.partOf j.handle with
    | some p => idle.postBackground (fun b => b.kind == 9) v (words p.sequence p.tornFlag)
    | none =>
      { idle.postBackground (fun b => b.kind == 9) v
          (words (Config.unstatedSequence s.draws) (Config.unstatedTorn s.draws)) with draws := s.draws + 1 }

/-- The outcome that the drain end of the engine's claim gives the FILL (R146). The engine's claim is never revoked
with reason LEASE or RIGHTS. -/
def FillJob.ending (j : FillJob) : ReleaseKind → Verdict
  | .publish => .done
  | .plain => if j.withdrawAsked then .cancelled else if j.stop then .stopped else .done
  | .revoked .retired => .retired
  | .revoked _ => .revoked

/-- A drain end of the engine's claim is reported to it (R144, R146). -/
def State.fillDrained (k : ReleaseKind) (s : State) : State :=
  match s.fill.job with
  | none => s
  | some j => s.fillEnd (j.ending k)

/-! ## Grants (R36, R37) -/

/-- A claim changed in its slot. -/
def State.modClaim (c : Client) (k : Fin 16) (f : Claim → Claim) (s : State) : State :=
  match s.claimAt c k with
  | none => s
  | some cl => s.setClaim c k (some (f cl))

/-- A claim's outstanding count rises by `t` (R29). -/
def State.raiseOutstanding (c : Client) (k : Fin 16) (t : Nat) (s : State) : State :=
  s.modClaim c k fun cl => { cl with outstanding := cl.outstanding + t }

/-- A claim's outstanding count falls by one (R40). -/
def State.lowerOutstanding (c : Client) (k : Fin 16) (s : State) : State :=
  s.modClaim c k fun cl => { cl with outstanding := cl.outstanding - 1 }

/-- A band is added to a surface's pending set when the write has a pixel left after trimming (R70, R71). -/
def State.markBand (i : BitVec 8) (writes : Bool) (band : Nat) (s : State) : State :=
  if writes then s.modPart i (Option.map fun p => p.mark band) else s

/-- A claim as a grant leaves it (R33, R37). The discarded wait remaining is written 0 (DESIGN CHOICE, log 47). -/
def Claim.granted (cl : Claim) : Claim :=
  { cl with state := .held, leaseLeft := cl.leaseLen, warned := false, token := 0, waitLeft := 0 }

/-- The GRANTED message of a claim, response or notice (R35). -/
def State.grantedMessage (s : State) (k : Fin 16) (cl : Claim) (notice : Bool) : Message :=
  ⟨cl.tag, cl.session, notice, .granted k.val cl.handle cl.mode (s.seqTorn cl.handle.index).1 (s.seqTorn cl.handle.index).2 0⟩

/-- A grant is reported to the fill engine, which enters WRITING from WAITING; an engine that is DRAINING stays so
(R141). Its first burst is issued when the event settles. -/
def State.fillGranted (s : State) : State :=
  if s.fill.state = .waiting then { s with fill := { s.fill with state := .writing } } else s

/-- The grant of the claim at the head of a wait queue (R37). -/
def State.grant (i : BitVec 8) (c : Client) (k : Fin 16) (cl : Claim) (s : State) : State :=
  let s := (s.modQueue i List.tail).setClaim c k (some cl.granted)
  match c with
  | .fill => s.fillGranted
  | .link n => s.handOver n (s.grantedMessage k cl true)

/-- Grants from the head of the queue until it is empty or its head is not compatible (R36). -/
def State.serveFrom (i : BitVec 8) : List Client → State → State
  | [], s => s
  | c :: rest, s =>
    match s.findClaim c i with
    | none => s
    | some (k, cl) => if s.compatible i cl.mode then State.serveFrom i rest (s.grant i c k cl) else s

/-- A surface's wait queue is served (R36). -/
def State.serve (i : BitVec 8) (s : State) : State := s.serveFrom i (s.queue i)

/-! ## Drain ends of claims (R41, R45) -/

/-- Step 1 of R41 and R45: a publish, or torn marking for a WRITE claim that ends without one. -/
def State.settleChanges (cl : Claim) (k : ReleaseKind) (s : State) : State :=
  match k with
  | .publish => s.modPart cl.handle.index (Option.map ChangePart.publish)
  | _ => if cl.mode = .write then s.modPart cl.handle.index (Option.map ChangePart.tear) else s

/-- Step 3 of R41 and R45: RELEASED or the REVOKED notice, with the sequence and the torn flag that step 1 leaves (R42,
R45). The fill engine is sent no message; the drain end is reported to it once the queue has been served (R144). -/
def State.reportDrain (c : Client) (k : Fin 16) (cl : Claim) (kind : ReleaseKind) (s : State) : State :=
  let seq := (s.seqTorn cl.handle.index).1
  let torn := (s.seqTorn cl.handle.index).2
  match c with
  | .fill => s
  | .link n =>
    match kind with
    | .plain => s.handOver n ⟨cl.releaseTag, cl.session, false, .released k.val cl.handle false seq torn⟩
    | .publish => s.handOver n ⟨cl.releaseTag, cl.session, false, .released k.val cl.handle true seq torn⟩
    | .revoked r => s.handOver n ⟨cl.tag, cl.session, true, .revoked k.val cl.handle cl.mode r seq torn⟩

/-- Steps 1 to 3 of a drain end (R41, R45) for a RELEASING claim; any other claim is left as it is. -/
def State.finishDrain (c : Client) (k : Fin 16) (s : State) : State :=
  match s.claimAt c k with
  | none => s
  | some cl =>
    match cl.state with
    | .releasing kind => ((s.settleChanges cl kind).setClaim c k none).reportDrain c k cl kind
    | _ => s

/-- Steps 4 and 5 of a drain end: the queue is served and a RETIRING surface's drain condition is examined. -/
def State.afterLoss (i : BitVec 8) (s : State) : State := (s.serve i).examineDrain i

/-- The drain end of the fill engine's claim is reported to it, after the steps of R41 or R45 (R144). -/
def State.reportFill (c : Client) (kind : ReleaseKind) (s : State) : State :=
  match c with
  | .fill => s.fillDrained kind
  | .link _ => s

/-- A RELEASING claim whose outstanding count is 0 ends its drain at this event (R40, R41, R45, R144). -/
def State.drainIfDone (c : Client) (k : Fin 16) (s : State) : State :=
  match s.claimAt c k with
  | none => s
  | some cl =>
    match cl.state with
    | .releasing kind =>
      if cl.outstanding = 0 then ((s.finishDrain c k).afterLoss cl.handle.index).reportFill c kind else s
    | _ => s

/-- A HELD claim becomes RELEASING (R41); `tag` is the RELEASE's tag. With nothing outstanding its drain ends at once.
-/
def State.releaseClaim (c : Client) (k : Fin 16) (kind : ReleaseKind) (tag : Byte) (s : State) : State :=
  (s.modClaim c k fun cl => { cl with state := .releasing kind, releaseTag := tag }).drainIfDone c k

/-! ## Revocation (R44) -/

/-- A WAITING claim is removed from its queue and its slot becomes empty (R44, R63). -/
def State.dropWaiting (c : Client) (k : Fin 16) (i : BitVec 8) (s : State) : State :=
  (s.modQueue i fun q => q.erase c).setClaim c k none

/-- Which FILL outcome a revocation of the engine's claim gives (R146). -/
def Reason.fillVerdict : Reason → Verdict
  | .retired => .retired
  | _ => .revoked

/-- The revocation of a client's claim on a surface while it is WAITING: removed, with the notice (R44, R45). -/
def State.revokeWaiting (i : BitVec 8) (r : Reason) (sel : Client → Claim → Bool) (s : State) (c : Client) : State :=
  match s.findClaim c i with
  | none => s
  | some (k, cl) =>
    if cl.state = .waiting ∧ sel c cl then
      let s := s.dropWaiting c k i
      match c with
      | .fill => s.fillEnd r.fillVerdict
      | .link n => s.handOver n
          ⟨cl.tag, cl.session, true, .revoked k.val cl.handle cl.mode r (s.seqTorn i).1 (s.seqTorn i).2⟩
    else s

/-- The revocation of a client's claim on a surface while it is HELD: RELEASING, and drained at once when nothing is
outstanding; the queue is served later (R44). -/
def State.revokeHeld (i : BitVec 8) (r : Reason) (sel : Client → Claim → Bool) (s : State) (c : Client) : State :=
  match s.findClaim c i with
  | none => s
  | some (k, cl) =>
    if cl.state = .held ∧ sel c cl then
      let s := s.setClaim c k (some { cl with state := .releasing (.revoked r) })
      if cl.outstanding = 0 then s.finishDrain c k else s
    else s

/-- The claims on a surface that a revocation affects: the HELD and WAITING ones selected (R44, R47). -/
def State.affected (s : State) (i : BitVec 8) (sel : Client → Claim → Bool) : Nat :=
  (allClients.filter fun c =>
    match s.findClaim c i with
    | some (_, cl) => (cl.state == .waiting || cl.state == .held) && sel c cl
    | none => false).length

/-- The drain of the fill engine's claim ends inside the revocation of the selected claims: it is HELD with nothing
outstanding (R44, R45). -/
def State.fillLoses (s : State) (i : BitVec 8) (sel : Client → Claim → Bool) : Bool :=
  match s.findClaim .fill i with
  | some (_, cl) => cl.state == .held && sel .fill cl && cl.outstanding == 0
  | none => false

/-- A revocation of selected claims of one surface, taken at one event (R44): the WAITING claims are removed, the HELD
ones become RELEASING (the order of R21; log 11), then the queue is served once and the drain condition examined, and
last the fill engine learns of a drain that has ended (R144). -/
def State.revoke (i : BitVec 8) (r : Reason) (sel : Client → Claim → Bool) (s : State) : State :=
  let w := allClients.foldl (State.revokeWaiting i r sel) s
  let u := (allClients.foldl (State.revokeHeld i r sel) w).afterLoss i
  if w.fillLoses i sel then u.fillDrained (.revoked r) else u

/-- The claims that a surface's rights no longer permit; the fill engine's claim is not among them (R20). -/
def notPermitted (rights : Vector Right 6) (c : Client) (cl : Claim) : Bool :=
  match c with
  | .fill => false
  | .link n =>
    match rights[n.val], cl.mode with
    | .write, _ => false
    | .read, .read => false
    | _, _ => true

/-! ## Leases and waits (R53 to R57, R63) -/

/-- Every slot of every claim table. A tick sends the messages of each of its steps in this order, the fill engine
first, then the links and their slots ascending (DESIGN CHOICE, log 50). -/
def allPlaces : List (Client × Fin 16) :=
  (.fill, 0) :: allLinks.flatMap fun n => allSlots.map fun k => (.link n, k)

/-- Steps 1 and 2 of a tick for one claim (R53). -/
def Claim.counted (cl : Claim) : Claim :=
  match cl.state with
  | .held => if 0 < cl.leaseLen then { cl with leaseLeft := cl.leaseLeft - 1 } else cl
  | .waiting => if 1 ≤ cl.waitLimit ∧ cl.waitLimit ≤ 65534 then { cl with waitLeft := cl.waitLeft - 1 } else cl
  | .releasing _ => cl

/-- Steps 1 and 2 of a tick for the claim in one slot (R53). -/
def State.countClaim (s : State) (p : Client × Fin 16) : State := s.modClaim p.1 p.2 Claim.counted

/-- A HELD claim whose lease remaining has reached 0 (R57). -/
def Claim.expired (cl : Claim) : Bool := cl.state == .held && decide (0 < cl.leaseLen) && cl.leaseLeft == 0

/-- A WAITING claim whose wait remaining has reached 0 (R63). -/
def Claim.overdue (cl : Claim) : Bool :=
  cl.state == .waiting && decide (1 ≤ cl.waitLimit ∧ cl.waitLimit ≤ 65534) && cl.waitLeft == 0

/-- The warning point (R55). -/
def warningPoint (lease w : Nat) : Nat := lease * w / 8

/-- A claim to which step 5 of a tick sends LEASE_WARNING (R55). -/
def Claim.warningDue (cl : Claim) (w : Nat) : Bool :=
  cl.state == .held && decide (1 ≤ w) && !cl.warned &&
  decide (1 ≤ warningPoint cl.leaseLen w ∧ warningPoint cl.leaseLen w < cl.leaseLen ∧
    warningPoint cl.leaseLen w ≤ cl.leaseLen - cl.leaseLeft)

/-- The expiry of one claim (R57): RELEASING with kind REVOKED(LEASE); with nothing outstanding its drain ends here,
its queue being served later. -/
def State.expire (s : State) (p : Client × Fin 16) : State :=
  match s.claimAt p.1 p.2 with
  | none => s
  | some cl =>
    if cl.expired then
      let s := s.setClaim p.1 p.2 (some { cl with state := .releasing (.revoked .lease) })
      if cl.outstanding = 0 then (s.finishDrain p.1 p.2).reportFill p.1 (.revoked .lease) else s
    else s

/-- The timeout of one waiting claim (R63), its queue being served later. -/
def State.timeOut (s : State) (p : Client × Fin 16) : State :=
  match s.claimAt p.1 p.2 with
  | none => s
  | some cl =>
    if cl.overdue then
      let s := s.dropWaiting p.1 p.2 cl.handle.index
      match p.1 with
      | .fill => s.fillEnd .timedOut
      | .link n => s.handOver n ⟨cl.tag, cl.session, true, .timedOut p.2.val cl.handle cl.mode⟩
    else s

/-- The lease warning of one claim (R55). -/
def State.warn (w : Nat) (s : State) (p : Client × Fin 16) : State :=
  match s.claimAt p.1 p.2 with
  | none => s
  | some cl =>
    if cl.warningDue w then
      let s := s.setClaim p.1 p.2 (some { cl with warned := true })
      match p.1 with
      | .fill => s
      | .link n => s.handOver n ⟨cl.tag, cl.session, true, .leaseWarning p.2.val cl.handle cl.leaseLeft cl.token⟩
    else s

/-- The surfaces on which an expiry or a timeout falls at this tick (R53, step 6), each once. -/
def State.tickSurfaces (s : State) : List (BitVec 8) :=
  (allPlaces.filterMap fun p =>
    match s.claimAt p.1 p.2 with
    | some cl => if cl.expired || cl.overdue then some cl.handle.index else none
    | none => none).eraseDups

/-- One tick at the Claim Engine, its seven steps in order (R53). -/
def State.leaseTick (s : State) : State :=
  let s := allPlaces.foldl State.countClaim s
  let surfaces := s.tickSurfaces
  let s := allPlaces.foldl State.expire s
  let s := allPlaces.foldl State.timeOut s
  let s := allPlaces.foldl (State.warn s.cmd.warnEighths.toNat) s
  let s := surfaces.foldl (fun s i => s.serve i) s
  surfaces.foldl (fun s i => s.examineDrain i) s

/-- The tick generator's part of a tick: the count starts again and the next interval takes TICK_DIV as it stands
(R52; log 2). -/
def State.startInterval (s : State) : State :=
  { s with cmd := { s.cmd with micros := 0, interval := s.cmd.tickDiv } }

/-! ## Removal of a link's claims (R50) -/

/-- One claim of the link leaves its surface: a WAITING claim its queue, a HELD WRITE claim with torn marking (R50). -/
def State.removeClaim (n : LinkId) (s : State) (k : Fin 16) : State :=
  match s.claimAt (.link n) k with
  | none => s
  | some cl =>
    let s := s.setClaim (.link n) k none
    let i := cl.handle.index
    if cl.state = .waiting then s.modQueue i fun q => q.erase (.link n)
    else if cl.mode = .write then s.modPart i (Option.map ChangePart.tear)
    else s

/-- The surfaces named by a link's claims, each once. -/
def State.surfacesOf (s : State) (n : LinkId) : List (BitVec 8) :=
  (allSlots.filterMap fun k => (s.claimAt (.link n) k).map fun cl => cl.handle.index).eraseDups

/-- The Claim Engine removes every claim of a link at one event, serves each affected queue and examines each affected
RETIRING surface (R50). -/
def State.removeClaims (n : LinkId) (s : State) : State :=
  let surfaces := s.surfacesOf n
  let s := allSlots.foldl (State.removeClaim n) s
  let s := surfaces.foldl (fun s i => s.serve i) s
  surfaces.foldl (fun s i => s.examineDrain i) s

end Sys2Proof.Machine
end

