-- ==== Sys2Proof/Machine/Pixels.lean ====
section
/-! DEFINITION. The Access Path's shared operations (06_pixel_access_path.md) with the Fault Unit's part in them
(07_held_streams_and_the_fault_queue.md): judging, acceptance, faults, reloads, completions and responses. -/

namespace Sys2Proof.Machine

/-! ## Responses (R116) -/

/-- Responses are released from the head of the response queue while it is READY (R116). -/
def State.releaseFrom (n : LinkId) : List Response → State → State
  | .ready tag session body :: rest, s =>
    State.releaseFrom n rest
      ((s.modLane n fun l => { l with responseQ := rest }).handOverAccess n ⟨tag, session, false, body⟩)
  | _, s => s

/-- A lane sends the run of READY bursts at the head of its response queue (R116). -/
def State.releaseResponses (n : LinkId) (s : State) : State := s.releaseFrom n (s.lane n).responseQ

/-- The head of the access queue joins the tail of the response queue (R101). -/
def Lane.toResponses (l : Lane) (r : Response) : Lane :=
  { l with accessQ := l.accessQ.tail, responseQ := l.responseQ ++ [r] }

/-! ## Descriptor slots (R103 to R106) -/

/-- The slot that serves a direction (R103). -/
def Lane.slot (l : Lane) : Mode → Option Copy
  | .read => l.readSlot
  | .write => l.writeSlot

/-- The slot that serves a direction written. -/
def Lane.setSlot (l : Lane) (d : Mode) (c : Option Copy) : Lane :=
  match d with
  | .read => { l with readSlot := c }
  | .write => { l with writeSlot := c }

/-- The valid copy for a burst (R104): the slot is filled, holds the burst's handle, and its stamp is the board's. -/
def State.validCopy (s : State) (n : LinkId) (b : Burst) : Option Copy :=
  match (s.lane n).slot b.dir with
  | some c => if c.handle = b.handle ∧ c.stamp = (s.entry b.handle.index).stamp then some c else none
  | none => none

/-! ## Acceptance (R108, R110 to R113) -/

/-- Transactions issued one after another, with a write's data cut to their lengths (R112, R113). -/
def issueParts (o : Owner) (dir : Mode) : List (Nat × Nat) → List Byte → MemoryInterface → List Part × MemoryInterface
  | [], _, f => ([], f)
  | (a, len) :: rest, data, f =>
    let op : TxnOp := match dir with
      | .read => .read (f.readBytes a len)
      | .write => .write (cellsFrom a (data.take len))
    let r := issueParts o dir rest (data.drop len) (f.issue o a len op)
    (⟨f.nextId, .issued⟩ :: r.1, r.2)

/-- A client's claim on a handle, with its slot (R39). -/
def State.claimOn (s : State) (c : Client) (h : Handle) : Option (Fin 16 × Claim) :=
  match s.findClaim c h.index with
  | some (k, cl) => if cl.handle = h then some (k, cl) else none
  | none => none

/-- The span that a burst moves: all its pixels for a READ, the pixels inside the clip for a WRITE (R110, R111). -/
def Burst.span (b : Burst) (clip : Option Rect) : Nat × Nat :=
  match b.dir with
  | .read => (b.x, b.n)
  | .write => trim clip b.x b.y b.n

/-- The data bytes of the written pixels; those of trimmed pixels are discarded (R110). A WRITE whose handle has come
round to another surface since its length was checked (R8, R157) can bring fewer bytes than its pixels have, or more: a
byte that it does not bring is a free value, and bytes past the last pixel are not used (log 43). -/
def Burst.written (b : Burst) (draw bpp xs w : Nat) : List Byte :=
  (List.range (w * bpp)).map fun k => b.data.getD ((xs - b.x) * bpp + k) (Config.unsentByte draw k)

/-- A written pixel has a byte that the WRITE did not bring (log 43). -/
def Burst.short (b : Burst) (bpp xs w : Nat) : Bool :=
  b.dir == .write && decide (b.data.length < (xs - b.x) * bpp + w * bpp ∧ 1 ≤ w)

/-- The effects of the acceptance of the burst at the head of a lane's access queue, under the claim in slot `k` and
against the copy `c` (R113). Bytes that a WRITE did not bring are free values (log 43). -/
def State.accept (n : LinkId) (b : Burst) (c : Copy) (k : Fin 16) (s : State) : State :=
  let span := b.span c.clip
  let parts := c.parts b.y span.1 span.2
  let issued := issueParts (.lane n b.handle) b.dir parts (b.written s.draws c.format.bpp span.1 span.2) s.fmi
  let t := parts.length
  let s := (s.setFmi issued.2).setDraws (s.draws + bit (b.short c.format.bpp span.1 span.2))
  let s := s.raise b.handle.index t
  let s := s.raiseOutstanding (.link n) k t
  let s := s.markBand b.handle.index (b.dir == .write && decide (1 ≤ span.2)) (bandOf c.height b.y)
  s.modLane n fun l =>
    let r : Response := if t = 0 then .ready b.tag b.session (.writeDone 0) else .inFlight b span.2 issued.1
    { l.toResponses r with inFlight := l.inFlight + t }

/-- The checks of R108 against a valid copy: the slot of the claim that permits the burst, or the fault. A WRITE whose
format was not known when its length was checked fails at check 1 (R157), at a retried judging too (DEDUCED, log 53). -/
def State.permits (s : State) (n : LinkId) (b : Burst) (c : Copy) : Except LinkCode (Fin 16) :=
  if b.formatless then .error .staleHandle
  else match s.claimOn (.link n) b.handle with
  | none => .error .noClaim
  | some (k, cl) =>
    if cl.state = .held ∧ (cl.mode = .write ∨ b.dir = .read) then
      if b.x + b.n ≤ c.width ∧ b.y < c.height then .ok k else .error .bounds
    else .error .noClaim

/-! ## Faults, held streams and retries (R109, R124, R125, R131, R132) -/

/-- The record that the RESOLVE RETRY in progress for a link removed (R131). -/
def State.retryOf (s : State) (n : LinkId) : Option FaultRecord :=
  match s.cmd.executing with
  | some ⟨_, .retrying m r⟩ => if m = n then some r else none
  | _ => none

/-- The result words of RESOLVE (11.3). -/
def resolveWords (n : LinkId) (a : ResolveAction) (r : FaultRecord) (second : Nat) : List Word :=
  [place 0 (linkNumber n) ||| place 8 a.code ||| place 16 r.tag.toNat ||| place 24 r.attempt, BitVec.ofNat 32 second]

/-- The RESUMED notice (R128), in the session of the link at this event. -/
def State.sendResumed (n : LinkId) (tag : Byte) (a : ResolveAction) (answered : Nat) (s : State) : State :=
  s.handOver n ⟨tag, (s.link n).session, true, .resumed a answered⟩

/-- A retried burst has been accepted: the stream becomes FLOWING, the RESOLVE completes OK and RESUMED is sent (R131).
A burst judged under a FLOWING stream leaves all this as it is. -/
def State.retryAccepted (n : LinkId) (b : Burst) (s : State) : State :=
  if (s.linkFaults n).stream = .retrying then
    let s' := s.modFaults n fun f => { f with stream := .flowing }
    let s' := match s.retryOf n with
      | some r => s'.post .ok (resolveWords n .retry r 0)
      | none => s'
    s'.sendResumed n b.tag .retry 0
  else s

/-- The completion of a RESOLVE RETRY whose burst has failed again (R132). -/
def State.retryRefaulted (n : LinkId) (kind : LinkCode) (second : Nat) (s : State) : State :=
  match s.retryOf n with
  | some r => s.post (.refaulted kind) (resolveWords n .retry r second)
  | none => s

/-- A fault under ANSWER (R109, R124; R132 for a retried burst). -/
def State.faultAnswered (n : LinkId) (kind : LinkCode) (b : Burst) (s : State) : State :=
  let retried := (s.linkFaults n).stream = .retrying
  let s := s.modLane n fun l => l.toResponses (.ready b.tag b.session (.accessError kind))
  let s := s.modFaults n fun f => { f with stream := .flowing, lastKind := kind, lastHandle := b.handle }
  let s := if retried then (s.retryRefaulted n kind 1).sendResumed n b.tag .retry 1 else s
  s.releaseResponses n

/-- The attempt of the record that a fault under HOLD appends: 1, or one more than that of the record that a RETRY has
removed, and 255 stays 255 (R126, R132). -/
def State.nextAttempt (s : State) (n : LinkId) : Nat :=
  match s.retryOf n with
  | some r => min 255 (r.attempt + 1)
  | none => 1

/-- A fault under HOLD (R125; R132 for a retried burst). -/
def State.faultHeld (n : LinkId) (kind : LinkCode) (b : Burst) (s : State) : State :=
  let attempt := s.nextAttempt n
  let record : FaultRecord := ⟨n, kind, b.handle, b.x, b.y, b.n, b.dir, b.tag, attempt⟩
  let s := s.modFaults n fun f => { f with stream := .held }
  let s := s.setRecords (s.faults.queue ++ [record])
  let s := s.retryRefaulted n kind attempt
  s.handOver n ⟨b.tag, (s.link n).session, true, .halted b.handle kind b.dir attempt⟩

/-- The burst at the head of the access queue is faulted, by the policy that stands at this event (R109, R122). -/
def State.faultBurst (n : LinkId) (kind : LinkCode) (b : Burst) (s : State) : State :=
  match (s.linkFaults n).policy with
  | .answer => s.faultAnswered n kind b
  | .hold => s.faultHeld n kind b

/-- The head burst judged against a valid copy (R108): accepted with its effects, or faulted. -/
def State.judgeAgainst (n : LinkId) (b : Burst) (c : Copy) (s : State) : State :=
  match s.permits n b c with
  | .error kind => s.faultBurst n kind b
  | .ok k => ((s.accept n b c k).retryAccepted n b).releaseResponses n

/-- The lane judges: its link is ONLINE and its stream FLOWING, or RETRYING for the retried judging (R102, R131), and
no reload for the judging is awaited (R105). -/
def State.mayJudge (s : State) (n : LinkId) : Bool :=
  (s.link n).state == .online && (s.linkFaults n).stream != .held && !(s.lane n).reloads.contains .judge

/-- Judging of the burst at the head of the access queue begins with its descriptor (R104). -/
def State.judgeHead (n : LinkId) (s : State) : State :=
  match (s.lane n).accessQ with
  | [] => s
  | b :: _ =>
    match s.validCopy n b with
    | some c => s.judgeAgainst n b c
    | none =>
      if b.handle.index = 0 then s.faultBurst n .staleHandle b
      else s.modLane n fun l => { l with reloads := l.reloads ++ [.judge] }

/-- A reload's record fills a slot, or empties it when the handle is stale or retiring (R105). -/
def State.refill (n : LinkId) (d : Mode) (h : Handle) (s : State) : State :=
  let copy := match s.classify h with
    | .current desc => some (copyOf h (s.entry h.index).stamp desc)
    | _ => none
  s.modLane n fun l => l.setSlot d copy

/-- The service of a reload made for the head burst (R105). After a current record the burst is judged again by R104,
at once for `whole`; a stale or retiring one faults it at this event. -/
def State.reloadForJudging (n : LinkId) (x : Extent) (s : State) : State :=
  match (s.lane n).accessQ with
  | [] => s
  | b :: _ =>
    if s.mayJudge n = false then s
    else
      match s.classify b.handle with
      | .current _ =>
        let s := s.refill n b.dir b.handle
        match x with
        | .whole => s.judgeHead n
        | .firstEvent => s
      | _ => (s.refill n b.dir b.handle).faultBurst n .staleHandle b

/-! ## Completions (R115, R117, R118) -/

/-- Whether a part has not completed. -/
def Part.open (p : Part) : Bool := p.state == .issued

/-- The response of a burst whose transactions have all completed (R115, R117). -/
def responseBody (b : Burst) (written : Nat) (parts : List Part) : Body :=
  match b.dir with
  | .write => .writeDone written
  | .read =>
    if parts.any fun p => p.state == .failed then .accessError .memory
    else .readData b.n (parts.flatMap fun p => match p.state with
      | .done d => d
      | _ => [])

/-- The part with a transaction's number has ended; the burst becomes READY at its last part (R115, step 4). -/
def Response.partEnds (id : Nat) (res : PartState) : Response → Response
  | .ready t ss b => .ready t ss b
  | .inFlight b w ps =>
    let ps := ps.map fun p => if p.txn = id then { p with state := res } else p
    if ps.any Part.open then .inFlight b w ps else .ready b.tag b.session (responseBody b w ps)

/-- The memory error report takes an uncorrectable read error in a block (R118). -/
def State.reportMemoryError (block : Nat) (s : State) : State :=
  { s with cmd :=
      if s.cmd.memoryError then { s.cmd with memoryMore := true }
      else { s.cmd with memoryError := true, memoryBlock := block } }

/-- What a part holds once its transaction has ended; only a read can end in an error (R114). -/
def TxnOp.result (op : TxnOp) (err : Bool) : PartState :=
  match op with
  | .read data => if err then .failed else .done data
  | _ => .done []

/-- A surface's in-flight count falls by one, and the drain condition is examined when it reaches 0 (R7, R23). -/
def State.surfaceDone (i : BitVec 8) (s : State) : State :=
  let s := s.lower i
  if (s.entry i).inFlight = 0 then s.examineDrain i else s

/-- A claim's outstanding count falls by one; a RELEASING claim at 0 ends its drain (R40). -/
def State.claimDone (c : Client) (h : Handle) (s : State) : State :=
  match s.claimOn c h with
  | none => s
  | some (k, _) => (s.lowerOutstanding c k).drainIfDone c k

/-- The completion of a transaction of a link's burst (R115): steps 1 to 5; step 3's continuation of a teardown is
made when the event settles. -/
def State.laneCompletion (n : LinkId) (t : Txn) (h : Handle) (err : Bool) (s : State) : State :=
  let res := t.op.result err
  let s := s.setFmi (s.fmi.finish t.id)
  let s := if res = .failed then s.reportMemoryError (t.addr / 16384) else s
  let s := (s.surfaceDone h.index).claimDone (.link n) h
  let s := s.modLane n fun l =>
    { l with inFlight := l.inFlight - 1, responseQ := l.responseQ.map (Response.partEnds t.id res) }
  s.releaseResponses n

end Sys2Proof.Machine
end

