-- ==== Sys2Proof/Machine/Filling.lean ====
section
/-! DEFINITION. The Fill Engine's shared operations (08_fill_engine.md): issuing bursts, their completion, the
release. -/

namespace Sys2Proof.Machine

/-- The pixels of the burst at the next position: 256, or what is left of the row (R142). -/
def FillJob.burstLength (j : FillJob) : Nat := min 256 (j.x + j.w - j.nextX)

/-- The burst at the next position is the last of its row (R142). -/
def FillJob.endsRow (j : FillJob) : Bool := decide (j.x + j.w ≤ j.nextX + 256)

/-- The burst at the next position is the last of the rectangle (R144). -/
def FillJob.lastBurst (j : FillJob) : Bool := j.endsRow && decide (j.y + j.h ≤ j.nextRow + 1)

/-- A burst is left to issue (R142). -/
def FillJob.burstLeft (j : FillJob) : Bool := decide (j.nextRow < j.y + j.h)

/-- The next position advanced past the burst (R142, step 6). -/
def FillJob.advance (j : FillJob) : FillJob :=
  if j.endsRow then { j with nextRow := j.nextRow + 1, nextX := j.x } else { j with nextX := j.nextX + 256 }

/-- The fill value repeated for `w` pixels: each pixel receives the first bpp bytes of the value (R139). -/
def fillData (value : Word) (bpp w : Nat) : List Byte := (List.replicate w ((le32 value).take bpp)).flatten

/-- The job changed. -/
def State.modJob (f : FillJob → FillJob) (s : State) : State :=
  { s with fill := { s.fill with job := s.fill.job.map f } }

/-- The engine's state changed. -/
def State.setFillState (st : FillState) (s : State) : State := { s with fill := { s.fill with state := st } }

/-- Rows done rises by one (R142, R143). -/
def State.rowDone (s : State) : State := { s with fill := { s.fill with rowsDone := s.fill.rowsDone + 1 } }

/-- Steps 3 to 6 of the issue of a burst against a copy that is up to date, under a HELD claim (R142). A burst with no
transaction is complete at its issue. -/
def State.issueBurst (j : FillJob) (s : State) : State :=
  let span := trim j.copy.clip j.nextX j.nextRow j.burstLength
  let parts := j.copy.parts j.nextRow span.1 span.2
  let issued := issueParts (.fill j.handle) .write parts (fillData j.value j.copy.format.bpp span.2) s.fmi
  let t := parts.length
  let s := s.setFmi issued.2
  let s := s.raise j.handle.index t
  let s := s.raiseOutstanding .fill 0 t
  let s := s.markBand j.handle.index (decide (1 ≤ span.2)) (bandOf j.copy.height j.nextRow)
  let s := s.modJob fun _ => { j.advance with burst := if t = 0 then none else some ⟨t, j.endsRow⟩ }
  if t = 0 ∧ j.endsRow then s.rowDone else s

/-- The release at the issue of the last burst: the engine enters DRAINING and its claim becomes RELEASING (R144). -/
def State.fillRelease (j : FillJob) (s : State) : State :=
  (s.setFillState .draining).releaseClaim .fill 0 (if j.publish then .publish else .plain) 0

/-- Bursts issued within one event: the engine issues the burst at its next position and, while bursts issue no
transaction, the one after it, until a burst has one, a read is needed, the claim is not HELD, or the last burst has
been issued (R142, R144). The first argument bounds the bursts that are left. -/
def State.issueBursts : Nat → State → State
  | 0, s => s
  | k + 1, s =>
    match s.fill.job with
    | none => s
    | some j =>
      if s.fill.state != .writing || j.burst.isSome || j.reading || !j.burstLeft then s
      else if j.outdated || j.copy.stamp != (s.entry j.handle.index).stamp then
        s.modJob fun j => { j with reading := true }
      else if (s.claims.filler.any fun cl => cl.state == .held) = false then s.setFillState .draining
      else
        let s' := s.issueBurst j
        if j.lastBurst then s'.fillRelease j else State.issueBursts k s'

/-- The most bursts that a job has left, by rows and by bursts of a row (R142). -/
def FillJob.bursts (j : FillJob) : Nat := j.h * ceilDiv j.w 256 + 1

/-- A WRITING engine with no burst in progress issues what R142 lets it issue at this event. -/
def State.fillRun (s : State) : State :=
  match s.fill.job with
  | none => s
  | some j => s.issueBursts j.bursts

/-- The completion of a transaction of the burst in progress (R143). The row is counted before the drain end that the
same completion may bring, as R144 has it for the last row (log 12). -/
def State.fillTxnDone (t : Txn) (h : Handle) (s : State) : State :=
  let s := s.setFmi (s.fmi.finish t.id)
  let s := match s.fill.job with
    | none => s
    | some j =>
      match j.burst with
      | none => s
      | some b =>
        if b.left ≤ 1 then
          let s := s.modJob fun j => { j with burst := none }
          if b.endsRow then s.rowDone else s
        else s.modJob fun j => { j with burst := some { b with left := b.left - 1 } }
  (s.surfaceDone h.index).claimDone .fill h

/-- The withdrawal of the engine's claim at the Claim Engine (R145): a WAITING claim is removed, a HELD one is released
PLAIN; where neither is there it does nothing, and a claim request not yet decided is discarded at its decision. -/
def State.fillWithdraw (s : State) : State :=
  let s := s.modJob fun j => { j with withdrawTaken := true }
  match s.claims.filler with
  | none => s
  | some cl =>
    match cl.state with
    | .waiting => (((s.dropWaiting .fill 0 cl.handle.index).fillEnd .cancelled).serve cl.handle.index).examineDrain
        cl.handle.index
    | .held => s.releaseClaim .fill 0 .plain 0
    | .releasing _ => s

end Sys2Proof.Machine
end

