-- ==== Sys2Proof/Machine/Settle.lean ====
section
/-! DEFINITION. What follows at the same event once a step has had its own effect: a teardown whose link in-flight
count is 0 goes on (R163), the fill engine issues (R142), and the next command is taken (R172). -/

namespace Sys2Proof.Machine

/-- The fault record of a link is removed from whatever place it holds (R127, R136). -/
def State.removeRecord (n : LinkId) (s : State) : State :=
  s.setRecords (s.faults.queue.filter fun r => r.link != n)

/-- Steps 4 to 6 of R163: event bits, last teardown cause, DETACHED where R164 calls for it, and the state the link
goes to. -/
def Link.endTeardown (l : Link) : Link :=
  { l with
    events := l.causes.foldl (fun e c => e ||| c.eventBit) l.events
    lastCause := l.causes.head?
    wire := if l.causes.head? = some .detach ∧ l.causes.contains .lost = false
      then Message.bytes ⟨l.detachTag, l.session, false, .detached⟩ else l.wire
    state := if l.enable then .offline else .disabled
    identity := 0
    causes := [] }

/-- The remaining steps of a teardown whose link in-flight count is 0, in order (R163). The lane's response queue holds
only READY bursts then; they are released and dropped (R119). -/
def State.finishTeardown (n : LinkId) (s : State) : State :=
  let s := s.modLane n fun l => { l with responseQ := [] }
  let s := (s.removeRecord n).modFaults n fun f => { f with stream := .flowing }
  let s := s.removeClaims n
  let s := s.modLane n fun l => { l with readSlot := none, writeSlot := none }
  s.modLink n Link.endTeardown

/-- A link in TEARDOWN whose wait is over (R163). -/
def State.teardownReady (s : State) (n : LinkId) : Bool :=
  (s.link n).state == .teardown && (s.lane n).inFlight == 0

/-- Teardowns whose wait is over, one after another. The removal at one link can overflow another link's control
outbound queue and so begin a teardown there (R158); no link comes twice, because it leaves TEARDOWN for OFFLINE or
DISABLED. Of two waits that end at one event, the lowest-numbered link's teardown goes on first (DESIGN CHOICE, log
56). The first argument bounds them. -/
def State.finishTeardowns : Nat → State → State
  | 0, s => s
  | k + 1, s =>
    match allLinks.find? s.teardownReady with
    | none => s
    | some n => State.finishTeardowns k (s.finishTeardown n)

/-- What follows at the same event: see this file's opening. A teardown goes on at the event of its last completion
(R163), so that a loss report taken after that completion finds the link out of TEARDOWN (DEDUCED, log 51). The
completion of a fill that ends in `fillRun` stands behind those that the step itself posted (DESIGN CHOICE, log 49).
Every teardown whose wait is over goes on before the fill engine issues or ends its fill DONE, and a teardown that the
fill's end begins goes on after it: neither R163 nor R142 and R144 order them (DESIGN CHOICE, log 60). -/
def State.settle (s : State) : State :=
  (((s.finishTeardowns 6).fillRun).finishTeardowns 6).takeNext

/-- The answer of a step that has an effect. -/
def settled (s : State) : Host.Outcome State Fault Refusal := .next s.settle

/-- The answer of a step whose event does not occur in this state: nothing changes (log 3). -/
def noEvent (s : State) : Host.Outcome State Fault Refusal := .next s

end Sys2Proof.Machine
end

