-- ==== Sys2Proof/Machine/Flags.lean ====
section
/-! DEFINITION. The status bits and the interrupt sources that follow other state (R95, R135, R165, R179, R180). -/

namespace Sys2Proof.Machine

/-- SCRUB_ACTIVE is set while the scrub queue is not empty (R95). -/
def State.scrubActive (s : State) : Bool := !s.alloc.scrubQueue.isEmpty

/-- The COMPLETION source: the completion count is at least COMPL_THRESH (R179). -/
def State.completionPending (s : State) : Bool := decide (s.cmd.complThresh.toNat ≤ s.cmd.completions.length)

/-- The FAULT source: the fault count is above 0 (R135). -/
def State.faultPending (s : State) : Bool := decide (0 < s.faults.queue.length)

/-- The LINK source: any of the 36 link event bits is set (R165). -/
def State.linkPending (s : State) : Bool := allLinks.any fun n => (s.link n).events != 0

/-- The pending state of the seven sources at their positions in the interrupt status register (R179, 11.6). -/
def State.interruptStatus (s : State) : BitVec 7 :=
  BitVec.ofBool s.cmd.popEmpty ++ BitVec.ofBool s.cmd.submitOverflow ++ BitVec.ofBool s.cmd.memoryError ++
  BitVec.ofBool s.cmd.scrubIdle ++ BitVec.ofBool s.linkPending ++ BitVec.ofBool s.faultPending ++
  BitVec.ofBool s.completionPending

/-- The interrupt output INT: asserted while at least one source is both pending and enabled (R180). -/
def State.interruptOutput (s : State) : Bool := (s.interruptStatus &&& s.cmd.enables) != 0

end Sys2Proof.Machine
end

