-- ==== Sys2Proof/Machine/Resets.lean ====
section
/-! DEFINITION. POWER_ON and SOFT_RESET (10.10). -/

namespace Sys2Proof.Machine

/-- Every block in its power-on state with B read from the strap value given (R185). The contents of the frame memory
are undefined: they are those of a new power cycle (R98; log 6). -/
def State.powerOn (strap : BitVec 2) (s : State) : State :=
  { State.reset with
    pending := s.pending
    alloc := Allocator.reset (blockCount strap)
    fmi := ⟨[], 0, [], s.draws + 1⟩
    draws := s.draws + 1 }

/-- An entry after a soft reset: FREE with no run list and an in-flight count of 0; its generation and its stamp are
kept (R14). -/
def Entry.softReset (e : Entry) : Entry := { e with state := .free, inFlight := 0 }

/-- Every block takes its soft reset (R184). Generations, stamps, B, the session numbers and what the frame memory holds
are kept; transactions are abandoned (R99, R120). -/
def State.softReset (s : State) : State :=
  { pending := s.pending
    cmd := CommandEngine.reset
    table := ⟨s.table.entries.map Entry.softReset, .commandEngine, Vector.replicate 32 0⟩
    claims := ClaimEngine.reset
    tracker := ChangeTracker.reset
    alloc := Allocator.reset s.alloc.total
    lanes := Vector.replicate 6 Lane.reset
    faults := FaultUnit.reset
    fill := FillEngine.reset
    links := s.links.map fun l => Link.reset l.session
    fmi := s.fmi.abandon s.draws
    draws := s.draws + 1 }

/-- A write to SYS_CONTROL: a one in SOFT_RESET resets the part, a zero has no effect (R184). -/
def State.writeSysControl (w : Word) (s : State) : State := if flag w 0 then s.softReset else s

/-- POWER_ON (R185). -/
def execPowerOn (strap : BitVec 2) (s : State) : Host.Outcome State Fault Refusal := .next (s.powerOn strap)

/-- SOFT_RESET: the word written to SYS_CONTROL (R184). -/
def execSoftReset (w : Word) (s : State) : Host.Outcome State Fault Refusal := .next (s.writeSysControl w)

end Sys2Proof.Machine
end

