-- ==== Sys2Proof/Machine/HostWrites.lean ====
section
/-! DEFINITION. The host's register writes (10_host_command_interface.md, 9.1, R122, R165, R188). -/

namespace Sys2Proof.Machine

/-- A SUBMIT write (R170, R171): a record of the kind, the tag and the eight staging words joins the command queue; with
16 records there it is dropped and SUBMIT_OVERFLOW is set. -/
def State.writeSubmit (w : Word) (s : State) : State :=
  if s.cmd.queue.length < 16 then
    { s with cmd := { s.cmd with
        queue := s.cmd.queue ++ [⟨w.extractLsb' 0 8, w.extractLsb' 8 8, s.cmd.stage⟩] } }
  else { s with cmd := { s.cmd with submitOverflow := true } }

/-- A COMPL_POP write of any value (R176): the head record is removed; on an empty queue POP_EMPTY is set. -/
def State.writePop (s : State) : State :=
  match s.cmd.completions with
  | [] => { s with cmd := { s.cmd with popEmpty := true } }
  | _ :: rest => { s with cmd := { s.cmd with completions := rest } }

/-- A write to the interrupt status register: a one clears a sticky source, MEMORY_ERROR together with
MEMORY_ERROR_MORE; the positions of the level sources are ignored (R179, R181). -/
def State.writeInterruptStatus (w : Word) (s : State) : State :=
  { s with cmd := { s.cmd with
      scrubIdle := s.cmd.scrubIdle && !flag w 3
      memoryError := s.cmd.memoryError && !flag w 4
      memoryMore := s.cmd.memoryMore && !flag w 4
      submitOverflow := s.cmd.submitOverflow && !flag w 5
      popEmpty := s.cmd.popEmpty && !flag w 6 } }

/-- A write to the interrupt enable register (R180). -/
def State.writeInterruptEnable (w : Word) (s : State) : State :=
  { s with cmd := { s.cmd with enables := w.extractLsb' 0 7 } }

/-- A write to TICK_DIV (R52): the interval already running keeps its length. -/
def State.writeTickDiv (w : Word) (s : State) : State :=
  { s with cmd := { s.cmd with tickDiv := w.extractLsb' 0 10 } }

/-- A write to WARN_EIGHTHS (R56). -/
def State.writeWarnEighths (w : Word) (s : State) : State :=
  { s with cmd := { s.cmd with warnEighths := w.extractLsb' 0 3 } }

/-- A write to COMPL_THRESH (R182): 1 to 32 is stored, 0 and 33 to 63 are ignored. -/
def State.writeComplThresh (w : Word) (s : State) : State :=
  if 1 ≤ field w 0 6 ∧ field w 0 6 ≤ 32 then { s with cmd := { s.cmd with complThresh := w.extractLsb' 0 6 } } else s

/-- A write to a link's ENABLE field (R151). -/
def State.writeEnable (n : LinkId) (b : Bool) (s : State) : State :=
  if (s.link n).enable = b then s
  else
    match b, (s.link n).state with
    | true, .disabled => s.modLink n fun l => { l with enable := true, state := .offline }
    | true, _ => s.modLink n fun l => { l with enable := true }
    | false, .offline => s.modLink n fun l => { l with enable := false, state := .disabled }
    | false, .disabled => s.modLink n fun l => { l with enable := false }
    | false, _ => s.takeCause n .disable

/-- A write to a link's RESET field (R151): a one takes the cause HOST, which has no effect in OFFLINE and DISABLED. -/
def State.writeReset (n : LinkId) (b : Bool) (s : State) : State := if b then s.takeCause n .host else s

/-- A write to a link control register: ENABLE [0] and RESET [1] at one event (R151, R188). Where both begin the
teardown, which cause is the first is a free choice (log 9). -/
def State.writeLinkControl (n : LinkId) (w : Word) (s : State) : State :=
  if (s.link n).state = .online ∧ (s.link n).enable = true ∧ flag w 0 = false ∧ flag w 1 = true then
    let s' := if Config.disableBeforeHost s.draws
      then (s.writeEnable n false).writeReset n true else (s.writeReset n true).writeEnable n false
    { s' with draws := s.draws + 1 }
  else (s.writeEnable n (flag w 0)).writeReset n (flag w 1)

/-- The event bits of a link that a write to the link event register clears: link *n* at byte (*n* − 1) mod 4 of the
word of links 1 to 4 or of links 5 and 6 (11.6). -/
def eventClearBits (second : Bool) (w : Word) (n : LinkId) : BitVec 6 :=
  if second = decide (4 ≤ n.val) then w.extractLsb' (8 * (n.val % 4)) 6 else 0

/-- A write to one word of the link event register clears each bit written with one (R165). -/
def State.writeLinkEvents (second : Bool) (w : Word) (s : State) : State :=
  allLinks.foldl (fun s n => s.modLink n fun l => { l with events := l.events &&& ~~~ eventClearBits second w n }) s

/-- A write to a link's fault policy register, ignored while the link is DISABLED (R122, R151). -/
def State.writeFaultPolicy (n : LinkId) (w : Word) (s : State) : State :=
  if (s.link n).state = .disabled then s
  else s.modFaults n fun f => { f with policy := if flag w 0 then .answer else .hold }

/-- A write to a register of a link block, at its word within the block (11.6). -/
def State.writeLinkBlock (n : LinkId) (at' : Nat) (w : Word) (s : State) : State :=
  match at' with
  | 0 => s.writeLinkControl n w
  | 1 => s.writeFaultPolicy n w
  | _ => s

/-- Any write of a word at word address `a` of the window (R169, 11.6): a staging word is stored, a register with a
behaviour of its own has it, and a write to a read-only register or to an offset that names none is ignored. -/
def State.hostWrite (a : BitVec 10) (w : Word) (s : State) : State :=
  let k := a.toNat
  if h : k < 8 then { s with cmd := { s.cmd with stage := s.cmd.stage.set k w h } }
  else match k with
    | 8 => s.writeSubmit w
    | 22 => s.writePop
    | 32 => s.writeInterruptStatus w
    | 33 => s.writeInterruptEnable w
    | 48 => s.writeTickDiv w
    | 49 => s.writeWarnEighths w
    | 50 => s.writeComplThresh w
    | 51 => s.writeSysControl w
    | 192 => s.writeLinkEvents false w
    | 193 => s.writeLinkEvents true w
    | k =>
      if 256 ≤ k then
        match linkOf ((k - 256) / 32 + 1) with
        | some n => s.writeLinkBlock n ((k - 256) % 32) w
        | none => s
      else s

/-- SUBMIT (R171); the record may be taken at the same event (R172). -/
def execSubmit (w : Word) (s : State) : Host.Outcome State Fault Refusal := settled (s.writeSubmit w)

/-- COMPL_POP (R176); the next command may be taken at the same event (R172). -/
def execComplPop (_w : Word) (s : State) : Host.Outcome State Fault Refusal := settled s.writePop

/-- INTERRUPT_STATUS_WRITE (R181). -/
def execInterruptStatusWrite (w : Word) (s : State) : Host.Outcome State Fault Refusal := .next (s.writeInterruptStatus w)

/-- INTERRUPT_ENABLE_WRITE (R180). -/
def execInterruptEnableWrite (w : Word) (s : State) : Host.Outcome State Fault Refusal := .next (s.writeInterruptEnable w)

/-- TICK_DIV_WRITE (R52). -/
def execTickDivWrite (w : Word) (s : State) : Host.Outcome State Fault Refusal := .next (s.writeTickDiv w)

/-- WARN_EIGHTHS_WRITE (R56). -/
def execWarnEighthsWrite (w : Word) (s : State) : Host.Outcome State Fault Refusal := .next (s.writeWarnEighths w)

/-- COMPL_THRESH_WRITE (R182). -/
def execComplThreshWrite (w : Word) (s : State) : Host.Outcome State Fault Refusal := .next (s.writeComplThresh w)

/-- ENABLE: a write to a link's ENABLE field with 0 in RESET (R151; log 23). -/
def execEnable (n : LinkId) (b : Bool) (s : State) : Host.Outcome State Fault Refusal := settled (s.writeEnable n b)

/-- RESET: a write to a link's RESET field with ENABLE as it stands (R151; log 23). -/
def execReset (n : LinkId) (b : Bool) (s : State) : Host.Outcome State Fault Refusal := settled (s.writeReset n b)

/-- LINK_EVENT_CLEAR (R165). -/
def execLinkEventClear (second : Bool) (w : Word) (s : State) : Host.Outcome State Fault Refusal :=
  .next (s.writeLinkEvents second w)

/-- FAULT_POLICY_WRITE (R122). -/
def execFaultPolicyWrite (n : LinkId) (w : Word) (s : State) : Host.Outcome State Fault Refusal :=
  .next (s.writeFaultPolicy n w)

/-- REGISTER_WRITE (R169). -/
def execRegisterWrite (a : BitVec 10) (w : Word) (s : State) : Host.Outcome State Fault Refusal :=
  settled (s.hostWrite a w)

end Sys2Proof.Machine
end

