-- ==== Sys2Proof/Machine/HostCommands.lean ====
section
/-! DEFINITION. The steps of the executing host command (chapters 1, 2, 4, 5, 7, 8 and 10) and the drain end of a
retired surface (R24). A step of a command that is not executing does not occur. -/

namespace Sys2Proof.Machine

/-- The executing command and how far it has come, when it is of the kind given. -/
def State.executingAs (s : State) (k : CmdKind) : Option (CmdRecord × Stage) :=
  match s.cmd.executing with
  | some e => if e.cmd.command = some k then some (e.cmd, e.stage) else none
  | none => none

/-- A handle in a result word (11.3). -/
def handleWord (h : Handle) : Word := (handleCode h).setWidth 32

/-- A number in a result word. -/
def numberWord (v : Nat) : Word := BitVec.ofNat 32 v

/-! ## CREATE -/

/-- The event of a CREATE that passes every check: the allocation and the write of the entry as LIVE are one (R17,
R84), with an empty claim part and a new change part. -/
def State.createAt (i : BitVec 8) (d : Desc) (a : Allocator) (s : State) : State :=
  let h : Handle := ⟨i, nextGen (s.entry i).gen⟩
  let s := s.setAlloc a
  let s := s.updateEntry i fun e => { e with state := .live d, gen := nextGen e.gen, inFlight := 0 }
  let s := (s.modQueue i fun _ => []).modPart i fun _ => some (ChangePart.fresh h)
  (s.served .commandEngine).post .ok [handleWord h, numberWord d.blocks, numberWord d.runs.length]

/-- CREATE (R15 to R17, R88, R89). A refusal writes no entry and takes no service of the arbiter (log 14). -/
def execCreate (s : State) : Host.Outcome State Fault Refusal :=
  match s.executingAs .create with
  | some (r, .fresh) =>
    match s.createPlan r with
    | .error (v, ws) => settled (s.post v ws)
    | .ok (i, d, a) => if s.portTurn = some .commandEngine then settled (s.createAt i d a) else noEvent s
  | _ => noEvent s

/-! ## MODIFY -/

/-- The Claim Engine's event after a MODIFY's update: the claims that the new rights no longer permit are revoked, and
the completion is posted (R19, R20). A fill that this revocation lets in and that ends DONE at once (R142, R144)
completes after it (DESIGN CHOICE, log 49). -/
def State.modifyRevoke (h : Handle) (stamp : BitVec 16) (s : State) : State :=
  match (s.entry h.index).state.desc with
  | none => s.post .ok [stamp.setWidth 32, 0]
  | some d =>
    let count := s.affected h.index (notPermitted d.rights)
    (s.revoke h.index .rights (notPermitted d.rights)).post .ok [stamp.setWidth 32, numberWord count]

/-- The service of a MODIFY by the arbiter: its checks, and the update of an entry that passes them (R18, R19). -/
def State.modifyService (r : CmdRecord) (x : Extent) (s : State) : State :=
  let h := stagedHandle r.stage
  let s := s.served .commandEngine
  match s.classify h with
  | .stale => s.post .staleHandle []
  | .retiring _ => s.post .notLive []
  | .current d =>
    match modifyDesc r.stage d with
    | .error k => s.post .badParam [numberWord k]
    | .ok d' =>
      let s := s.updateEntry h.index fun e => { e with state := .live d' }
      let stamp := (s.entry h.index).stamp
      match x with
      | .whole => s.modifyRevoke h stamp
      | .firstEvent => s.setStage (.modifyUpdated stamp)

/-- MODIFY (R18 to R20): the update, then the Claim Engine's event. -/
def execModify (x : Extent) (s : State) : Host.Outcome State Fault Refusal :=
  match s.executingAs .modify with
  | some (r, .modifyUpdated stamp) => settled (s.modifyRevoke (stagedHandle r.stage) stamp)
  | some (r, .fresh) =>
    if (stagedHandle r.stage).index = 0 then settled (s.post .staleHandle [])
    else if s.portTurn = some .commandEngine then settled (s.modifyService r x) else noEvent s
  | _ => noEvent s

/-! ## RETIRE and the drain end -/

/-- The taking of a RETIRE (R21): the entry becomes RETIRING, and at the same event the surface loses its claims and
its fill; the command becomes background (R174), and the drain condition is examined. -/
def State.retireAt (h : Handle) (d : Desc) (s : State) : State :=
  let s := s.updateEntry h.index fun e => { e with state := .retiring d }
  let s := s.setAlloc { s.alloc with retiringOwned := s.alloc.retiringOwned + d.blocks }
  (s.toBackground h).revoke h.index .retired fun _ _ => true

/-- The service of a RETIRE by the arbiter (R21). -/
def State.retireService (h : Handle) (s : State) : State :=
  let s := s.served .commandEngine
  match s.classify h with
  | .stale => s.post .staleHandle []
  | .retiring _ => s.post .notLive []
  | .current d => s.retireAt h d

/-- RETIRE (R21). -/
def execRetire (s : State) : Host.Outcome State Fault Refusal :=
  match s.executingAs .retire with
  | some (r, .fresh) =>
    if (stagedHandle r.stage).index = 0 then settled (s.post .staleHandle [])
    else if s.portTurn = some .commandEngine then settled (s.retireService (stagedHandle r.stage)) else noEvent s
  | _ => noEvent s

/-- The four steps of a drain end (R24), with the return of the runs (R90, R91). -/
def State.drainEndAt (i : BitVec 8) (d : Desc) (s : State) : State :=
  let h : Handle := ⟨i, (s.entry i).gen⟩
  let s := s.modEntry i fun e => { e with state := .free }
  let s := s.setAlloc
    (if d.scrub then s.alloc.giveToScrub d.runs d.blocks else s.alloc.giveBack d.runs d.blocks)
  let s := s.startScrub.modPart i fun _ => none
  s.postBackground (fun b => b.kind == 3 && b.handle == h) .ok [handleWord h, numberWord d.blocks, numberWord (bit d.scrub)]

/-- DRAIN_END: the drain-end update of the entry whose drain condition came to hold first (R24, R174). -/
def execDrainEnd (s : State) : Host.Outcome State Fault Refusal :=
  match s.cmd.drainEnds with
  | [] => noEvent s
  | i :: rest =>
    if s.portTurn = some .commandEngine then
      let s := { s with cmd := { s.cmd with drainEnds := rest } }
      match (s.entry i).state with
      | .retiring d => settled ((s.served .commandEngine).drainEndAt i d)
      | _ => settled s
    else noEvent s

/-! ## INSPECT -/

/-- The data words of part 0 (R26, 11.4). -/
def inspectHeader (e : Entry) (d : Desc) : List Word :=
  let corner (f g : Rect → Nat) : Word := match d.clip with
    | some c => place 0 (f c) ||| place 16 (g c)
    | none => 0
  [ place 0 d.format.code ||| place 8 (bit d.clip.isSome) ||| place 9 (bit d.scrub) ||| place 16 (rightsCode d.rights),
    place 0 d.width ||| place 16 d.height,
    place 0 d.pitch ||| place 16 d.blocks,
    corner Rect.x0 Rect.y0,
    corner Rect.x1 Rect.y1,
    place 0 d.ceiling ||| place 16 e.stamp.toNat,
    numberWord e.inFlight ]

/-- The data words of part 1 (R26, 11.4). -/
def inspectRuns (d : Desc) : List Word :=
  numberWord d.runs.length :: d.runs.map fun r => place 0 r.first ||| place 16 r.length

/-- A holder in part 2: its client and whether it is RELEASING (11.4). -/
def holderWord (p : Client × Claim) : Word :=
  place 0 (clientNumber p.1) ||| place 8 (bit (p.2.state != .held))

/-- The data words of part 2: the writer, the reader set by ascending client, and the wait queue (R26, 11.4). -/
def State.inspectClaims (s : State) (i : BitVec 8) : List Word :=
  let writer := (s.holders i).find? fun p => p.2.mode == .write
  let readers := (s.holders i).filter fun p => p.2.mode == .read
  let waiting := (s.queue i).map fun c =>
    place 0 (clientNumber c) ||| place 8 (match s.findClaim c i with
      | some (_, cl) => cl.mode.code
      | none => 0)
  (match writer with
   | some p => holderWord p
   | none => 0xFF)
  :: numberWord readers.length :: readers.map holderWord ++ numberWord waiting.length :: waiting

/-- The inspection buffer filled whole: the two header words and the data words; words beyond the count read 0 (R25,
11.4). -/
def State.fillInspection (r : CmdRecord) (state : Byte) (gen : BitVec 8) (data : List Word) (s : State) : State :=
  let index := field r.stage[0] 0 8
  let part := field r.stage[0] 8 8
  let words : List Word :=
    (place 0 r.tag.toNat ||| place 8 index ||| place 16 part ||| place 24 state.toNat)
    :: (place 0 gen.toNat ||| place 8 data.length) :: data
  let s := { s with table := { s.table with inspection := Vector.ofFn fun k : Fin 32 => words.getD k.val 0 } }
  s.post .ok [place 0 index ||| place 8 state.toNat ||| place 16 gen.toNat ||| place 24 part]

/-- The service of an INSPECT by the arbiter (R25). Part 2 of a LIVE or RETIRING entry then reads the claim part at an
event at the Claim Engine. -/
def State.inspectService (r : CmdRecord) (x : Extent) (s : State) : State :=
  let i := r.stage[0].extractLsb' 0 8
  let s := s.served .commandEngine
  let e := s.entry i
  match e.state.desc with
  | none => s.fillInspection r e.state.code e.gen []
  | some d =>
    match field r.stage[0] 8 8 with
    | 0 => s.fillInspection r e.state.code e.gen (inspectHeader e d)
    | 1 => s.fillInspection r e.state.code e.gen (inspectRuns d)
    | _ =>
      match x with
      | .whole => s.fillInspection r e.state.code e.gen (s.inspectClaims i)
      | .firstEvent => s.setStage (.inspectRead e.state.code e.gen)

/-- INSPECT (R25, R26). Part 2 of an entry whose drain end is served between its two events is reported with the header
that was read and with no holder and no waiting claim (DESIGN CHOICE, log 54). -/
def execInspect (x : Extent) (s : State) : Host.Outcome State Fault Refusal :=
  match s.executingAs .inspect with
  | some (r, .inspectRead state gen) =>
    settled (s.fillInspection r state gen (s.inspectClaims (r.stage[0].extractLsb' 0 8)))
  | some (r, .fresh) =>
    if field r.stage[0] 0 8 = 0 then settled (s.post .badParam [1])
    else if 2 < field r.stage[0] 8 8 then settled (s.post .badParam [2])
    else if s.portTurn = some .commandEngine then settled (s.inspectService r x) else noEvent s
  | _ => noEvent s

/-! ## CHANGES -/

/-- CHANGES: answered at one event at the Change Tracker (R79). -/
def execChanges (s : State) : Host.Outcome State Fault Refusal :=
  match s.executingAs .changes with
  | some (r, .fresh) =>
    let h := stagedHandle r.stage
    match s.partOf h with
    | none => settled (s.post .staleHandle [])
    | some p =>
      let a := p.answer (s.height h.index) r.stage[1]
      settled (s.post .ok [place 0 a.1.code ||| place 8 (bit p.tornFlag), p.sequence,
        a.2.extractLsb' 0 32, a.2.extractLsb' 32 32])
  | _ => noEvent s

/-! ## RESOLVE -/

/-- A link's fault record, wherever it stands in the queue (7.7). -/
def State.recordOf (s : State) (n : LinkId) : Option FaultRecord := s.faults.queue.find? fun r => r.link == n

/-- What the checks of R130 make of an executing RESOLVE at the step of the action given. -/
inductive ResolveStart where
  /-- No RESOLVE with this action is at its first event. -/
  | none
  /-- Refused at a check of R130, with its outcome and result words. -/
  | refused (v : Verdict) (ws : List Word)
  /-- Passed: the link and its record. -/
  | passed (n : LinkId) (r : FaultRecord)
  deriving DecidableEq, Repr

/-- The checks of RESOLVE in their order (R130). A RESOLVE whose action names none is completed by any of the three
RESOLVE steps (log 18). With the link and the action both out of range, the link's number is reported (DEDUCED, log
57). -/
def State.resolveStart (s : State) (a : ResolveAction) : ResolveStart :=
  match s.executingAs .resolve with
  | some (r, .fresh) =>
    if (resolveAction r.stage).any fun b => b != a then .none
    else
      match resolveLink r.stage, resolveAction r.stage with
      | Option.none, _ => .refused .badParam [1]
      | some _, Option.none => .refused .badParam [2]
      | some n, some _ =>
        match s.recordOf n with
        | Option.none => .refused .noFault []
        | some rec' => if (s.link n).state = .teardown then .refused .noFault [] else .passed n rec'
  | _ => .none

/-- RESOLVE RETRY is taken: the record leaves the queue and the stream becomes RETRYING (R130, R131). -/
def State.beginRetry (n : LinkId) (r : FaultRecord) (s : State) : State :=
  ((s.removeRecord n).modFaults n fun f => { f with stream := .retrying }).setStage (.retrying n r)

/-- RESOLVE_RETRY (R131, R132): the taking, then the retried judging. -/
def execResolveRetry (x : Extent) (s : State) : Host.Outcome State Fault Refusal :=
  match s.resolveStart .retry with
  | .refused v ws => settled (s.post v ws)
  | .passed n r =>
    match x with
    | .whole => settled ((s.beginRetry n r).judgeHead n)
    | .firstEvent => settled (s.beginRetry n r)
  | .none =>
    match s.executingAs .resolve with
    | some (_, .retrying n _) => if s.mayJudge n then settled (s.judgeHead n) else noEvent s
    | _ => noEvent s

/-- The held burst is answered with ACCESS_ERROR and the kind of its record (R133). -/
def Lane.answerHead (kind : LinkCode) (l : Lane) : Lane :=
  match l.accessQ with
  | [] => l
  | b :: _ => l.toResponses (.ready b.tag b.session (.accessError kind))

/-- RESOLVE SKIP (R133). -/
def State.skip (n : LinkId) (r : FaultRecord) (s : State) : State :=
  let s := (s.removeRecord n).modLane n (Lane.answerHead r.kind)
  let s := s.modFaults n fun f => { f with stream := .flowing }
  ((s.post .ok (resolveWords n .skip r 1)).sendResumed n r.tag .skip 1).releaseResponses n

/-- RESOLVE_SKIP (R133). -/
def execResolveSkip (s : State) : Host.Outcome State Fault Refusal :=
  match s.resolveStart .skip with
  | .refused v ws => settled (s.post v ws)
  | .passed n r => settled (s.skip n r)
  | .none => noEvent s

/-- The held burst and every burst behind it answered: the first with the kind of the record, the others FLUSHED
(R134). -/
def Lane.answerAll (kind : LinkCode) (l : Lane) : Lane :=
  match l.accessQ with
  | [] => l
  | b :: rest =>
    { l with
      accessQ := []
      responseQ := l.responseQ ++ .ready b.tag b.session (.accessError kind)
        :: rest.map fun b => .ready b.tag b.session (.accessError .flushed) }

/-- RESOLVE FLUSH (R134). -/
def State.flush (n : LinkId) (r : FaultRecord) (s : State) : State :=
  let count := (s.lane n).accessQ.length
  let s := (s.removeRecord n).modLane n (Lane.answerAll r.kind)
  let s := s.modFaults n fun f => { f with stream := .flowing }
  ((s.post .ok (resolveWords n .flush r count)).sendResumed n r.tag .flush count).releaseResponses n

/-- RESOLVE_FLUSH (R134). -/
def execResolveFlush (s : State) : Host.Outcome State Fault Refusal :=
  match s.resolveStart .flush with
  | .refused v ws => settled (s.post v ws)
  | .passed n r => settled (s.flush n r)
  | .none => noEvent s

/-! ## REVOKE -/

/-- The claims that REVOKE's target selects (R47). -/
def Target.selects (t : Target) (c : Client) (_ : Claim) : Bool :=
  match t with
  | .all => true
  | .link n => c == .link n

/-- REVOKE's event at the Claim Engine (R47, R178). The completion of a fill that it ends at this event stands before
REVOKE's own, and that of a fill that it lets in and that ends DONE at once (R142, R144) behind it (DESIGN CHOICE, log
49). -/
def State.revokeNow (r : CmdRecord) (s : State) : State :=
  match revokeTarget r.stage with
  | none => s.post .badParam [2]
  | some t =>
    let h := stagedHandle r.stage
    let count := s.affected h.index t.selects
    (s.revoke h.index .host t.selects).post .ok [numberWord count, handleWord h]

/-- The service of a REVOKE by the arbiter: the handle checks (R178). -/
def State.revokeService (r : CmdRecord) (x : Extent) (s : State) : State :=
  let s := s.served .commandEngine
  match s.classify (stagedHandle r.stage) with
  | .stale => s.post .staleHandle []
  | .retiring _ => s.post .notLive []
  | .current _ =>
    match x with
    | .whole => s.revokeNow r
    | .firstEvent => s.setStage .revokeChecked

/-- REVOKE (R47, R178). -/
def execRevoke (x : Extent) (s : State) : Host.Outcome State Fault Refusal :=
  match s.executingAs .revoke with
  | some (r, .revokeChecked) => settled (s.revokeNow r)
  | some (r, .fresh) =>
    if (revokeTarget r.stage).isNone then settled (s.post .badParam [2])
    else if (stagedHandle r.stage).index = 0 then settled (s.post .staleHandle [])
    else if s.portTurn = some .commandEngine then settled (s.revokeService r x) else noEvent s
  | _ => noEvent s

/-! ## SPACE -/

/-- SPACE's result words (R96, 11.3). -/
def Allocator.report (a : Allocator) : List Word :=
  [ place 0 a.free ||| place 16 a.owned,
    place 0 a.scrubbing ||| place 16 a.retiringOwned,
    place 0 a.freeRuns.length ||| place 16 a.largestFree ]

/-- SPACE: answered at one event at the Block Allocator (R96). -/
def execSpace (s : State) : Host.Outcome State Fault Refusal :=
  match s.executingAs .space with
  | some (_, .fresh) => settled (s.post .ok s.alloc.report)
  | _ => noEvent s

/-! ## FILL and STOP_FILL -/

/-- An accepted FILL: the job and the copy are written, the status takes the new job, the claim is requested, and the
command becomes background (R140, R147, R174). -/
def State.acceptFill (r : CmdRecord) (d : Desc) (s : State) : State :=
  let p := fillParams r.stage
  let job : FillJob := {
    tag := r.tag, handle := p.handle, x := p.x, y := p.y, w := p.w, h := p.h, value := p.value,
    publish := p.publish, waitLimit := p.waitLimit, nextRow := p.y, nextX := p.x, burst := none, stop := false,
    copy := copyOf p.handle (s.entry p.handle.index).stamp d, outdated := false, reading := false,
    withdrawAsked := false, withdrawTaken := false }
  let s := { s.setLine (s.claims.line ++ [.fill]) with fill := ⟨.waiting, some job, r.tag, p.handle, 0⟩ }
  s.toBackground p.handle

/-- The read of a FILL at its service by the arbiter, and checks 2 to 4 (R140). -/
def State.fillService (r : CmdRecord) (s : State) : State :=
  let p := fillParams r.stage
  let s := s.served .fillEngine
  match s.classify p.handle with
  | .stale => s.post .staleHandle []
  | .retiring _ => s.post .notLive []
  | .current d =>
    if p.w = 0 ∨ p.h = 0 ∨ d.width < p.x + p.w ∨ d.height < p.y + p.h then s.post .bounds []
    else s.acceptFill r d

/-- FILL (R140). -/
def execFill (s : State) : Host.Outcome State Fault Refusal :=
  match s.executingAs .fill with
  | some (r, .fresh) =>
    if s.fill.state ≠ .idle then settled (s.post (.busy .engine) [1])
    else if (stagedHandle r.stage).index = 0 then settled (s.post .staleHandle [])
    else if s.portTurn = some .fillEngine then settled (s.fillService r) else noEvent s
  | _ => noEvent s

/-- Whether a withdrawal that STOP_FILL asked for has not yet been taken at the Claim Engine (R145). -/
def State.withdrawalDue (s : State) : Bool :=
  match s.fill.job with
  | some j => j.withdrawAsked && !j.withdrawTaken
  | none => false

/-- STOP_FILL in WAITING: the stop is recorded, the withdrawal asked for, and the engine enters DRAINING (R145). -/
def State.stopWaiting (x : Extent) (s : State) : State :=
  let s := ((s.modJob fun j => { j with stop := true, withdrawAsked := true }).setFillState .draining).post .ok []
  match x with
  | .whole => s.fillWithdraw
  | .firstEvent => s

/-- STOP_FILL in WRITING: the stop is recorded, no further burst is issued, and the claim is released PLAIN unless a
revocation has made it RELEASING already (R145). STOP_FILL's completion stands before that of a fill whose claim ends at
this event (DESIGN CHOICE, log 49). -/
def State.stopWriting (s : State) : State :=
  let s := ((s.modJob fun j => { j with stop := true }).setFillState .draining).post .ok []
  if s.claims.filler.any fun cl => cl.state == .held then s.releaseClaim .fill 0 .plain 0 else s

/-- STOP_FILL (R145): at the engine, by its state; and the withdrawal it has asked for, when that is still due. Where a
withdrawal is due and another STOP_FILL executes, the operand says which comes first: `whole` finishes the row begun
before, `firstEvent` is the new one's event at the engine (R145 gives no order; log 44). -/
def execStopFill (x : Extent) (s : State) : Host.Outcome State Fault Refusal :=
  match s.executingAs .stopFill with
  | some (_, .fresh) =>
    if s.withdrawalDue = true ∧ x = .whole then settled s.fillWithdraw
    else
      match s.fill.state with
      | .idle => settled (s.post .notRunning [])
      | .draining => settled (s.post .notRunning [])
      | .waiting => settled (s.stopWaiting x)
      | .writing => settled s.stopWriting
  | _ => if s.withdrawalDue then settled s.fillWithdraw else noEvent s

/-! ## A kind code that names no command -/

/-- UNKNOWN_COMMAND (R173). -/
def execUnknownCommand (s : State) : Host.Outcome State Fault Refusal :=
  match s.cmd.executing with
  | some e => if e.cmd.command = none then settled (s.post .unknownCommand []) else noEvent s
  | none => noEvent s

end Sys2Proof.Machine
end

