-- ==== Sys2Proof/Machine/Frames.lean ====
section
/-! DEFINITION. The frames that arrive on a link (9.2, 9.3, 9.5): ATTACH, control requests, READ and WRITE. -/

namespace Sys2Proof.Machine

/-! ## Arrival by link state (R150, R152) -/

/-- A message arrives on link `n`: its header is read, and the command that it is waits behind those that have come
before it, in the order of arrival (R154, R187). -/
def State.receive (n : LinkId) (bytes : List Byte) (s : State) : State :=
  { s with pending := s.pending ++ (messageCommand n bytes).toList }

/-- A frame dropped in OFFLINE sets NOT_ATTACHED (R152). -/
def State.dropOffline (n : LinkId) (s : State) : State :=
  s.modLink n fun l => { l with events := l.events ||| notAttachedBit }

/-- A protocol error: the frame is dropped and teardown begins with cause PROTOCOL (R160). -/
def State.protocolError (n : LinkId) (s : State) : State := s.takeCause n .protocol

/-- A frame other than ATTACH arrives (R150, R152): what an ONLINE link does with it is the argument; OFFLINE drops it
with NOT_ATTACHED, and DISABLED and TEARDOWN drop it. -/
def State.frameArrives (n : LinkId) (online : State → State) (s : State) : State :=
  match (s.link n).state with
  | .online => online s
  | .offline => s.dropOffline n
  | .disabled => s
  | .teardown => s

/-! ## ATTACH (R153) -/

/-- An ATTACH accepted in OFFLINE, all at one event (R153). -/
def State.attach (n : LinkId) (identity : Word) (s : State) : State :=
  let s := s.modLink n fun l => { l with
    session := l.session + 1
    identity := identity
    ctrlCredits := 4
    accCredits := 8
    state := .online }
  s.handOver n ⟨0, (s.link n).session, false, .attached 4 8⟩

/-- ATTACH (R150, R152 to R154). In OFFLINE a frame that is not of ATTACH's layout is dropped with NOT_ATTACHED
(log 41). -/
def execAttach (n : LinkId) (f : Frame) (s : State) : Host.Outcome State Fault Refusal :=
  match (s.link n).state with
  | .offline => match parseAttach f with
    | some identity => settled (s.attach n identity)
    | none => settled (s.dropOffline n)
  | .online => settled (s.protocolError n)
  | .disabled => settled s
  | .teardown => settled s

/-! ## Control requests (R154, R155) -/

/-- A control request arrives on an ONLINE link: checks 1 and 3 of R154, then its credit and its place in the control
request list (R155, R156). -/
def State.takeControl (n : LinkId) (k : ControlKind) (f : Frame) (s : State) : State :=
  match parseControl k f with
  | none => s.protocolError n
  | some r =>
    if (s.link n).ctrlCredits = 0 then s.protocolError n
    else s.modLink n fun l => { l with ctrlCredits := l.ctrlCredits - 1, requests := l.requests ++ [r] }

/-- CONTROL_REQUEST (R152, R154). -/
def execControlRequest (n : LinkId) (k : ControlKind) (f : Frame) (s : State) : Host.Outcome State Fault Refusal :=
  settled (s.frameArrives n (State.takeControl n k f))

/-- UNDEFINED_KIND_FRAME (R152, R154, R160). -/
def execUndefinedKindFrame (n : LinkId) (kind : Byte) (s : State) : Host.Outcome State Fault Refusal :=
  if clientKinds.contains kind then noEvent s else settled (s.frameArrives n (State.protocolError n))

/-! ## READ and WRITE (R154, R157) -/

/-- What the length check of a WRITE can go by when the frame is taken (R157). -/
inductive WriteFormat where
  /-- The format is that of the write slot. -/
  | known (bpp : Nat)
  /-- Index 0: no format is known, and check 4 is passed. -/
  | unknown
  /-- The record must be read first. -/
  | mustRead
  deriving DecidableEq, Repr

/-- How a WRITE's format is found (R157). -/
def State.writeFormat (s : State) (n : LinkId) (b : Burst) : WriteFormat :=
  match (s.lane n).writeSlot with
  | some c =>
    if c.handle = b.handle then .known c.format.bpp
    else if b.handle.index = 0 then .unknown else .mustRead
  | none => if b.handle.index = 0 then .unknown else .mustRead

/-- Check 4 of R154 against a format. -/
def Burst.lengthRight (b : Burst) (bpp : Nat) : Bool := b.data.length == b.n * bpp

/-- A READ or WRITE that has passed R154 uses its credit and joins the access queue (R101, R157). -/
def State.enqueueBurst (n : LinkId) (b : Burst) (s : State) : State :=
  (s.modLink n fun l => { l with accCredits := l.accCredits - 1 }).modLane n fun l =>
    { l with accessQ := l.accessQ ++ [b] }

/-- A WRITE whose format is not known: check 4 is passed, and the burst faults STALE_HANDLE when it is judged (R157). -/
def Burst.unformatted (b : Burst) : Burst := { b with formatless := true }

/-- The outcome of check 4. -/
def State.afterLength (n : LinkId) (b : Burst) (ok : Bool) (s : State) : State :=
  if ok then s.enqueueBurst n b else s.protocolError n

/-- A WRITE begins to wait for its length check, with the frames behind it, and its reload is requested (R157). -/
def State.awaitLength (n : LinkId) (frames : List AccessFrame) (s : State) : State :=
  (s.modLink n fun l => { l with arrivals := frames }).modLane n fun l => { l with reloads := l.reloads ++ [.length] }

/-- READ and WRITE frames taken in arrival order on an ONLINE link (R154, R157) until one must wait for its length
check; a protocol error ends the session and drops the rest. -/
def State.takeArrivals (n : LinkId) : List AccessFrame → State → State
  | [], s => s
  | f :: rest, s =>
    if (s.link n).state != .online then s
    else
      match parseAccess (s.link n).session f with
      | none => s.protocolError n
      | some b =>
        if (s.link n).accCredits = 0 then s.protocolError n
        else
          match b.dir with
          | .read => State.takeArrivals n rest (s.enqueueBurst n b)
          | .write =>
            match s.writeFormat n b with
            | .known bpp => State.takeArrivals n rest (s.afterLength n b (b.lengthRight bpp))
            | .unknown => State.takeArrivals n rest (s.enqueueBurst n b.unformatted)
            | .mustRead => s.awaitLength n (f :: rest)

/-- A READ or WRITE arrives on an ONLINE link; it waits behind a WRITE that waits for its length check (R157). -/
def State.accessArrives (n : LinkId) (f : AccessFrame) (s : State) : State :=
  if (s.link n).arrivals.isEmpty then s.takeArrivals n [f]
  else s.modLink n fun l => { l with arrivals := l.arrivals ++ [f] }

/-- READ (R100, R152, R154). -/
def execRead (n : LinkId) (f : Frame) (s : State) : Host.Outcome State Fault Refusal :=
  settled (s.frameArrives n (State.accessArrives n ⟨.read, f⟩))

/-- WRITE (R100, R152, R154, R157). -/
def execWrite (n : LinkId) (f : Frame) (s : State) : Host.Outcome State Fault Refusal :=
  settled (s.frameArrives n (State.accessArrives n ⟨.write, f⟩))

end Sys2Proof.Machine
end

