-- ==== Sys2Proof/Machine/ClaimSteps.lean ====
section
/-! DEFINITION. The steps of a link's control requests (chapters 2 and 3, 4.3, 9.6), of its session, and of the lease
tick. A step whose request is not at the head of its list, or not at the head of its line, does not occur. -/

namespace Sys2Proof.Machine

/-! ## Requests taken and decided (R155) and the Claim Engine's line (R32) -/

/-- The request that the link controller takes next: the head of the list when none is undecided (R155). -/
def State.nextRequest (s : State) (n : LinkId) : Option CtrlReq :=
  if (s.link n).progress.isNone then (s.link n).requests.head? else none

/-- The head of the control request list is taken; how far it is then stands in `progress` (R155). -/
def State.takeRequest (n : LinkId) (p : Option Progress) (s : State) : State :=
  s.modLink n fun l => { l with requests := l.requests.tail, progress := p }

/-- A request is taken and its read joins the Claim Engine's line (R32). -/
def State.joinLine (n : LinkId) (r : CtrlReq) (s : State) : State :=
  let s := s.takeRequest n (some .reading)
  s.setLine (s.claims.line ++ [.link n (s.link n).session r false])

/-- The request of link `n` whose read the arbiter serves next for the Claim Engine: the session it was taken in, the
request, and whether it is withdrawn (R12, R32, R162). -/
def State.lineTurn (s : State) (n : LinkId) : Option (BitVec 8 × CtrlReq × Bool) :=
  match s.claims.line with
  | .link m session r w :: _ => if m = n ∧ s.portTurn = some .claimEngine then some (session, r, w) else none
  | _ => none

/-- The read at the head of the line is served. -/
def State.popLine (s : State) : State :=
  (s.served .claimEngine).setLine s.claims.line.tail

/-- A request has been decided (R155). -/
def State.decided (n : LinkId) (s : State) : State := s.modLink n fun l => { l with progress := none }

/-- A control response is handed over (R156, R159). -/
def State.respond (n : LinkId) (tag : Byte) (session : BitVec 8) (b : Body) (s : State) : State :=
  s.handOver n ⟨tag, session, false, b⟩

/-! ## CLAIM (R32, R33) -/

/-- The checks of R32 against the read of the record, in their order: the reason of the refusal, or nothing. -/
def State.claimRefusal (s : State) (n : LinkId) (h : Handle) (mode : Mode) (lease : Nat) : Option LinkCode :=
  match s.classify h with
  | .stale => some .staleHandle
  | .retiring _ => some .notLive
  | .current d =>
    if d.rights[n.val] = .none ∨ (mode = .write ∧ d.rights[n.val] = .read) then some .noRight
    else if (s.findClaim (.link n) h.index).isSome then some .duplicate
    else if (s.emptySlot (.link n)).isNone then some .tableFull
    else if 0 < d.ceiling ∧ (lease = 0 ∨ d.ceiling < lease) then some .leaseRange
    else none

/-- The claim that R33 writes, HELD or WAITING. R28 gives no lease remaining to a WAITING claim and no wait remaining
to a HELD one: both are 0 here (DESIGN CHOICE, log 47); nor is a RELEASE's tag known yet: 0 too (DESIGN CHOICE, log
55). -/
def Claim.new (h : Handle) (mode : Mode) (held : Bool) (lease wait : Nat) (tag : Byte) (session : BitVec 8) : Claim where
  handle := h
  mode := mode
  state := if held then .held else .waiting
  leaseLen := lease
  leaseLeft := if held then lease else 0
  warned := false
  token := 0
  waitLimit := wait
  waitLeft := if held then 0 else wait
  outstanding := 0
  tag := tag
  session := session
  releaseTag := 0

/-- The three outcomes of R33. -/
inductive Placement where
  | grant (k : Fin 16)
  | busy
  | queue (k : Fin 16)
  deriving DecidableEq, Repr

/-- The decision of R33 for a client whose claim passes R32. -/
def State.placement (s : State) (c : Client) (i : BitVec 8) (mode : Mode) (wait : Nat) : Placement :=
  match s.emptySlot c with
  | none => .busy
  | some k =>
    if (s.queue i).isEmpty && s.compatible i mode then .grant k
    else if wait = 0 then .busy
    else .queue k

/-- The decision of a link's CLAIM at its read (R32, R33). -/
def State.claimDecision (n : LinkId) (tag : Byte) (session : BitVec 8) (h : Handle) (mode : Mode) (lease wait : Nat)
    (s : State) : State :=
  match s.claimRefusal n h mode lease with
  | some reason => s.respond n tag session (.refused reason 0)
  | none =>
    match s.placement (.link n) h.index mode wait with
    | .busy => s.respond n tag session (.refused .busy 0)
    | .grant k =>
      let cl := Claim.new h mode true lease wait tag session
      let s := s.setClaim (.link n) k (some cl)
      s.handOver n (s.grantedMessage k cl false)
    | .queue k =>
      let s := s.setClaim (.link n) k (some (Claim.new h mode false lease wait tag session))
      let s := s.modQueue h.index fun q => q ++ [.link n]
      s.respond n tag session (.queued k.val (s.queue h.index).length)

/-- The service of the read of a CLAIM; a withdrawn one is discarded without effect (R162). -/
def State.serveClaim (n : LinkId) (session : BitVec 8) (tag : Byte) (h : Handle) (mode : Mode) (lease wait : Nat)
    (withdrawn : Bool) (s : State) : State :=
  if withdrawn then s.popLine else (s.popLine.decided n).claimDecision n tag session h mode lease wait

/-- CLAIM (R32, R33, R155): the taking, then the decision at the arbiter service of the record read. A handle with index
0 is refused at the taking (R9; log 14). -/
def execClaim (n : LinkId) (x : Extent) (s : State) : Host.Outcome State Fault Refusal :=
  match s.lineTurn n with
  | some (session, .claim tag h mode lease wait, w) => settled (s.serveClaim n session tag h mode lease wait w)
  | _ =>
    match s.nextRequest n with
    | some (.claim tag h mode lease wait) =>
      if h.index = 0 then
        settled ((s.takeRequest n none).respond n tag (s.link n).session (.refused .staleHandle 0))
      else
        let s := s.joinLine n (.claim tag h mode lease wait)
        match x, s.lineTurn n with
        | .whole, some (session, .claim tag h mode lease wait, w) =>
          settled (s.serveClaim n session tag h mode lease wait w)
        | _, _ => settled s
    | _ => noEvent s

/-! ## RELEASE (R41) -/

/-- The claim in a slot that a message names by number. -/
def State.slotClaim (s : State) (n : LinkId) (slot : Nat) : Option (Fin 16 × Claim) :=
  if h : slot < 16 then (s.claimAt (.link n) ⟨slot, h⟩).map fun cl => (⟨slot, h⟩, cl) else none

/-- The slot's claim when it is HELD. -/
def State.heldSlot (s : State) (n : LinkId) (slot : Nat) : Option (Fin 16 × Claim) :=
  (s.slotClaim n slot).filter fun p => p.2.state == .held

/-- The decision of a RELEASE (R41). -/
def State.releaseDecision (n : LinkId) (tag : Byte) (slot : Nat) (publish : Bool) (s : State) : State :=
  match s.heldSlot n slot with
  | none => s.respond n tag (s.link n).session (.refused .notHeld 0)
  | some (k, cl) =>
    if publish = true ∧ cl.mode = .read then s.respond n tag (s.link n).session (.refused .badMode 0)
    else s.releaseClaim (.link n) k (if publish then .publish else .plain) tag

/-- RELEASE (R41, R155). -/
def execRelease (n : LinkId) (s : State) : Host.Outcome State Fault Refusal :=
  match s.nextRequest n with
  | some (.release tag slot publish) => settled ((s.takeRequest n none).releaseDecision n tag slot publish)
  | _ => noEvent s

/-! ## RENEW (R59, R60) -/

/-- A claim as an accepted RENEW leaves it (R60). -/
def Claim.renewed (cl : Claim) (newLen : Option Nat) : Claim :=
  { cl with
    leaseLen := newLen.getD cl.leaseLen
    leaseLeft := newLen.getD cl.leaseLen
    token := cl.token + 1
    warned := false }

/-- The lease ceiling in the record that a claim's handle names. -/
def State.ceilingOf (s : State) (h : Handle) : Nat :=
  match (s.entry h.index).state.desc with
  | some d => d.ceiling
  | none => 0

/-- Check 4 of R59 fails. -/
def renewOutOfRange (newLen : Option Nat) (ceiling : Nat) : Bool :=
  newLen.any fun l => l == 0 || (decide (0 < ceiling) && decide (ceiling < l))

/-- The decision of a RENEW against its slot (R59, R60). -/
def State.renewDecision (n : LinkId) (session : BitVec 8) (tag : Byte) (slot : Nat) (token : BitVec 8)
    (newLen : Option Nat) (s : State) : State :=
  match s.heldSlot n slot with
  | none => s.respond n tag session (.refused .notHeld 0)
  | some (k, cl) =>
    if cl.leaseLen = 0 then s.respond n tag session (.refused .noLease 0)
    else if token ≠ cl.token then s.respond n tag session (.refused .staleToken cl.token)
    else if renewOutOfRange newLen (s.ceilingOf cl.handle) then s.respond n tag session (.refused .leaseRange 0)
    else
      let cl' := cl.renewed newLen
      (s.setClaim (.link n) k (some cl')).respond n tag session (.renewed k.val cl'.handle cl'.token cl'.leaseLen)

/-- The service of the read of a RENEW with a new length; a withdrawn one leaves its lease as it was (R162). -/
def State.serveRenew (n : LinkId) (session : BitVec 8) (tag : Byte) (slot : Nat) (token : BitVec 8)
    (newLen : Option Nat) (withdrawn : Bool) (s : State) : State :=
  if withdrawn then s.popLine else (s.popLine.decided n).renewDecision n session tag slot token newLen

/-- RENEW (3.5, R59, R60, R155): decided at its taking, or, with a new length for a HELD claim, at the service of its
read. -/
def execRenew (n : LinkId) (x : Extent) (s : State) : Host.Outcome State Fault Refusal :=
  match s.lineTurn n with
  | some (session, .renew tag slot token newLen, w) => settled (s.serveRenew n session tag slot token newLen w)
  | _ =>
    match s.nextRequest n with
    | some (.renew tag slot token newLen) =>
      if newLen.isSome && (s.heldSlot n slot).isSome then
        let s := s.joinLine n (.renew tag slot token newLen)
        match x, s.lineTurn n with
        | .whole, some (session, .renew tag slot token newLen, w) =>
          settled (s.serveRenew n session tag slot token newLen w)
        | _, _ => settled s
      else settled ((s.takeRequest n none).renewDecision n (s.link n).session tag slot token newLen)
    | _ => noEvent s

/-! ## CHANGES of a link (R76 to R78) -/

/-- The checks of R76 against the read of the record; one that passes goes on to the Change Tracker. -/
def State.changesDecision (n : LinkId) (session : BitVec 8) (tag : Byte) (h : Handle) (since : Word)
    (s : State) : State :=
  let permitted (d : Desc) : State :=
    if d.rights[n.val] = .none then (s.decided n).respond n tag session (.refused .noRight 0)
    else s.modLink n fun l => { l with progress := some (.answering tag h since) }
  match s.classify h with
  | .stale => (s.decided n).respond n tag session (.refused .staleHandle 0)
  | .current d => permitted d
  | .retiring d => permitted d

/-- The service of the read of a CHANGES; a withdrawn one is discarded (R162). -/
def State.serveChanges (n : LinkId) (session : BitVec 8) (tag : Byte) (h : Handle) (since : Word) (withdrawn : Bool)
    (s : State) : State :=
  if withdrawn then s.popLine else s.popLine.changesDecision n session tag h since

/-- CHANGES_QUERY (R76): the taking, then the checks at the arbiter service of the record read. A handle with index 0 is
refused at the taking (R9; log 14). -/
def execChangesQuery (n : LinkId) (x : Extent) (s : State) : Host.Outcome State Fault Refusal :=
  match s.lineTurn n with
  | some (session, .changes tag h since, w) => settled (s.serveChanges n session tag h since w)
  | _ =>
    match s.nextRequest n with
    | some (.changes tag h since) =>
      if h.index = 0 then
        settled ((s.takeRequest n none).respond n tag (s.link n).session (.refused .staleHandle 0))
      else
        let s := s.joinLine n (.changes tag h since)
        match x, s.lineTurn n with
        | .whole, some (session, .changes tag h since, w) => settled (s.serveChanges n session tag h since w)
        | _, _ => settled s
    | _ => noEvent s

/-- The answer at the Change Tracker, or the refusal when the change part is gone (R76 to R78). -/
def State.changesAnswer (n : LinkId) (tag : Byte) (h : Handle) (since : Word) (s : State) : State :=
  match s.partOf h with
  | none => s.respond n tag (s.link n).session (.refused .staleHandle 0)
  | some p =>
    let a := p.answer (s.height h.index) since
    s.respond n tag (s.link n).session (.changeReport h a.1 p.tornFlag p.sequence a.2)

/-- CHANGES_ANSWER (R76 to R78). -/
def execChangesAnswer (n : LinkId) (s : State) : Host.Outcome State Fault Refusal :=
  match (s.link n).progress with
  | some (.answering tag h since) => settled ((s.decided n).changesAnswer n tag h since)
  | _ => noEvent s

/-! ## Session events (R158, R161 to R164) -/

/-- The taking of a DETACH (R155, R164). -/
def State.detach (n : LinkId) (tag : Byte) (s : State) : State :=
  ((s.takeRequest n none).modLink n fun l => { l with detachTag := tag }).takeCause n .detach

/-- DETACH (R155, R164). -/
def execDetach (n : LinkId) (s : State) : Host.Outcome State Fault Refusal :=
  match s.nextRequest n with
  | some (.detach tag) => settled (s.detach n tag)
  | _ => noEvent s

/-- LOST: a loss report from the physical layer (R152, R161). -/
def execLost (n : LinkId) (s : State) : Host.Outcome State Fault Refusal := settled (s.takeCause n .lost)

/-- TEARDOWN_REMOVAL (R163): it happens inside the event that ends the wait, when that event settles; as a command of
its own it acts where a teardown's wait is over (log 22). -/
def execTeardownRemoval (n : LinkId) (s : State) : Host.Outcome State Fault Refusal :=
  if s.teardownReady n then settled (s.finishTeardown n) else noEvent s

/-- Whether sending a message returns a control credit (R156). -/
def Message.returnsCredit (m : Message) : Bool :=
  !m.notice && match m.body with
    | .attached .. => false
    | .detached => false
    | _ => true

/-- The head of the control outbound queue goes to the physical layer (R156, R158). -/
def Link.sendControl (l : Link) : Link :=
  match l.ctrlOut with
  | [] => l
  | m :: rest => { l with
      ctrlOut := rest
      wire := m.bytes
      ctrlCredits := if m.returnsCredit then l.ctrlCredits + 1 else l.ctrlCredits }

/-- The head of the access outbound queue goes to the physical layer and its access credit returns (R157, R158). -/
def Link.sendAccess (l : Link) : Link :=
  match l.accOut with
  | [] => l
  | m :: rest => { l with accOut := rest, wire := m.bytes, accCredits := l.accCredits + 1 }

/-- The head of one of the two outbound queues is sent. -/
def Link.send (l : Link) : Channel → Link
  | .control => l.sendControl
  | .access => l.sendAccess

/-- OUTBOUND_SEND (R158). -/
def execOutboundSend (n : LinkId) (c : Channel) (s : State) : Host.Outcome State Fault Refusal :=
  if (s.link n).state = .online then settled (s.modLink n fun l => l.send c) else noEvent s

/-! ## Drain ends, expiry, timeout and the tick -/

/-- The drain of a RELEASING claim with nothing outstanding ends, when the condition on its kind holds. -/
def State.drainEndOf (kinds : ReleaseKind → Bool) (c : Client) (k : Fin 16) (s : State) : State :=
  match s.claimAt c k with
  | some cl =>
    match cl.state with
    | .releasing kind => if kinds kind then s.drainIfDone c k else s
    | _ => s
  | none => s

/-- The kinds PLAIN and PUBLISH. -/
def ReleaseKind.asked : ReleaseKind → Bool
  | .plain => true
  | .publish => true
  | .revoked _ => false

/-- CLAIM_DRAIN_END (R41): it happens inside the event that brings the outstanding count of the RELEASING claim to 0;
as a command of its own it acts where such a claim stands (log 22). -/
def execClaimDrainEnd (c : Client) (k : Fin 16) (s : State) : Host.Outcome State Fault Refusal :=
  settled (s.drainEndOf ReleaseKind.asked c k)

/-- REVOKED_DRAIN_END (R45), in the same way (log 22). -/
def execRevokedDrainEnd (c : Client) (k : Fin 16) (s : State) : Host.Outcome State Fault Refusal :=
  settled (s.drainEndOf (fun r => !r.asked) c k)

/-- One microsecond of the reference clock (R52): the tick after the count has gone from 0 through the interval's
TICK_DIV. It is what a step does when no command waits (log 1). -/
def State.microsecond (s : State) : State :=
  if s.cmd.micros < s.cmd.interval.toNat then { s with cmd := { s.cmd with micros := s.cmd.micros + 1 } }
  else s.startInterval.leaseTick.settle

/-- TICK (R52, R53): the interval that is running ends here (log 2). -/
def execTick (s : State) : Host.Outcome State Fault Refusal := settled s.startInterval.leaseTick

/-- LEASE_EXPIRY (R57): it happens inside TICK; as a command of its own it acts on a HELD claim whose lease remaining is
0 (log 22). -/
def execLeaseExpiry (c : Client) (k : Fin 16) (s : State) : Host.Outcome State Fault Refusal :=
  match s.claimAt c k with
  | some cl => if cl.expired then settled ((s.expire (c, k)).afterLoss cl.handle.index) else noEvent s
  | none => noEvent s

/-- TIMED_OUT (R63), in the same way (log 22). -/
def execTimedOut (c : Client) (k : Fin 16) (s : State) : Host.Outcome State Fault Refusal :=
  match s.claimAt c k with
  | some cl => if cl.overdue then settled ((s.timeOut (c, k)).afterLoss cl.handle.index) else noEvent s
  | none => noEvent s

end Sys2Proof.Machine
end

