-- ==== Sys2Proof/Machine/AccessSteps.lean ====
section
/-! DEFINITION. The steps of a lane (06_pixel_access_path.md): judging, the service of a reload, and the completion of a
transaction. -/

namespace Sys2Proof.Machine

/-- BURST_JUDGING (R102, R104, R108, R109): the head burst is judged against its slot, or its reload is requested. -/
def execBurstJudging (n : LinkId) (s : State) : Host.Outcome State Fault Refusal :=
  if s.mayJudge n then settled (s.judgeHead n) else noEvent s

/-- The bytes per pixel that a WRITE's length check learns from the record (R157): none when its handle is stale. -/
def State.recordBpp (s : State) (h : Handle) : Option Nat :=
  match s.classify h with
  | .stale => none
  | .current d => some d.format.bpp
  | .retiring d => some d.format.bpp

/-- The service of a reload for the length check of the WRITE that waits (R157): the write slot is refilled or
emptied, the check is made, and the frames behind it are taken. So also while the stream is HELD or RETRYING, where
R129 has a held burst keep its slot as the fault left it (DEDUCED, log 59). -/
def State.reloadForLength (n : LinkId) (s : State) : State :=
  match (s.link n).arrivals with
  | [] => s
  | f :: rest =>
    let s := s.modLink n fun l => { l with arrivals := [] }
    match parseAccess (s.link n).session f with
    | none => s.protocolError n
    | some b =>
      let s' := s.refill n .write b.handle
      match s.recordBpp b.handle with
      | some bpp => (s'.afterLength n b (b.lengthRight bpp)).takeArrivals n rest
      | none => (s'.enqueueBurst n b.unformatted).takeArrivals n rest

/-- The service of a reload unit's request by the arbiter (R105, R157). -/
def State.reloadService (n : LinkId) (x : Extent) (s : State) : State :=
  match (s.lane n).reloads with
  | [] => s
  | job :: rest =>
    let s := (s.served (.reload n)).modLane n fun l => { l with reloads := rest }
    match job with
    | .judge => s.reloadForJudging n x
    | .length => s.reloadForLength n
    | .discarded => s

/-- RELOAD (R105, R157). -/
def execReload (n : LinkId) (x : Extent) (s : State) : Host.Outcome State Fault Refusal :=
  if s.portTurn = some (.reload n) then settled (s.reloadService n x) else noEvent s

/-- TRANSACTION_COMPLETION (R114, R115, R117, R118): the link's transaction in flight with the index given, oldest
first, ends; the error report counts for a read only (log 21). -/
def execTransactionCompletion (n : LinkId) (k : Nat) (err : Bool) (s : State) : Host.Outcome State Fault Refusal :=
  match (s.fmi.ofLane n)[k]? with
  | some t =>
    match t.owner with
    | .lane _ h => settled (s.laneCompletion n t h err)
    | _ => noEvent s
  | none => noEvent s

end Sys2Proof.Machine
end

