-- ==== Sys2Proof/Machine/FillSteps.lean ====
section
/-! DEFINITION. The steps of the Fill Engine and of the scrubber (08_fill_engine.md, 5.6). -/

namespace Sys2Proof.Machine

/-- The decision of the fill engine's claim at its read (R34, R141). Its slot holds the FILL's tag and session 0,
which no message carries (DESIGN CHOICE, log 48). -/
def State.fillClaimDecision (j : FillJob) (s : State) : State :=
  match s.classify j.handle with
  | .stale => s.fillEnd .staleHandle
  | .retiring _ => s.fillEnd .notLive
  | .current _ =>
    match s.placement .fill j.handle.index .write j.waitLimit with
    | .busy => s.fillEnd (.busy .surface)
    | .grant k => (s.setClaim .fill k (some (Claim.new j.handle .write true 0 j.waitLimit j.tag 0))).fillGranted
    | .queue k =>
      (s.setClaim .fill k (some (Claim.new j.handle .write false 0 j.waitLimit j.tag 0))).modQueue j.handle.index
        fun q => q ++ [.fill]

/-- The fill engine's claim request comes to be decided (R34); one withdrawn before is discarded, and the fill ends
(R145, R146). -/
def State.fillClaimService (s : State) : State :=
  let s := s.popLine
  match s.fill.job with
  | none => s
  | some j => if j.withdrawTaken then s.fillEnd .cancelled else s.fillClaimDecision j

/-- FILL_CLAIM (R34, R141). -/
def execFillClaim (s : State) : Host.Outcome State Fault Refusal :=
  match s.claims.line with
  | .fill :: _ => if s.portTurn = some .claimEngine then settled s.fillClaimService else noEvent s
  | _ => noEvent s

/-- The second read of the record for the next burst (R142, step 1): the copy is refreshed, and the burst is issued when
the event settles; on a stale or retiring record the engine enters DRAINING. An engine that has left WRITING meanwhile
makes no use of the read. -/
def State.fillReloadService (j : FillJob) (s : State) : State :=
  let s := (s.served .fillEngine).modJob fun j => { j with reading := false }
  if s.fill.state = .writing then
    match s.classify j.handle with
    | .current d =>
      s.modJob fun j => { j with copy := copyOf j.handle (s.entry j.handle.index).stamp d, outdated := false }
    | _ => s.setFillState .draining
  else s

/-- FILL_RELOAD (R142). -/
def execFillReload (s : State) : Host.Outcome State Fault Refusal :=
  match s.fill.job with
  | some j =>
    if j.reading = true ∧ s.portTurn = some .fillEngine then settled (s.fillReloadService j) else noEvent s
  | none => noEvent s

/-- FILL_COMPLETION (R143): the fill's transaction in flight with the index given, oldest first, ends; the next burst is
issued when the event settles. -/
def execFillCompletion (k : Nat) (s : State) : Host.Outcome State Fault Refusal :=
  match s.fmi.ofFill[k]? with
  | some t =>
    match t.owner with
    | .fill h => settled (s.fillTxnDone t h)
    | _ => noEvent s
  | none => noEvent s

/-- The completion of the scrubber's write (R94): its steps in order. -/
def State.scrubDone (t : Txn) (s : State) : State :=
  let s := (s.setFmi (s.fmi.finish t.id)).setAlloc (s.alloc.scrubbed (t.addr / 16384))
  let s := if s.alloc.scrubQueue.isEmpty then { s with cmd := { s.cmd with scrubIdle := true } } else s
  s.startScrub

/-- SCRUB_COMPLETION (R94). -/
def execScrubCompletion (s : State) : Host.Outcome State Fault Refusal :=
  match s.fmi.ofScrub with
  | some t => settled (s.scrubDone t)
  | none => noEvent s

end Sys2Proof.Machine
end

