-- ==== Sys2Proof/Machine/Window.lean ====
section
/-! DEFINITION. The host's reads: what every register of the window shows (11.6). A read changes nothing (R169), so it
is a function of the state and no command. -/

namespace Sys2Proof.Machine

/-- COMPL_HEAD0 to COMPL_HEAD5 (R176, 11.3); 0 on an empty queue. -/
def State.readComplHead (s : State) (j : Nat) : Word :=
  match s.cmd.completions with
  | [] => 0
  | c :: _ =>
    match j with
    | 0 => place 0 c.tag.toNat ||| place 8 c.kind.toNat
    | 1 => place 0 c.verdict.code ||| place 8 c.verdict.qualifier
    | j => if j < 6 then c.words.getD (j - 2) 0 else 0

/-- FAULT_HEAD0 to FAULT_HEAD3 (R135, 11.4); zeros on an empty queue. -/
def State.readFaultHead (s : State) (j : Nat) : Word :=
  match s.faults.queue with
  | [] => 0
  | r :: _ =>
    match j with
    | 0 => place 0 (linkNumber r.link) ||| place 8 r.kind.code ||| place 16 r.tag.toNat ||| place 24 r.attempt
    | 1 => place 0 (handleCode r.handle).toNat ||| place 16 r.dir.code
    | 2 => place 0 r.x ||| place 16 r.y
    | _ => place 0 r.n

/-- The event bits of a link at its byte of a word of the link event register (11.6). -/
def State.eventByte (s : State) (n : LinkId) : Word := place (8 * (n.val % 4)) (s.link n).events.toNat

/-- The handle and the stamp of a descriptor slot; an empty slot reads handle 0:0 and stamp 0 (R103). -/
def slotWord : Option Copy → Word
  | none => 0
  | some c => place 0 (handleCode c.handle).toNat ||| place 16 c.stamp.toNat

/-- The attempt of the link's fault record, while its stream is HELD (R135, R166). -/
def State.heldAttempt (s : State) (n : LinkId) : Nat :=
  if (s.linkFaults n).stream = .held then
    match s.recordOf n with
    | some r => r.attempt
    | none => 0
  else 0

/-- The fault policy register and the status registers of a link that is not DISABLED (R166, 11.6). -/
def State.readLinkStatus (s : State) (n : LinkId) (at' : Nat) : Word :=
  let l := s.link n
  let f := s.linkFaults n
  let lane := s.lane n
  match at' with
  | 1 => place 0 f.policy.code
  | 2 => place 0 l.state.code ||| place 8 l.session.toNat ||| place 16 l.ctrlCredits ||| place 24 l.accCredits
  | 3 => l.identity
  | 4 => place 0 (match l.lastCause with
      | some c => c.code
      | none => 0) ||| place 8 f.stream.code ||| place 16 (s.heldAttempt n)
  | 5 => place 0 f.lastKind.code ||| place 16 (handleCode f.lastHandle).toNat
  | 6 => slotWord lane.readSlot
  | 7 => slotWord lane.writeSlot
  | 8 => place 0 (bit lane.readSlot.isSome) ||| place 1 (bit lane.writeSlot.isSome) ||| place 8 lane.inFlight
  | _ => 0

/-- A register of a link block, at its word within the block. The link control register can be read in every state;
while the link is DISABLED the others read their reset values, which are all 0 (R151, R166). -/
def State.readLinkBlock (s : State) (n : LinkId) (at' : Nat) : Word :=
  if at' = 0 then place 0 (bit (s.link n).enable)
  else if (s.link n).state = .disabled then 0
  else s.readLinkStatus n at'

/-- The executing command in command status 1 (R183, 11.6). With none executing the kind and the tag read 0 (DESIGN
CHOICE, log 52). -/
def State.readExecuting (s : State) : Word :=
  match s.cmd.executing with
  | none => 0
  | some e => 1 ||| place 8 e.cmd.kind.toNat ||| place 16 e.cmd.tag.toNat

/-- The word that a host read returns at word address `a` of the window (R169, 11.6); 0 where the offset names no
register. -/
def State.hostRead (s : State) (a : BitVec 10) : Word :=
  let k := a.toNat
  if h : k < 8 then s.cmd.stage[k]
  else if 16 ≤ k ∧ k < 22 then s.readComplHead (k - 16)
  else if 81 ≤ k ∧ k < 85 then s.readFaultHead (k - 81)
  else if h : 128 ≤ k ∧ k < 160 then s.table.inspection[k - 128]
  else if 256 ≤ k then
    match linkOf ((k - 256) / 32 + 1) with
    | some n => s.readLinkBlock n ((k - 256) % 32)
    | none => 0
  else match k with
    | 9 => place 0 s.cmd.queue.length ||| place 8 s.cmd.completions.length ||| place 16 s.cmd.reserved |||
        place 24 s.cmd.background.length
    | 10 => s.readExecuting
    | 32 => s.interruptStatus.setWidth 32
    | 33 => s.cmd.enables.setWidth 32
    | 48 => s.cmd.tickDiv.setWidth 32
    | 49 => s.cmd.warnEighths.setWidth 32
    | 50 => s.cmd.complThresh.setWidth 32
    | 64 => 0x00010640
    | 65 => place 0 s.alloc.total ||| place 16 s.alloc.scrubbing ||| place 31 (bit s.scrubActive)
    | 66 => place 0 s.cmd.memoryBlock ||| place 31 (bit s.cmd.memoryMore)
    | 80 => place 0 s.faults.queue.length
    | 96 => place 0 s.fill.state.code ||| place 8 s.fill.statusTag.toNat
    | 97 => place 0 (handleCode s.fill.statusHandle).toNat ||| place 16 s.fill.rowsDone
    | 192 => s.eventByte 0 ||| s.eventByte 1 ||| s.eventByte 2 ||| s.eventByte 3
    | 193 => s.eventByte 4 ||| s.eventByte 5
    | _ => 0

end Sys2Proof.Machine
end

