-- ==== Sys2Proof/Machine/Dispatch.lean ====
section
/-! DEFINITION. `exec`: one arm for each command. -/

namespace Sys2Proof.Machine

def exec (i : Instr) (s : State) : Host.Outcome State Fault Refusal :=
  match i with
  | .powerOn strap => Sys2Proof.Machine.execPowerOn strap s
  | .softReset w => Sys2Proof.Machine.execSoftReset w s
  | .submit w => Sys2Proof.Machine.execSubmit w s
  | .complPop w => Sys2Proof.Machine.execComplPop w s
  | .interruptStatusWrite w => Sys2Proof.Machine.execInterruptStatusWrite w s
  | .interruptEnableWrite w => Sys2Proof.Machine.execInterruptEnableWrite w s
  | .tickDivWrite w => Sys2Proof.Machine.execTickDivWrite w s
  | .warnEighthsWrite w => Sys2Proof.Machine.execWarnEighthsWrite w s
  | .complThreshWrite w => Sys2Proof.Machine.execComplThreshWrite w s
  | .enable n b => Sys2Proof.Machine.execEnable n b s
  | .reset n b => Sys2Proof.Machine.execReset n b s
  | .linkEventClear second w => Sys2Proof.Machine.execLinkEventClear second w s
  | .faultPolicyWrite n w => Sys2Proof.Machine.execFaultPolicyWrite n w s
  | .registerWrite a w => Sys2Proof.Machine.execRegisterWrite a w s
  | .create => Sys2Proof.Machine.execCreate s
  | .modify x => Sys2Proof.Machine.execModify x s
  | .retire => Sys2Proof.Machine.execRetire s
  | .drainEnd => Sys2Proof.Machine.execDrainEnd s
  | .inspect x => Sys2Proof.Machine.execInspect x s
  | .changes => Sys2Proof.Machine.execChanges s
  | .resolveRetry x => Sys2Proof.Machine.execResolveRetry x s
  | .resolveSkip => Sys2Proof.Machine.execResolveSkip s
  | .resolveFlush => Sys2Proof.Machine.execResolveFlush s
  | .revoke x => Sys2Proof.Machine.execRevoke x s
  | .space => Sys2Proof.Machine.execSpace s
  | .fill => Sys2Proof.Machine.execFill s
  | .stopFill x => Sys2Proof.Machine.execStopFill x s
  | .unknownCommand => Sys2Proof.Machine.execUnknownCommand s
  | .attach n f => Sys2Proof.Machine.execAttach n f s
  | .controlRequest n k f => Sys2Proof.Machine.execControlRequest n k f s
  | .undefinedKindFrame n kind => Sys2Proof.Machine.execUndefinedKindFrame n kind s
  | .read n f => Sys2Proof.Machine.execRead n f s
  | .write n f => Sys2Proof.Machine.execWrite n f s
  | .claim n x => Sys2Proof.Machine.execClaim n x s
  | .release n => Sys2Proof.Machine.execRelease n s
  | .renew n x => Sys2Proof.Machine.execRenew n x s
  | .changesQuery n x => Sys2Proof.Machine.execChangesQuery n x s
  | .changesAnswer n => Sys2Proof.Machine.execChangesAnswer n s
  | .detach n => Sys2Proof.Machine.execDetach n s
  | .lost n => Sys2Proof.Machine.execLost n s
  | .teardownRemoval n => Sys2Proof.Machine.execTeardownRemoval n s
  | .outboundSend n c => Sys2Proof.Machine.execOutboundSend n c s
  | .burstJudging n => Sys2Proof.Machine.execBurstJudging n s
  | .reload n x => Sys2Proof.Machine.execReload n x s
  | .transactionCompletion n k err => Sys2Proof.Machine.execTransactionCompletion n k err s
  | .claimDrainEnd c slot => Sys2Proof.Machine.execClaimDrainEnd c slot s
  | .revokedDrainEnd c slot => Sys2Proof.Machine.execRevokedDrainEnd c slot s
  | .tick => Sys2Proof.Machine.execTick s
  | .leaseExpiry c slot => Sys2Proof.Machine.execLeaseExpiry c slot s
  | .timedOut c slot => Sys2Proof.Machine.execTimedOut c slot s
  | .fillClaim => Sys2Proof.Machine.execFillClaim s
  | .fillReload => Sys2Proof.Machine.execFillReload s
  | .fillCompletion k => Sys2Proof.Machine.execFillCompletion k s
  | .scrubCompletion => Sys2Proof.Machine.execScrubCompletion s

end Sys2Proof.Machine
end

