-- ==== Sys2Proof/Safety.lean ====
section
/-! DEFINITION. What a good state is: the laws of the device that the statements say every step keeps, and the rest of
a state that an event between the blocks leaves alone. -/

namespace Sys2Proof.Machine

/-! ## Laws -/

/-- The frame memory's cells are in their canonical form. -/
def State.memoryCanonical (s : State) : Prop := Memory.wf s.fmi.mem = true

/-- Law 11 with R183: the reservation count is the number of the executing and the background commands, and with the
queued completions it is at most 32 (R172). -/
abbrev State.accounted (s : State) : Prop :=
  s.cmd.reserved = bit s.cmd.executing.isSome + s.cmd.background.length ∧
    s.cmd.completions.length + s.cmd.reserved ≤ 32

/-- The queue bounds of R171 and the range of COMPL_THRESH (R182). -/
abbrev State.bounded (s : State) : Prop :=
  s.cmd.queue.length ≤ 16 ∧ 1 ≤ s.cmd.complThresh.toNat ∧ s.cmd.complThresh.toNat ≤ 32

/-- A delta ring as law 10 has it: at most 4 entries, their sequences consecutive modulo 2^32 and ending at the
surface's sequence. -/
def ChangePart.ringOk (p : ChangePart) : Prop :=
  p.ring.length ≤ 4 ∧
    ∀ k (h : k < p.ring.length), (p.ring[k]).1 + BitVec.ofNat 32 (p.ring.length - 1 - k) = p.sequence

/-- Law 10. -/
def State.ringsOk (s : State) : Prop := ∀ i p, s.part i = some p → p.ringOk

/-- Law 12's reason: a filled descriptor slot whose stamp is the board's holds the record of a current handle, whole
(R104 to R106). -/
def State.slotsCurrent (s : State) : Prop :=
  ∀ n d c, (s.lane n).slot d = some c → c.stamp = (s.entry c.handle.index).stamp →
    ∃ desc, s.classify c.handle = .current desc ∧ c = copyOf c.handle c.stamp desc

/-- Laws 4, 5 and 6, with the wait queues of R30: a client has one claim at most on an entry; a HELD or RELEASING WRITE
claim is its surface's only holder; a queue lists clients with WAITING claims, each once; the head of a queue is not
compatible with the holders. -/
def State.claimsLawful (s : State) : Prop :=
  (∀ c k k' cl cl', s.claimAt c k = some cl → s.claimAt c k' = some cl' → cl.handle.index = cl'.handle.index → k = k') ∧
  (∀ c c' k k' cl cl', s.claimAt c k = some cl → s.claimAt c' k' = some cl' → cl.handle.index = cl'.handle.index →
    cl.state ≠ .waiting → cl'.state ≠ .waiting → cl.mode = .write → c = c') ∧
  (∀ i, (s.queue i).Nodup ∧ ∀ c ∈ s.queue i, ∃ k cl, s.findClaim c i = some (k, cl) ∧ cl.state = .waiting) ∧
  ∀ i c rest k cl, s.queue i = c :: rest → s.findClaim c i = some (k, cl) → s.compatible i cl.mode = false

/-- Law 9: at most one record per link, and a link with a record has a HELD stream (R123, R127). -/
def State.faultsLawful (s : State) : Prop :=
  (s.faults.queue.map FaultRecord.link).Nodup ∧ ∀ r ∈ s.faults.queue, (s.linkFaults r.link).stream = .held

/-- A link that is not ONLINE has no credit, no request, no message and no burst to judge (R152, R156, R162), its
undecided reads are withdrawn, and no control outbound queue holds more than 72 messages (R158). -/
def State.linksQuiet (s : State) : Prop :=
  (∀ n, (s.link n).ctrlOut.length ≤ 72) ∧
  (∀ n session r, LineEntry.link n session r false ∈ s.claims.line → (s.link n).state = .online) ∧
  ∀ n, (s.link n).state ≠ .online →
    (s.link n).ctrlCredits = 0 ∧ (s.link n).accCredits = 0 ∧ (s.link n).requests = [] ∧ (s.link n).progress = none ∧
      (s.link n).arrivals = [] ∧ (s.link n).ctrlOut = [] ∧ (s.link n).accOut = [] ∧ (s.lane n).accessQ = []

/-- Entry 0 is never used (R1), and a surface's generation is not 0 (R8). -/
def State.entriesLawful (s : State) : Prop :=
  (s.entry 0).state = .free ∧ ∀ i, (s.entry i).state ≠ .free → (s.entry i).gen ≠ 0

/-- Law 7 (R10): a LIVE surface has any claims, a RETIRING one RELEASING claims only, a FREE entry none and nothing in
flight. With it stands what makes the law last: a drain end is due for RETIRING entries with no claim and nothing in
flight, each once (R23, R174), and the fill engine's claim is that of its job, asked for once (R139, R141). -/
def State.claimsFollow (s : State) : Prop :=
  (∀ c k cl, s.claimAt c k = some cl → match (s.entry cl.handle.index).state with
    | .live _ => True
    | .retiring _ => ∃ kind, cl.state = .releasing kind
    | .free => False) ∧
  (∀ i, (s.entry i).state = .free → (s.entry i).inFlight = 0) ∧
  s.cmd.drainEnds.Nodup ∧
  (∀ i ∈ s.cmd.drainEnds, (∃ d, (s.entry i).state = .retiring d) ∧ s.hasClaim i = false ∧ (s.entry i).inFlight = 0) ∧
  (∀ cl, s.claims.filler = some cl →
    s.fill.state ≠ .idle ∧ (∃ j, s.fill.job = some j ∧ cl.handle = j.handle) ∧ LineEntry.fill ∉ s.claims.line) ∧
  (LineEntry.fill ∈ s.claims.line → s.fill.state ≠ .idle ∧ s.claims.line.count .fill = 1)

/-- The blocks that an entry owns (R2, R84). -/
def Entry.owns (e : Entry) : Nat :=
  match e.state.desc with
  | some d => d.blocks
  | none => 0

/-- The blocks that an entry owns while it is RETIRING (R87). -/
def Entry.ownsRetiring (e : Entry) : Nat :=
  match e.state with
  | .retiring d => d.blocks
  | _ => 0

/-- Runs of blocks below `total`, none empty, no block in two of them. -/
def runsApart (total : Nat) (runs : List Run) : Prop :=
  (∀ r ∈ runs, 1 ≤ r.length ∧ r.stop ≤ total) ∧
    runs.Pairwise fun r q => ∀ k, ¬(r.has k = true ∧ q.has k = true)

/-- Runs in first-block order, none empty, none touching the next (law 3, R85). -/
def risingRuns : List Run → Prop
  | [] => True
  | [r] => 1 ≤ r.length
  | r :: b :: rest => 1 ≤ r.length ∧ r.stop < b.first ∧ risingRuns (b :: rest)

/-- A block lies in one of the runs. -/
def inRuns (runs : List Run) (k : Nat) : Prop := ∃ r ∈ runs, r.has k = true

/-- Laws 1, 2 and 3 (R83 to R85) with R87 and R93: each of the B blocks is FREE, SCRUBBING or OWNED by a surface exactly
as the free-run list, the scrub queue and the run lists of the records name it, once; the counts are those of the
runs and add to B; and the scrubber's one transaction writes the first block of the scrub queue. -/
def State.blocksLawful (s : State) : Prop :=
  let a := s.alloc
  1 ≤ a.total ∧ a.blocks.length = a.total ∧ risingRuns a.freeRuns ∧
  runsApart a.total a.freeRuns ∧ runsApart a.total a.scrubQueue ∧
  (∀ i d, (s.entry i).state.desc = some d →
    runsApart a.total d.runs ∧ d.runs.length ≤ 8 ∧ (d.runs.map Run.length).sum = d.blocks) ∧
  (∀ k st, a.blocks[k]? = some st →
    (st = .free ↔ inRuns a.freeRuns k) ∧ (st = .scrubbing ↔ inRuns a.scrubQueue k) ∧
      ∀ i, st = .owned i ↔ ∃ d, (s.entry i).state.desc = some d ∧ inRuns d.runs k) ∧
  a.free = (a.freeRuns.map Run.length).sum ∧ a.scrubbing = (a.scrubQueue.map Run.length).sum ∧
  a.owned = (s.table.entries.toList.map Entry.owns).sum ∧
  a.retiringOwned = (s.table.entries.toList.map Entry.ownsRetiring).sum ∧
  a.free + a.owned + a.scrubbing = a.total ∧
  (s.fmi.txns.filter fun t => t.owner == .scrub).length ≤ 1 ∧
  ∀ t ∈ s.fmi.txns, t.owner = .scrub →
    t.op = .zero ∧ ∃ r rest, a.scrubQueue = r :: rest ∧ t.addr = r.first * 16384

/-- The numbers of the transactions in flight rise and lie below the next number, and each lane's in-flight count is
the number of its transactions in flight (R113, R115). -/
def State.transactionsCounted (s : State) : Prop :=
  (s.fmi.txns.map Txn.id).Pairwise (· < ·) ∧ (∀ t ∈ s.fmi.txns, t.id < s.fmi.nextId) ∧
    ∀ n, (s.lane n).inFlight = (s.fmi.ofLane n).length

/-! ## What an event between the blocks leaves alone -/

/-- The state of one entry but for its in-flight count. -/
abbrev RecordView := EntryState × BitVec 8 × BitVec 16

/-- An entry's state, generation and stamp. -/
def Entry.view (e : Entry) : RecordView := (e.state, e.gen, e.stamp)

/-- The part of a state that grants, drain ends, revocations, messages, teardowns, fills and the taking of a command
never change: the waiting commands, the host's registers, the memory error report, the records with their stamps, the
inspection buffer, the blocks and the bytes of the frame memory. -/
structure Fixed where
  pending        : List Instr
  stage          : Vector Word 8
  tickDiv        : BitVec 10
  warnEighths    : BitVec 3
  complThresh    : BitVec 6
  micros         : Nat
  interval       : BitVec 10
  enables        : BitVec 7
  scrubIdle      : Bool
  memoryError    : Bool
  submitOverflow : Bool
  popEmpty       : Bool
  memoryMore     : Bool
  memoryBlock    : Nat
  records        : Vector RecordView 256
  inspection     : Vector Word 32
  alloc          : Allocator
  mem            : List Host.Cell
  seed           : Nat
  deriving DecidableEq, Repr

/-- The fixed part of a state. -/
def State.fixed (s : State) : Fixed where
  pending := s.pending
  stage := s.cmd.stage
  tickDiv := s.cmd.tickDiv
  warnEighths := s.cmd.warnEighths
  complThresh := s.cmd.complThresh
  micros := s.cmd.micros
  interval := s.cmd.interval
  enables := s.cmd.enables
  scrubIdle := s.cmd.scrubIdle
  memoryError := s.cmd.memoryError
  submitOverflow := s.cmd.submitOverflow
  popEmpty := s.cmd.popEmpty
  memoryMore := s.cmd.memoryMore
  memoryBlock := s.cmd.memoryBlock
  records := s.table.entries.map Entry.view
  inspection := s.table.inspection
  alloc := s.alloc
  mem := s.fmi.mem
  seed := s.fmi.seed

/-! ## Which commands change what -/

/-- A write that resets the part: a one in SOFT_RESET of SYS_CONTROL (R184). -/
def resets (a : BitVec 10) (w : Word) : Bool := a == 51 && flag w 0

/-- The commands that can change a byte of the frame memory (R114, R120, R98). -/
def changesMemory : Instr → Bool
  | .powerOn _ => true
  | .softReset w => flag w 0
  | .registerWrite a w => resets a w
  | .transactionCompletion _ _ _ => true
  | .fillCompletion _ => true
  | .scrubCompletion => true
  | _ => false

/-- The commands that can change an entry's state, generation or stamp, or a field of its record (R8, R10, R11). -/
def changesRecords : Instr → Bool
  | .powerOn _ => true
  | .softReset w => flag w 0
  | .registerWrite a w => resets a w
  | .create => true
  | .modify _ => true
  | .retire => true
  | .drainEnd => true
  | _ => false

/-- The commands that can change the Block Allocator (R83 to R94). -/
def changesBlocks : Instr → Bool
  | .powerOn _ => true
  | .softReset w => flag w 0
  | .registerWrite a w => resets a w
  | .create => true
  | .retire => true
  | .drainEnd => true
  | .scrubCompletion => true
  | _ => false

/-- The commands that can change a register that the host writes: a staging word, a configuration register or an
interrupt enable (R170, R180, R182). -/
def changesHostRegisters : Instr → Bool
  | .powerOn _ => true
  | .softReset w => flag w 0
  | .registerWrite _ _ => true
  | .tickDivWrite _ => true
  | .warnEighthsWrite _ => true
  | .complThreshWrite _ => true
  | .interruptEnableWrite _ => true
  | _ => false

/-! ## Words of the statements -/

/-- The command `r`, of the kind given, executes and has made no step yet (R172, R173). -/
abbrev State.executes (s : State) (k : CmdKind) (r : CmdRecord) : Prop :=
  s.cmd.executing = some ⟨r, .fresh⟩ ∧ r.command = some k

/-- The Command Engine once the executing command `r` has completed (R175). -/
def CommandEngine.completed (c : CommandEngine) (r : CmdRecord) (v : Verdict) (ws : List Word) : CommandEngine :=
  { c with executing := none, reserved := c.reserved - 1, completions := c.completions ++ [⟨r.tag, r.kind, v, ws⟩] }

/-- The state in which the executing command `r` has completed and nothing else has changed. -/
def State.completing (s : State) (r : CmdRecord) (v : Verdict) (ws : List Word) : State :=
  { s with cmd := s.cmd.completed r v ws }

/-- The arbiter's pointer has moved past the requester it has served (R12). -/
def State.pointing (s : State) (r : Requester) : State := { s with table := { s.table with pointer := r } }

/-- A descriptor slot after an update of entry `i` to the stamp given (R106). -/
def guardedSlot (i : BitVec 8) (stamp : BitVec 16) (c : Option Copy) : Option Copy :=
  c.filter fun c => !(c.handle.index == i && c.stamp == stamp)

/-- A lane after an update of entry `i` to the stamp given (R106). -/
def Lane.guarded (i : BitVec 8) (stamp : BitVec 16) (l : Lane) : Lane :=
  { l with readSlot := guardedSlot i stamp l.readSlot, writeSlot := guardedSlot i stamp l.writeSlot }

/-- The Fill Engine after an update of entry `i` to the stamp given (R142). -/
def FillEngine.guarded (i : BitVec 8) (stamp : BitVec 16) (f : FillEngine) : FillEngine :=
  { f with job := f.job.map fun j =>
      { j with outdated := j.outdated || (j.copy.handle.index == i && j.copy.stamp == stamp) } }

/-- The state after the arbiter's update of entry `i` to `e` for the Command Engine (R1, R12, R106, R142). -/
def State.updated (s : State) (i : BitVec 8) (e : Entry) : State :=
  { s with
    table := { s.table with entries := s.table.entries.set i.toNat e i.isLt, pointer := .claimEngine }
    lanes := s.lanes.map (Lane.guarded i e.stamp)
    fill := s.fill.guarded i e.stamp }

/-- Entry `i` is the lowest-numbered FREE entry (R17). -/
abbrev State.lowestFree (s : State) (i : BitVec 8) : Prop :=
  i ≠ 0 ∧ (s.entry i).state = .free ∧ ∀ j : BitVec 8, j ≠ 0 → j.toNat < i.toNat → (s.entry j).state ≠ .free

/-- CREATE's parameter with the number given is in range (R15). -/
def CreateParams.inRange (p : CreateParams) : Nat → Prop
  | 1 => p.format.isSome = true
  | 2 => 1 ≤ p.width ∧ p.width ≤ 4096
  | 3 => 1 ≤ p.height ∧ p.height ≤ 4096
  | 4 => 64 ≤ p.pitch ∧ p.pitch ≤ 16384 ∧ p.pitch % 64 = 0 ∧ ∀ f, p.format = some f → p.width * f.bpp ≤ p.pitch
  | 5 => ∀ c, p.clip = some c → c.x0 ≤ c.x1 ∧ c.x1 ≤ p.width - 1 ∧ c.y0 ≤ c.y1 ∧ c.y1 ≤ p.height - 1
  | 6 => p.rights.isSome = true
  | _ => True

/-- What R89 leaves in the free-run list of a run that has given its first `m` blocks. -/
def Run.left (r : Run) (m : Nat) : List Run := if r.length = m then [] else [⟨r.first + m, r.length - m⟩]

/-- A right permits a mode: WRITE both, READ only READ (R5, R20). -/
def Right.permits : Right → Mode → Bool
  | .write, _ => true
  | .read, .read => true
  | _, _ => false

/-- A link whose session is `session` and whose control outbound queue has room (R158, R159). -/
abbrev Link.hears (l : Link) (session : BitVec 8) : Prop :=
  l.state = .online ∧ l.session = session ∧ l.ctrlOut.length < 72

/-- A link with a message behind its control outbound queue. -/
def Link.queued (l : Link) (m : Message) : Link := { l with ctrlOut := l.ctrlOut ++ [m] }

/-- Link `n` is in TEARDOWN and its link in-flight count is 0, so that the rest of its teardown is due (R163). -/
abbrev State.removalDue (s : State) (n : LinkId) : Prop := (s.link n).state = .teardown ∧ (s.lane n).inFlight = 0

/-- A link whose teardown is over, its causes having been `c` and then `rest` (R163, R164): each has set its event bit,
the first is the last teardown cause, DETACHED was sent when the first is DETACH and the link was not lost, and the link
is OFFLINE, or DISABLED when ENABLE is 0. -/
def Link.tornDown (l : Link) (c : Cause) (rest : List Cause) : Link :=
  { l with
    state := if l.enable then .offline else .disabled, identity := 0, causes := [], lastCause := some c
    events := (c :: rest).foldl (fun e c => e ||| c.eventBit) l.events
    wire := if c = .detach ∧ Cause.lost ∉ rest then [0x82, l.detachTag, l.session, 0, 0, 0] else l.wire }

/-- Teardown of link `n` has begun with a cause (R161, R162, R119). -/
def teardownBegun (s u : State) (n : LinkId) (c : Cause) : Prop :=
  u.link n = { s.link n with
    state := .teardown, enable := (s.link n).enable && c != .disable, causes := [c], ctrlCredits := 0, accCredits := 0,
    requests := [], progress := none, arrivals := [], ctrlOut := [], accOut := [] } ∧
  u.lane n = { s.lane n with accessQ := [], reloads := (s.lane n).reloads.map fun _ => .discarded } ∧
  u.claims.line = s.claims.line.map (LineEntry.withdraw n) ∧
  (∀ m, m ≠ n → u.link m = s.link m ∧ u.lane m = s.lane m) ∧
  u = { s with links := u.links, lanes := u.lanes, claims := { s.claims with line := u.claims.line }, cmd := u.cmd } ∧
  u.cmd = (match s.cmd.executing with
    | some ⟨r, .retrying m _⟩ => if m = n then s.cmd.completed r .noFault [] else s.cmd
    | _ => s.cmd)

/-- The change part of a surface once a claim on it has ended with a kind: published, torn for a WRITE claim that ends
otherwise, and unchanged for a READ claim (R41, R45, R72, R73). -/
def ChangePart.ended (p : ChangePart) (m : Mode) : ReleaseKind → ChangePart
  | .publish => { p with
      sequence := p.sequence + 1, pending := 0, torn := 0
      ring := (if 4 ≤ p.ring.length then p.ring.tail else p.ring) ++ [(p.sequence + 1, p.pending ||| p.torn)] }
  | _ => if m = .write then { p with torn := p.torn ||| p.pending, pending := 0 } else p

/-- What a link is told of a claim in slot `k` that has ended with a kind, the change part being then `p` (R42, R45). -/
def endMessage (k : Fin 16) (cl : Claim) (kind : ReleaseKind) (p : ChangePart) : Message :=
  match kind with
  | .plain => ⟨cl.releaseTag, cl.session, false, .released k.val cl.handle false p.sequence (p.torn != 0)⟩
  | .publish => ⟨cl.releaseTag, cl.session, false, .released k.val cl.handle true p.sequence (p.torn != 0)⟩
  | .revoked r => ⟨cl.tag, cl.session, true, .revoked k.val cl.handle cl.mode r p.sequence (p.torn != 0)⟩

/-- A claim as a grant from the queue leaves it: HELD with lease L, token 0 and not warned (R37; the discarded wait
remaining is 0, log 47). -/
def Claim.nowHeld (cl : Claim) : Claim :=
  { cl with state := .held, leaseLeft := cl.leaseLen, warned := false, token := 0, waitLeft := 0 }

/-- The outcome of a FILL whose claim has ended with a kind (R146). -/
def fillOutcome (j : FillJob) : ReleaseKind → Verdict
  | .publish => .done
  | .plain => if j.withdrawAsked then .cancelled else if j.stop then .stopped else .done
  | .revoked .retired => .retired
  | .revoked _ => .revoked

/-- The Command Engine once the background FILL `b` has completed (R144, R174): its four result words are the rows done,
the handle, and the sequence and torn flag of the change part `p`. -/
def CommandEngine.filled (c : CommandEngine) (b : Background) (v : Verdict) (rows : Nat) (p : ChangePart) :
    CommandEngine :=
  { c with
    background := c.background.eraseP fun b => b.kind == 9
    reserved := c.reserved - 1
    completions := c.completions ++ [⟨b.tag, b.kind, v, [BitVec.ofNat 32 rows,
      BitVec.setWidth 32 (p.handle.index ++ p.handle.gen), p.sequence, if p.torn = 0 then 0 else 1]⟩] }

/-- The fill has ended with rows done `rows`: the engine is IDLE with no job, and FILL has completed (R144, R146). -/
def State.fillOver (s : State) (b : Background) (v : Verdict) (rows : Nat) (p : ChangePart) : State :=
  { s with fill := { s.fill with state := .idle, job := none, rowsDone := rows }, cmd := s.cmd.filled b v rows p }

/-- What a revocation of the selected claims of surface `i` with a reason leaves of each claim (R44, R45): a HELD one
with transactions outstanding RELEASING, a HELD one with none gone, a WAITING one gone, every other as it was. -/
def revokesSlots (s u : State) (i : BitVec 8) (r : Reason) (sel : Client → Claim → Bool) : Prop :=
  ∀ c k cl, s.findClaim c i = some (k, cl) →
    (cl.state = .waiting → sel c cl = true → u.claimAt c k = none) ∧
    (c ∉ s.queue i →
      (cl.state = .held → sel c cl = true →
        u.claimAt c k = if cl.outstanding = 0 then none else some { cl with state := .releasing (.revoked r) }) ∧
      (sel c cl = false ∨ (∃ kind, cl.state = .releasing kind) → u.claimAt c k = some cl))

/-- A revocation neither removes the client's claim `cl` nor ends its drain at its event (R44). -/
def staysBehind (sel : Client → Claim → Bool) (c : Client) (cl : Claim) : Prop :=
  sel c cl = false ∨ (cl.state = .held ∧ cl.outstanding ≠ 0) ∨ ∃ kind, cl.state = .releasing kind

/-- The change parts after that revocation (R45, R73): a HELD WRITE claim with nothing outstanding tears its surface;
with no such claim the surface's change part stays, and so does every other surface's. -/
def revokesTears (s u : State) (i : BitVec 8) (sel : Client → Claim → Bool) : Prop :=
  ((∃ c k cl, s.findClaim c i = some (k, cl) ∧ cl.state = .held ∧ cl.mode = .write ∧ cl.outstanding = 0 ∧
      sel c cl = true) →
    u.part i = (s.part i).map fun p => { p with torn := p.torn ||| p.pending, pending := 0 }) ∧
  ((∀ c k cl, s.claimAt c k = some cl → cl.handle.index = i → cl.state = .held → cl.mode = .write →
      cl.outstanding ≠ 0 ∨ sel c cl = false) → u.part i = s.part i) ∧
  ∀ j, j ≠ i → u.part j = s.part j

/-- What each link is told by that revocation (R44, R45): the REVOKED notice of a WAITING claim, or of a HELD one with
nothing outstanding, with the reason and the change part as it stands at the claim's end; and nothing where no claim of
the link is lost or granted. -/
def revokesTells (s u : State) (i : BitVec 8) (r : Reason) (sel : Client → Claim → Bool) : Prop :=
  ∀ n : LinkId, (s.findClaim (.link n) i = none → u.link n = s.link n) ∧
    ∀ k cl, s.findClaim (.link n) i = some (k, cl) →
      (Client.link n ∉ s.queue i → staysBehind sel (.link n) cl → u.link n = s.link n) ∧
      ∀ p, s.part i = some p → sel (.link n) cl = true → (s.link n).hears cl.session →
        (cl.state = .waiting → (∀ k' cl', s.claimAt (.link n) k' = some cl' → cl'.handle.index = i → k' = k) →
          u.link n = (s.link n).queued (endMessage k cl (.revoked r) p)) ∧
        (cl.state = .held → cl.outstanding = 0 → Client.link n ∉ s.queue i →
          (cl.mode = .read → ∀ c' k' cl', s.claimAt c' k' = some cl' → cl'.handle.index = i → cl'.state = .held →
            cl'.mode = .read) →
          u.link n = (s.link n).queued (endMessage k cl (.revoked r) (p.ended cl.mode (.revoked r))))

/-- What becomes of the fill by that revocation (R45, R144, R146): the loss of the engine's WAITING claim, or of its
HELD one with nothing outstanding, ends the fill REVOKED or RETIRED; otherwise the fill engine stays as it was. -/
def revokesFill (s u : State) (i : BitVec 8) (r : Reason) (sel : Client → Claim → Bool) : Prop :=
  ((∀ k cl, s.findClaim .fill i = some (k, cl) → Client.fill ∉ s.queue i ∧ staysBehind sel .fill cl) →
    u.fill = s.fill) ∧
  ∀ k cl j p b, s.findClaim .fill i = some (k, cl) → sel .fill cl = true → s.fill.job = some j →
    cl.handle = j.handle → s.partOf j.handle = some p → s.cmd.background.find? (fun b => b.kind == 9) = some b →
    let closed (q : ChangePart) : Prop := u.fill = { s.fill with state := .idle, job := none } ∧
      (s.cmd.filled b (fillOutcome j (.revoked r)) s.fill.rowsDone q).completions <+: u.cmd.completions
    (cl.state = .waiting → closed p) ∧
    (cl.state = .held → cl.outstanding = 0 → cl.mode = .write → closed (p.ended .write (.revoked r)))

/-- A revocation of the selected claims of surface `i` with a reason, from `s` to `u` (R44, R45, R73, R146): the claims,
the change parts, the links and the fill; a removed WAITING claim has left the wait queue, and the queue has been served
(R36). -/
def revokes (s u : State) (i : BitVec 8) (r : Reason) (sel : Client → Claim → Bool) : Prop :=
  revokesSlots s u i r sel ∧ revokesTears s u i sel ∧ revokesTells s u i r sel ∧ revokesFill s u i r sel ∧
    (∀ c k cl, s.findClaim c i = some (k, cl) → cl.state = .waiting → sel c cl = true → (s.queue i).Nodup →
      c ∉ u.queue i) ∧
    ∀ c rest k cl, u.queue i = c :: rest → u.findClaim c i = some (k, cl) → u.compatible i cl.mode = false

/-- The fill engine's slot is empty (R27). -/
def State.unclaimed (s : State) : State := { s with claims := { s.claims with filler := none } }

/-- The drain end of entry `i` is due where it is RETIRING with no claim and nothing in flight (R23, R174). -/
def State.drainLooked (s : State) (i : BitVec 8) : State :=
  match (s.entry i).state with
  | .retiring _ =>
    if s.hasClaim i = false ∧ (s.entry i).inFlight = 0 ∧ i ∉ s.cmd.drainEnds then
      { s with cmd := { s.cmd with drainEnds := s.cmd.drainEnds ++ [i] } }
    else s
  | _ => s

/-- No READY burst stands at the head of a lane's response queue (R116). -/
abbrev Lane.waits (l : Lane) : Prop := ∀ tag session body rest, l.responseQ ≠ .ready tag session body :: rest

/-- The span that a burst moves (R110, R111). -/
def movedSpan (b : Burst) (c : Copy) : Nat × Nat :=
  match b.dir with
  | .read => (b.x, b.n)
  | .write => trim c.clip b.x b.y b.n

/-- The effects of the acceptance of the head burst `b` with at least one transaction (R113): the transactions stand at
the translated addresses, a write's with the data of the written pixels (a byte that the burst did not bring is free,
log 43) and a read's with the bytes it now returns (log 20); the counts rise; the band is marked; and the burst joins
the response queue. -/
def accepts (s u : State) (n : LinkId) (b : Burst) (rest : List Burst) (c : Copy) (k : Fin 16) (cl : Claim) : Prop :=
  let i := b.handle.index
  let span := movedSpan b c
  let parts := c.parts b.y span.1 span.2
  let t := parts.length
  ∃ issued : List Txn,
    u.fmi = { s.fmi with txns := s.fmi.txns ++ issued, nextId := s.fmi.nextId + t } ∧
    issued.map (fun x => (x.addr, x.length)) = parts ∧
    issued.map Txn.id = (List.range t).map (fun j => s.fmi.nextId + j) ∧
    (∀ x ∈ issued, x.owner = .lane n b.handle ∧
      (b.dir = .read → x.op = .read (s.fmi.readBytes x.addr x.length)) ∧
      (b.dir = .write → x.op = .write (cellsFrom x.addr (x.cells.map Prod.snd)) ∧ x.cells.length = x.length)) ∧
    (b.dir = .write → ∀ o v, o < (parts.map Prod.snd).sum → b.data[(span.1 - b.x) * c.format.bpp + o]? = some v →
      ((issued.flatMap Txn.cells).map Prod.snd)[o]? = some v) ∧
    u.entry i = { s.entry i with inFlight := (s.entry i).inFlight + t } ∧ (∀ j, j ≠ i → u.entry j = s.entry j) ∧
    u.claimAt (.link n) k = some { cl with outstanding := cl.outstanding + t } ∧
    (∀ c' k', (c', k') ≠ (Client.link n, k) → u.claimAt c' k' = s.claimAt c' k') ∧
    u.part i = (if b.dir = .write ∧ 1 ≤ span.2
      then (s.part i).map fun p => { p with pending := p.pending ||| BitVec.twoPow 64 (bandOf c.height b.y) }
      else s.part i) ∧
    u.lane n = { s.lane n with
      accessQ := rest, inFlight := (s.lane n).inFlight + t
      responseQ := (s.lane n).responseQ ++
        [.inFlight b span.2 ((List.range t).map fun j => ⟨s.fmi.nextId + j, .issued⟩)] } ∧
    (∀ m, m ≠ n → u.lane m = s.lane m) ∧ u.alloc = s.alloc ∧ u.fill = s.fill ∧
    (∀ j, j ≠ i → u.part j = s.part j) ∧ (∀ j, u.queue j = s.queue j) ∧ u.claims.line = s.claims.line ∧
    u.table.pointer = s.table.pointer ∧ u.table.inspection = s.table.inspection

/-- The burst at the next position of a job ends its row (R142). -/
abbrev FillJob.rowEnds (j : FillJob) : Prop := j.x + j.w ≤ j.nextX + 256

/-- The burst at the next position of a job is the last of its rectangle (R144). -/
abbrev FillJob.isLast (j : FillJob) : Prop := j.rowEnds ∧ j.y + j.h ≤ j.nextRow + 1

/-- The written span of the burst at a job's next position: at most 256 pixels of the row, inside the clip of the copy
(R142, R110). -/
def FillJob.nextSpan (j : FillJob) : Nat × Nat :=
  trim j.copy.clip j.nextX j.nextRow (min 256 (j.x + j.w - j.nextX))

/-- The transactions of that burst, by address and length (R111, R112). -/
def FillJob.nextParts (j : FillJob) : List (Nat × Nat) := j.copy.parts j.nextRow j.nextSpan.1 j.nextSpan.2

/-- The effects of the issue of the burst at the next position of job `j` under the HELD claim `cl` (R142, steps 3 to
6): the transactions stand at the translated addresses with the fill value repeated (its low byte first), the counts
rise, the band is marked, the next position advances, and a burst with no transaction is complete. -/
def issuesBurst (s u : State) (j : FillJob) (cl : Claim) : Prop :=
  let i := j.handle.index
  let t := j.nextParts.length
  ∃ issued : List Txn,
    u.fmi = { s.fmi with txns := s.fmi.txns ++ issued, nextId := s.fmi.nextId + t } ∧
    issued.map (fun x => (x.addr, x.length)) = j.nextParts ∧
    issued.map Txn.id = (List.range t).map (fun k => s.fmi.nextId + k) ∧
    (∀ x ∈ issued, x.owner = .fill j.handle ∧ x.op = .write (cellsFrom x.addr (x.cells.map Prod.snd)) ∧
      x.cells.length = x.length) ∧
    (∀ o, o < (j.nextParts.map Prod.snd).sum → ((issued.flatMap Txn.cells).map Prod.snd)[o]? =
      some (j.value.extractLsb' (8 * (o % j.copy.format.bpp)) 8)) ∧
    u.entry i = { s.entry i with inFlight := (s.entry i).inFlight + t } ∧ (∀ k, k ≠ i → u.entry k = s.entry k) ∧
    u.part i = (if 1 ≤ j.nextSpan.2
      then (s.part i).map fun p => { p with pending := p.pending ||| BitVec.twoPow 64 (bandOf j.copy.height j.nextRow) }
      else s.part i) ∧ (∀ k, k ≠ i → u.part k = s.part k) ∧
    u = { s with
      fmi := u.fmi, tracker := u.tracker
      table := { s.table with entries := u.table.entries }
      claims := { s.claims with filler := some { cl with outstanding := cl.outstanding + t } }
      fill := { s.fill with
        rowsDone := s.fill.rowsDone + if t = 0 ∧ j.rowEnds then 1 else 0
        job := some { j with
          nextRow := if j.rowEnds then j.nextRow + 1 else j.nextRow
          nextX := if j.rowEnds then j.x else j.nextX + 256
          burst := if t = 0 then none else some ⟨t, decide j.rowEnds⟩ } } }

/-- The fill's claim has ended in state `v` with a kind, `p` being the change part that this leaves:
the slot is empty, the queue is served, a drain end may be due, and then FILL completes with rows done `rows` (R41, R45,
R144, R146). -/
def State.fillClosed (v : State) (j : FillJob) (b : Background) (kind : ReleaseKind) (rows : Nat) (p : ChangePart) :
    State :=
  let i := j.handle.index
  (((({ v.unclaimed with tracker := ⟨v.tracker.parts.set i.toNat (some p) i.isLt⟩ } : State)).serve i).drainLooked
    i).fillOver b (fillOutcome j kind) rows p

/-- The two result words of a RESOLVE RETRY for the record it removed (11.3). -/
def retryWords (n : LinkId) (q : FaultRecord) (second : Nat) : List Word :=
  [(BitVec.ofNat 8 q.attempt ++ q.tag ++ (0 : BitVec 8) ++ BitVec.ofNat 8 (n.val + 1) : BitVec 32),
    BitVec.ofNat 32 second]

/-- The retried head burst `b` has failed again with a kind (R132): by the link's policy it is held once more, with a
new record whose attempt is one more (255 stays), or answered; the RESOLVE `r` completes REFAULTED. -/
def refaults (s u : State) (n : LinkId) (b : Burst) (rest : List Burst) (r : CmdRecord) (q : FaultRecord)
    (kind : LinkCode) : Prop :=
  ((s.linkFaults n).policy = .hold →
    let attempt := min 255 (q.attempt + 1)
    (u.linkFaults n).stream = .held ∧ (u.lane n).accessQ = b :: rest ∧
    u.faults.queue = s.faults.queue ++ [⟨n, kind, b.handle, b.x, b.y, b.n, b.dir, b.tag, attempt⟩] ∧
    (u.link n).ctrlOut = (s.link n).ctrlOut ++
      [⟨b.tag, (s.link n).session, true, .halted b.handle kind b.dir attempt⟩] ∧
    u.cmd = s.cmd.completed r (.refaulted kind) (retryWords n q attempt)) ∧
  ((s.linkFaults n).policy = .answer →
    u.linkFaults n = { s.linkFaults n with stream := .flowing, lastKind := kind, lastHandle := b.handle } ∧
    (u.lane n).accessQ = rest ∧ u.faults.queue = s.faults.queue ∧
    (u.link n).ctrlOut = (s.link n).ctrlOut ++ [⟨b.tag, (s.link n).session, true, .resumed .retry 1⟩] ∧
    u.cmd = s.cmd.completed r (.refaulted kind) (retryWords n q 1) ∧
    ((s.lane n).responseQ = [] → b.session = (s.link n).session →
      (u.link n).accOut = (s.link n).accOut ++ [⟨b.tag, b.session, false, .accessError kind⟩]))

end Sys2Proof.Machine
end

