-- ==== Sys2Proof/Certificates/Slice0/Obligations.lean ====
section
/-! DEFINITION. The statements for the provers. A statement of a command's result says `exec c s = .next u.settle` or
`.next u`: `u` is the state that the command's own event leaves, and `State.settle` is what follows at the same event
(a teardown whose wait is over, the fill engine's next burst, the taking of the next command), about which
`NextCommandIsTakenWhenItCan`, `TeardownEndsTheSession`, `FillReloadsAndCompletes` and the laws that every step keeps
speak. -/

open Sys2Proof Sys2Proof.Machine

/-! ## The machine as a whole -/

/-- A step runs the command at the front of `pending` on the state with the queue's rest. That one queue, first in
first out, carries every sender's commands is the model's choice (logs 3 and 29); 95_what_each_step_holds.md names the
steps. -/
def Obligations.StepRunsTheFrontCommand : Prop :=
  ∀ (s : State) (c : Instr) (rest : List Instr), s.pending = c :: rest → step s = exec c { s with pending := rest }

/-- Every command answers a next state in every state, and never touches the queue of waiting commands. That no command
stops is the model's reading (log 33); that an event which cannot occur changes nothing, and that the waiting commands
outlast a reset, are its choice (log 3). -/
def Obligations.EveryCommandAnswersAndKeepsTheQueue : Prop :=
  ∀ (c : Instr) (s : State), ∃ t, exec c s = .next t ∧ t.pending = s.pending

/-- What no other command changes: only a completion of a transaction or a reset changes a byte of the frame memory
(R113, R114; that a write lands at its completion, and not before, is the model's reading, log 20); only CREATE,
MODIFY, RETIRE, DRAIN_END or a reset changes an entry's state, record, generation or stamp (R8, R10, R11); only
CREATE, RETIRE, DRAIN_END, SCRUB_COMPLETION or a reset changes the Block Allocator (R83, R87); and only the write of a
register or a reset changes a staging word, a configuration register or the interrupt enables (R170, R180, R182). -/
def Obligations.MemoryRecordsBlocksAndRegistersHaveTheirCommands : Prop :=
  ∀ (c : Instr) (s t : State), exec c s = .next t →
    (changesMemory c = false → ∀ a, Memory.byte t.fmi.mem a = Memory.byte s.fmi.mem a) ∧
    (changesRecords c = false → ∀ i, (t.entry i).state = (s.entry i).state ∧ (t.entry i).gen = (s.entry i).gen ∧
      (t.entry i).stamp = (s.entry i).stamp) ∧
    (changesBlocks c = false → t.alloc = s.alloc) ∧
    (changesHostRegisters c = false →
      t.cmd.stage = s.cmd.stage ∧ t.cmd.tickDiv = s.cmd.tickDiv ∧ t.cmd.warnEighths = s.cmd.warnEighths ∧
        t.cmd.complThresh = s.cmd.complThresh ∧ t.cmd.enables = s.cmd.enables)

/-- What follows an event in a state with no fill WRITING and no teardown whose link in-flight count is 0 (R142, R163,
R172): the head of the command queue is taken at the event that makes the three conditions of R172 hold; otherwise
nothing follows, and a link in TEARDOWN with transactions in flight stays there. -/
def Obligations.NextCommandIsTakenWhenItCan : Prop :=
  ∀ s : State, (∀ n, ¬ s.removalDue n) → s.fill.state ≠ .writing →
    (s.cmd.queue = [] → s.settle = s) ∧
    ∀ (r : CmdRecord) (rest : List CmdRecord), s.cmd.queue = r :: rest →
      (s.cmd.executing = none → s.cmd.completions.length + s.cmd.reserved < 32 →
        s.settle = { s with cmd := { s.cmd with
          executing := some ⟨r, .fresh⟩, queue := rest, reserved := s.cmd.reserved + 1 } }) ∧
      (s.cmd.executing ≠ none ∨ 32 ≤ s.cmd.completions.length + s.cmd.reserved → s.settle = s)

/-! ## Resets -/

/-- R13: the Surface Table after POWER_ON. -/
def Obligations.PowerOnClearsTheSurfaceTable : Prop :=
  ∀ (strap : BitVec 2) (s : State), ∃ t, exec (.powerOn strap) s = .next t ∧
    (∀ i, (t.entry i).state = .free ∧ (t.entry i).gen = 0 ∧ (t.entry i).stamp = 0 ∧ (t.entry i).inFlight = 0 ∧
      t.part i = none ∧ t.queue i = [] ∧ t.holders i = []) ∧
    (∀ k (h : k < 32), t.table.inspection[k] = 0) ∧
    t.table.pointer = .commandEngine ∧ (∀ r, t.wantsPort r = false) ∧
    t.cmd.completions = [] ∧ t.cmd.background = [] ∧ t.cmd.drainEnds = []

/-- R98: the Block Allocator and the frame memory after POWER_ON, with B from the strap as R82 gives. That a byte
nothing has written has no value in the memory's list, and reads as a free value, is the model's choice (log 6). -/
def Obligations.PowerOnFreesEveryBlock : Prop :=
  ∀ (strap : BitVec 2) (s : State), ∃ t b, exec (.powerOn strap) s = .next t ∧
    b = (if strap = 1 then 2048 else if strap = 2 then 4096 else 1024) ∧
    t.alloc.total = b ∧ t.alloc.blocks.length = b ∧ (∀ st ∈ t.alloc.blocks, st = .free) ∧
    t.alloc.freeRuns = [⟨0, b⟩] ∧ t.alloc.scrubQueue = [] ∧ t.alloc.free = b ∧ t.alloc.owned = 0 ∧
    t.alloc.scrubbing = 0 ∧ t.alloc.retiringOwned = 0 ∧ t.scrubActive = false ∧ t.fmi.ofScrub = none ∧
    ∀ a, Memory.byte t.fmi.mem a = none

/-- R138: the Fault Unit after either reset. -/
def Obligations.EitherResetClearsTheFaultUnit : Prop :=
  ∀ (s : State) (c : Instr), (∃ strap, c = .powerOn strap) ∨ (∃ w, c = .softReset w ∧ flag w 0 = true) →
    ∃ t, exec c s = .next t ∧ t.faults.queue = [] ∧ (∀ j, t.readFaultHead j = 0) ∧
      (∀ n, (t.linkFaults n).stream = .flowing ∧ (t.linkFaults n).policy = .hold ∧
        (t.linkFaults n).lastKind = .none ∧ (t.linkFaults n).lastHandle = Handle.null ∧
        (t.link n).state = .disabled ∧ (t.lane n).accessQ = [] ∧ (t.link n).ctrlOut = []) ∧
      t.faultPending = false ∧ t.cmd.executing = none ∧ t.cmd.completions = [] ∧
      ∀ n, ∃ v, exec (.enable n true) t = .next v ∧ (v.link n).state = .offline ∧ (v.linkFaults n).stream = .flowing ∧
        (v.linkFaults n).policy = .hold ∧ v.faults.queue = []

/-- R12, R14, R99, R120, R168, R184: what a soft reset keeps and what it discards; a zero in SOFT_RESET has no effect.
No transaction stays in flight; a byte of the memory is as it was, or holds what a write in flight had for it (which
of the two is a free choice, log 7). That no DETACH tag and no frame is remembered (`detachTag` 0, `wire` empty, of
`Link.reset`) is the model's choice (log 30). -/
def Obligations.SoftResetKeepsGenerationsStampsAndSessions : Prop :=
  ∀ (w : Word) (s : State),
    (flag w 0 = false → exec (.softReset w) s = .next s) ∧
    (flag w 0 = true → ∃ t, exec (.softReset w) s = .next t ∧
      (∀ i, (t.entry i).state = .free ∧ (t.entry i).gen = (s.entry i).gen ∧ (t.entry i).stamp = (s.entry i).stamp ∧
        (t.entry i).inFlight = 0 ∧ t.part i = none ∧ t.queue i = []) ∧
      (∀ c k, t.claimAt c k = none) ∧ t.claims.line = [] ∧
      t.table.pointer = .commandEngine ∧ (∀ k (h : k < 32), t.table.inspection[k] = 0) ∧
      t.alloc = Allocator.reset s.alloc.total ∧
      (∀ n, t.link n = Link.reset (s.link n).session ∧ t.lane n = Lane.reset) ∧
      t.faults.queue = [] ∧ (∀ n, (t.linkFaults n).stream = .flowing ∧ (t.linkFaults n).policy = .hold ∧
        (t.linkFaults n).lastKind = .none ∧ (t.linkFaults n).lastHandle = Handle.null) ∧
      t.fill = FillEngine.reset ∧ t.cmd = CommandEngine.reset ∧ t.interruptOutput = false ∧
      t.fmi.txns = [] ∧ t.fmi.seed = s.fmi.seed ∧
      ∀ a, Memory.byte t.fmi.mem a = Memory.byte s.fmi.mem a ∨
        ∃ x ∈ s.fmi.txns, ∃ v, (a, v) ∈ x.cells ∧ Memory.byte t.fmi.mem a = some v)

/-! ## Host register writes -/

/-- SUBMIT (R170, R171) and COMPL_POP (R176). -/
def Obligations.SubmitAppendsAndPopRemoves : Prop :=
  ∀ (w : Word) (s : State),
    (s.cmd.queue.length < 16 →
      exec (.submit w) s = .next (State.settle { s with cmd := { s.cmd with
        queue := s.cmd.queue ++ [⟨w.extractLsb' 0 8, w.extractLsb' 8 8, s.cmd.stage⟩] } })) ∧
    (16 ≤ s.cmd.queue.length →
      exec (.submit w) s = .next (State.settle { s with cmd := { s.cmd with submitOverflow := true } })) ∧
    (∀ head rest, s.cmd.completions = head :: rest →
      exec (.complPop w) s = .next (State.settle { s with cmd := { s.cmd with completions := rest } })) ∧
    (s.cmd.completions = [] →
      exec (.complPop w) s = .next (State.settle { s with cmd := { s.cmd with popEmpty := true } }))

/-- INTERRUPT_STATUS_WRITE (R179, R181): each of the four sticky sources is cleared exactly by a one at its position,
MEMORY_ERROR_MORE with MEMORY_ERROR; the level sources and everything else stay. -/
def Obligations.StatusWriteClearsStickySources : Prop :=
  ∀ (w : Word) (s : State), ∃ t, exec (.interruptStatusWrite w) s = .next t ∧
    (∀ k, 3 ≤ k → k ≤ 6 →
      t.interruptStatus.getLsbD k = (s.interruptStatus.getLsbD k && !w.getLsbD k)) ∧
    (∀ k, k < 3 → t.interruptStatus.getLsbD k = s.interruptStatus.getLsbD k) ∧
    t.cmd.memoryMore = (s.cmd.memoryMore && !w.getLsbD 4) ∧
    t = { s with cmd := { s.cmd with
      scrubIdle := t.cmd.scrubIdle, memoryError := t.cmd.memoryError, memoryMore := t.cmd.memoryMore,
      submitOverflow := t.cmd.submitOverflow, popEmpty := t.cmd.popEmpty } }

/-- R180: the enables are stored and read back, a pending state is not changed, and the output is asserted exactly
while a source is pending and enabled; both resets clear every enable. -/
def Obligations.EnablesDriveTheInterruptOutput : Prop :=
  (∀ (w : Word) (s : State), ∃ t, exec (.interruptEnableWrite w) s = .next t ∧
    t = { s with cmd := { s.cmd with enables := t.cmd.enables } } ∧
    (∀ k, k < 7 → t.cmd.enables.getLsbD k = w.getLsbD k) ∧
    t.hostRead 33 = t.cmd.enables.setWidth 32 ∧ t.interruptStatus = s.interruptStatus) ∧
  (∀ s : State, s.interruptOutput = true ↔
    ∃ k, k < 7 ∧ s.interruptStatus.getLsbD k = true ∧ s.cmd.enables.getLsbD k = true) ∧
  (∀ (s : State) (c : Instr), (∃ strap, c = .powerOn strap) ∨ (∃ w, c = .softReset w ∧ flag w 0 = true) →
    ∃ t, exec c s = .next t ∧ t.cmd.enables = 0 ∧ t.interruptOutput = false)

/-- TICK_DIV_WRITE, WARN_EIGHTHS_WRITE, COMPL_THRESH_WRITE and FAULT_POLICY_WRITE (R52, R56, R122, R151, R182): the
field written, an undefined COMPL_THRESH and the policy of a DISABLED link ignored, the running interval kept, and
nothing else changed. -/
def Obligations.ConfigurationWritesStoreTheirFields : Prop :=
  ∀ (w : Word) (s : State),
    exec (.tickDivWrite w) s = .next { s with cmd := { s.cmd with tickDiv := w.extractLsb' 0 10 } } ∧
    exec (.warnEighthsWrite w) s = .next { s with cmd := { s.cmd with warnEighths := w.extractLsb' 0 3 } } ∧
    exec (.complThreshWrite w) s = .next (if 1 ≤ (w.extractLsb' 0 6).toNat ∧ (w.extractLsb' 0 6).toNat ≤ 32
      then { s with cmd := { s.cmd with complThresh := w.extractLsb' 0 6 } } else s) ∧
    ∀ n, ((s.link n).state = .disabled → exec (.faultPolicyWrite n w) s = .next s) ∧
      ((s.link n).state ≠ .disabled → exec (.faultPolicyWrite n w) s = .next
        (s.modFaults n fun f => { f with policy := if w.getLsbD 0 then .answer else .hold }))

/-- ENABLE and RESET as writes of one field each (R151, R161; the split into two rows is the model's choice, log 23):
by the link's state. A written ENABLE that differs from the held one acts; one that does not, a zero in RESET, and a
RESET in OFFLINE or DISABLED, have no effect; in ONLINE they begin a teardown with DISABLE or HOST, and in TEARDOWN
they record that cause. Of a teardown's start, what becomes of pending reloads, of a RETRY in progress and of
withdrawn requests is the model's reading (logs 16, 17 and 39). -/
def Obligations.LinkControlWritesMoveTheLink : Prop :=
  ∀ (n : LinkId) (s : State),
    (∀ b, (s.link n).enable = b → exec (.enable n b) s = .next s.settle) ∧
    ((s.link n).enable = false →
      exec (.enable n true) s = .next (State.settle (s.modLink n fun l => { l with
        enable := true, state := if l.state = .disabled then .offline else l.state }))) ∧
    ((s.link n).enable = true →
      ((s.link n).state = .offline → exec (.enable n false) s = .next (State.settle
        (s.modLink n fun l => { l with enable := false, state := .disabled }))) ∧
      ((s.link n).state = .online →
        ∃ u : State, exec (.enable n false) s = .next u.settle ∧ teardownBegun s u n .disable) ∧
      ((s.link n).state = .teardown → exec (.enable n false) s = .next (State.settle (s.modLink n fun l => { l with
        enable := false,
        causes := if l.causes.contains .disable then l.causes else l.causes ++ [.disable] })))) ∧
    exec (.reset n false) s = .next s.settle ∧
    ((s.link n).state = .online → ∃ u : State, exec (.reset n true) s = .next u.settle ∧ teardownBegun s u n .host) ∧
    ((s.link n).state = .teardown → exec (.reset n true) s = .next (State.settle (s.modLink n fun l => { l with
      causes := if l.causes.contains .host then l.causes else l.causes ++ [.host] }))) ∧
    ((s.link n).state = .offline ∨ (s.link n).state = .disabled → exec (.reset n true) s = .next s.settle)

/-- LINK_EVENT_CLEAR (R165, 11.6): links 1 to 4 by the first word, links 5 and 6 by the second; a zero leaves its bit.
-/
def Obligations.EventClearClearsBitsWrittenWithOne : Prop :=
  ∀ (second : Bool) (w : Word) (s : State), ∃ t, exec (.linkEventClear second w) s = .next t ∧
    (∀ (n : LinkId) k, k < 6 → (t.link n).events.getLsbD k =
      ((s.link n).events.getLsbD k && !(second == decide (4 ≤ n.val) && w.getLsbD (8 * (n.val % 4) + k)))) ∧
    (∀ n, t.link n = { s.link n with events := (t.link n).events }) ∧
    t = { s with links := t.links }

/-- REGISTER_WRITE (R169, R170): a staging word takes the word and reads it back; a write to a register with a row of
its own has that row's behaviour (the model's reading, log 25); a link control register takes ENABLE and RESET at one
event (R151, R188; which of two causes comes first is a free choice, log 9, and of a teardown's start logs 16, 17 and
39 are the model's reading); and a write at an offset that names no register or a read-only one changes nothing. -/
def Obligations.RegisterWriteStoresOrIsIgnored : Prop :=
  ∀ (a : BitVec 10) (w : Word) (s : State),
    (∀ h : a.toNat < 8, ∃ u : State, exec (.registerWrite a w) s = .next u.settle ∧
      u = { s with cmd := { s.cmd with stage := s.cmd.stage.set a.toNat w } } ∧ u.settle.hostRead a = w) ∧
    exec (.registerWrite 8 w) s = exec (.submit w) s ∧ exec (.registerWrite 22 w) s = exec (.complPop w) s ∧
    (∀ p ∈ ([(32, .interruptStatusWrite w), (33, .interruptEnableWrite w), (48, .tickDivWrite w),
        (49, .warnEighthsWrite w), (50, .complThreshWrite w), (51, .softReset w), (192, .linkEventClear false w),
        (193, .linkEventClear true w)] : List (BitVec 10 × Instr)),
      ∃ t : State, exec p.2 s = .next t ∧ exec (.registerWrite p.1 w) s = .next t.settle) ∧
    (9 ≤ a.toNat → a.toNat < 256 → a.toNat ∉ [22, 32, 33, 48, 49, 50, 51, 192, 193] →
      exec (.registerWrite a w) s = .next s.settle) ∧
    (256 ≤ a.toNat → 448 ≤ a.toNat ∨ 2 ≤ a.toNat % 32 → exec (.registerWrite a w) s = .next s.settle) ∧
    ∀ n : LinkId,
      (∃ t : State, exec (.faultPolicyWrite n w) s = .next t ∧
        exec (.registerWrite (BitVec.ofNat 10 (257 + 32 * n.val)) w) s = .next t.settle) ∧
      let control := exec (.registerWrite (BitVec.ofNat 10 (256 + 32 * n.val)) w) s
      let l := s.link n
      (w.getLsbD 1 = false → control = exec (.enable n (w.getLsbD 0)) s) ∧
      (w.getLsbD 0 = l.enable → control = exec (.reset n (w.getLsbD 1)) s) ∧
      (w.getLsbD 0 ≠ l.enable → w.getLsbD 1 = true →
        (l.state = .disabled ∨ l.state = .offline → control = exec (.enable n (w.getLsbD 0)) s) ∧
        (l.state = .teardown → ∃ u : State, control = .next u.settle ∧ u = s.modLink n fun l => { l with
          enable := !l.enable
          causes := (if l.enable = false ∨ .disable ∈ l.causes then l.causes else l.causes ++ [.disable]) ++
            if .host ∈ l.causes then [] else [.host] }) ∧
        (l.state = .online → l.enable = false → ∃ u : State, control = .next u.settle ∧
          teardownBegun (s.modLink n fun l => { l with enable := true }) u n .host) ∧
        (l.state = .online → l.enable = true → ∃ u v : State, control = .next u.settle ∧
          ((teardownBegun s v n .disable ∧ u = { v.modLink n fun l => { l with causes := [.disable, .host] } with
              draws := s.draws + 1 }) ∨
            (teardownBegun s v n .host ∧ u = { v.modLink n fun l => { l with
              enable := false, causes := [.host, .disable] } with draws := s.draws + 1 }))))

/-! ## Host commands -/

/-- CREATE that passes every check (R16, R17, R84, R89, R12, R106): one event allocates the blocks, writes the lowest
FREE entry as LIVE with the next generation (never 0), the stamp advanced and no transaction in flight, gives it an
empty wait queue and a new change part, moves the arbiter's pointer, and posts the completion; nothing else changes.
-/
def Obligations.CreateMakesALiveSurface : Prop :=
  ∀ (s : State) (r : CmdRecord) (d : Desc) (i : BitVec 8) (runs : List Run) (a : Allocator),
    s.executes .create r → (createParams r.stage).check = .ok d → s.lowestFree i →
    s.alloc.allocate d.blocks i = .ok (runs, a) → s.portTurn = some .commandEngine →
    let g : BitVec 8 := if (s.entry i).gen = 255 then 1 else (s.entry i).gen + 1
    exec .create s = .next (State.settle
      { s.updated i ⟨.live { d with runs := runs }, g, (s.entry i).stamp + 1, 0⟩ with
        cmd := s.cmd.completed r .ok
          [BitVec.setWidth 32 (i ++ g), BitVec.ofNat 32 d.blocks, BitVec.ofNat 32 runs.length]
        alloc := a
        claims := { s.claims with queues := s.claims.queues.set i.toNat [] i.isLt }
        tracker := ⟨s.tracker.parts.set i.toNat (some ⟨⟨i, g⟩, 0, 0, 0, []⟩) i.isLt⟩ })

/-- CREATE's refusals in their order (R15, R16, R88): each completes the command with its outcome, and changes nothing
else; the first parameter out of range gives BAD_PARAM with its number. That a refused CREATE takes no service of the
arbiter, so that the pointer stays, is the model's reading (log 14). -/
def Obligations.CreateIsRefusedAtItsFirstFailedCheck : Prop :=
  ∀ (s : State) (r : CmdRecord), s.executes .create r →
    let p := createParams r.stage
    (∀ k, 1 ≤ k → k ≤ 6 → (∀ j, 1 ≤ j → j < k → p.inRange j) → ¬ p.inRange k →
      exec .create s = .next (s.completing r .badParam [BitVec.ofNat 32 k]).settle) ∧
    ((∀ k, p.inRange k) → ∃ d, p.check = .ok d ∧ p.format = some d.format ∧ d.width = p.width ∧ d.height = p.height ∧
      d.pitch = p.pitch ∧ d.blocks * 16384 < p.pitch * p.height + 16384 ∧ p.pitch * p.height ≤ d.blocks * 16384 ∧
      d.clip = p.clip ∧ p.rights = some d.rights ∧ d.ceiling = p.ceiling ∧ d.scrub = p.scrub ∧
      ((∀ i, i ≠ 0 → (s.entry i).state ≠ .free) → exec .create s = .next (s.completing r .tableFull []).settle) ∧
      ∀ i, s.lowestFree i →
        (s.alloc.free < d.blocks → d.blocks ≤ s.alloc.free + s.alloc.scrubbing + s.alloc.retiringOwned →
          exec .create s = .next (s.completing r .spacePending []).settle) ∧
        (s.alloc.free < d.blocks → s.alloc.free + s.alloc.scrubbing + s.alloc.retiringOwned < d.blocks →
          exec .create s = .next (s.completing r .noSpace []).settle) ∧
        (d.blocks ≤ s.alloc.free → chooseRuns d.blocks s.alloc.freeRuns = none →
          exec .create s = .next (s.completing r .fragmented []).settle))

/-- MODIFY's checks in their order, and the update of an entry that passes them (R18, R19, R106): a clip in range or
cleared, the six rights, the ceiling and the scrub flag are replaced and the stamp advances; the rest of the record,
the other entries, the claims and the change part stay. The row holds two events: the operand takes the first alone,
or with it the Claim Engine's (R20; the model's choice, log 4). There the claims that the new rights no longer permit
are lost (R44, R45, R73): a HELD WRITE claim with nothing outstanding leaves its surface torn, each lost claim's link
gets its REVOKED notice, and the queue is served. That a MODIFY refused on its read has used a service of the arbiter
(R12), that 5 is reported with both parameters out of range, and that WAITING claims go before HELD ones, on which the
torn flag of their notices rests, are the model's reading (logs 38, 58 and 11); that the record of a fill which the
revocation lets in and which ends DONE at once would follow MODIFY's (with `settle`) is its choice (log 49). -/
def Obligations.ModifyChecksAndUpdates : Prop :=
  ∀ (s : State) (x : Extent) (r : CmdRecord), s.executes .modify r →
    let h := stagedHandle r.stage
    (h.index = 0 → exec (.modify x) s = .next (s.completing r .staleHandle []).settle) ∧
    (h.index ≠ 0 → s.portTurn = some .commandEngine →
      (s.classify h = .stale →
        exec (.modify x) s = .next ((s.pointing .claimEngine).completing r .staleHandle []).settle) ∧
      (∀ d, s.classify h = .retiring d →
        exec (.modify x) s = .next ((s.pointing .claimEngine).completing r .notLive []).settle) ∧
      ∀ d, s.classify h = .current d →
        let action := r.stage[0].extractLsb' 16 8
        let c := rectOf r.stage[3] r.stage[4]
        let clipGood := action = 0 ∨ (action = 1 ∧
          c.x0 ≤ c.x1 ∧ c.x1 < d.width ∧ c.y0 ≤ c.y1 ∧ c.y1 < d.height)
        (¬ clipGood →
          exec (.modify x) s = .next ((s.pointing .claimEngine).completing r .badParam [5]).settle) ∧
        (clipGood → rightsOf r.stage[5] = none →
          exec (.modify x) s = .next ((s.pointing .claimEngine).completing r .badParam [6]).settle) ∧
        ∀ rights, clipGood → rightsOf r.stage[5] = some rights →
          let stamp := (s.entry h.index).stamp + 1
          let v : State := s.updated h.index { s.entry h.index with
            state := .live { d with
              clip := if action = 0 then none else some c, rights := rights
              ceiling := (r.stage[1].extractLsb' 0 16).toNat, scrub := r.stage[0].getLsbD 24 }
            stamp := stamp }
          let lost : Client → Claim → Bool := fun c cl => match c with
            | .fill => false
            | .link n => !(rights[n.val]).permits cl.mode
          exec (.modify .firstEvent) s = .next (State.settle
            { v with cmd := { s.cmd with executing := some ⟨r, .modifyUpdated stamp⟩ } }) ∧
          ∃ u : State, exec (.modify .whole) s = .next u.settle ∧ revokes v u h.index .rights lost ∧ u.fixed = v.fixed ∧
            u.cmd = s.cmd.completed r .ok [stamp.setWidth 32, BitVec.ofNat 32 (s.affected h.index lost)])

/-- The Claim Engine's event of a MODIFY (R19, R20) and of a REVOKE (R44, R47, R178), and REVOKE's checks: the claims
that the new rights no longer permit, or that the target names, are revoked; a HELD WRITE claim with nothing
outstanding leaves its surface torn (R73), each lost claim's link gets its REVOKED notice, the FILL whose engine claim
ends so completes REVOKED (R146), and the queue is served (R36); the completion carries how many; the records, the
blocks and the memory stay. Of a row that holds two events the operand says which are taken (the model's choice, log
4), and a REVOKE refused on its read has used a service of the arbiter (R12; the model's reading, log 38). That
WAITING claims go before HELD ones, on which the torn flag of their notices rests, is its reading too (log 11). That
REVOKE's record stands behind that of a fill that it ends, that the record of a fill which either command lets in and
which ends DONE at once would follow it (with `settle`), and that a fill's second read goes with the fill, is the
model's choice (logs 49 and 46). -/
def Obligations.ModifyAndRevokeRevokeClaims : Prop :=
  (∀ (s : State) (x : Extent) (r : CmdRecord) (stamp : BitVec 16) (d : Desc),
    s.cmd.executing = some ⟨r, .modifyUpdated stamp⟩ → r.command = some .modify →
    (s.entry (stagedHandle r.stage).index).state = .live d →
    let i := (stagedHandle r.stage).index
    let lost : Client → Claim → Bool := fun c cl => match c with
      | .fill => false
      | .link n => !(d.rights[n.val]).permits cl.mode
    ∃ u : State, exec (.modify x) s = .next u.settle ∧ revokes s u i .rights lost ∧ u.fixed = s.fixed ∧
      u.cmd = s.cmd.completed r .ok [stamp.setWidth 32, BitVec.ofNat 32 (s.affected i lost)]) ∧
  ∀ (s : State) (x : Extent) (r : CmdRecord),
    let h := stagedHandle r.stage
    (s.executes .revoke r →
      (revokeTarget r.stage = none → exec (.revoke x) s = .next (s.completing r .badParam [2]).settle) ∧
      (revokeTarget r.stage ≠ none → h.index = 0 →
        exec (.revoke x) s = .next (s.completing r .staleHandle []).settle) ∧
      (revokeTarget r.stage ≠ none → h.index ≠ 0 → s.portTurn = some .commandEngine →
        (s.classify h = .stale →
          exec (.revoke x) s = .next ((s.pointing .claimEngine).completing r .staleHandle []).settle) ∧
        ∀ d, (s.classify h = .retiring d →
            exec (.revoke x) s = .next ((s.pointing .claimEngine).completing r .notLive []).settle) ∧
          (s.classify h = .current d → exec (.revoke .firstEvent) s = .next (State.settle
            { s.pointing .claimEngine with cmd := { s.cmd with executing := some ⟨r, .revokeChecked⟩ } })))) ∧
    ((s.cmd.executing = some ⟨r, .revokeChecked⟩ ∧ r.command = some .revoke) ∨
        (s.executes .revoke r ∧ x = .whole ∧ h.index ≠ 0 ∧ s.portTurn = some .commandEngine ∧
          ∃ d, s.classify h = .current d) →
      ∀ t, revokeTarget r.stage = some t →
        let sel : Client → Claim → Bool := fun c _ => t == .all || match c with
          | .fill => false
          | .link n => t == .link n
        ∃ u : State, exec (.revoke x) s = .next u.settle ∧ revokes s u h.index .host sel ∧ u.fixed = s.fixed ∧
          u.cmd.executing = none ∧ u.cmd.completions.getLast? =
            some ⟨r.tag, r.kind, .ok,
              [BitVec.ofNat 32 (s.affected h.index sel), BitVec.setWidth 32 (h.index ++ h.gen)]⟩)

/-- RETIRE (R9, R21, R23, R87, R174): refused when the handle is stale or retiring; otherwise the entry becomes
RETIRING with its stamp advanced, its blocks count as retiring-owned (by the record's count of blocks: the model's
reading, log 34), its claims are revoked with RETIRED (R44, R45), a HELD WRITE claim with nothing outstanding leaves
the surface torn (R73), each lost claim's link gets its REVOKED notice, the FILL whose engine claim ends so completes
RETIRED (R146), the command becomes background, and with no claim and no transaction left its drain end is due. A
RETIRE refused on its read has used a service of the arbiter (R12; the model's reading, log 38). That WAITING claims
go before HELD ones, on which the torn flag of their notices rests, is its reading too (log 11), and that a fill's
second read goes with the fill its choice (log 46). -/
def Obligations.RetireMakesTheSurfaceRetiring : Prop :=
  ∀ (s : State) (r : CmdRecord), s.executes .retire r →
    let h := stagedHandle r.stage
    (h.index = 0 → exec .retire s = .next (s.completing r .staleHandle []).settle) ∧
    (h.index ≠ 0 → s.portTurn = some .commandEngine →
      (s.classify h = .stale →
        exec .retire s = .next ((s.pointing .claimEngine).completing r .staleHandle []).settle) ∧
      (∀ d, s.classify h = .retiring d →
        exec .retire s = .next ((s.pointing .claimEngine).completing r .notLive []).settle) ∧
      ∀ d, s.classify h = .current d →
        let e : Entry := { s.entry h.index with state := .retiring d, stamp := (s.entry h.index).stamp + 1 }
        ∃ u : State, exec .retire s = .next u.settle ∧ u.entry h.index = e ∧
        (∀ j, j ≠ h.index → u.entry j = s.entry j) ∧
        u.alloc = { s.alloc with retiringOwned := s.alloc.retiringOwned + d.blocks } ∧
        revokes (s.updated h.index e) u h.index .retired (fun _ _ => true) ∧
        u.cmd.executing = none ∧ ⟨r.tag, r.kind, h⟩ ∈ u.cmd.background ∧
        (s.hasClaim h.index = false → (s.entry h.index).inFlight = 0 → h.index ∈ u.cmd.drainEnds) ∧
        u.fixed = { s.fixed with alloc := u.alloc, records := u.fixed.records })

/-- DRAIN_END (R24, R87, R90, R91, R93): the first due drain end sets its RETIRING entry FREE with its generation and
stamp kept, returns its blocks to the free-run list, or to the scrub queue when the record asks for it, discards its
change part, and completes its RETIRE, the first of the background commands that is one for this handle. That the count
of retiring-owned blocks falls by the record's count of blocks is the model's reading (log 34). -/
def Obligations.DrainEndFreesTheSurface : Prop :=
  ∀ (s : State) (i : BitVec 8) (rest : List (BitVec 8)) (d : Desc) (b : Background),
    s.cmd.drainEnds = i :: rest → s.portTurn = some .commandEngine → (s.entry i).state = .retiring d →
    let retires (g : Background) : Bool := g.kind == 3 && g.handle == ⟨i, (s.entry i).gen⟩
    s.cmd.background.find? retires = some b →
    ∃ u : State, exec .drainEnd s = .next u.settle ∧
      u.entry i = { s.entry i with state := .free } ∧ (∀ j, j ≠ i → u.entry j = s.entry j) ∧
      u.part i = none ∧ (∀ j, j ≠ i → u.part j = s.part j) ∧
      u.alloc.free = s.alloc.free + (if d.scrub then 0 else d.blocks) ∧
      u.alloc.scrubbing = s.alloc.scrubbing + (if d.scrub then d.blocks else 0) ∧
      u.alloc.owned = s.alloc.owned - d.blocks ∧ u.alloc.retiringOwned = s.alloc.retiringOwned - d.blocks ∧
      u.alloc.freeRuns = (if d.scrub then s.alloc.freeRuns
        else d.runs.foldl (fun l r => joinFree r l) s.alloc.freeRuns) ∧
      u.alloc.scrubQueue = s.alloc.scrubQueue ++ (if d.scrub then d.runs else []) ∧
      (∀ k (hk : k < s.alloc.blocks.length), u.alloc.blocks[k]? = some (if d.runs.any (fun r => r.has k)
        then (if d.scrub then .scrubbing else .free) else s.alloc.blocks[k])) ∧
      (∀ q, s.alloc.scrubQueue = [] → s.fmi.ofScrub = none → d.scrub = true → d.runs.head? = some q →
        u.fmi.txns = s.fmi.txns ++ [⟨s.fmi.nextId, .scrub, q.first * 16384, 16384, .zero⟩]) ∧
      u.cmd = { s.cmd with
        drainEnds := rest, background := s.cmd.background.eraseP retires, reserved := s.cmd.reserved - 1
        completions := s.cmd.completions ++ [⟨b.tag, b.kind, .ok,
          [BitVec.setWidth 32 (i ++ (s.entry i).gen), BitVec.ofNat 32 d.blocks, if d.scrub then 1 else 0]⟩] } ∧
      u.claims = s.claims ∧ u.links = s.links ∧ u.lanes = s.lanes ∧ u.faults = s.faults ∧ u.fill = s.fill ∧
      u.fmi.mem = s.fmi.mem

/-- INSPECT (R12, R25, R26, 11.4): parameter 1 or 2 out of range is refused (both out of range reports 1: the model's
reading, log 40); otherwise one service fills the whole inspection buffer with the two header words and the data words
of the part, zeros beyond, and completes; nothing else changes. Part 2 of a surface reads the claim part at a second
event, which the operand takes in the same step or leaves for the next (the model's choice, log 4); of an entry whose
drain end was served between the two, it reports the header as read and no claim (the model's choice, log 54). -/
def Obligations.InspectFillsTheBuffer : Prop :=
  ∀ (s : State) (x : Extent) (r : CmdRecord),
    let i : BitVec 8 := r.stage[0].extractLsb' 0 8
    let part : BitVec 8 := r.stage[0].extractLsb' 8 8
    let filled (s u : State) (code : Byte) (gen : BitVec 8) (data : List Word) : Prop :=
      u = { s with
        cmd := s.cmd.completed r .ok [(part ++ gen ++ code ++ i : BitVec 32)]
        table := { s.table with inspection := u.table.inspection } } ∧
      u.hostRead 128 = (code ++ part ++ i ++ r.tag : BitVec 32) ∧
      u.hostRead 129 = BitVec.ofNat 32 (256 * data.length) ||| gen.setWidth 32 ∧
      ∀ k (_ : k < 30), u.hostRead (BitVec.ofNat 10 (130 + k)) = data.getD k 0
    (s.executes .inspect r →
      (i = 0 → exec (.inspect x) s = .next (s.completing r .badParam [1]).settle) ∧
      (i ≠ 0 → 2 < part.toNat → exec (.inspect x) s = .next (s.completing r .badParam [2]).settle) ∧
      (i ≠ 0 → part.toNat ≤ 2 → s.portTurn = some .commandEngine →
        let e := s.entry i
        let data : List Word := match e.state.desc with
          | none => []
          | some d => if part = 0 then inspectHeader e d else if part = 1 then inspectRuns d else s.inspectClaims i
        (x = .whole ∨ part ≠ 2 ∨ e.state.desc = none → ∃ u : State, exec (.inspect x) s = .next u.settle ∧
          filled (s.pointing .claimEngine) u e.state.code e.gen data) ∧
        (∀ d, part = 2 → e.state.desc = some d → exec (.inspect .firstEvent) s = .next (State.settle
          { s.pointing .claimEngine with
            cmd := { s.cmd with executing := some ⟨r, .inspectRead e.state.code e.gen⟩ } })))) ∧
    ∀ code gen, s.cmd.executing = some ⟨r, .inspectRead code gen⟩ → r.command = some .inspect →
      ∃ u : State, exec (.inspect x) s = .next u.settle ∧ filled s u code gen (s.inspectClaims i)

/-- CHANGES of the host (R79), SPACE (R96, 11.3) and a code that names no command (R173): each is answered at one
event that only completes the command. -/
def Obligations.QueriesOnlyComplete : Prop :=
  ∀ (s : State) (r : CmdRecord),
    (s.executes .changes r →
      (s.partOf (stagedHandle r.stage) = none → exec .changes s = .next (s.completing r .staleHandle []).settle) ∧
      ∀ p, s.partOf (stagedHandle r.stage) = some p →
        let a := p.answer (s.height (stagedHandle r.stage).index) r.stage[1]
        exec .changes s = .next (s.completing r .ok
          [BitVec.ofNat 32 (a.1.code + if p.torn = 0 then 0 else 256), p.sequence,
            a.2.extractLsb' 0 32, a.2.extractLsb' 32 32]).settle) ∧
    (s.executes .space r →
      s.alloc.free < 65536 → s.alloc.scrubbing < 65536 → s.alloc.freeRuns.length < 65536 →
      ∃ w0 w1 w2, exec .space s = .next (s.completing r .ok [w0, w1, w2]).settle ∧
        w0.extractLsb' 0 16 = BitVec.ofNat 16 s.alloc.free ∧ w0.extractLsb' 16 16 = BitVec.ofNat 16 s.alloc.owned ∧
        w1.extractLsb' 0 16 = BitVec.ofNat 16 s.alloc.scrubbing ∧
        w1.extractLsb' 16 16 = BitVec.ofNat 16 s.alloc.retiringOwned ∧
        w2.extractLsb' 0 16 = BitVec.ofNat 16 s.alloc.freeRuns.length ∧
        w2.extractLsb' 16 16 = BitVec.ofNat 16 ((s.alloc.freeRuns.map Run.length).foldl max 0)) ∧
    (∀ st, s.cmd.executing = some ⟨r, st⟩ → (r.kind = 0 ∨ 10 < r.kind.toNat) →
      exec .unknownCommand s = .next (s.completing r .unknownCommand []).settle)

/-- The checks of RESOLVE in their order (R130): a link that is not 1 to 6, an action that names none, no record, and a
link in TEARDOWN; a refused RESOLVE only completes. It is completed at the row of the action it stages, and with an
action that names none at any of the three rows (the model's choice, log 18); RETRY's operand makes no difference. That
1 is reported with both parameters out of range is the model's reading (log 57). -/
def Obligations.ResolveIsRefusedAtItsFirstFailedCheck : Prop :=
  ∀ (s : State) (r : CmdRecord) (a : ResolveAction) (x : Extent) (c : Instr), s.executes .resolve r →
    (r.stage[0].extractLsb' 8 8).toNat = a.code ∨ 3 ≤ (r.stage[0].extractLsb' 8 8).toNat →
    c = (match a with
      | .retry => .resolveRetry x
      | .skip => .resolveSkip
      | .flush => .resolveFlush) →
    let k := (r.stage[0].extractLsb' 0 8).toNat
    (k = 0 ∨ 6 < k → exec c s = .next (s.completing r .badParam [1]).settle) ∧
    (1 ≤ k → k ≤ 6 →
      (3 ≤ (r.stage[0].extractLsb' 8 8).toNat → exec c s = .next (s.completing r .badParam [2]).settle) ∧
      ((r.stage[0].extractLsb' 8 8).toNat = a.code →
        ((∀ q ∈ s.faults.queue, q.link.val + 1 ≠ k) → exec c s = .next (s.completing r .noFault []).settle) ∧
        ((∃ q ∈ s.faults.queue, q.link.val + 1 = k) → (∃ n : LinkId, n.val + 1 = k ∧ (s.link n).state = .teardown) →
          exec c s = .next (s.completing r .noFault []).settle)))

/-- RESOLVE RETRY (R113, R131, R132; the taking and the retried judging are two events, of which the operand takes the
first or both, log 4): its taking removes the record and makes the stream RETRYING; the retried judging then accepts
the burst with every effect of an acceptance (a WRITE with no pixel left is answered with a written count of 0; of the
bytes, logs 20 and 43 are the model's), makes the stream FLOWING, sends RESUMED and completes OK, or fails again by
the link's policy: held once more with a new record whose attempt is one more (255 stays), or answered and FLOWING.
That a WRITE whose format was not known fails again is the model's reading (log 53). -/
def Obligations.RetryTakesTheRecordAndJudgesOnceMore : Prop :=
  ∀ (s : State) (r : CmdRecord) (n : LinkId) (q : FaultRecord),
    r.command = some .resolve → (s.link n).state = .online →
    (s.cmd.executing = some ⟨r, .fresh⟩ → (r.stage[0].extractLsb' 0 8).toNat = n.val + 1 →
      r.stage[0].extractLsb' 8 8 = 0 → s.faults.queue.find? (fun q => q.link == n) = some q →
      let taken : State := { s with
        faults := { s.faults with queue := s.faults.queue.filter fun q => q.link != n }
        cmd := { s.cmd with executing := some ⟨r, .retrying n q⟩ } }.modFaults n fun f => { f with stream := .retrying }
      exec (.resolveRetry .firstEvent) s = .next taken.settle ∧
      (ReloadJob.judge ∉ (s.lane n).reloads →
        exec (.resolveRetry .whole) s = exec (.resolveRetry .whole) taken)) ∧
    ∀ (x : Extent) (b : Burst) (rest : List Burst) (c : Copy),
      s.cmd.executing = some ⟨r, .retrying n q⟩ → (s.linkFaults n).stream = .retrying →
      ReloadJob.judge ∉ (s.lane n).reloads → (s.lane n).accessQ = b :: rest → s.validCopy n b = some c →
      (s.link n).ctrlOut.length < 72 →
      (∀ k cl, s.permits n b c = .ok k → s.claimAt (.link n) k = some cl →
        ∃ u : State, exec (.resolveRetry x) s = .next u.settle ∧
        (u.linkFaults n).stream = .flowing ∧ u.faults.queue = s.faults.queue ∧
        (u.link n).ctrlOut = (s.link n).ctrlOut ++ [⟨b.tag, (s.link n).session, true, .resumed .retry 0⟩] ∧
        u.cmd = s.cmd.completed r .ok (retryWords n q 0) ∧ (u.lane n).accessQ = rest ∧
        ((s.lane n).waits → 1 ≤ (c.parts b.y (movedSpan b c).1 (movedSpan b c).2).length →
          accepts s u n b rest c k cl ∧ (u.link n).accOut = (s.link n).accOut) ∧
        ((s.lane n).responseQ = [] → b.session = (s.link n).session → b.dir = .write → (movedSpan b c).2 = 0 →
          (u.link n).accOut = (s.link n).accOut ++ [⟨b.tag, b.session, false, .writeDone 0⟩] ∧
          u.fmi = s.fmi ∧ u.table = s.table ∧ u.claims = s.claims ∧ u.tracker = s.tracker)) ∧
      (∀ kind, s.permits n b c = .error kind → ∃ u : State, exec (.resolveRetry x) s = .next u.settle ∧
        refaults s u n b rest r q kind)

/-- RESOLVE SKIP and FLUSH (R133, R134): the record leaves the queue, the held burst is answered ACCESS_ERROR with the
record's kind, FLUSH answers those behind it FLUSHED, the stream becomes FLOWING, RESUMED and the completion carry the
number answered; no transaction is issued and no band marked. (With no burst in flight the responses leave at once.)
-/
def Obligations.SkipAndFlushAnswerWithoutJudging : Prop :=
  ∀ (s : State) (r : CmdRecord) (n : LinkId) (q : FaultRecord) (b : Burst) (rest : List Burst),
    s.executes .resolve r → (r.stage[0].extractLsb' 0 8).toNat = n.val + 1 →
    s.faults.queue.find? (fun q => q.link == n) = some q → (s.lane n).accessQ = b :: rest →
    (s.lane n).responseQ = [] → (s.link n).hears (s.link n).session →
    (∀ c ∈ b :: rest, c.session = (s.link n).session) →
    let answer (c : Burst) (kind : LinkCode) : Message := ⟨c.tag, (s.link n).session, false, .accessError kind⟩
    let after (u : State) (a : ResolveAction) (answered : Nat) : Prop :=
      u = { s with cmd := u.cmd, lanes := u.lanes, faults := u.faults, links := u.links } ∧
      u.faults.queue = (s.faults.queue.filter fun q => q.link != n) ∧
      u.linkFaults n = { s.linkFaults n with stream := .flowing } ∧
      (u.link n).ctrlOut =
        (s.link n).ctrlOut ++ [⟨q.tag, (s.link n).session, true, .resumed a answered⟩] ∧
      u.cmd = s.cmd.completed r .ok [(BitVec.ofNat 8 q.attempt ++ q.tag ++ BitVec.ofNat 8 a.code ++
        BitVec.ofNat 8 (n.val + 1) : BitVec 32), BitVec.ofNat 32 answered] ∧
      (u.lane n).responseQ = [] ∧
      ∀ m, m ≠ n → u.link m = s.link m ∧ u.lane m = s.lane m ∧ u.linkFaults m = s.linkFaults m
    (r.stage[0].extractLsb' 8 8 = 1 → ∃ u : State, exec .resolveSkip s = .next u.settle ∧ after u .skip 1 ∧
      (u.lane n).accessQ = rest ∧ (u.link n).accOut = (s.link n).accOut ++ [answer b q.kind]) ∧
    (r.stage[0].extractLsb' 8 8 = 2 → ∃ u : State, exec .resolveFlush s = .next u.settle ∧
      after u .flush (rest.length + 1) ∧ (u.lane n).accessQ = [] ∧
      (u.link n).accOut = (s.link n).accOut ++ answer b q.kind :: rest.map fun c => answer c .flushed)

/-- FILL (R140, R147, R174): the checks in their order, and an accepted one: the job and the copy are written, the
claim is requested, the status registers take the new job, and the command becomes background. A FILL refused on its
read has used a service of the arbiter (R12; the model's reading, log 38). -/
def Obligations.FillIsRefusedOrStartsAJob : Prop :=
  ∀ (s : State) (r : CmdRecord), s.executes .fill r →
    let h := stagedHandle r.stage
    let x := (r.stage[1].extractLsb' 0 16).toNat
    let y := (r.stage[1].extractLsb' 16 16).toNat
    let w := (r.stage[2].extractLsb' 0 16).toNat
    let ht := (r.stage[2].extractLsb' 16 16).toNat
    (s.fill.state ≠ .idle → exec .fill s = .next (s.completing r (.busy .engine) [1]).settle) ∧
    (s.fill.state = .idle → h.index = 0 → exec .fill s = .next (s.completing r .staleHandle []).settle) ∧
    (s.fill.state = .idle → h.index ≠ 0 → s.portTurn = some .fillEngine →
      let s' := s.pointing (.reload 0)
      (s.classify h = .stale → exec .fill s = .next (s'.completing r .staleHandle []).settle) ∧
      ∀ d, (s.classify h = .retiring d → exec .fill s = .next (s'.completing r .notLive []).settle) ∧
        (s.classify h = .current d →
          (w = 0 ∨ ht = 0 ∨ d.width < x + w ∨ d.height < y + ht →
            exec .fill s = .next (s'.completing r .bounds []).settle) ∧
          (1 ≤ w → 1 ≤ ht → x + w ≤ d.width → y + ht ≤ d.height →
            exec .fill s = .next (State.settle { s' with
              fill := ⟨.waiting, some {
                tag := r.tag, handle := h, x := x, y := y, w := w, h := ht, value := r.stage[3]
                publish := r.stage[0].getLsbD 16, waitLimit := (r.stage[4].extractLsb' 0 16).toNat
                nextRow := y, nextX := x, burst := none, stop := false
                copy := ⟨h, (s.entry h.index).stamp, d.format, d.width, d.height, d.pitch, d.clip, d.runs⟩
                outdated := false, reading := false, withdrawAsked := false, withdrawTaken := false },
                r.tag, h, 0⟩
              claims := { s.claims with line := s.claims.line ++ [.fill] }
              cmd := { s.cmd with
                executing := none, background := s.cmd.background ++ [⟨r.tag, r.kind, h⟩] } }))))

/-- STOP_FILL by the engine's state (R145, R146): NOT_RUNNING in IDLE and DRAINING; OK in WAITING, where a withdrawal is
asked for, and in WRITING, where the engine's HELD claim is released PLAIN and, with nothing outstanding, ends the fill
STOPPED. The withdrawal removes a WAITING claim and releases a HELD one, which ends the fill CANCELLED, and does nothing
while the claim is not decided. The operand takes the withdrawal at once or leaves it for the row's next step (log 4),
and orders it against a second STOP_FILL (log 44); two completions of one event stand in the order that log 49 gives:
these three are the model's choice, and so is that a second read still asked for goes with a fill that ends (log 46) and
that the engine's slot holds tag 0 for a RELEASE (log 48). -/
def Obligations.StopFillActsByTheEnginesState : Prop :=
  ∀ (s : State) (r : CmdRecord),
    let alone (j : FillJob) (cl : Claim) (p : ChangePart) (b : Background) : Prop :=
      s.claims.filler = some cl ∧ cl.handle = j.handle ∧ s.partOf j.handle = some p ∧
        s.cmd.background.find? (fun b => b.kind == 9) = some b
    let removed (v : State) (i : BitVec 8) (p : ChangePart) (b : Background) : State :=
      ((((v.unclaimed).modQueue i fun q => q.erase .fill).fillOver b .cancelled v.fill.rowsDone p).serve
        i).drainLooked i
    (s.executes .stopFill r →
      (s.withdrawalDue = true → s.fill.state = .idle ∨ s.fill.state = .draining →
        exec (.stopFill .firstEvent) s = .next (s.completing r .notRunning []).settle) ∧
      (s.withdrawalDue = false →
        (s.fill.state = .idle ∨ s.fill.state = .draining → ∀ x,
          exec (.stopFill x) s = .next (s.completing r .notRunning []).settle) ∧
        ∀ j, s.fill.job = some j →
          let i := j.handle.index
          (s.fill.state = .waiting →
            exec (.stopFill .firstEvent) s = .next (State.settle { s.completing r .ok [] with
              fill := { s.fill with
                state := .draining, job := some { j with stop := true, withdrawAsked := true } } }) ∧
            (s.claims.filler = none →
              exec (.stopFill .whole) s = .next (State.settle { s.completing r .ok [] with
                fill := { s.fill with state := .draining, job := some { j with
                  stop := true, withdrawAsked := true, withdrawTaken := true } } })) ∧
            ∀ cl p b, alone j cl p b → cl.state = .waiting →
              exec (.stopFill .whole) s = .next (removed (s.completing r .ok []) i p b).settle) ∧
          (s.fill.state = .writing → ∀ x,
            let stopped : FillJob := { j with stop := true }
            let v : State := { s.completing r .ok [] with
              fill := { s.fill with state := .draining, job := some stopped } }
            (∀ cl kind, s.claims.filler = some cl → cl.state = .releasing kind →
              exec (.stopFill x) s = .next v.settle) ∧
            (∀ cl, s.claims.filler = some cl → cl.state = .held → 0 < cl.outstanding →
              exec (.stopFill x) s = .next (State.settle { v with
                claims := { s.claims with filler := some { cl with state := .releasing .plain, releaseTag := 0 } } })) ∧
            ∀ cl p b, alone j cl p b → cl.state = .held → cl.outstanding = 0 →
              exec (.stopFill x) s =
                .next (v.fillClosed stopped b .plain s.fill.rowsDone (p.ended cl.mode .plain)).settle))) ∧
    ∀ (x : Extent) (j : FillJob),
      (∀ e, s.cmd.executing = some e → e.cmd.command ≠ some .stopFill ∨ (e.stage = .fresh ∧ x = .whole)) →
      s.fill.job = some j → j.withdrawAsked = true → j.withdrawTaken = false →
      let i := j.handle.index
      let taken : State := { s with fill := { s.fill with job := some { j with withdrawTaken := true } } }
      (s.claims.filler = none → exec (.stopFill x) s = .next taken.settle) ∧
      (∀ cl kind, s.claims.filler = some cl → cl.state = .releasing kind → exec (.stopFill x) s = .next taken.settle) ∧
      ∀ cl p b, alone j cl p b →
        (cl.state = .waiting → exec (.stopFill x) s = .next (removed s i p b).settle) ∧
        (cl.state = .held → 0 < cl.outstanding → exec (.stopFill x) s = .next (State.settle { taken with
          claims := { s.claims with filler := some { cl with state := .releasing .plain, releaseTag := 0 } } })) ∧
        (cl.state = .held → cl.outstanding = 0 → exec (.stopFill x) s =
          .next (taken.fillClosed j b .plain s.fill.rowsDone (p.ended cl.mode .plain)).settle)

/-! ## Links -/

/-- ATTACH in OFFLINE (R153): one event opens a session with the next session number, all credits, and ATTACHED
queued; one that is not of ATTACH's layout is dropped with NOT_ATTACHED (the model's reading, log 41). In ONLINE it is a
protocol error (R154, R160), and in DISABLED and TEARDOWN it is dropped (R150). Of a teardown's start, what becomes of
pending reloads, of a RETRY in progress and of withdrawn requests is the model's reading (logs 16, 17 and 39). -/
def Obligations.AttachOpensASession : Prop :=
  ∀ (n : LinkId) (s : State) (tag : Byte) (b0 b1 b2 b3 : Byte) (f : Frame), f = ⟨tag, 4, [b0, b1, b2, b3]⟩ →
    ((s.link n).state = .offline → (s.link n).ctrlOut = [] →
      exec (.attach n f) s = .next (State.settle (s.modLink n fun l => { l with
        state := .online, session := l.session + 1, identity := b3 ++ b2 ++ b1 ++ b0, ctrlCredits := 4, accCredits := 8
        ctrlOut := [⟨0, l.session + 1, false, .attached 4 8⟩] }))) ∧
    (∀ g : Frame, g.len.toNat ≠ 4 ∨ g.body.length ≠ 4 → (s.link n).state = .offline →
      exec (.attach n g) s = .next (State.settle (s.modLink n fun l => { l with events := l.events ||| 0x20 }))) ∧
    ((s.link n).state = .online →
      ∃ u : State, exec (.attach n f) s = .next u.settle ∧ teardownBegun s u n .protocol) ∧
    ((s.link n).state = .disabled ∨ (s.link n).state = .teardown → exec (.attach n f) s = .next s.settle)

/-- R152: an OFFLINE link drops a control request, a READ, a WRITE and a frame of an undefined kind and sets
NOT_ATTACHED, using no credit; a DISABLED link drops them without it, and a loss report in OFFLINE or DISABLED is
ignored. -/
def Obligations.OfflineFramesAreDropped : Prop :=
  ∀ (n : LinkId) (s : State) (f : Frame) (k : ControlKind) (kind : Byte) (c : Instr),
    clientKinds.contains kind = false →
    c = .controlRequest n k f ∨ c = .read n f ∨ c = .write n f ∨ c = .undefinedKindFrame n kind →
    ((s.link n).state = .offline →
      exec c s = .next (State.settle (s.modLink n fun l => { l with events := l.events ||| 0x20 }))) ∧
    ((s.link n).state = .disabled → exec c s = .next s.settle) ∧
    ((s.link n).state = .offline ∨ (s.link n).state = .disabled → exec (.lost n) s = .next s.settle)

/-- CONTROL_REQUEST on an ONLINE link (R154, R155, R156): a well-formed request uses a control credit and joins the
list; a malformed one, one without a credit, and a frame of an undefined kind end the session with PROTOCOL (R160; what
becomes at a teardown's start of pending reloads, of a RETRY in progress and of withdrawn requests is the model's
reading, logs 16, 17 and 39). And the client header of R187: byte 0 is the kind, which 11.5 gives, byte 1 the tag,
bytes 2 and 3 the body length with the least significant byte first; a message that arrives is the command of its kind
and waits behind those that have come before it; fewer than four bytes are no message (the model's reading, log 45). -/
def Obligations.ControlRequestsAreCredited : Prop :=
  (∀ (n : LinkId) (s : State) (f : Frame) (k : ControlKind), (s.link n).state = .online →
    (∀ r, parseControl k f = some r → 1 ≤ (s.link n).ctrlCredits →
      exec (.controlRequest n k f) s = .next (State.settle (s.modLink n fun l => { l with
        ctrlCredits := l.ctrlCredits - 1, requests := l.requests ++ [r] }))) ∧
    (f.len.toNat ≠ f.body.length ∨ parseControl k f = none ∨ (s.link n).ctrlCredits = 0 →
      ∃ u : State, exec (.controlRequest n k f) s = .next u.settle ∧ teardownBegun s u n .protocol) ∧
    ∀ kind, clientKinds.contains kind = false →
      ∃ u : State, exec (.undefinedKindFrame n kind) s = .next u.settle ∧ teardownBegun s u n .protocol) ∧
  ∀ (n : LinkId) (s : State) (kind tag lo hi : Byte) (body : List Byte) (c : Instr),
    let f : Frame := ⟨tag, hi ++ lo, body⟩
    (kind, c) ∈ ([(0x01, .attach n f), (0x02, .controlRequest n .detach f), (0x03, .controlRequest n .claim f),
        (0x04, .controlRequest n .release f), (0x05, .controlRequest n .renew f), (0x06, .controlRequest n .changes f),
        (0x10, .read n f), (0x11, .write n f)] : List (Byte × Instr)) ∨
      (clientKinds.contains kind = false ∧ c = .undefinedKindFrame n kind) →
    s.receive n (kind :: tag :: lo :: hi :: body) = { s with pending := s.pending ++ [c] } ∧
    ∀ few : List Byte, few.length < 4 → s.receive n few = s

/-- READ and WRITE on an ONLINE link with no WRITE waiting (R100, R101, R154, R157): a frame that passes its checks
uses an access credit and its burst joins the access queue, marked when no format is known (index 0); a WRITE whose
format must be read waits with its reload requested; a failed check ends the session with PROTOCOL (R160; what becomes
at a teardown's start of pending reloads, of a RETRY in progress and of withdrawn requests is the model's reading,
logs 16, 17 and 39). -/
def Obligations.ReadAndWriteJoinTheAccessQueue : Prop :=
  ∀ (n : LinkId) (s : State) (tag g i x0 x1 y0 y1 count : Byte) (data : List Byte) (len : BitVec 16),
    (s.link n).state = .online → (s.link n).arrivals = [] →
    let head : List Byte := [g, i, x0, x1, y0, y1, count]
    let burst (dir : Mode) (data : List Byte) (formatless : Bool) : Burst :=
      ⟨dir, tag, ⟨i, g⟩, (x1 ++ x0).toNat, (y1 ++ y0).toNat, count.toNat + 1, data, (s.link n).session, formatless⟩
    let joined (b : Burst) : State :=
      (s.modLink n fun l => { l with accCredits := l.accCredits - 1 }).modLane n fun l =>
        { l with accessQ := l.accessQ ++ [b] }
    let known (bpp : Nat) : Prop := ∃ c, (s.lane n).writeSlot = some c ∧ c.handle = ⟨i, g⟩ ∧ c.format.bpp = bpp
    let matching : Prop := ∃ c, (s.lane n).writeSlot = some c ∧ c.handle = ⟨i, g⟩
    (1 ≤ (s.link n).accCredits → exec (.read n ⟨tag, 7, head⟩) s = .next (joined (burst .read [] false)).settle) ∧
    ((s.link n).accCredits = 0 ∨ len ≠ 7 →
      ∃ u : State, exec (.read n ⟨tag, len, head⟩) s = .next u.settle ∧ teardownBegun s u n .protocol) ∧
    (len.toNat = 7 + data.length →
      let f : Frame := ⟨tag, len, head ++ data⟩
      ((s.link n).accCredits = 0 →
        ∃ u : State, exec (.write n f) s = .next u.settle ∧ teardownBegun s u n .protocol) ∧
      (1 ≤ (s.link n).accCredits →
        (∀ bpp, known bpp → data.length = (count.toNat + 1) * bpp →
          exec (.write n f) s = .next (joined (burst .write data false)).settle) ∧
        (∀ bpp, known bpp → data.length ≠ (count.toNat + 1) * bpp →
          ∃ u : State, exec (.write n f) s = .next u.settle ∧ teardownBegun s u n .protocol) ∧
        (¬ matching → i = 0 → exec (.write n f) s = .next (joined (burst .write data true)).settle) ∧
        (¬ matching → i ≠ 0 → exec (.write n f) s = .next (State.settle
          ((s.modLink n fun l => { l with arrivals := [⟨.write, f⟩] }).modLane n fun l =>
            { l with reloads := l.reloads ++ [.length] })))))

/-- The checks of a CLAIM against the read of the record, in the order of R32. -/
def Obligations.ClaimIsRefusedAtItsFirstFailedCheck : Prop :=
  ∀ (s : State) (n : LinkId) (h : Handle) (mode : Mode) (lease : Nat),
    (s.classify h = .stale → s.claimRefusal n h mode lease = some .staleHandle) ∧
    (∀ d, s.classify h = .retiring d → s.claimRefusal n h mode lease = some .notLive) ∧
    ∀ d, s.classify h = .current d →
      ((d.rights[n.val]).permits mode = false → s.claimRefusal n h mode lease = some .noRight) ∧
      ((d.rights[n.val]).permits mode = true →
        ((∃ k cl, s.claimAt (.link n) k = some cl ∧ cl.handle.index = h.index) →
          s.claimRefusal n h mode lease = some .duplicate) ∧
        ((∀ k cl, s.claimAt (.link n) k = some cl → cl.handle.index ≠ h.index) →
          ((∀ k, s.claimAt (.link n) k ≠ none) → s.claimRefusal n h mode lease = some .tableFull) ∧
          ((∃ k, s.claimAt (.link n) k = none) →
            s.claimRefusal n h mode lease =
              if d.ceiling = 0 ∨ (1 ≤ lease ∧ lease ≤ d.ceiling) then none else some .leaseRange)))

/-- CLAIM (R9, R32, R33, R35, R155): at its taking it joins the line of reads; at the service of its read it is
refused, or granted when no claim waits and its mode is compatible, or refused BUSY with wait limit 0, or else queued
last, in the lowest empty slot; a withdrawn one only leaves the line (R162; that it uses its service of the arbiter,
R12, is the model's reading, log 39). The operand takes the taking alone or, where its read is the next served, both
events (the model's choice, log 4). Three zeros in a new claim are the model's choice too: the wait remaining of a
granted one, the lease remaining of a queued one (log 47), and the tag of a RELEASE that has not come (log 55). -/
def Obligations.ClaimIsGrantedQueuedOrRefused : Prop :=
  ∀ (n : LinkId) (x : Extent) (s : State) (tag : Byte) (h : Handle) (mode : Mode) (lease wait : Nat)
    (rest : List CtrlReq),
    (s.lineTurn n = none → (s.link n).progress = none → (s.link n).requests = .claim tag h mode lease wait :: rest →
      (h.index ≠ 0 →
        let joined : State := ({ s with claims := { s.claims with line := s.claims.line ++
            [.link n (s.link n).session (.claim tag h mode lease wait) false] } } : State).modLink n
          fun l => { l with requests := rest, progress := some .reading }
        exec (.claim n .firstEvent) s = .next joined.settle ∧
        (joined.lineTurn n = none → exec (.claim n .whole) s = .next joined.settle) ∧
        (s.claims.line = [] → joined.portTurn = some .claimEngine →
          exec (.claim n .whole) s = exec (.claim n .whole) joined)) ∧
      (h.index = 0 → (s.link n).hears (s.link n).session →
        exec (.claim n x) s = .next (State.settle (s.modLink n fun l =>
          { l with requests := rest }.queued ⟨tag, l.session, false, .refused .staleHandle 0⟩)))) ∧
    ∀ session line, s.portTurn = some .claimEngine →
      let r : CtrlReq := .claim tag h mode lease wait
      let served : State := { s.pointing .fillEngine with claims := { s.claims with line := line } }
      (s.claims.line = .link n session r true :: line → exec (.claim n x) s = .next served.settle) ∧
      (s.claims.line = .link n session r false :: line → (s.link n).hears session →
        let answering (b : Body) (v : State) : State :=
          v.modLink n fun l => { l with progress := none }.queued ⟨tag, session, false, b⟩
        (∀ reason, s.claimRefusal n h mode lease = some reason →
          exec (.claim n x) s = .next (served |> answering (.refused reason 0)).settle) ∧
        (s.claimRefusal n h mode lease = none → ∀ k : Fin 16, s.claimAt (.link n) k = none →
          (∀ j : Fin 16, j < k → s.claimAt (.link n) j ≠ none) →
          let free : Prop := s.queue h.index = [] ∧ (s.holders h.index = [] ∨
            (mode = .read ∧ ∀ p ∈ s.holders h.index, p.2.mode = .read))
          (free → exec (.claim n x) s = .next (served.setClaim (.link n) k (some
              ⟨h, mode, .held, lease, lease, false, 0, wait, 0, 0, tag, session, 0⟩) |> answering (.granted k.val h mode
                (s.seqTorn h.index).1 (s.seqTorn h.index).2 0)).settle) ∧
          (¬ free → wait = 0 → exec (.claim n x) s = .next (served |> answering (.refused .busy 0)).settle) ∧
          (¬ free → 1 ≤ wait → exec (.claim n x) s = .next ((served.setClaim (.link n) k (some
              ⟨h, mode, .waiting, lease, 0, false, 0, wait, wait, 0, tag, session, 0⟩)).modQueue h.index
                (fun q => q ++ [.link n]) |> answering (.queued k.val ((s.queue h.index).length + 1))).settle)))

/-- RELEASE (R41, R42): refused NOT_HELD or BAD_MODE; otherwise the HELD claim becomes RELEASING while transactions
are outstanding. With none, and no claim waiting on a LIVE surface, its drain ends at once: the slot is empty, a
PUBLISH publishes, another WRITE claim tears, and RELEASED carries what that leaves. -/
def Obligations.ReleaseDrainsTheClaim : Prop :=
  ∀ (n : LinkId) (s : State) (tag : Byte) (slot : Nat) (publish : Bool) (rest : List CtrlReq),
    (s.link n).progress = none → (s.link n).requests = .release tag slot publish :: rest →
    (s.link n).hears (s.link n).session →
    let taken : State := s.modLink n fun l => { l with requests := rest }
    let refused (r : LinkCode) : State :=
      s.modLink n fun l => { l with requests := rest }.queued ⟨tag, l.session, false, .refused r 0⟩
    ((∀ k cl, k.val = slot → s.claimAt (.link n) k = some cl → cl.state ≠ .held) →
      exec (.release n) s = .next (refused .notHeld).settle) ∧
    ∀ k cl, k.val = slot → s.claimAt (.link n) k = some cl → cl.state = .held →
      (publish = true → cl.mode = .read → exec (.release n) s = .next (refused .badMode).settle) ∧
      (publish = false ∨ cl.mode = .write →
        (0 < cl.outstanding → exec (.release n) s = .next (taken.setClaim (.link n) k (some { cl with
          state := .releasing (if publish then .publish else .plain), releaseTag := tag })).settle) ∧
        (∀ d, cl.outstanding = 0 → s.queue cl.handle.index = [] → (s.entry cl.handle.index).state = .live d →
          cl.session = (s.link n).session →
          let v : State := if publish then s.modPart cl.handle.index (Option.map ChangePart.publish)
            else if cl.mode = .write then s.modPart cl.handle.index (Option.map ChangePart.tear) else s
          exec (.release n) s = .next ((v.setClaim (.link n) k none).modLink n fun l =>
            { l with requests := rest }.queued ⟨tag, l.session, false, .released slot cl.handle publish
              (v.seqTorn cl.handle.index).1 (v.seqTorn cl.handle.index).2⟩).settle))

/-- RENEW (R59, R60, R155): with a new length for a HELD slot its taking joins the line of reads, and a withdrawn one
only leaves the line (R162; that it uses its service of the arbiter, R12, is the model's reading, log 39). Without a new
length, or of a slot that is not HELD, at its taking, and with one at the service of its read: the checks in their
order, and an accepted RENEW, which takes the new length, starts the lease again, advances the token and clears warned;
the rest of the claim and every other state stay. The operand takes the taking alone or, where its read is the next
served, both events (the model's choice, log 4). -/
def Obligations.RenewStartsTheLeaseAgain : Prop :=
  (∀ (n : LinkId) (x : Extent) (s : State) (tag : Byte) (slot : Nat) (token : BitVec 8) (newLen : Option Nat)
    (rest : List CtrlReq),
    (newLen ≠ none → (∃ k cl, k.val = slot ∧ s.claimAt (.link n) k = some cl ∧ cl.state = .held) →
      s.lineTurn n = none → (s.link n).progress = none → (s.link n).requests = .renew tag slot token newLen :: rest →
      let joined : State := ({ s with claims := { s.claims with line := s.claims.line ++
          [.link n (s.link n).session (.renew tag slot token newLen) false] } } : State).modLink n
        fun l => { l with requests := rest, progress := some .reading }
      exec (.renew n .firstEvent) s = .next joined.settle ∧
      (joined.lineTurn n = none → exec (.renew n .whole) s = .next joined.settle) ∧
      (s.claims.line = [] → joined.portTurn = some .claimEngine →
        exec (.renew n .whole) s = exec (.renew n .whole) joined)) ∧
    ∀ session line, s.portTurn = some .claimEngine →
      s.claims.line = .link n session (.renew tag slot token newLen) true :: line →
      exec (.renew n x) s = .next (State.settle
        { s.pointing .fillEngine with claims := { s.claims with line := line } })) ∧
  ∀ (n : LinkId) (x : Extent) (s v : State) (tag : Byte) (slot : Nat) (token : BitVec 8) (newLen : Option Nat)
    (line : List LineEntry) (rest : List CtrlReq),
    (s.link n).hears (s.link n).session →
    ((newLen = none ∨ ∀ k cl, k.val = slot → s.claimAt (.link n) k = some cl → cl.state ≠ .held) ∧
        s.lineTurn n = none ∧ (s.link n).progress = none ∧
        (s.link n).requests = .renew tag slot token newLen :: rest ∧
        v = s.modLink n fun l => { l with requests := rest }) ∨
      (newLen ≠ none ∧ s.portTurn = some .claimEngine ∧
        s.claims.line = .link n (s.link n).session (.renew tag slot token newLen) false :: line ∧
        v = { s.pointing .fillEngine with claims := { s.claims with line := line } }.modLink n fun l =>
          { l with progress := none }) →
    let answering (b : Body) (v : State) : State := v.modLink n fun l => l.queued ⟨tag, l.session, false, b⟩
    ((∀ k cl, k.val = slot → s.claimAt (.link n) k = some cl → cl.state ≠ .held) →
      exec (.renew n x) s = .next (answering (.refused .notHeld 0) v).settle) ∧
    ∀ k cl, k.val = slot → s.claimAt (.link n) k = some cl → cl.state = .held →
      (cl.leaseLen = 0 → exec (.renew n x) s = .next (answering (.refused .noLease 0) v).settle) ∧
      (1 ≤ cl.leaseLen → token ≠ cl.token →
        exec (.renew n x) s = .next (answering (.refused .staleToken cl.token) v).settle) ∧
      ∀ d, (s.entry cl.handle.index).state = .live d ∨ (s.entry cl.handle.index).state = .retiring d →
        1 ≤ cl.leaseLen → token = cl.token →
        let inRange := ∀ l, newLen = some l → 1 ≤ l ∧ (d.ceiling = 0 ∨ l ≤ d.ceiling)
        (¬ inRange → exec (.renew n x) s = .next (answering (.refused .leaseRange 0) v).settle) ∧
        (inRange →
          let l := newLen.getD cl.leaseLen
          exec (.renew n x) s = .next (v.setClaim (.link n) k (some { cl with
            leaseLen := l, leaseLeft := l, token := cl.token + 1, warned := false }) |>
              answering (.renewed slot cl.handle (cl.token + 1) l)).settle)

/-- CHANGES of a link (R76 to R78): its taking joins the line of reads, the service of its read refuses it or lets it
go on to the Change Tracker, and the answer there carries the status, the torn flag, the sequence and the bands of
R77. Each service of the arbiter moves its pointer (R12); a handle with index 0 is refused at the taking (R9; the
model's reading, log 14), and a withdrawn query uses its service (log 39). The operand takes the taking alone or,
where its read is the next served, both events (the model's choice, log 4). -/
def Obligations.ChangesOfALinkIsAnswered : Prop :=
  ∀ (n : LinkId) (x : Extent) (s : State) (tag : Byte) (h : Handle) (since : Word) (rest : List CtrlReq)
    (line : List LineEntry),
    (s.lineTurn n = none → (s.link n).progress = none → (s.link n).requests = .changes tag h since :: rest →
      h.index ≠ 0 →
      let joined : State := ({ s with claims := { s.claims with line := s.claims.line ++
          [.link n (s.link n).session (.changes tag h since) false] } } : State).modLink n
        fun l => { l with requests := rest, progress := some .reading }
      exec (.changesQuery n .firstEvent) s = .next joined.settle ∧
      (joined.lineTurn n = none → exec (.changesQuery n .whole) s = .next joined.settle) ∧
      (s.claims.line = [] → joined.portTurn = some .claimEngine →
        exec (.changesQuery n .whole) s = exec (.changesQuery n .whole) joined)) ∧
    (∀ session, s.portTurn = some .claimEngine → s.claims.line = .link n session (.changes tag h since) true :: line →
      exec (.changesQuery n x) s = .next (State.settle
        { s.pointing .fillEngine with claims := { s.claims with line := line } })) ∧
    ((s.link n).hears (s.link n).session →
      let answering (b : Body) (v : State) : State :=
        v.modLink n fun l => { l with progress := none }.queued ⟨tag, l.session, false, b⟩
      (s.lineTurn n = none → (s.link n).progress = none → (s.link n).requests = .changes tag h since :: rest →
        h.index = 0 → exec (.changesQuery n x) s = .next
          (answering (.refused .staleHandle 0) (s.modLink n fun l => { l with requests := rest })).settle) ∧
      (s.portTurn = some .claimEngine →
        s.claims.line = .link n (s.link n).session (.changes tag h since) false :: line →
        let served : State := { s.pointing .fillEngine with claims := { s.claims with line := line } }
        (s.classify h = .stale →
          exec (.changesQuery n x) s = .next (answering (.refused .staleHandle 0) served).settle) ∧
        ∀ d, s.classify h = .current d ∨ s.classify h = .retiring d →
          (d.rights[n.val] = .none →
            exec (.changesQuery n x) s = .next (answering (.refused .noRight 0) served).settle) ∧
          (d.rights[n.val] ≠ .none → exec (.changesQuery n x) s = .next (State.settle
            (served.modLink n fun l => { l with progress := some (.answering tag h since) })))) ∧
      ((s.link n).progress = some (.answering tag h since) →
        (s.partOf h = none →
          exec (.changesAnswer n) s = .next (answering (.refused .staleHandle 0) s).settle) ∧
        ∀ p, s.partOf h = some p →
          let a := p.answer (s.height h.index) since
          exec (.changesAnswer n) s = .next
            (answering (.changeReport h a.1 (p.torn != 0) p.sequence a.2) s).settle))

/-- LOST (R161, R162) and the taking of a DETACH (R155, R164) begin a teardown of an ONLINE link; a loss report during
TEARDOWN is recorded once. Of a teardown's start, what becomes of pending reloads, of a RETRY in progress and of
withdrawn requests is the model's reading, logs 16, 17 and 39. -/
def Obligations.LossAndDetachBeginATeardown : Prop :=
  ∀ (n : LinkId) (s : State),
    ((s.link n).state = .online → ∃ u : State, exec (.lost n) s = .next u.settle ∧ teardownBegun s u n .lost) ∧
    ((s.link n).state = .teardown → exec (.lost n) s = .next (State.settle (s.modLink n fun l => { l with
      causes := if l.causes.contains .lost then l.causes else l.causes ++ [.lost] }))) ∧
    ∀ tag rest, (s.link n).state = .online → (s.link n).progress = none →
      (s.link n).requests = .detach tag :: rest →
      ∃ u : State, exec (.detach n) s = .next u.settle ∧
        teardownBegun (s.modLink n fun l => { l with requests := rest, detachTag := tag }) u n .detach

/-- TEARDOWN_REMOVAL, once the link in-flight count is 0 (R50, R127, R136, R163, R164; the frame that `wire` shows is
logs 19 and 35): the link's responses, record, claims and descriptor slots are gone, each removed HELD WRITE claim has
left its surface torn and no other change part has changed, the wait queue of each surface that lost a claim has been
served and a drain end that is due is noted, its stream is FLOWING, each recorded cause has set its event bit, the
first cause is the last teardown cause, and the link is OFFLINE, or DISABLED when ENABLE is 0; DETACHED is sent when
the first cause is DETACH and the link was not lost. And what follows an event (`settle`; that the step runs by itself
too where its condition comes to hold is the model's reading, log 22) ends every teardown whose link in-flight count
is 0, as the row itself does for the lowest-numbered of them, and leaves one whose count is above 0 as it is; that the
lowest goes first, and before the fill engine issues, is the model's choice (logs 56 and 60). -/
def Obligations.TeardownEndsTheSession : Prop :=
  (∀ (n : LinkId) (s : State) (c : Cause) (rest : List Cause),
    s.removalDue n → (s.link n).causes = c :: rest →
    ∃ u : State, exec (.teardownRemoval n) s = .next u.settle ∧ u.link n = (s.link n).tornDown c rest ∧
      u.lane n = { s.lane n with responseQ := [], readSlot := none, writeSlot := none } ∧
      (∀ q ∈ u.faults.queue, q.link ≠ n) ∧ (u.linkFaults n).stream = .flowing ∧
      (∀ k, u.claimAt (.link n) k = none) ∧
      (∀ k cl, s.claimAt (.link n) k = some cl →
        let i := cl.handle.index
        (cl.state = .held → cl.mode = .write → u.part i = (s.part i).map fun p => { p with
          torn := p.torn ||| p.pending, pending := 0 }) ∧
        (∀ c rest' k' cl', u.queue i = c :: rest' → u.findClaim c i = some (k', cl') →
          u.compatible i cl'.mode = false) ∧
        (∀ d, (s.entry i).state = .retiring d → u.hasClaim i = false → (s.entry i).inFlight = 0 →
          i ∈ u.cmd.drainEnds)) ∧
      (∀ i, (∀ k cl, s.claimAt (.link n) k = some cl → cl.handle.index = i → cl.state = .waiting ∨ cl.mode = .read) →
        u.part i = s.part i) ∧ u.fixed = s.fixed) ∧
  ∀ (n : LinkId) (s : State), (s.link n).state = .teardown →
    ((s.lane n).inFlight ≠ 0 → s.settle.link n = s.link n ∧ s.settle.lane n = s.lane n) ∧
    ((s.lane n).inFlight = 0 →
      (∀ c rest, (s.link n).causes = c :: rest → s.settle.link n = (s.link n).tornDown c rest) ∧
      s.settle.lane n = { s.lane n with responseQ := [], readSlot := none, writeSlot := none } ∧
      (∀ q ∈ s.settle.faults.queue, q.link ≠ n) ∧ (s.settle.linkFaults n).stream = .flowing ∧
      (∀ k, s.settle.claimAt (.link n) k = none) ∧
      ((∀ m : LinkId, m.val < n.val → ¬ s.removalDue m) → exec (.teardownRemoval n) s = .next s.settle))

/-- The outbound queues (R156 to R159; `wire` is the last frame handed to the physical layer, log 19): OUTBOUND_SEND
sends the head of one and returns its credit; a control message is queued only for the ONLINE session it belongs to,
and one that finds 72 messages there begins a teardown with LOST (what becomes at a teardown's start of pending
reloads, of a RETRY in progress and of withdrawn requests is the model's reading, logs 16, 17 and 39). -/
def Obligations.OutboundQueuesSendAndOverflow : Prop :=
  ∀ (n : LinkId) (s : State) (m : Message) (rest : List Message),
    ((s.link n).state = .online → (s.link n).ctrlOut = m :: rest →
      exec (.outboundSend n .control) s = .next (State.settle (s.modLink n fun l => { l with
        ctrlOut := rest, wire := m.bytes
        ctrlCredits := l.ctrlCredits + if m.notice then 0 else match m.body with
          | .attached _ _ => 0
          | .detached => 0
          | _ => 1 }))) ∧
    ((s.link n).state = .online → (s.link n).accOut = m :: rest →
      exec (.outboundSend n .access) s = .next (State.settle (s.modLink n fun l => { l with
        accOut := rest, wire := m.bytes, accCredits := l.accCredits + 1 }))) ∧
    ((s.link n).state ≠ .online ∨ (s.link n).session ≠ m.session → s.handOver n m = s) ∧
    ((s.link n).state = .online → (s.link n).session = m.session →
      ((s.link n).ctrlOut.length < 72 → s.handOver n m = s.modLink n fun l => l.queued m) ∧
      (72 ≤ (s.link n).ctrlOut.length → teardownBegun s (s.handOver n m) n .lost))

/-! ## The access path -/

/-- BURST_JUDGING of a burst that passes R104 and R108 (R110 to R113, R116): with at least one transaction it is
accepted with every effect that `accepts` lists: the transactions at the translated addresses, a write's cells from
its address on, a read's bytes, the counts, the band, and the burst in the response queue; nothing else changes. A
WRITE with no pixel left is READY with a written count of 0: it is answered at once, or waits behind the bursts before
it. That a read's bytes are those of its issue is the model's reading (log 20); a byte that a WRITE did not bring is a
free value (log 43). -/
def Obligations.JudgingAcceptsAPermittedBurst : Prop :=
  ∀ (n : LinkId) (s : State) (b : Burst) (rest : List Burst) (c : Copy) (k : Fin 16) (cl : Claim),
    (s.link n).state = .online → (s.linkFaults n).stream = .flowing → ReloadJob.judge ∉ (s.lane n).reloads →
    (s.lane n).accessQ = b :: rest → (s.lane n).waits →
    (s.lane n).slot b.dir = some c → c.handle = b.handle → c.stamp = (s.entry b.handle.index).stamp →
    s.findClaim (.link n) b.handle.index = some (k, cl) → cl.handle = b.handle → cl.state = .held →
    cl.mode = .write ∨ b.dir = .read → b.x + b.n ≤ c.width → b.y < c.height → b.formatless = false →
    let span := movedSpan b c
    (1 ≤ (c.parts b.y span.1 span.2).length → ∃ u : State, exec (.burstJudging n) s = .next u.settle ∧
      accepts s u n b rest c k cl ∧ u.links = s.links ∧ u.faults = s.faults ∧ u.cmd = s.cmd ∧ u.pending = s.pending) ∧
    (b.dir = .write → span.2 = 0 →
      ((s.lane n).responseQ = [] → b.session = (s.link n).session → exec (.burstJudging n) s = .next (State.settle
        ((s.modLane n fun l => { l with accessQ := rest }).modLink n fun l => { l with
          accOut := l.accOut ++ [⟨b.tag, b.session, false, .writeDone 0⟩] }))) ∧
      ((s.lane n).responseQ ≠ [] → exec (.burstJudging n) s = .next (State.settle (s.modLane n fun l => { l with
        accessQ := rest, responseQ := l.responseQ ++ [.ready b.tag b.session (.writeDone 0)] }))))

/-- BURST_JUDGING of a burst that fails (R104, R108, R109, R122, R124, R125, R126, R157): STALE_HANDLE for index 0 and
for a WRITE whose format was not known (that it keeps to R104's reloads is the model's reading, log 53), NO_CLAIM
without a HELD claim that permits it, BOUNDS outside the surface. Under ANSWER it is answered ACCESS_ERROR and becomes
the last answered fault; under HOLD it stays, the stream is HELD, a record with attempt 1 is appended and HALTED is
sent. A burst with no valid copy has a reload requested. -/
def Obligations.JudgingFaultsByThePolicy : Prop :=
  ∀ (n : LinkId) (s : State) (b : Burst) (rest : List Burst) (kind : LinkCode),
    (s.link n).state = .online → (s.linkFaults n).stream = .flowing → ReloadJob.judge ∉ (s.lane n).reloads →
    (s.lane n).accessQ = b :: rest →
    (s.validCopy n b = none → b.handle.index ≠ 0 → exec (.burstJudging n) s = .next (State.settle
      (s.modLane n fun l => { l with reloads := l.reloads ++ [.judge] }))) ∧
    ((s.validCopy n b = none ∧ b.handle.index = 0 ∧ kind = .staleHandle) ∨
      ((∃ c, s.validCopy n b = some c) ∧ b.formatless = true ∧ kind = .staleHandle) ∨
      (∃ c, s.validCopy n b = some c ∧ b.formatless = false ∧ kind = .noClaim ∧
        ∀ k cl, s.findClaim (.link n) b.handle.index = some (k, cl) → cl.handle = b.handle → cl.state = .held →
          cl.mode = .read ∧ b.dir = .write) ∨
      (∃ c k cl, s.validCopy n b = some c ∧ b.formatless = false ∧
        s.findClaim (.link n) b.handle.index = some (k, cl) ∧ cl.handle = b.handle ∧ cl.state = .held ∧
        (cl.mode = .write ∨ b.dir = .read) ∧
        (c.width < b.x + b.n ∨ c.height ≤ b.y) ∧ kind = .bounds) →
      ((s.linkFaults n).policy = .answer → (s.lane n).responseQ = [] → b.session = (s.link n).session →
        exec (.burstJudging n) s = .next (State.settle
          (((s.modLane n fun l => { l with accessQ := rest }).modFaults n fun f => { f with
            lastKind := kind, lastHandle := b.handle }).modLink n fun l => { l with
              accOut := l.accOut ++ [⟨b.tag, b.session, false, .accessError kind⟩] }))) ∧
      ((s.linkFaults n).policy = .hold → (s.link n).hears (s.link n).session →
        (∀ r m q, s.cmd.executing ≠ some ⟨r, .retrying m q⟩) →
        exec (.burstJudging n) s = .next (State.settle
          ((({ s with faults := { s.faults with
              queue := s.faults.queue ++ [⟨n, kind, b.handle, b.x, b.y, b.n, b.dir, b.tag, 1⟩] } } : State).modFaults n
            fun f => { f with stream := .held }).modLink n
              fun l => l.queued ⟨b.tag, l.session, true, .halted b.handle kind b.dir 1⟩))))

/-- RELOAD (R12, R105, R131, R132, R157): a reload for judging fills the slot with a copy of a current record and
leaves the burst to be judged again, in the same step for `whole`; it empties the slot for a stale or retiring handle,
whose burst is faulted STALE_HANDLE, by the policy, and for a retried burst as R132 gives. One for a WRITE's length
check refills the write slot and makes the check, and marks a burst whose format is not known. One whose burst or
frame is gone changes no slot. That the operand takes one event or both is the model's choice (log 4); that a reload
whose burst is gone is served and discarded, and what becomes at a teardown's start of a RETRY in progress and of
withdrawn requests, and that the length check changes the write slot of a held WRITE too, are its reading (logs
16, 17, 39 and 59). -/
def Obligations.ReloadRefillsTheSlot : Prop :=
  ∀ (n : LinkId) (x : Extent) (s : State) (job : ReloadJob) (more : List ReloadJob),
    s.portTurn = some (.reload n) → (s.lane n).reloads = job :: more →
    let s' : State := (s.pointing (Requester.next (.reload n))).modLane n fun l => { l with reloads := more }
    let copy (h : Handle) (d : Desc) : Copy :=
      ⟨h, (s.entry h.index).stamp, d.format, d.width, d.height, d.pitch, d.clip, d.runs⟩
    (job = .discarded ∨ (job = .length ∧ (s.link n).arrivals = []) ∨ (job = .judge ∧
        ((s.lane n).accessQ = [] ∨ (s.linkFaults n).stream = .held ∨ (s.link n).state ≠ .online)) →
      exec (.reload n x) s = .next s'.settle) ∧
    (∀ b rest, job = .judge → ReloadJob.judge ∉ more → (s.link n).state = .online →
      (s.linkFaults n).stream ≠ .held → (s.lane n).accessQ = b :: rest →
      let emptied : State := s'.modLane n fun l => l.setSlot b.dir none
      (∀ d, s.classify b.handle = .current d →
        let v : State := s'.modLane n fun l => l.setSlot b.dir (some (copy b.handle d))
        exec (.reload n .firstEvent) s = .next v.settle ∧ exec (.reload n .whole) s = exec (.burstJudging n) v) ∧
      ((∀ d, s.classify b.handle ≠ .current d) →
        ((s.linkFaults n).stream = .flowing → (s.linkFaults n).policy = .answer → (s.lane n).responseQ = [] →
          b.session = (s.link n).session → exec (.reload n x) s = .next (State.settle
            (((emptied.modLane n fun l => { l with accessQ := rest }).modFaults n fun f => { f with
              lastKind := .staleHandle, lastHandle := b.handle }).modLink n fun l => { l with
                accOut := l.accOut ++ [⟨b.tag, b.session, false, .accessError .staleHandle⟩] }))) ∧
        ((s.linkFaults n).stream = .flowing → (s.linkFaults n).policy = .hold →
          (s.link n).hears (s.link n).session → (∀ r q, s.cmd.executing ≠ some ⟨r, .retrying n q⟩) →
          exec (.reload n x) s = .next (State.settle
            ((({ emptied with faults := { s.faults with queue := s.faults.queue ++
                [⟨n, .staleHandle, b.handle, b.x, b.y, b.n, b.dir, b.tag, 1⟩] } } : State).modFaults n
              fun f => { f with stream := .held }).modLink n
                fun l => l.queued ⟨b.tag, l.session, true, .halted b.handle .staleHandle b.dir 1⟩))) ∧
        (∀ r q, (s.linkFaults n).stream = .retrying → s.cmd.executing = some ⟨r, .retrying n q⟩ →
          (s.link n).ctrlOut.length < 72 → ∃ u : State, exec (.reload n x) s = .next u.settle ∧
            refaults s u n b rest r q .staleHandle ∧ (u.lane n).slot b.dir = none))) ∧
    (∀ f b, job = .length → (s.link n).state = .online → (s.link n).arrivals = [f] →
      parseAccess (s.link n).session f = some b →
      let right : Prop := match s.classify b.handle with
        | .stale => True
        | .current d => b.data.length = b.n * d.format.bpp
        | .retiring d => b.data.length = b.n * d.format.bpp
      let slot : Option Copy := match s.classify b.handle with
        | .current d => some (copy b.handle d)
        | _ => none
      let known : Burst := { b with formatless := match s.classify b.handle with
        | .stale => true
        | _ => false }
      (right → exec (.reload n x) s = .next (State.settle
        ((s'.modLane n fun l => { l with writeSlot := slot, accessQ := l.accessQ ++ [known] }).modLink n fun l =>
          { l with arrivals := [], accCredits := l.accCredits - 1 }))) ∧
      (¬ right → ∃ u : State, exec (.reload n x) s = .next u.settle ∧
        teardownBegun ((s'.modLane n fun l => { l with writeSlot := slot }).modLink n fun l =>
          { l with arrivals := [] }) u n .protocol))

/-- TRANSACTION_COMPLETION (R7, R23, R40 to R42, R45, R114 to R118; the operands name the transaction, log 21, a
read's bytes are those of its issue, log 20, and no part of a burst but the one named changes): the transaction ends,
a write's bytes are in memory and no other byte changes; the surface's, the claim's and the link's counts fall by one;
a part of a burst that is not the last is marked with its data or its error; the burst's last completion makes it
READY with its response, a read's data in the order of the parts or ACCESS_ERROR with MEMORY where a part failed; a
READY burst behind an unfinished one waits, and at the head of the response queue it is sent with every READY burst
directly behind it, in order; an error goes to the memory error report. The last completion under a RELEASING claim
ends its drain, and a RETIRING entry with no claim and nothing in flight then has its drain end due. -/
def Obligations.CompletionStoresCountsAndAnswers : Prop :=
  ∀ (n : LinkId) (k : Nat) (err : Bool) (s : State) (t : Txn) (h : Handle) (slot : Fin 16) (cl : Claim)
    (b : Burst) (w : Nat) (before after : List Part) (front tail : List Response)
    (ready : List (Byte × BitVec 8 × Body)),
    (s.fmi.ofLane n)[k]? = some t → (s.fmi.txns.map Txn.id).Nodup → t.owner = .lane n h →
    s.findClaim (.link n) h.index = some (slot, cl) → cl.handle = h →
    (s.lane n).responseQ = front ++ .inFlight b w (before ++ ⟨t.id, .issued⟩ :: after) ::
      (ready.map (fun x => .ready x.1 x.2.1 x.2.2) ++ tail) →
    (∀ tag session body q, front ≠ .ready tag session body :: q ∧ tail ≠ .ready tag session body :: q) →
    (∀ c w' ps, Response.inFlight c w' ps ∈ front ++ tail →
      (∃ p ∈ ps, p.state = .issued) ∧ ∀ p ∈ ps, p.txn ≠ t.id) →
    (∀ p ∈ before ++ after, p.txn ≠ t.id) → (s.link n).state = .online → b.session = (s.link n).session →
    let i := h.index
    let goesOn : Prop := cl.state = .waiting ∨ cl.state = .held ∨ 2 ≤ cl.outstanding
    goesOn ∨ (s.queue i = [] ∧ (s.link n).ctrlOut.length < 72) →
    let result : PartState := match t.op with
      | .read data => if err then .failed else .done data
      | _ => .done []
    let parts : List Part := before ++ ⟨t.id, result⟩ :: after
    let bytes (p : Part) : List Byte := match p.state with
      | .done data => data
      | _ => []
    let answer : Body := match b.dir with
      | .write => .writeDone w
      | .read => if ∃ p ∈ parts, p.state = .failed then .accessError .memory else .readData b.n (parts.flatMap bytes)
    ∃ u : State, exec (.transactionCompletion n k err) s = .next u.settle ∧
      u.fmi.txns.map Txn.id = (s.fmi.txns.map Txn.id).filter (fun j => j ≠ t.id) ∧
      (∀ cs, t.op = .write cs → (cs.map Prod.fst).Nodup → ∀ a, Memory.byte u.fmi.mem a =
        match Memory.byte cs a with
        | some v => some v
        | none => Memory.byte s.fmi.mem a) ∧
      (∀ data, t.op = .read data → u.fmi.mem = s.fmi.mem) ∧
      u.entry i = { s.entry i with inFlight := (s.entry i).inFlight - 1 } ∧ (∀ j, j ≠ i → u.entry j = s.entry j) ∧
      (u.lane n).inFlight = (s.lane n).inFlight - 1 ∧
      ((∃ p ∈ before ++ after, p.state = .issued) →
        (u.lane n).responseQ = front ++ .inFlight b w parts ::
          (ready.map (fun x => .ready x.1 x.2.1 x.2.2) ++ tail) ∧ (u.link n).accOut = (s.link n).accOut) ∧
      ((∀ p ∈ before ++ after, p.state ≠ .issued) →
        (front ≠ [] → (u.lane n).responseQ = front ++ .ready b.tag b.session answer ::
          (ready.map (fun x => .ready x.1 x.2.1 x.2.2) ++ tail) ∧ (u.link n).accOut = (s.link n).accOut) ∧
        (front = [] → (u.lane n).responseQ = tail ∧ (u.link n).accOut = (s.link n).accOut ++
          ⟨b.tag, b.session, false, answer⟩ ::
            (ready.filter fun x => x.2.1 == (s.link n).session).map fun x => ⟨x.1, x.2.1, false, x.2.2⟩)) ∧
      (goesOn → u.claimAt (.link n) slot = some { cl with outstanding := cl.outstanding - 1 } ∧
        u.tracker = s.tracker ∧ (u.link n).ctrlOut = (s.link n).ctrlOut) ∧
      (∀ kind p, cl.state = .releasing kind → cl.outstanding = 1 → s.part i = some p →
        u.claimAt (.link n) slot = none ∧ u.part i = some (p.ended cl.mode kind) ∧
        (cl.session = (s.link n).session →
          (u.link n).ctrlOut = (s.link n).ctrlOut ++ [endMessage slot cl kind (p.ended cl.mode kind)])) ∧
      (∀ c k', (c, k') ≠ (Client.link n, slot) → u.claimAt c k' = s.claimAt c k') ∧
      u.cmd = (State.drainLooked { u with cmd := match t.op, err with
        | .read _, true => { s.cmd with
            memoryError := true, memoryMore := s.cmd.memoryMore || s.cmd.memoryError
            memoryBlock := if s.cmd.memoryError then s.cmd.memoryBlock else t.addr / 16384 }
        | _, _ => s.cmd } i).cmd ∧
      u.alloc = s.alloc ∧ u.faults = s.faults ∧ u.fill = s.fill

/-! ## The ends of claims and the lease tick -/

/-- CLAIM_DRAIN_END, REVOKED_DRAIN_END, LEASE_EXPIRY and TIMED_OUT (R23, R41, R42, R45, R57, R63, R72, R73; these rows
act where their condition holds, and the model takes the same operations inside the events that make it hold, its
reading, log 22): a PUBLISH publishes, any other WRITE claim tears; the slot is empty, the link is told, the queue is
served and a drain end may be due; an expired claim drains with REVOKED(LEASE); a timed-out claim leaves its queue.
The fill engine's claim ends its FILL instead of a message (R144, R146). And serving a queue (R36, R37): a head that
is not compatible waits; one that is compatible leaves the queue HELD, with its lease, token 0 and not warned, its
link gets the GRANTED notice, the fill engine enters WRITING, and the queue is served on. The model's choice are that
a grant leaves wait remaining 0 (log 47), that a second read still asked for goes with a fill that ends (log 46), and
where FILL's completion stands when the engine's WAITING claim is removed (log 49). -/
def Obligations.ClaimsEndWithTheirMessages : Prop :=
  (∀ (n : LinkId) (k : Fin 16) (s : State) (cl : Claim),
    s.claimAt (.link n) k = some cl → (s.link n).hears cl.session →
    let i := cl.handle.index
    let torn : State := if cl.mode = .write then s.modPart i (Option.map fun p => { p with
      torn := p.torn ||| p.pending, pending := 0 }) else s
    let published : State := s.modPart i (Option.map fun p => { p with
      sequence := p.sequence + 1, pending := 0, torn := 0
      ring := (if 4 ≤ p.ring.length then p.ring.tail else p.ring) ++ [(p.sequence + 1, p.pending ||| p.torn)] })
    let gone (v : State) (m : Message) : State :=
      ((v.setClaim (.link n) k none).modLink n fun l => l.queued m).serve i |>.drainLooked i
    (cl.outstanding = 0 →
      (cl.state = .releasing .plain → exec (.claimDrainEnd (.link n) k) s = .next (gone torn
        ⟨cl.releaseTag, cl.session, false,
          .released k.val cl.handle false (torn.seqTorn i).1 (torn.seqTorn i).2⟩).settle) ∧
      (cl.state = .releasing .publish → exec (.claimDrainEnd (.link n) k) s = .next (gone published
        ⟨cl.releaseTag, cl.session, false, .released k.val cl.handle true (published.seqTorn i).1 false⟩).settle) ∧
      ∀ r, cl.state = .releasing (.revoked r) → exec (.revokedDrainEnd (.link n) k) s = .next (gone torn
        ⟨cl.tag, cl.session, true, .revoked k.val cl.handle cl.mode r (torn.seqTorn i).1 (torn.seqTorn i).2⟩).settle) ∧
    (s.queue i = [] → cl.state = .held → 1 ≤ cl.leaseLen → cl.leaseLeft = 0 → 1 ≤ cl.outstanding →
      exec (.leaseExpiry (.link n) k) s = .next (State.settle
        (s.setClaim (.link n) k (some { cl with state := .releasing (.revoked .lease) })))) ∧
    (cl.state = .waiting → 1 ≤ cl.waitLimit → cl.waitLimit ≤ 65534 → cl.waitLeft = 0 →
      exec (.timedOut (.link n) k) s = .next (gone (s.modQueue i fun q => q.erase (.link n))
        ⟨cl.tag, cl.session, true, .timedOut k.val cl.handle cl.mode⟩).settle)) ∧
  (∀ (s : State) (cl : Claim) (j : FillJob) (p : ChangePart) (b : Background),
    s.claims.filler = some cl → s.fill.job = some j → cl.handle = j.handle → s.partOf j.handle = some p →
    s.cmd.background.find? (fun b => b.kind == 9) = some b →
    let i := j.handle.index
    (∀ kind, cl.state = .releasing kind → cl.outstanding = 0 →
      exec (match kind with
        | .revoked _ => .revokedDrainEnd .fill 0
        | _ => .claimDrainEnd .fill 0) s =
        .next (s.fillClosed j b kind s.fill.rowsDone (p.ended cl.mode kind)).settle) ∧
    (cl.state = .waiting → 1 ≤ cl.waitLimit → cl.waitLimit ≤ 65534 → cl.waitLeft = 0 →
      exec (.timedOut .fill 0) s = .next (((((s.unclaimed).modQueue i fun q => q.erase .fill).fillOver b .timedOut
        s.fill.rowsDone p).serve i).drainLooked i).settle)) ∧
  ∀ (s : State) (i : BitVec 8) (c : Client) (rest : List Client) (k : Fin 16) (cl : Claim),
    s.queue i = c :: rest → s.findClaim c i = some (k, cl) →
    (s.compatible i cl.mode = false → s.serve i = s) ∧
    (s.compatible i cl.mode = true →
      let held : State := (s.modQueue i fun _ => rest).setClaim c k (some cl.nowHeld)
      (∀ n, c = .link n → (s.link n).hears cl.session → s.serve i = (held.modLink n fun l =>
        l.queued ⟨cl.tag, cl.session, true,
          .granted k.val cl.handle cl.mode (s.seqTorn i).1 (s.seqTorn i).2 0⟩).serve i) ∧
      (c = .fill → s.serve i = State.serve i { held with fill := { s.fill with
        state := if s.fill.state = .waiting then .writing else s.fill.state } }))

/-- TICK (R52 to R57, R63): the interval starts again with TICK_DIV as it stands, and each claim is counted: a HELD
claim with a lease loses one tick and is warned past its warning point, and at its last tick it is revoked with LEASE;
a WAITING claim with a limit from 1 to 65534 loses one tick, and its last tick removes it; a RELEASING claim, a HELD
one with no lease and a WAITING one with another limit stay. (Where a claim of the same surface ends at this tick, its
queue is served, so that a waiting claim may be granted.) A link with one claim, alone on its surface, is told
LEASE_WARNING, REVOKED or TIMED_OUT, or nothing. The records, the blocks and the memory stay. Of the clock, three
points are the model's choice or reading: the row TICK ends the running interval at any count (log 2); the running
interval is a latch (log 31); and a step with no command waiting is one microsecond of the reference clock, which
counts and after the interval's TICK_DIV is a TICK (log 1). -/
def Obligations.TickCountsEveryClaim : Prop :=
  ∀ s : State, (s.pending = [] →
    (s.cmd.micros < s.cmd.interval.toNat → step s = .next { s with cmd := { s.cmd with micros := s.cmd.micros + 1 } }) ∧
    (s.cmd.interval.toNat ≤ s.cmd.micros → step s = exec .tick s)) ∧
  let w := s.cmd.warnEighths.toNat
  let point (cl : Claim) : Nat := cl.leaseLen * w / 8
  let warns (cl : Claim) : Prop := cl.warned = false ∧ 1 ≤ w ∧ 1 ≤ point cl ∧ point cl < cl.leaseLen ∧
    point cl ≤ cl.leaseLen - (cl.leaseLeft - 1)
  let ends (cl : Claim) : Prop := (cl.state = .held ∧ 1 ≤ cl.leaseLen ∧ cl.leaseLeft ≤ 1) ∨
    (cl.state = .waiting ∧ 1 ≤ cl.waitLimit ∧ cl.waitLimit ≤ 65534 ∧ cl.waitLeft ≤ 1)
  ∃ u : State, exec .tick s = .next u.settle ∧
    u.fixed = { s.fixed with micros := 0, interval := s.cmd.tickDiv } ∧
    ∀ c k cl, s.claimAt c k = some cl →
      let i := cl.handle.index
      (cl.state = .waiting → 1 ≤ cl.waitLimit → cl.waitLimit ≤ 65534 → cl.waitLeft = 1 → u.claimAt c k = none) ∧
      (cl.state = .waiting → (∀ c' k' cl', s.claimAt c' k' = some cl' → cl'.handle.index = i → ¬ ends cl') →
        u.claimAt c k = some { cl with
          waitLeft := if 1 ≤ cl.waitLimit ∧ cl.waitLimit ≤ 65534 then cl.waitLeft - 1 else cl.waitLeft }) ∧
      (c ∉ s.queue i →
        ((∃ kind, cl.state = .releasing kind) ∨ (cl.state = .held ∧ cl.leaseLen = 0) → u.claimAt c k = some cl) ∧
        (cl.state = .held → 1 ≤ cl.leaseLen → 2 ≤ cl.leaseLeft →
          (warns cl ∨ cl.warned = true →
            u.claimAt c k = some { cl with leaseLeft := cl.leaseLeft - 1, warned := true }) ∧
          (¬ warns cl → cl.warned = false → u.claimAt c k = some { cl with leaseLeft := cl.leaseLeft - 1 })) ∧
        (cl.state = .held → 1 ≤ cl.leaseLen → cl.leaseLeft = 1 → u.claimAt c k =
          if cl.outstanding = 0 then none
          else some { cl with leaseLeft := 0, state := .releasing (.revoked .lease) })) ∧
      ∀ n, c = .link n → (s.link n).hears cl.session →
        (∀ k' cl', s.claimAt c k' = some cl' → k' = k) →
        (∀ c' k' cl', s.claimAt c' k' = some cl' → cl'.handle.index = i → c' = c) →
        (ends cl → cl.state = .waiting → cl.waitLeft = 1 → u.link n = (s.link n).queued
          ⟨cl.tag, cl.session, true, .timedOut k.val cl.handle cl.mode⟩) ∧
        (cl.state = .held → 1 ≤ cl.leaseLen → cl.leaseLeft = 1 → cl.outstanding = 0 → ∀ p, s.part i = some p →
          u.part i = some (p.ended cl.mode (.revoked .lease)) ∧
          u.link n = (s.link n).queued (endMessage k cl (.revoked .lease) (p.ended cl.mode (.revoked .lease)))) ∧
        (cl.state = .held → 1 ≤ cl.leaseLen → 2 ≤ cl.leaseLeft → warns cl → u.link n = (s.link n).queued
          ⟨cl.tag, cl.session, true, .leaseWarning k.val cl.handle (cl.leaseLeft - 1) cl.token⟩) ∧
        ((∃ kind, cl.state = .releasing kind) ∨ (cl.state = .held ∧ (cl.leaseLen = 0 ∨
          (2 ≤ cl.leaseLeft ∧ ¬ warns cl))) ∨ (cl.state = .waiting ∧ ¬ ends cl) → u.link n = s.link n)

/-! ## The fill engine and the scrubber -/

/-- FILL_CLAIM (R34, R141, R146): the engine's claim is refused, ending the FILL, or granted, or queued, at its read;
with a withdrawal taken before, the FILL ends CANCELLED (R145). Its completion takes the first FILL from the background
commands. The two last result words are free when the surface has no change part (log 10). Of the new claim's fields the
tag, the session 0 and the RELEASE tag 0 (log 48), and the lease and wait remaining 0 (log 47), are the model's choice.
-/
def Obligations.FillClaimIsDecidedAtItsRead : Prop :=
  ∀ (s : State) (line : List LineEntry) (j : FillJob) (b : Background),
    s.claims.line = .fill :: line → s.portTurn = some .claimEngine → s.fill.job = some j → s.claims.filler = none →
    s.cmd.background.find? (fun g => g.kind == 9) = some b →
    let i := j.handle.index
    let s' : State := { s.pointing .fillEngine with claims := { s.claims with line := line } }
    let claim (held : Bool) : Claim := ⟨j.handle, .write, if held then .held else .waiting, 0, 0, false, 0, j.waitLimit,
      if held then 0 else j.waitLimit, 0, j.tag, 0, 0⟩
    let ends (v : Verdict) : Prop := ∃ (u : State) (seq torn : Word), exec .fillClaim s = .next u.settle ∧
      u.fill = { s.fill with state := .idle, job := none } ∧
      u.cmd = { s.cmd with
        background := s.cmd.background.eraseP (fun g => g.kind == 9), reserved := s.cmd.reserved - 1
        completions := s.cmd.completions ++ [⟨b.tag, b.kind, v,
          [BitVec.ofNat 32 s.fill.rowsDone, BitVec.setWidth 32 (j.handle.index ++ j.handle.gen), seq, torn]⟩] } ∧
      (∀ p, s.partOf j.handle = some p → seq = p.sequence ∧ torn = if p.torn = 0 then 0 else 1) ∧
      u = { s' with fill := u.fill, cmd := u.cmd, draws := u.draws }
    let free : Prop := s.queue i = [] ∧ s.holders i = []
    (j.withdrawTaken = true → ends .cancelled) ∧
    (j.withdrawTaken = false →
      (s.classify j.handle = .stale → ends .staleHandle) ∧
      ∀ d, (s.classify j.handle = .retiring d → ends .notLive) ∧
        (s.classify j.handle = .current d →
          (free → exec .fillClaim s = .next (State.settle { s' with
            claims := { s'.claims with filler := some (claim true) }
            fill := { s.fill with state := if s.fill.state = .waiting then .writing else s.fill.state } })) ∧
          (¬ free → j.waitLimit = 0 → ends (.busy .surface)) ∧
          (¬ free → 1 ≤ j.waitLimit → exec .fillClaim s = .next (State.settle (State.modQueue i
            (fun q => q ++ [.fill]) { s' with claims := { s'.claims with filler := some (claim false) } })))))

/-- FILL_RELOAD (R12, R142): the copy of a WRITING engine is refreshed from a current record, and a stale or retiring
one makes it DRAINING. FILL_COMPLETION (R7, R40, R143, R144, R146): the transaction ends, its bytes are in memory, the
counts fall by one, and the burst's last completion ends the burst and counts its row; under a RELEASING claim the
last completion ends the drain and the FILL. And the issue of bursts (R142, R144), which is part of what follows at
the same event as any step's own effect: a WRITING engine with no burst in progress asks for the record again when its
copy is out of date, enters DRAINING when its claim is not HELD, and else issues the burst at its next position; after
one with no transaction it goes on, and with the last of the rectangle it releases its claim. That the row names its
transaction by its place (log 21), and that the release leaves tag 0 for a RELEASE's (log 48), are the model's choice;
that bytes are stored at the completion, and the row counted before the drain end, its reading (logs 20 and 12). That
the fill engine issues after the teardowns that are due have ended, and before those that its issue begins, is the
model's choice (log 60). -/
def Obligations.FillReloadsAndCompletes : Prop :=
  (∀ (s : State) (j : FillJob),
    s.fill.job = some j → j.reading = true → s.portTurn = some .fillEngine → s.fill.state = .writing →
    let h := j.handle
    (∀ d, s.classify h = .current d → exec .fillReload s = .next (State.settle { s.pointing (.reload 0) with
      fill := { s.fill with job := some { j with
        reading := false, outdated := false
        copy := ⟨h, (s.entry h.index).stamp, d.format, d.width, d.height, d.pitch, d.clip, d.runs⟩ } } })) ∧
    ((∀ d, s.classify h ≠ .current d) → exec .fillReload s = .next (State.settle { s.pointing (.reload 0) with
      fill := { s.fill with state := .draining, job := some { j with reading := false } } }))) ∧
  (∀ (s : State) (k : Nat) (t : Txn) (cl : Claim) (j : FillJob) (b : FillBurst) (cs : List Host.Cell),
    s.fmi.ofFill[k]? = some t → (s.fmi.txns.map Txn.id).Nodup → t.owner = .fill j.handle →
    t.op = .write cs → (cs.map Prod.fst).Nodup →
    s.claims.filler = some cl → cl.handle = j.handle → s.fill.job = some j → j.burst = some b → 1 ≤ b.left →
    let i := j.handle.index
    let rows := s.fill.rowsDone + if b.left = 1 ∧ b.endsRow = true then 1 else 0
    ∃ v : State,
      (∀ a, Memory.byte v.fmi.mem a = match Memory.byte cs a with
        | some x => some x
        | none => Memory.byte s.fmi.mem a) ∧
      v.fmi.txns.map Txn.id = (s.fmi.txns.map Txn.id).filter (fun j => j ≠ t.id) ∧
      v.entry i = { s.entry i with inFlight := (s.entry i).inFlight - 1 } ∧ (∀ q, q ≠ i → v.entry q = s.entry q) ∧
      v = { s with
        fmi := v.fmi, table := { s.table with entries := v.table.entries }
        fill := { s.fill with
          rowsDone := rows
          job := some { j with burst := if b.left = 1 then none else some { b with left := b.left - 1 } } } } ∧
      (cl.state = .waiting ∨ cl.state = .held ∨ 2 ≤ cl.outstanding →
        exec (.fillCompletion k) s = .next (State.settle { v with
          claims := { s.claims with filler := some { cl with outstanding := cl.outstanding - 1 } } })) ∧
      ∀ kind p g, cl.state = .releasing kind → cl.outstanding = 1 → s.partOf j.handle = some p →
        s.cmd.background.find? (fun g => g.kind == 9) = some g →
        exec (.fillCompletion k) s = .next (v.fillClosed j g kind rows (p.ended cl.mode kind)).settle) ∧
  ∀ s : State,
    ((∀ n, ¬ s.removalDue n) → s.settle = (s.fillRun.finishTeardowns 6).takeNext) ∧
    (s.fill.state ≠ .writing ∨ s.fill.job = none → s.fillRun = s) ∧
    ∀ j, s.fill.job = some j → s.fill.state = .writing →
      (j.burst ≠ none ∨ j.reading = true ∨ j.y + j.h ≤ j.nextRow → s.fillRun = s) ∧
      (j.burst = none → j.reading = false → j.nextRow < j.y + j.h →
        let valid : Prop := j.outdated = false ∧ j.copy.stamp = (s.entry j.handle.index).stamp
        (¬ valid → s.fillRun = { s with fill := { s.fill with job := some { j with reading := true } } }) ∧
        (valid → (∀ cl, s.claims.filler = some cl → cl.state ≠ .held) →
          s.fillRun = { s with fill := { s.fill with state := .draining } }) ∧
        ∀ cl, valid → s.claims.filler = some cl → cl.state = .held →
          let t := j.nextParts.length
          let kind : ReleaseKind := if j.publish then .publish else .plain
          ∃ u : State, issuesBurst s u j cl ∧
            (¬ j.isLast → 1 ≤ t → s.fillRun = u) ∧
            (¬ j.isLast → t = 0 → 1 ≤ j.w → j.x ≤ j.nextX → j.y ≤ j.nextRow → s.fillRun = u.fillRun) ∧
            (j.isLast → 1 ≤ t → s.fillRun = { u with
              fill := { u.fill with state := .draining }
              claims := { u.claims with filler := some { cl with
                outstanding := cl.outstanding + t, state := .releasing kind, releaseTag := 0 } } }) ∧
            (∀ p g, j.isLast → t = 0 → cl.outstanding = 0 → cl.handle = j.handle → u.partOf j.handle = some p →
              s.cmd.background.find? (fun g => g.kind == 9) = some g →
              s.fillRun = State.fillClosed { u with fill := { u.fill with state := .draining } } j g kind
                u.fill.rowsDone (p.ended cl.mode kind)))

/-- SCRUB_COMPLETION (R93 to R95): the block is zero and no other byte changes; the block is FREE and joins the
free-run list; the head run of the scrub queue shrinks; SCRUB_IDLE is set when the queue empties, and otherwise the
next block's write is issued; the transactions of the lanes and of the fill engine stay in flight. -/
def Obligations.ScrubCompletionFreesTheBlock : Prop :=
  ∀ (s : State) (t : Txn) (k : Nat) (r : Run) (queue : List Run),
    (s.fmi.txns.filter fun x => x.owner == .scrub) = [t] → (s.fmi.txns.map Txn.id).Nodup → t.op = .zero →
    t.addr = k * 16384 → s.alloc.scrubQueue = r :: queue →
    let others : List Txn := s.fmi.txns.filter fun x => x.owner != .scrub
    ∃ u : State, exec .scrubCompletion s = .next u.settle ∧
      (∀ a, Memory.byte u.fmi.mem a =
        if k * 16384 ≤ a ∧ a < (k + 1) * 16384 then some 0 else Memory.byte s.fmi.mem a) ∧
      u.alloc = { s.alloc with
        blocks := u.alloc.blocks, freeRuns := joinFree ⟨k, 1⟩ s.alloc.freeRuns
        scrubbing := s.alloc.scrubbing - 1, free := s.alloc.free + 1
        scrubQueue := if r.length ≤ 1 then queue else ⟨r.first + 1, r.length - 1⟩ :: queue } ∧
      (∀ j (hj : j < s.alloc.blocks.length),
        u.alloc.blocks[j]? = some (if j = k then .free else s.alloc.blocks[j])) ∧
      (u.alloc.scrubQueue = [] → u.cmd = { s.cmd with scrubIdle := true } ∧ u.fmi.txns = others) ∧
      (∀ q, u.alloc.scrubQueue.head? = some q → u.cmd = s.cmd ∧
        u.fmi.txns = others ++ [⟨s.fmi.nextId, .scrub, q.first * 16384, 16384, .zero⟩]) ∧
      u = { s with alloc := u.alloc, fmi := u.fmi, cmd := u.cmd }

/-! ## Computations -/

/-- R68 and R77: rows fall in bands below 64, and the answer to CHANGES by the distance: CURRENT with no band, DELTA
with exactly the bands of the newest d ring entries, FULL with every non-empty band. -/
def Obligations.ChangesAnswerByDistance : Prop :=
  ∀ (p : ChangePart) (height : Nat) (since : Word), 1 ≤ height → height ≤ 4096 →
    let bh := (height + 63) / 64
    let d := (p.sequence - since).toNat
    (∀ y, y < height → bandOf height y = y / bh ∧ y / bh < 64) ∧
    (d = 0 → p.answer height since = (.current, 0)) ∧
    (1 ≤ d → d ≤ p.ring.length → (p.answer height since).1 = .delta ∧
      ∀ b, (p.answer height since).2.getLsbD b = true ↔
        ∃ e ∈ p.ring.drop (p.ring.length - d), e.2.getLsbD b = true) ∧
    (p.ring.length < d → (p.answer height since).1 = .full ∧
      ∀ b, (p.answer height since).2.getLsbD b = true ↔ b < (height + bh - 1) / bh)

/-- R3, R110 to R112: the written span is exactly the burst's pixels inside the clip; a span within mapped blocks
becomes one transaction, or two when it crosses the end of its logical block, whose bytes are those of the surface's
bytes in order, each found through the run list. -/
def Obligations.SpansAreTrimmedSplitAndTranslated : Prop :=
  (∀ (clip : Option Rect) (x y n q : Nat),
    (trim clip x y n).1 ≤ q ∧ q < (trim clip x y n).1 + (trim clip x y n).2 ↔
      x ≤ q ∧ q < x + n ∧ ∀ c, clip = some c → c.x0 ≤ q ∧ q ≤ c.x1 ∧ c.y0 ≤ y ∧ y ≤ c.y1) ∧
  ∀ (runs : List Run) (offset len : Nat), 1 ≤ len → len ≤ 16384 →
    (∀ o, o < len → (blockOf runs ((offset + o) / 16384)).isSome = true) →
    let parts := spanParts runs offset len
    (offset % 16384 + len ≤ 16384 → parts.length = 1) ∧
    (16384 < offset % 16384 + len →
      parts.map Prod.snd = [16384 - offset % 16384, len - (16384 - offset % 16384)]) ∧
    (parts.flatMap fun p => (List.range p.2).map fun o => some (p.1 + o)) =
      (List.range len).map fun o =>
        (blockOf runs ((offset + o) / 16384)).map fun b => b * 16384 + (offset + o) % 16384

/-- R85, R86, R88, R89: an allocation from a lawful free-run list takes at most 8 runs, ascending, of n FREE blocks in
all, which leave the list, and the counts change with them; they are, in every free-run list, the first blocks of the
lowest-numbered run that is long enough, or else whole runs in ascending order with the last one split, and none where
these would be more than 8; a run of blocks that were not in the list joins it merged,
so that the list stays lawful. Laws 1, 2 and 3 with R83, R84, R87, R92 and R93: every step keeps the allocator's laws:
what the free-run list, the scrub queue and the records' run lists name, the states of the blocks and the counts
agree. -/
def Obligations.AllocationAndMergingKeepTheFreeRuns : Prop :=
  (∀ (a a' : Allocator) (n : Nat) (i : BitVec 8) (runs : List Run),
    risingRuns a.freeRuns → 1 ≤ n → a.allocate n i = .ok (runs, a') →
    risingRuns a'.freeRuns ∧ runs.length ≤ 8 ∧ (runs.map Run.length).sum = n ∧
      (runs.Pairwise fun r q => r.stop ≤ q.first) ∧
      (∀ k, inRuns a.freeRuns k ↔ inRuns a'.freeRuns k ∨ inRuns runs k) ∧
      (∀ k, ¬ (inRuns a'.freeRuns k ∧ inRuns runs k)) ∧
      a'.free + n = a.free ∧ a'.owned = a.owned + n ∧ a'.scrubbing = a.scrubbing ∧ a'.scrubQueue = a.scrubQueue ∧
      chooseRuns n a.freeRuns = some (runs, a'.freeRuns) ∧
      ∀ k (hk : k < a.blocks.length), a'.blocks[k]? =
        some (if runs.any (fun r => r.has k) then .owned i else a.blocks[k])) ∧
  (∀ (n : Nat) (low high : List Run) (r : Run),
    let free : List Run := low ++ r :: high
    let taken : Nat := (low.map Run.length).sum
    let runs : List Run := low ++ [⟨r.first, n - taken⟩]
    ((∀ q ∈ low, q.length < n) → n ≤ r.length → chooseRuns n free = some ([⟨r.first, n⟩], low ++ r.left n ++ high)) ∧
    ((∀ q ∈ free, q.length < n) → taken < n → n ≤ taken + r.length →
      (runs.length ≤ 8 → chooseRuns n free = some (runs, r.left (n - taken) ++ high)) ∧
      (8 < runs.length → chooseRuns n free = none)) ∧
    ((free.map Run.length).sum < n → chooseRuns n free = none)) ∧
  (∀ (free : List Run) (r : Run), risingRuns free → 1 ≤ r.length → (∀ k, r.has k = true → ¬ inRuns free k) →
    risingRuns (joinFree r free) ∧ ∀ k, inRuns (joinFree r free) k ↔ inRuns free k ∨ r.has k = true) ∧
  ∀ s t : State, s.blocksLawful → step s = .next t → t.blocksLawful

/-! ## Laws that every step keeps -/

/-- Laws 4, 5 and 6 with the wait queues of R30 (R27, R31, R36): a client has at most one claim on a surface; a HELD
or RELEASING WRITE claim is the surface's only holder; a wait queue holds WAITING claims, each client once; and the
head of a queue is incompatible with the holders, so that no claim waits that R36 would have granted. With them law 7
(R10, R23): a RETIRING surface has RELEASING claims only, and a FREE entry has no claim and nothing in flight. -/
def Obligations.StepKeepsClaimsLawful : Prop :=
  ∀ s t : State, s.claimsLawful → step s = .next t → t.claimsLawful ∧ (s.claimsFollow → t.claimsFollow)

/-- Law 11 with the bounds of R171 and R182. -/
def Obligations.StepKeepsTheCommandCounts : Prop :=
  ∀ s t : State, s.accounted → s.bounded → step s = .next t → t.accounted ∧ t.bounded

/-- Law 10, and R1 and R8: every delta ring stays consecutive and ends at its surface's sequence, entry 0 stays FREE
and a surface's generation is never 0. -/
def Obligations.StepKeepsRingsAndGenerations : Prop :=
  ∀ s t : State, s.ringsOk → s.entriesLawful → step s = .next t → t.ringsOk ∧ t.entriesLawful

/-- Law 12's reason: a slot with the board's stamp holds the current record of its surface, whole. -/
def Obligations.StepKeepsSlotsCurrent : Prop := ∀ s t : State, s.slotsCurrent → step s = .next t → t.slotsCurrent

/-- Law 9: at most one fault record per link, and a link with a record is HELD. -/
def Obligations.StepKeepsOneRecordPerHeldLink : Prop :=
  ∀ s t : State, s.faultsLawful → step s = .next t → t.faultsLawful

/-- A link that is not ONLINE stays without credits, requests, messages and bursts, and no queue passes 72 messages.
-/
def Obligations.StepKeepsLinksQuiet : Prop := ∀ s t : State, s.linksQuiet → step s = .next t → t.linksQuiet

/-- The memory keeps its canonical form, and the lanes' counts stay those of their transactions in flight. -/
def Obligations.StepKeepsTheInterface : Prop :=
  ∀ s t : State, s.memoryCanonical → s.transactionsCounted → step s = .next t →
    t.memoryCanonical ∧ t.transactionsCounted

/-- The state after reset meets every law that the steps keep, no command waits in it (the model's choice, log 37) and
the interrupt output is not asserted. Its strap is the model's choice too (log 5). -/
def Obligations.ResetMeetsEveryLaw : Prop :=
  State.reset.claimsLawful ∧ State.reset.claimsFollow ∧ State.reset.blocksLawful ∧ State.reset.accounted ∧
    State.reset.bounded ∧ State.reset.ringsOk ∧ State.reset.entriesLawful ∧ State.reset.slotsCurrent ∧
    State.reset.faultsLawful ∧ State.reset.linksQuiet ∧ State.reset.memoryCanonical ∧ State.reset.transactionsCounted ∧
    State.reset.pending = [] ∧ State.reset.interruptOutput = false
end

