-- ==== Sys2Proof/Laws/State.lean ====
section
/-! SUPPORT. What each update of one record leaves as it was, and what it makes of the record it changes. -/

namespace Sys2Proof.Machine

variable (s : State)

/-! ## modEntry -/

@[simp] theorem modEntry_pending (i : BitVec 8) (f : Entry → Entry) : (s.modEntry i f).pending = s.pending := rfl
@[simp] theorem modEntry_cmd (i : BitVec 8) (f : Entry → Entry) : (s.modEntry i f).cmd = s.cmd := rfl
@[simp] theorem modEntry_claims (i : BitVec 8) (f : Entry → Entry) : (s.modEntry i f).claims = s.claims := rfl
@[simp] theorem modEntry_tracker (i : BitVec 8) (f : Entry → Entry) : (s.modEntry i f).tracker = s.tracker := rfl
@[simp] theorem modEntry_alloc (i : BitVec 8) (f : Entry → Entry) : (s.modEntry i f).alloc = s.alloc := rfl
@[simp] theorem modEntry_lanes (i : BitVec 8) (f : Entry → Entry) : (s.modEntry i f).lanes = s.lanes := rfl
@[simp] theorem modEntry_faults (i : BitVec 8) (f : Entry → Entry) : (s.modEntry i f).faults = s.faults := rfl
@[simp] theorem modEntry_fill (i : BitVec 8) (f : Entry → Entry) : (s.modEntry i f).fill = s.fill := rfl
@[simp] theorem modEntry_links (i : BitVec 8) (f : Entry → Entry) : (s.modEntry i f).links = s.links := rfl
@[simp] theorem modEntry_fmi (i : BitVec 8) (f : Entry → Entry) : (s.modEntry i f).fmi = s.fmi := rfl
@[simp] theorem modEntry_draws (i : BitVec 8) (f : Entry → Entry) : (s.modEntry i f).draws = s.draws := rfl
@[simp] theorem modEntry_link (i : BitVec 8) (f : Entry → Entry) (m : LinkId) : (s.modEntry i f).link m = s.link m := rfl
@[simp] theorem modEntry_lane (i : BitVec 8) (f : Entry → Entry) (m : LinkId) : (s.modEntry i f).lane m = s.lane m := rfl
@[simp] theorem modEntry_linkFaults (i : BitVec 8) (f : Entry → Entry) (m : LinkId) : (s.modEntry i f).linkFaults m = s.linkFaults m := rfl
@[simp] theorem modEntry_queue (i : BitVec 8) (f : Entry → Entry) (j : BitVec 8) : (s.modEntry i f).queue j = s.queue j := rfl
@[simp] theorem modEntry_claimAt (i : BitVec 8) (f : Entry → Entry) (c : Client) (k : Fin 16) : (s.modEntry i f).claimAt c k = s.claimAt c k := rfl
@[simp] theorem modEntry_part (i : BitVec 8) (f : Entry → Entry) (j : BitVec 8) : (s.modEntry i f).part j = s.part j := rfl

/-! ## modLink -/

@[simp] theorem modLink_pending (n : LinkId) (f : Link → Link) : (s.modLink n f).pending = s.pending := rfl
@[simp] theorem modLink_cmd (n : LinkId) (f : Link → Link) : (s.modLink n f).cmd = s.cmd := rfl
@[simp] theorem modLink_table (n : LinkId) (f : Link → Link) : (s.modLink n f).table = s.table := rfl
@[simp] theorem modLink_claims (n : LinkId) (f : Link → Link) : (s.modLink n f).claims = s.claims := rfl
@[simp] theorem modLink_tracker (n : LinkId) (f : Link → Link) : (s.modLink n f).tracker = s.tracker := rfl
@[simp] theorem modLink_alloc (n : LinkId) (f : Link → Link) : (s.modLink n f).alloc = s.alloc := rfl
@[simp] theorem modLink_lanes (n : LinkId) (f : Link → Link) : (s.modLink n f).lanes = s.lanes := rfl
@[simp] theorem modLink_faults (n : LinkId) (f : Link → Link) : (s.modLink n f).faults = s.faults := rfl
@[simp] theorem modLink_fill (n : LinkId) (f : Link → Link) : (s.modLink n f).fill = s.fill := rfl
@[simp] theorem modLink_fmi (n : LinkId) (f : Link → Link) : (s.modLink n f).fmi = s.fmi := rfl
@[simp] theorem modLink_draws (n : LinkId) (f : Link → Link) : (s.modLink n f).draws = s.draws := rfl
@[simp] theorem modLink_entry (n : LinkId) (f : Link → Link) (j : BitVec 8) : (s.modLink n f).entry j = s.entry j := rfl
@[simp] theorem modLink_lane (n : LinkId) (f : Link → Link) (m : LinkId) : (s.modLink n f).lane m = s.lane m := rfl
@[simp] theorem modLink_linkFaults (n : LinkId) (f : Link → Link) (m : LinkId) : (s.modLink n f).linkFaults m = s.linkFaults m := rfl
@[simp] theorem modLink_queue (n : LinkId) (f : Link → Link) (j : BitVec 8) : (s.modLink n f).queue j = s.queue j := rfl
@[simp] theorem modLink_claimAt (n : LinkId) (f : Link → Link) (c : Client) (k : Fin 16) : (s.modLink n f).claimAt c k = s.claimAt c k := rfl
@[simp] theorem modLink_part (n : LinkId) (f : Link → Link) (j : BitVec 8) : (s.modLink n f).part j = s.part j := rfl

/-! ## modLane -/

@[simp] theorem modLane_pending (n : LinkId) (f : Lane → Lane) : (s.modLane n f).pending = s.pending := rfl
@[simp] theorem modLane_cmd (n : LinkId) (f : Lane → Lane) : (s.modLane n f).cmd = s.cmd := rfl
@[simp] theorem modLane_table (n : LinkId) (f : Lane → Lane) : (s.modLane n f).table = s.table := rfl
@[simp] theorem modLane_claims (n : LinkId) (f : Lane → Lane) : (s.modLane n f).claims = s.claims := rfl
@[simp] theorem modLane_tracker (n : LinkId) (f : Lane → Lane) : (s.modLane n f).tracker = s.tracker := rfl
@[simp] theorem modLane_alloc (n : LinkId) (f : Lane → Lane) : (s.modLane n f).alloc = s.alloc := rfl
@[simp] theorem modLane_faults (n : LinkId) (f : Lane → Lane) : (s.modLane n f).faults = s.faults := rfl
@[simp] theorem modLane_fill (n : LinkId) (f : Lane → Lane) : (s.modLane n f).fill = s.fill := rfl
@[simp] theorem modLane_links (n : LinkId) (f : Lane → Lane) : (s.modLane n f).links = s.links := rfl
@[simp] theorem modLane_fmi (n : LinkId) (f : Lane → Lane) : (s.modLane n f).fmi = s.fmi := rfl
@[simp] theorem modLane_draws (n : LinkId) (f : Lane → Lane) : (s.modLane n f).draws = s.draws := rfl
@[simp] theorem modLane_entry (n : LinkId) (f : Lane → Lane) (j : BitVec 8) : (s.modLane n f).entry j = s.entry j := rfl
@[simp] theorem modLane_link (n : LinkId) (f : Lane → Lane) (m : LinkId) : (s.modLane n f).link m = s.link m := rfl
@[simp] theorem modLane_linkFaults (n : LinkId) (f : Lane → Lane) (m : LinkId) : (s.modLane n f).linkFaults m = s.linkFaults m := rfl
@[simp] theorem modLane_queue (n : LinkId) (f : Lane → Lane) (j : BitVec 8) : (s.modLane n f).queue j = s.queue j := rfl
@[simp] theorem modLane_claimAt (n : LinkId) (f : Lane → Lane) (c : Client) (k : Fin 16) : (s.modLane n f).claimAt c k = s.claimAt c k := rfl
@[simp] theorem modLane_part (n : LinkId) (f : Lane → Lane) (j : BitVec 8) : (s.modLane n f).part j = s.part j := rfl

/-! ## modFaults -/

@[simp] theorem modFaults_pending (n : LinkId) (f : LinkFaults → LinkFaults) : (s.modFaults n f).pending = s.pending := rfl
@[simp] theorem modFaults_cmd (n : LinkId) (f : LinkFaults → LinkFaults) : (s.modFaults n f).cmd = s.cmd := rfl
@[simp] theorem modFaults_table (n : LinkId) (f : LinkFaults → LinkFaults) : (s.modFaults n f).table = s.table := rfl
@[simp] theorem modFaults_claims (n : LinkId) (f : LinkFaults → LinkFaults) : (s.modFaults n f).claims = s.claims := rfl
@[simp] theorem modFaults_tracker (n : LinkId) (f : LinkFaults → LinkFaults) : (s.modFaults n f).tracker = s.tracker := rfl
@[simp] theorem modFaults_alloc (n : LinkId) (f : LinkFaults → LinkFaults) : (s.modFaults n f).alloc = s.alloc := rfl
@[simp] theorem modFaults_lanes (n : LinkId) (f : LinkFaults → LinkFaults) : (s.modFaults n f).lanes = s.lanes := rfl
@[simp] theorem modFaults_fill (n : LinkId) (f : LinkFaults → LinkFaults) : (s.modFaults n f).fill = s.fill := rfl
@[simp] theorem modFaults_links (n : LinkId) (f : LinkFaults → LinkFaults) : (s.modFaults n f).links = s.links := rfl
@[simp] theorem modFaults_fmi (n : LinkId) (f : LinkFaults → LinkFaults) : (s.modFaults n f).fmi = s.fmi := rfl
@[simp] theorem modFaults_draws (n : LinkId) (f : LinkFaults → LinkFaults) : (s.modFaults n f).draws = s.draws := rfl
@[simp] theorem modFaults_entry (n : LinkId) (f : LinkFaults → LinkFaults) (j : BitVec 8) : (s.modFaults n f).entry j = s.entry j := rfl
@[simp] theorem modFaults_link (n : LinkId) (f : LinkFaults → LinkFaults) (m : LinkId) : (s.modFaults n f).link m = s.link m := rfl
@[simp] theorem modFaults_lane (n : LinkId) (f : LinkFaults → LinkFaults) (m : LinkId) : (s.modFaults n f).lane m = s.lane m := rfl
@[simp] theorem modFaults_queue (n : LinkId) (f : LinkFaults → LinkFaults) (j : BitVec 8) : (s.modFaults n f).queue j = s.queue j := rfl
@[simp] theorem modFaults_claimAt (n : LinkId) (f : LinkFaults → LinkFaults) (c : Client) (k : Fin 16) : (s.modFaults n f).claimAt c k = s.claimAt c k := rfl
@[simp] theorem modFaults_part (n : LinkId) (f : LinkFaults → LinkFaults) (j : BitVec 8) : (s.modFaults n f).part j = s.part j := rfl

/-! ## modQueue -/

@[simp] theorem modQueue_pending (i : BitVec 8) (f : List Client → List Client) : (s.modQueue i f).pending = s.pending := rfl
@[simp] theorem modQueue_cmd (i : BitVec 8) (f : List Client → List Client) : (s.modQueue i f).cmd = s.cmd := rfl
@[simp] theorem modQueue_table (i : BitVec 8) (f : List Client → List Client) : (s.modQueue i f).table = s.table := rfl
@[simp] theorem modQueue_tracker (i : BitVec 8) (f : List Client → List Client) : (s.modQueue i f).tracker = s.tracker := rfl
@[simp] theorem modQueue_alloc (i : BitVec 8) (f : List Client → List Client) : (s.modQueue i f).alloc = s.alloc := rfl
@[simp] theorem modQueue_lanes (i : BitVec 8) (f : List Client → List Client) : (s.modQueue i f).lanes = s.lanes := rfl
@[simp] theorem modQueue_faults (i : BitVec 8) (f : List Client → List Client) : (s.modQueue i f).faults = s.faults := rfl
@[simp] theorem modQueue_fill (i : BitVec 8) (f : List Client → List Client) : (s.modQueue i f).fill = s.fill := rfl
@[simp] theorem modQueue_links (i : BitVec 8) (f : List Client → List Client) : (s.modQueue i f).links = s.links := rfl
@[simp] theorem modQueue_fmi (i : BitVec 8) (f : List Client → List Client) : (s.modQueue i f).fmi = s.fmi := rfl
@[simp] theorem modQueue_draws (i : BitVec 8) (f : List Client → List Client) : (s.modQueue i f).draws = s.draws := rfl
@[simp] theorem modQueue_entry (i : BitVec 8) (f : List Client → List Client) (j : BitVec 8) : (s.modQueue i f).entry j = s.entry j := rfl
@[simp] theorem modQueue_link (i : BitVec 8) (f : List Client → List Client) (m : LinkId) : (s.modQueue i f).link m = s.link m := rfl
@[simp] theorem modQueue_lane (i : BitVec 8) (f : List Client → List Client) (m : LinkId) : (s.modQueue i f).lane m = s.lane m := rfl
@[simp] theorem modQueue_linkFaults (i : BitVec 8) (f : List Client → List Client) (m : LinkId) : (s.modQueue i f).linkFaults m = s.linkFaults m := rfl
@[simp] theorem modQueue_part (i : BitVec 8) (f : List Client → List Client) (j : BitVec 8) : (s.modQueue i f).part j = s.part j := rfl

/-! ## modPart -/

@[simp] theorem modPart_pending (i : BitVec 8) (f : Option ChangePart → Option ChangePart) : (s.modPart i f).pending = s.pending := rfl
@[simp] theorem modPart_cmd (i : BitVec 8) (f : Option ChangePart → Option ChangePart) : (s.modPart i f).cmd = s.cmd := rfl
@[simp] theorem modPart_table (i : BitVec 8) (f : Option ChangePart → Option ChangePart) : (s.modPart i f).table = s.table := rfl
@[simp] theorem modPart_claims (i : BitVec 8) (f : Option ChangePart → Option ChangePart) : (s.modPart i f).claims = s.claims := rfl
@[simp] theorem modPart_alloc (i : BitVec 8) (f : Option ChangePart → Option ChangePart) : (s.modPart i f).alloc = s.alloc := rfl
@[simp] theorem modPart_lanes (i : BitVec 8) (f : Option ChangePart → Option ChangePart) : (s.modPart i f).lanes = s.lanes := rfl
@[simp] theorem modPart_faults (i : BitVec 8) (f : Option ChangePart → Option ChangePart) : (s.modPart i f).faults = s.faults := rfl
@[simp] theorem modPart_fill (i : BitVec 8) (f : Option ChangePart → Option ChangePart) : (s.modPart i f).fill = s.fill := rfl
@[simp] theorem modPart_links (i : BitVec 8) (f : Option ChangePart → Option ChangePart) : (s.modPart i f).links = s.links := rfl
@[simp] theorem modPart_fmi (i : BitVec 8) (f : Option ChangePart → Option ChangePart) : (s.modPart i f).fmi = s.fmi := rfl
@[simp] theorem modPart_draws (i : BitVec 8) (f : Option ChangePart → Option ChangePart) : (s.modPart i f).draws = s.draws := rfl
@[simp] theorem modPart_entry (i : BitVec 8) (f : Option ChangePart → Option ChangePart) (j : BitVec 8) : (s.modPart i f).entry j = s.entry j := rfl
@[simp] theorem modPart_link (i : BitVec 8) (f : Option ChangePart → Option ChangePart) (m : LinkId) : (s.modPart i f).link m = s.link m := rfl
@[simp] theorem modPart_lane (i : BitVec 8) (f : Option ChangePart → Option ChangePart) (m : LinkId) : (s.modPart i f).lane m = s.lane m := rfl
@[simp] theorem modPart_linkFaults (i : BitVec 8) (f : Option ChangePart → Option ChangePart) (m : LinkId) : (s.modPart i f).linkFaults m = s.linkFaults m := rfl
@[simp] theorem modPart_queue (i : BitVec 8) (f : Option ChangePart → Option ChangePart) (j : BitVec 8) : (s.modPart i f).queue j = s.queue j := rfl
@[simp] theorem modPart_claimAt (i : BitVec 8) (f : Option ChangePart → Option ChangePart) (c : Client) (k : Fin 16) : (s.modPart i f).claimAt c k = s.claimAt c k := rfl

/-! ## raise -/

@[simp] theorem raise_pending (i : BitVec 8) (t : Nat) : (s.raise i t).pending = s.pending := rfl
@[simp] theorem raise_cmd (i : BitVec 8) (t : Nat) : (s.raise i t).cmd = s.cmd := rfl
@[simp] theorem raise_claims (i : BitVec 8) (t : Nat) : (s.raise i t).claims = s.claims := rfl
@[simp] theorem raise_tracker (i : BitVec 8) (t : Nat) : (s.raise i t).tracker = s.tracker := rfl
@[simp] theorem raise_alloc (i : BitVec 8) (t : Nat) : (s.raise i t).alloc = s.alloc := rfl
@[simp] theorem raise_lanes (i : BitVec 8) (t : Nat) : (s.raise i t).lanes = s.lanes := rfl
@[simp] theorem raise_faults (i : BitVec 8) (t : Nat) : (s.raise i t).faults = s.faults := rfl
@[simp] theorem raise_fill (i : BitVec 8) (t : Nat) : (s.raise i t).fill = s.fill := rfl
@[simp] theorem raise_links (i : BitVec 8) (t : Nat) : (s.raise i t).links = s.links := rfl
@[simp] theorem raise_fmi (i : BitVec 8) (t : Nat) : (s.raise i t).fmi = s.fmi := rfl
@[simp] theorem raise_draws (i : BitVec 8) (t : Nat) : (s.raise i t).draws = s.draws := rfl
@[simp] theorem raise_link (i : BitVec 8) (t : Nat) (m : LinkId) : (s.raise i t).link m = s.link m := rfl
@[simp] theorem raise_lane (i : BitVec 8) (t : Nat) (m : LinkId) : (s.raise i t).lane m = s.lane m := rfl
@[simp] theorem raise_linkFaults (i : BitVec 8) (t : Nat) (m : LinkId) : (s.raise i t).linkFaults m = s.linkFaults m := rfl
@[simp] theorem raise_queue (i : BitVec 8) (t : Nat) (j : BitVec 8) : (s.raise i t).queue j = s.queue j := rfl
@[simp] theorem raise_claimAt (i : BitVec 8) (t : Nat) (c : Client) (k : Fin 16) : (s.raise i t).claimAt c k = s.claimAt c k := rfl
@[simp] theorem raise_part (i : BitVec 8) (t : Nat) (j : BitVec 8) : (s.raise i t).part j = s.part j := rfl

/-! ## lower -/

@[simp] theorem lower_pending (i : BitVec 8) : (s.lower i).pending = s.pending := rfl
@[simp] theorem lower_cmd (i : BitVec 8) : (s.lower i).cmd = s.cmd := rfl
@[simp] theorem lower_claims (i : BitVec 8) : (s.lower i).claims = s.claims := rfl
@[simp] theorem lower_tracker (i : BitVec 8) : (s.lower i).tracker = s.tracker := rfl
@[simp] theorem lower_alloc (i : BitVec 8) : (s.lower i).alloc = s.alloc := rfl
@[simp] theorem lower_lanes (i : BitVec 8) : (s.lower i).lanes = s.lanes := rfl
@[simp] theorem lower_faults (i : BitVec 8) : (s.lower i).faults = s.faults := rfl
@[simp] theorem lower_fill (i : BitVec 8) : (s.lower i).fill = s.fill := rfl
@[simp] theorem lower_links (i : BitVec 8) : (s.lower i).links = s.links := rfl
@[simp] theorem lower_fmi (i : BitVec 8) : (s.lower i).fmi = s.fmi := rfl
@[simp] theorem lower_draws (i : BitVec 8) : (s.lower i).draws = s.draws := rfl
@[simp] theorem lower_link (i : BitVec 8) (m : LinkId) : (s.lower i).link m = s.link m := rfl
@[simp] theorem lower_lane (i : BitVec 8) (m : LinkId) : (s.lower i).lane m = s.lane m := rfl
@[simp] theorem lower_linkFaults (i : BitVec 8) (m : LinkId) : (s.lower i).linkFaults m = s.linkFaults m := rfl
@[simp] theorem lower_queue (i : BitVec 8) (j : BitVec 8) : (s.lower i).queue j = s.queue j := rfl
@[simp] theorem lower_claimAt (i : BitVec 8) (c : Client) (k : Fin 16) : (s.lower i).claimAt c k = s.claimAt c k := rfl
@[simp] theorem lower_part (i : BitVec 8) (j : BitVec 8) : (s.lower i).part j = s.part j := rfl

/-! ## setDraws -/

@[simp] theorem setDraws_pending (d : Nat) : (s.setDraws d).pending = s.pending := rfl
@[simp] theorem setDraws_cmd (d : Nat) : (s.setDraws d).cmd = s.cmd := rfl
@[simp] theorem setDraws_table (d : Nat) : (s.setDraws d).table = s.table := rfl
@[simp] theorem setDraws_claims (d : Nat) : (s.setDraws d).claims = s.claims := rfl
@[simp] theorem setDraws_tracker (d : Nat) : (s.setDraws d).tracker = s.tracker := rfl
@[simp] theorem setDraws_alloc (d : Nat) : (s.setDraws d).alloc = s.alloc := rfl
@[simp] theorem setDraws_lanes (d : Nat) : (s.setDraws d).lanes = s.lanes := rfl
@[simp] theorem setDraws_faults (d : Nat) : (s.setDraws d).faults = s.faults := rfl
@[simp] theorem setDraws_fill (d : Nat) : (s.setDraws d).fill = s.fill := rfl
@[simp] theorem setDraws_links (d : Nat) : (s.setDraws d).links = s.links := rfl
@[simp] theorem setDraws_fmi (d : Nat) : (s.setDraws d).fmi = s.fmi := rfl
@[simp] theorem setDraws_draws (d : Nat) : (s.setDraws d).draws = d := rfl
@[simp] theorem setDraws_entry (d : Nat) (j : BitVec 8) : (s.setDraws d).entry j = s.entry j := rfl
@[simp] theorem setDraws_link (d : Nat) (m : LinkId) : (s.setDraws d).link m = s.link m := rfl
@[simp] theorem setDraws_lane (d : Nat) (m : LinkId) : (s.setDraws d).lane m = s.lane m := rfl
@[simp] theorem setDraws_linkFaults (d : Nat) (m : LinkId) : (s.setDraws d).linkFaults m = s.linkFaults m := rfl
@[simp] theorem setDraws_queue (d : Nat) (j : BitVec 8) : (s.setDraws d).queue j = s.queue j := rfl
@[simp] theorem setDraws_claimAt (d : Nat) (c : Client) (k : Fin 16) : (s.setDraws d).claimAt c k = s.claimAt c k := rfl
@[simp] theorem setDraws_part (d : Nat) (j : BitVec 8) : (s.setDraws d).part j = s.part j := rfl

/-! ## setFmi -/

@[simp] theorem setFmi_pending (f : MemoryInterface) : (s.setFmi f).pending = s.pending := rfl
@[simp] theorem setFmi_cmd (f : MemoryInterface) : (s.setFmi f).cmd = s.cmd := rfl
@[simp] theorem setFmi_table (f : MemoryInterface) : (s.setFmi f).table = s.table := rfl
@[simp] theorem setFmi_claims (f : MemoryInterface) : (s.setFmi f).claims = s.claims := rfl
@[simp] theorem setFmi_tracker (f : MemoryInterface) : (s.setFmi f).tracker = s.tracker := rfl
@[simp] theorem setFmi_alloc (f : MemoryInterface) : (s.setFmi f).alloc = s.alloc := rfl
@[simp] theorem setFmi_lanes (f : MemoryInterface) : (s.setFmi f).lanes = s.lanes := rfl
@[simp] theorem setFmi_faults (f : MemoryInterface) : (s.setFmi f).faults = s.faults := rfl
@[simp] theorem setFmi_fill (f : MemoryInterface) : (s.setFmi f).fill = s.fill := rfl
@[simp] theorem setFmi_links (f : MemoryInterface) : (s.setFmi f).links = s.links := rfl
@[simp] theorem setFmi_draws (f : MemoryInterface) : (s.setFmi f).draws = s.draws := rfl
@[simp] theorem setFmi_entry (f : MemoryInterface) (j : BitVec 8) : (s.setFmi f).entry j = s.entry j := rfl
@[simp] theorem setFmi_link (f : MemoryInterface) (m : LinkId) : (s.setFmi f).link m = s.link m := rfl
@[simp] theorem setFmi_lane (f : MemoryInterface) (m : LinkId) : (s.setFmi f).lane m = s.lane m := rfl
@[simp] theorem setFmi_linkFaults (f : MemoryInterface) (m : LinkId) : (s.setFmi f).linkFaults m = s.linkFaults m := rfl
@[simp] theorem setFmi_queue (f : MemoryInterface) (j : BitVec 8) : (s.setFmi f).queue j = s.queue j := rfl
@[simp] theorem setFmi_claimAt (f : MemoryInterface) (c : Client) (k : Fin 16) : (s.setFmi f).claimAt c k = s.claimAt c k := rfl
@[simp] theorem setFmi_part (f : MemoryInterface) (j : BitVec 8) : (s.setFmi f).part j = s.part j := rfl

/-! ## setAlloc -/

@[simp] theorem setAlloc_pending (a : Allocator) : (s.setAlloc a).pending = s.pending := rfl
@[simp] theorem setAlloc_cmd (a : Allocator) : (s.setAlloc a).cmd = s.cmd := rfl
@[simp] theorem setAlloc_table (a : Allocator) : (s.setAlloc a).table = s.table := rfl
@[simp] theorem setAlloc_claims (a : Allocator) : (s.setAlloc a).claims = s.claims := rfl
@[simp] theorem setAlloc_tracker (a : Allocator) : (s.setAlloc a).tracker = s.tracker := rfl
@[simp] theorem setAlloc_lanes (a : Allocator) : (s.setAlloc a).lanes = s.lanes := rfl
@[simp] theorem setAlloc_faults (a : Allocator) : (s.setAlloc a).faults = s.faults := rfl
@[simp] theorem setAlloc_fill (a : Allocator) : (s.setAlloc a).fill = s.fill := rfl
@[simp] theorem setAlloc_links (a : Allocator) : (s.setAlloc a).links = s.links := rfl
@[simp] theorem setAlloc_fmi (a : Allocator) : (s.setAlloc a).fmi = s.fmi := rfl
@[simp] theorem setAlloc_draws (a : Allocator) : (s.setAlloc a).draws = s.draws := rfl
@[simp] theorem setAlloc_entry (a : Allocator) (j : BitVec 8) : (s.setAlloc a).entry j = s.entry j := rfl
@[simp] theorem setAlloc_link (a : Allocator) (m : LinkId) : (s.setAlloc a).link m = s.link m := rfl
@[simp] theorem setAlloc_lane (a : Allocator) (m : LinkId) : (s.setAlloc a).lane m = s.lane m := rfl
@[simp] theorem setAlloc_linkFaults (a : Allocator) (m : LinkId) : (s.setAlloc a).linkFaults m = s.linkFaults m := rfl
@[simp] theorem setAlloc_queue (a : Allocator) (j : BitVec 8) : (s.setAlloc a).queue j = s.queue j := rfl
@[simp] theorem setAlloc_claimAt (a : Allocator) (c : Client) (k : Fin 16) : (s.setAlloc a).claimAt c k = s.claimAt c k := rfl
@[simp] theorem setAlloc_part (a : Allocator) (j : BitVec 8) : (s.setAlloc a).part j = s.part j := rfl

/-! ## setLine -/

@[simp] theorem setLine_pending (l : List LineEntry) : (s.setLine l).pending = s.pending := rfl
@[simp] theorem setLine_cmd (l : List LineEntry) : (s.setLine l).cmd = s.cmd := rfl
@[simp] theorem setLine_table (l : List LineEntry) : (s.setLine l).table = s.table := rfl
@[simp] theorem setLine_tracker (l : List LineEntry) : (s.setLine l).tracker = s.tracker := rfl
@[simp] theorem setLine_alloc (l : List LineEntry) : (s.setLine l).alloc = s.alloc := rfl
@[simp] theorem setLine_lanes (l : List LineEntry) : (s.setLine l).lanes = s.lanes := rfl
@[simp] theorem setLine_faults (l : List LineEntry) : (s.setLine l).faults = s.faults := rfl
@[simp] theorem setLine_fill (l : List LineEntry) : (s.setLine l).fill = s.fill := rfl
@[simp] theorem setLine_links (l : List LineEntry) : (s.setLine l).links = s.links := rfl
@[simp] theorem setLine_fmi (l : List LineEntry) : (s.setLine l).fmi = s.fmi := rfl
@[simp] theorem setLine_draws (l : List LineEntry) : (s.setLine l).draws = s.draws := rfl
@[simp] theorem setLine_entry (l : List LineEntry) (j : BitVec 8) : (s.setLine l).entry j = s.entry j := rfl
@[simp] theorem setLine_link (l : List LineEntry) (m : LinkId) : (s.setLine l).link m = s.link m := rfl
@[simp] theorem setLine_lane (l : List LineEntry) (m : LinkId) : (s.setLine l).lane m = s.lane m := rfl
@[simp] theorem setLine_linkFaults (l : List LineEntry) (m : LinkId) : (s.setLine l).linkFaults m = s.linkFaults m := rfl
@[simp] theorem setLine_part (l : List LineEntry) (j : BitVec 8) : (s.setLine l).part j = s.part j := rfl

/-! ## withdrawLine -/

@[simp] theorem withdrawLine_pending (n : LinkId) : (s.withdrawLine n).pending = s.pending := rfl
@[simp] theorem withdrawLine_cmd (n : LinkId) : (s.withdrawLine n).cmd = s.cmd := rfl
@[simp] theorem withdrawLine_table (n : LinkId) : (s.withdrawLine n).table = s.table := rfl
@[simp] theorem withdrawLine_tracker (n : LinkId) : (s.withdrawLine n).tracker = s.tracker := rfl
@[simp] theorem withdrawLine_alloc (n : LinkId) : (s.withdrawLine n).alloc = s.alloc := rfl
@[simp] theorem withdrawLine_lanes (n : LinkId) : (s.withdrawLine n).lanes = s.lanes := rfl
@[simp] theorem withdrawLine_faults (n : LinkId) : (s.withdrawLine n).faults = s.faults := rfl
@[simp] theorem withdrawLine_fill (n : LinkId) : (s.withdrawLine n).fill = s.fill := rfl
@[simp] theorem withdrawLine_links (n : LinkId) : (s.withdrawLine n).links = s.links := rfl
@[simp] theorem withdrawLine_fmi (n : LinkId) : (s.withdrawLine n).fmi = s.fmi := rfl
@[simp] theorem withdrawLine_draws (n : LinkId) : (s.withdrawLine n).draws = s.draws := rfl
@[simp] theorem withdrawLine_entry (n : LinkId) (j : BitVec 8) : (s.withdrawLine n).entry j = s.entry j := rfl
@[simp] theorem withdrawLine_link (n : LinkId) (m : LinkId) : (s.withdrawLine n).link m = s.link m := rfl
@[simp] theorem withdrawLine_lane (n : LinkId) (m : LinkId) : (s.withdrawLine n).lane m = s.lane m := rfl
@[simp] theorem withdrawLine_linkFaults (n : LinkId) (m : LinkId) : (s.withdrawLine n).linkFaults m = s.linkFaults m := rfl
@[simp] theorem withdrawLine_part (n : LinkId) (j : BitVec 8) : (s.withdrawLine n).part j = s.part j := rfl

/-! ## popLine -/

@[simp] theorem popLine_pending  : (s.popLine).pending = s.pending := rfl
@[simp] theorem popLine_cmd  : (s.popLine).cmd = s.cmd := rfl
@[simp] theorem popLine_tracker  : (s.popLine).tracker = s.tracker := rfl
@[simp] theorem popLine_alloc  : (s.popLine).alloc = s.alloc := rfl
@[simp] theorem popLine_lanes  : (s.popLine).lanes = s.lanes := rfl
@[simp] theorem popLine_faults  : (s.popLine).faults = s.faults := rfl
@[simp] theorem popLine_fill  : (s.popLine).fill = s.fill := rfl
@[simp] theorem popLine_links  : (s.popLine).links = s.links := rfl
@[simp] theorem popLine_fmi  : (s.popLine).fmi = s.fmi := rfl
@[simp] theorem popLine_draws  : (s.popLine).draws = s.draws := rfl
@[simp] theorem popLine_link  (m : LinkId) : (s.popLine).link m = s.link m := rfl
@[simp] theorem popLine_lane  (m : LinkId) : (s.popLine).lane m = s.lane m := rfl
@[simp] theorem popLine_linkFaults  (m : LinkId) : (s.popLine).linkFaults m = s.linkFaults m := rfl
@[simp] theorem popLine_part  (j : BitVec 8) : (s.popLine).part j = s.part j := rfl

/-! ## setRecords -/

@[simp] theorem setRecords_pending (q : List FaultRecord) : (s.setRecords q).pending = s.pending := rfl
@[simp] theorem setRecords_cmd (q : List FaultRecord) : (s.setRecords q).cmd = s.cmd := rfl
@[simp] theorem setRecords_table (q : List FaultRecord) : (s.setRecords q).table = s.table := rfl
@[simp] theorem setRecords_claims (q : List FaultRecord) : (s.setRecords q).claims = s.claims := rfl
@[simp] theorem setRecords_tracker (q : List FaultRecord) : (s.setRecords q).tracker = s.tracker := rfl
@[simp] theorem setRecords_alloc (q : List FaultRecord) : (s.setRecords q).alloc = s.alloc := rfl
@[simp] theorem setRecords_lanes (q : List FaultRecord) : (s.setRecords q).lanes = s.lanes := rfl
@[simp] theorem setRecords_fill (q : List FaultRecord) : (s.setRecords q).fill = s.fill := rfl
@[simp] theorem setRecords_links (q : List FaultRecord) : (s.setRecords q).links = s.links := rfl
@[simp] theorem setRecords_fmi (q : List FaultRecord) : (s.setRecords q).fmi = s.fmi := rfl
@[simp] theorem setRecords_draws (q : List FaultRecord) : (s.setRecords q).draws = s.draws := rfl
@[simp] theorem setRecords_entry (q : List FaultRecord) (j : BitVec 8) : (s.setRecords q).entry j = s.entry j := rfl
@[simp] theorem setRecords_link (q : List FaultRecord) (m : LinkId) : (s.setRecords q).link m = s.link m := rfl
@[simp] theorem setRecords_lane (q : List FaultRecord) (m : LinkId) : (s.setRecords q).lane m = s.lane m := rfl
@[simp] theorem setRecords_queue (q : List FaultRecord) (j : BitVec 8) : (s.setRecords q).queue j = s.queue j := rfl
@[simp] theorem setRecords_claimAt (q : List FaultRecord) (c : Client) (k : Fin 16) : (s.setRecords q).claimAt c k = s.claimAt c k := rfl
@[simp] theorem setRecords_part (q : List FaultRecord) (j : BitVec 8) : (s.setRecords q).part j = s.part j := rfl

/-! ## removeRecord -/

@[simp] theorem removeRecord_pending (n : LinkId) : (s.removeRecord n).pending = s.pending := rfl
@[simp] theorem removeRecord_cmd (n : LinkId) : (s.removeRecord n).cmd = s.cmd := rfl
@[simp] theorem removeRecord_table (n : LinkId) : (s.removeRecord n).table = s.table := rfl
@[simp] theorem removeRecord_claims (n : LinkId) : (s.removeRecord n).claims = s.claims := rfl
@[simp] theorem removeRecord_tracker (n : LinkId) : (s.removeRecord n).tracker = s.tracker := rfl
@[simp] theorem removeRecord_alloc (n : LinkId) : (s.removeRecord n).alloc = s.alloc := rfl
@[simp] theorem removeRecord_lanes (n : LinkId) : (s.removeRecord n).lanes = s.lanes := rfl
@[simp] theorem removeRecord_fill (n : LinkId) : (s.removeRecord n).fill = s.fill := rfl
@[simp] theorem removeRecord_links (n : LinkId) : (s.removeRecord n).links = s.links := rfl
@[simp] theorem removeRecord_fmi (n : LinkId) : (s.removeRecord n).fmi = s.fmi := rfl
@[simp] theorem removeRecord_draws (n : LinkId) : (s.removeRecord n).draws = s.draws := rfl
@[simp] theorem removeRecord_entry (n : LinkId) (j : BitVec 8) : (s.removeRecord n).entry j = s.entry j := rfl
@[simp] theorem removeRecord_link (n : LinkId) (m : LinkId) : (s.removeRecord n).link m = s.link m := rfl
@[simp] theorem removeRecord_lane (n : LinkId) (m : LinkId) : (s.removeRecord n).lane m = s.lane m := rfl
@[simp] theorem removeRecord_queue (n : LinkId) (j : BitVec 8) : (s.removeRecord n).queue j = s.queue j := rfl
@[simp] theorem removeRecord_claimAt (n : LinkId) (c : Client) (k : Fin 16) : (s.removeRecord n).claimAt c k = s.claimAt c k := rfl
@[simp] theorem removeRecord_part (n : LinkId) (j : BitVec 8) : (s.removeRecord n).part j = s.part j := rfl

/-! ## rowDone -/

@[simp] theorem rowDone_pending  : (s.rowDone).pending = s.pending := rfl
@[simp] theorem rowDone_cmd  : (s.rowDone).cmd = s.cmd := rfl
@[simp] theorem rowDone_table  : (s.rowDone).table = s.table := rfl
@[simp] theorem rowDone_claims  : (s.rowDone).claims = s.claims := rfl
@[simp] theorem rowDone_tracker  : (s.rowDone).tracker = s.tracker := rfl
@[simp] theorem rowDone_alloc  : (s.rowDone).alloc = s.alloc := rfl
@[simp] theorem rowDone_lanes  : (s.rowDone).lanes = s.lanes := rfl
@[simp] theorem rowDone_faults  : (s.rowDone).faults = s.faults := rfl
@[simp] theorem rowDone_links  : (s.rowDone).links = s.links := rfl
@[simp] theorem rowDone_fmi  : (s.rowDone).fmi = s.fmi := rfl
@[simp] theorem rowDone_draws  : (s.rowDone).draws = s.draws := rfl
@[simp] theorem rowDone_entry  (j : BitVec 8) : (s.rowDone).entry j = s.entry j := rfl
@[simp] theorem rowDone_link  (m : LinkId) : (s.rowDone).link m = s.link m := rfl
@[simp] theorem rowDone_lane  (m : LinkId) : (s.rowDone).lane m = s.lane m := rfl
@[simp] theorem rowDone_linkFaults  (m : LinkId) : (s.rowDone).linkFaults m = s.linkFaults m := rfl
@[simp] theorem rowDone_queue  (j : BitVec 8) : (s.rowDone).queue j = s.queue j := rfl
@[simp] theorem rowDone_claimAt  (c : Client) (k : Fin 16) : (s.rowDone).claimAt c k = s.claimAt c k := rfl
@[simp] theorem rowDone_part  (j : BitVec 8) : (s.rowDone).part j = s.part j := rfl

/-! ## served -/

@[simp] theorem served_pending (r : Requester) : (s.served r).pending = s.pending := rfl
@[simp] theorem served_cmd (r : Requester) : (s.served r).cmd = s.cmd := rfl
@[simp] theorem served_claims (r : Requester) : (s.served r).claims = s.claims := rfl
@[simp] theorem served_tracker (r : Requester) : (s.served r).tracker = s.tracker := rfl
@[simp] theorem served_alloc (r : Requester) : (s.served r).alloc = s.alloc := rfl
@[simp] theorem served_lanes (r : Requester) : (s.served r).lanes = s.lanes := rfl
@[simp] theorem served_faults (r : Requester) : (s.served r).faults = s.faults := rfl
@[simp] theorem served_fill (r : Requester) : (s.served r).fill = s.fill := rfl
@[simp] theorem served_links (r : Requester) : (s.served r).links = s.links := rfl
@[simp] theorem served_fmi (r : Requester) : (s.served r).fmi = s.fmi := rfl
@[simp] theorem served_draws (r : Requester) : (s.served r).draws = s.draws := rfl
@[simp] theorem served_link (r : Requester) (m : LinkId) : (s.served r).link m = s.link m := rfl
@[simp] theorem served_lane (r : Requester) (m : LinkId) : (s.served r).lane m = s.lane m := rfl
@[simp] theorem served_linkFaults (r : Requester) (m : LinkId) : (s.served r).linkFaults m = s.linkFaults m := rfl
@[simp] theorem served_queue (r : Requester) (j : BitVec 8) : (s.served r).queue j = s.queue j := rfl
@[simp] theorem served_claimAt (r : Requester) (c : Client) (k : Fin 16) : (s.served r).claimAt c k = s.claimAt c k := rfl
@[simp] theorem served_part (r : Requester) (j : BitVec 8) : (s.served r).part j = s.part j := rfl

/-! ## setStage -/

@[simp] theorem setStage_pending (st : Stage) : (s.setStage st).pending = s.pending := rfl
@[simp] theorem setStage_table (st : Stage) : (s.setStage st).table = s.table := rfl
@[simp] theorem setStage_claims (st : Stage) : (s.setStage st).claims = s.claims := rfl
@[simp] theorem setStage_tracker (st : Stage) : (s.setStage st).tracker = s.tracker := rfl
@[simp] theorem setStage_alloc (st : Stage) : (s.setStage st).alloc = s.alloc := rfl
@[simp] theorem setStage_lanes (st : Stage) : (s.setStage st).lanes = s.lanes := rfl
@[simp] theorem setStage_faults (st : Stage) : (s.setStage st).faults = s.faults := rfl
@[simp] theorem setStage_fill (st : Stage) : (s.setStage st).fill = s.fill := rfl
@[simp] theorem setStage_links (st : Stage) : (s.setStage st).links = s.links := rfl
@[simp] theorem setStage_fmi (st : Stage) : (s.setStage st).fmi = s.fmi := rfl
@[simp] theorem setStage_draws (st : Stage) : (s.setStage st).draws = s.draws := rfl
@[simp] theorem setStage_entry (st : Stage) (j : BitVec 8) : (s.setStage st).entry j = s.entry j := rfl
@[simp] theorem setStage_link (st : Stage) (m : LinkId) : (s.setStage st).link m = s.link m := rfl
@[simp] theorem setStage_lane (st : Stage) (m : LinkId) : (s.setStage st).lane m = s.lane m := rfl
@[simp] theorem setStage_linkFaults (st : Stage) (m : LinkId) : (s.setStage st).linkFaults m = s.linkFaults m := rfl
@[simp] theorem setStage_queue (st : Stage) (j : BitVec 8) : (s.setStage st).queue j = s.queue j := rfl
@[simp] theorem setStage_claimAt (st : Stage) (c : Client) (k : Fin 16) : (s.setStage st).claimAt c k = s.claimAt c k := rfl
@[simp] theorem setStage_part (st : Stage) (j : BitVec 8) : (s.setStage st).part j = s.part j := rfl

/-! ## modJob -/

@[simp] theorem modJob_pending (f : FillJob → FillJob) : (s.modJob f).pending = s.pending := rfl
@[simp] theorem modJob_cmd (f : FillJob → FillJob) : (s.modJob f).cmd = s.cmd := rfl
@[simp] theorem modJob_table (f : FillJob → FillJob) : (s.modJob f).table = s.table := rfl
@[simp] theorem modJob_claims (f : FillJob → FillJob) : (s.modJob f).claims = s.claims := rfl
@[simp] theorem modJob_tracker (f : FillJob → FillJob) : (s.modJob f).tracker = s.tracker := rfl
@[simp] theorem modJob_alloc (f : FillJob → FillJob) : (s.modJob f).alloc = s.alloc := rfl
@[simp] theorem modJob_lanes (f : FillJob → FillJob) : (s.modJob f).lanes = s.lanes := rfl
@[simp] theorem modJob_faults (f : FillJob → FillJob) : (s.modJob f).faults = s.faults := rfl
@[simp] theorem modJob_links (f : FillJob → FillJob) : (s.modJob f).links = s.links := rfl
@[simp] theorem modJob_fmi (f : FillJob → FillJob) : (s.modJob f).fmi = s.fmi := rfl
@[simp] theorem modJob_draws (f : FillJob → FillJob) : (s.modJob f).draws = s.draws := rfl
@[simp] theorem modJob_entry (f : FillJob → FillJob) (j : BitVec 8) : (s.modJob f).entry j = s.entry j := rfl
@[simp] theorem modJob_link (f : FillJob → FillJob) (m : LinkId) : (s.modJob f).link m = s.link m := rfl
@[simp] theorem modJob_lane (f : FillJob → FillJob) (m : LinkId) : (s.modJob f).lane m = s.lane m := rfl
@[simp] theorem modJob_linkFaults (f : FillJob → FillJob) (m : LinkId) : (s.modJob f).linkFaults m = s.linkFaults m := rfl
@[simp] theorem modJob_queue (f : FillJob → FillJob) (j : BitVec 8) : (s.modJob f).queue j = s.queue j := rfl
@[simp] theorem modJob_claimAt (f : FillJob → FillJob) (c : Client) (k : Fin 16) : (s.modJob f).claimAt c k = s.claimAt c k := rfl
@[simp] theorem modJob_part (f : FillJob → FillJob) (j : BitVec 8) : (s.modJob f).part j = s.part j := rfl

/-! ## setFillState -/

@[simp] theorem setFillState_pending (st : FillState) : (s.setFillState st).pending = s.pending := rfl
@[simp] theorem setFillState_cmd (st : FillState) : (s.setFillState st).cmd = s.cmd := rfl
@[simp] theorem setFillState_table (st : FillState) : (s.setFillState st).table = s.table := rfl
@[simp] theorem setFillState_claims (st : FillState) : (s.setFillState st).claims = s.claims := rfl
@[simp] theorem setFillState_tracker (st : FillState) : (s.setFillState st).tracker = s.tracker := rfl
@[simp] theorem setFillState_alloc (st : FillState) : (s.setFillState st).alloc = s.alloc := rfl
@[simp] theorem setFillState_lanes (st : FillState) : (s.setFillState st).lanes = s.lanes := rfl
@[simp] theorem setFillState_faults (st : FillState) : (s.setFillState st).faults = s.faults := rfl
@[simp] theorem setFillState_links (st : FillState) : (s.setFillState st).links = s.links := rfl
@[simp] theorem setFillState_fmi (st : FillState) : (s.setFillState st).fmi = s.fmi := rfl
@[simp] theorem setFillState_draws (st : FillState) : (s.setFillState st).draws = s.draws := rfl
@[simp] theorem setFillState_entry (st : FillState) (j : BitVec 8) : (s.setFillState st).entry j = s.entry j := rfl
@[simp] theorem setFillState_link (st : FillState) (m : LinkId) : (s.setFillState st).link m = s.link m := rfl
@[simp] theorem setFillState_lane (st : FillState) (m : LinkId) : (s.setFillState st).lane m = s.lane m := rfl
@[simp] theorem setFillState_linkFaults (st : FillState) (m : LinkId) : (s.setFillState st).linkFaults m = s.linkFaults m := rfl
@[simp] theorem setFillState_queue (st : FillState) (j : BitVec 8) : (s.setFillState st).queue j = s.queue j := rfl
@[simp] theorem setFillState_claimAt (st : FillState) (c : Client) (k : Fin 16) : (s.setFillState st).claimAt c k = s.claimAt c k := rfl
@[simp] theorem setFillState_part (st : FillState) (j : BitVec 8) : (s.setFillState st).part j = s.part j := rfl

/-! ## decided -/

@[simp] theorem decided_pending (n : LinkId) : (s.decided n).pending = s.pending := rfl
@[simp] theorem decided_cmd (n : LinkId) : (s.decided n).cmd = s.cmd := rfl
@[simp] theorem decided_table (n : LinkId) : (s.decided n).table = s.table := rfl
@[simp] theorem decided_claims (n : LinkId) : (s.decided n).claims = s.claims := rfl
@[simp] theorem decided_tracker (n : LinkId) : (s.decided n).tracker = s.tracker := rfl
@[simp] theorem decided_alloc (n : LinkId) : (s.decided n).alloc = s.alloc := rfl
@[simp] theorem decided_lanes (n : LinkId) : (s.decided n).lanes = s.lanes := rfl
@[simp] theorem decided_faults (n : LinkId) : (s.decided n).faults = s.faults := rfl
@[simp] theorem decided_fill (n : LinkId) : (s.decided n).fill = s.fill := rfl
@[simp] theorem decided_fmi (n : LinkId) : (s.decided n).fmi = s.fmi := rfl
@[simp] theorem decided_draws (n : LinkId) : (s.decided n).draws = s.draws := rfl
@[simp] theorem decided_entry (n : LinkId) (j : BitVec 8) : (s.decided n).entry j = s.entry j := rfl
@[simp] theorem decided_lane (n : LinkId) (m : LinkId) : (s.decided n).lane m = s.lane m := rfl
@[simp] theorem decided_linkFaults (n : LinkId) (m : LinkId) : (s.decided n).linkFaults m = s.linkFaults m := rfl
@[simp] theorem decided_queue (n : LinkId) (j : BitVec 8) : (s.decided n).queue j = s.queue j := rfl
@[simp] theorem decided_claimAt (n : LinkId) (c : Client) (k : Fin 16) : (s.decided n).claimAt c k = s.claimAt c k := rfl
@[simp] theorem decided_part (n : LinkId) (j : BitVec 8) : (s.decided n).part j = s.part j := rfl

/-! ## takeRequest -/

@[simp] theorem takeRequest_pending (n : LinkId) (p : Option Progress) : (s.takeRequest n p).pending = s.pending := rfl
@[simp] theorem takeRequest_cmd (n : LinkId) (p : Option Progress) : (s.takeRequest n p).cmd = s.cmd := rfl
@[simp] theorem takeRequest_table (n : LinkId) (p : Option Progress) : (s.takeRequest n p).table = s.table := rfl
@[simp] theorem takeRequest_claims (n : LinkId) (p : Option Progress) : (s.takeRequest n p).claims = s.claims := rfl
@[simp] theorem takeRequest_tracker (n : LinkId) (p : Option Progress) : (s.takeRequest n p).tracker = s.tracker := rfl
@[simp] theorem takeRequest_alloc (n : LinkId) (p : Option Progress) : (s.takeRequest n p).alloc = s.alloc := rfl
@[simp] theorem takeRequest_lanes (n : LinkId) (p : Option Progress) : (s.takeRequest n p).lanes = s.lanes := rfl
@[simp] theorem takeRequest_faults (n : LinkId) (p : Option Progress) : (s.takeRequest n p).faults = s.faults := rfl
@[simp] theorem takeRequest_fill (n : LinkId) (p : Option Progress) : (s.takeRequest n p).fill = s.fill := rfl
@[simp] theorem takeRequest_fmi (n : LinkId) (p : Option Progress) : (s.takeRequest n p).fmi = s.fmi := rfl
@[simp] theorem takeRequest_draws (n : LinkId) (p : Option Progress) : (s.takeRequest n p).draws = s.draws := rfl
@[simp] theorem takeRequest_entry (n : LinkId) (p : Option Progress) (j : BitVec 8) : (s.takeRequest n p).entry j = s.entry j := rfl
@[simp] theorem takeRequest_lane (n : LinkId) (p : Option Progress) (m : LinkId) : (s.takeRequest n p).lane m = s.lane m := rfl
@[simp] theorem takeRequest_linkFaults (n : LinkId) (p : Option Progress) (m : LinkId) : (s.takeRequest n p).linkFaults m = s.linkFaults m := rfl
@[simp] theorem takeRequest_queue (n : LinkId) (p : Option Progress) (j : BitVec 8) : (s.takeRequest n p).queue j = s.queue j := rfl
@[simp] theorem takeRequest_claimAt (n : LinkId) (p : Option Progress) (c : Client) (k : Fin 16) : (s.takeRequest n p).claimAt c k = s.claimAt c k := rfl
@[simp] theorem takeRequest_part (n : LinkId) (p : Option Progress) (j : BitVec 8) : (s.takeRequest n p).part j = s.part j := rfl

/-! ## setClaim -/

@[simp] theorem setClaim_pending (c : Client) (k : Fin 16) (v : Option Claim) : (s.setClaim c k v).pending = s.pending := by
  cases c with
  | fill => simp only [State.setClaim]; split <;> rfl
  | link n => rfl
@[simp] theorem setClaim_cmd (c : Client) (k : Fin 16) (v : Option Claim) : (s.setClaim c k v).cmd = s.cmd := by
  cases c with
  | fill => simp only [State.setClaim]; split <;> rfl
  | link n => rfl
@[simp] theorem setClaim_table (c : Client) (k : Fin 16) (v : Option Claim) : (s.setClaim c k v).table = s.table := by
  cases c with
  | fill => simp only [State.setClaim]; split <;> rfl
  | link n => rfl
@[simp] theorem setClaim_tracker (c : Client) (k : Fin 16) (v : Option Claim) : (s.setClaim c k v).tracker = s.tracker := by
  cases c with
  | fill => simp only [State.setClaim]; split <;> rfl
  | link n => rfl
@[simp] theorem setClaim_alloc (c : Client) (k : Fin 16) (v : Option Claim) : (s.setClaim c k v).alloc = s.alloc := by
  cases c with
  | fill => simp only [State.setClaim]; split <;> rfl
  | link n => rfl
@[simp] theorem setClaim_lanes (c : Client) (k : Fin 16) (v : Option Claim) : (s.setClaim c k v).lanes = s.lanes := by
  cases c with
  | fill => simp only [State.setClaim]; split <;> rfl
  | link n => rfl
@[simp] theorem setClaim_faults (c : Client) (k : Fin 16) (v : Option Claim) : (s.setClaim c k v).faults = s.faults := by
  cases c with
  | fill => simp only [State.setClaim]; split <;> rfl
  | link n => rfl
@[simp] theorem setClaim_fill (c : Client) (k : Fin 16) (v : Option Claim) : (s.setClaim c k v).fill = s.fill := by
  cases c with
  | fill => simp only [State.setClaim]; split <;> rfl
  | link n => rfl
@[simp] theorem setClaim_links (c : Client) (k : Fin 16) (v : Option Claim) : (s.setClaim c k v).links = s.links := by
  cases c with
  | fill => simp only [State.setClaim]; split <;> rfl
  | link n => rfl
@[simp] theorem setClaim_fmi (c : Client) (k : Fin 16) (v : Option Claim) : (s.setClaim c k v).fmi = s.fmi := by
  cases c with
  | fill => simp only [State.setClaim]; split <;> rfl
  | link n => rfl
@[simp] theorem setClaim_draws (c : Client) (k : Fin 16) (v : Option Claim) : (s.setClaim c k v).draws = s.draws := by
  cases c with
  | fill => simp only [State.setClaim]; split <;> rfl
  | link n => rfl
@[simp] theorem setClaim_entry (c' : Client) (k' : Fin 16) (v : Option Claim) (j : BitVec 8) : (s.setClaim c' k' v).entry j = s.entry j := by
  simp [State.entry]
@[simp] theorem setClaim_link (c' : Client) (k' : Fin 16) (v : Option Claim) (m : LinkId) : (s.setClaim c' k' v).link m = s.link m := by
  simp [State.link]
@[simp] theorem setClaim_lane (c' : Client) (k' : Fin 16) (v : Option Claim) (m : LinkId) : (s.setClaim c' k' v).lane m = s.lane m := by
  simp [State.lane]
@[simp] theorem setClaim_linkFaults (c' : Client) (k' : Fin 16) (v : Option Claim) (m : LinkId) : (s.setClaim c' k' v).linkFaults m = s.linkFaults m := by
  simp [State.linkFaults]
@[simp] theorem setClaim_part (c' : Client) (k' : Fin 16) (v : Option Claim) (j : BitVec 8) : (s.setClaim c' k' v).part j = s.part j := by
  simp [State.part]

@[simp] theorem setClaim_queue (c : Client) (k : Fin 16) (v : Option Claim) (i : BitVec 8) :
    (s.setClaim c k v).queue i = s.queue i := by
  cases c with
  | fill => simp only [State.setClaim]; split <;> rfl
  | link n => rfl

/-! ## The record that an update changes, and the others -/

@[simp] theorem modEntry_self (i : BitVec 8) (f : Entry → Entry) : (s.modEntry i f).entry i = f (s.entry i) := by
  simp [State.modEntry, State.entry]

theorem modEntry_other {i j : BitVec 8} (f : Entry → Entry) (h : j ≠ i) : (s.modEntry i f).entry j = s.entry j := by
  have : i.toNat ≠ j.toNat := fun e => h (BitVec.eq_of_toNat_eq e.symm)
  simp [State.modEntry, State.entry, this]

/-- The in-flight count is no part of what the record's view shows. -/
theorem raise_view (i j : BitVec 8) (t : Nat) : ((s.raise i t).entry j).view = (s.entry j).view := by
  by_cases h : j = i
  · subst h; simp [State.raise, Entry.view]
  · rw [State.raise, modEntry_other _ _ h]

theorem lower_view (i j : BitVec 8) : ((s.lower i).entry j).view = (s.entry j).view := by
  by_cases h : j = i
  · subst h; simp [State.lower, Entry.view]
  · rw [State.lower, modEntry_other _ _ h]

@[simp] theorem modLink_self (n : LinkId) (f : Link → Link) : (s.modLink n f).link n = f (s.link n) := by
  simp [State.modLink, State.link]

theorem modLink_other {n m : LinkId} (f : Link → Link) (h : m ≠ n) : (s.modLink n f).link m = s.link m := by
  have : n.val ≠ m.val := fun e => h (Fin.ext e.symm)
  simp [State.modLink, State.link, this]

@[simp] theorem modLane_self (n : LinkId) (f : Lane → Lane) : (s.modLane n f).lane n = f (s.lane n) := by
  simp [State.modLane, State.lane]

theorem modLane_other {n m : LinkId} (f : Lane → Lane) (h : m ≠ n) : (s.modLane n f).lane m = s.lane m := by
  have : n.val ≠ m.val := fun e => h (Fin.ext e.symm)
  simp [State.modLane, State.lane, this]

@[simp] theorem modFaults_self (n : LinkId) (f : LinkFaults → LinkFaults) :
    (s.modFaults n f).linkFaults n = f (s.linkFaults n) := by
  simp [State.modFaults, State.linkFaults]

theorem modFaults_other {n m : LinkId} (f : LinkFaults → LinkFaults) (h : m ≠ n) :
    (s.modFaults n f).linkFaults m = s.linkFaults m := by
  have : n.val ≠ m.val := fun e => h (Fin.ext e.symm)
  simp [State.modFaults, State.linkFaults, this]

@[simp] theorem modFaults_records (n : LinkId) (f : LinkFaults → LinkFaults) :
    (s.modFaults n f).faults.queue = s.faults.queue := rfl

@[simp] theorem modQueue_self (i : BitVec 8) (f : List Client → List Client) :
    (s.modQueue i f).queue i = f (s.queue i) := by
  simp [State.modQueue, State.queue]

theorem modQueue_other {i j : BitVec 8} (f : List Client → List Client) (h : j ≠ i) :
    (s.modQueue i f).queue j = s.queue j := by
  have : i.toNat ≠ j.toNat := fun e => h (BitVec.eq_of_toNat_eq e.symm)
  simp [State.modQueue, State.queue, this]

@[simp] theorem modQueue_claimAt (i : BitVec 8) (f : List Client → List Client) (c : Client) (k : Fin 16) :
    (s.modQueue i f).claimAt c k = s.claimAt c k := rfl

@[simp] theorem modPart_self (i : BitVec 8) (f : Option ChangePart → Option ChangePart) :
    (s.modPart i f).part i = f (s.part i) := by
  simp [State.modPart, State.part]

theorem modPart_other {i j : BitVec 8} (f : Option ChangePart → Option ChangePart) (h : j ≠ i) :
    (s.modPart i f).part j = s.part j := by
  have : i.toNat ≠ j.toNat := fun e => h (BitVec.eq_of_toNat_eq e.symm)
  simp [State.modPart, State.part, this]

@[simp] theorem setFmi_fmi (f : MemoryInterface) : (s.setFmi f).fmi = f := rfl

@[simp] theorem setAlloc_alloc (a : Allocator) : (s.setAlloc a).alloc = a := rfl

@[simp] theorem setLine_line (l : List LineEntry) : (s.setLine l).claims.line = l := rfl

@[simp] theorem setLine_claimAt (l : List LineEntry) (c : Client) (k : Fin 16) :
    (s.setLine l).claimAt c k = s.claimAt c k := rfl

@[simp] theorem setLine_queue (l : List LineEntry) (i : BitVec 8) : (s.setLine l).queue i = s.queue i := rfl

@[simp] theorem setRecords_records (q : List FaultRecord) : (s.setRecords q).faults.queue = q := rfl

@[simp] theorem setRecords_linkFaults (q : List FaultRecord) (n : LinkId) :
    (s.setRecords q).linkFaults n = s.linkFaults n := rfl

@[simp] theorem removeRecord_linkFaults (n m : LinkId) : (s.removeRecord n).linkFaults m = s.linkFaults m := rfl

@[simp] theorem popLine_entry (i : BitVec 8) : s.popLine.entry i = s.entry i := rfl

@[simp] theorem popLine_claimAt (c : Client) (k : Fin 16) : s.popLine.claimAt c k = s.claimAt c k := rfl

@[simp] theorem popLine_queue (i : BitVec 8) : s.popLine.queue i = s.queue i := rfl

@[simp] theorem served_entry (r : Requester) (i : BitVec 8) : (s.served r).entry i = s.entry i := rfl

theorem setClaim_self (c : Client) (k : Fin 16) (v : Option Claim) (h : slotExists c k = true) :
    (s.setClaim c k v).claimAt c k = v := by
  cases c with
  | fill =>
    have hk : k = 0 := by simpa [slotExists] using h
    simp [State.setClaim, State.claimAt, hk]
  | link n => simp [State.setClaim, State.claimAt]

theorem setClaim_other {c c' : Client} {k k' : Fin 16} (v : Option Claim) (h : ¬(c' = c ∧ k' = k)) :
    (s.setClaim c k v).claimAt c' k' = s.claimAt c' k' := by
  cases c with
  | fill =>
    by_cases hk : k = 0
    · cases c' with
      | fill =>
        have : k' ≠ 0 := fun e => h ⟨rfl, by rw [e, hk]⟩
        simp [State.claimAt, this]
      | link m => simp [State.setClaim, State.claimAt, hk]
    · simp [State.setClaim, hk]
  | link n =>
    cases c' with
    | fill => simp [State.setClaim, State.claimAt]
    | link m =>
      by_cases hn : m = n
      · subst hn
        have hk : k' ≠ k := fun e => h ⟨rfl, e⟩
        have : k.val ≠ k'.val := fun e => hk (Fin.ext e.symm)
        simp [State.setClaim, State.claimAt, this]
      · have : n.val ≠ m.val := fun e => hn (Fin.ext e.symm)
        simp [State.setClaim, State.claimAt, this]

end Sys2Proof.Machine
end

