-- ==== Sys2Proof/Laws/Fixed.lean ====
section
/-! SUPPORT. One lemma for each shared operation: the fixed part of the state (`State.fixed`) is as it was. -/

namespace Sys2Proof.Machine

variable (s : State)

theorem fixed_modEntry (i : BitVec 8) (f : Entry → Entry) (h : ∀ e, (f e).view = e.view) :
    (s.modEntry i f).fixed = s.fixed := by
  have : (s.modEntry i f).table.entries.map Entry.view = s.table.entries.map Entry.view := by
    simp only [State.modEntry, Vector.map_set, h]
    apply Vector.ext
    intro j hj
    by_cases e : i.toNat = j
    · subst e; simp [State.entry]
    · simp [e]
  simp only [State.fixed, this]
  rfl

@[simp] theorem fixed_raise (i : BitVec 8) (t : Nat) : (s.raise i t).fixed = s.fixed :=
  fixed_modEntry s i _ fun _ => rfl

@[simp] theorem fixed_lower (i : BitVec 8) : (s.lower i).fixed = s.fixed := fixed_modEntry s i _ fun _ => rfl

theorem fixed_setFmi (f : MemoryInterface) (hm : f.mem = s.fmi.mem) (hs : f.seed = s.fmi.seed) :
    (s.setFmi f).fixed = s.fixed := by
  simp only [State.fixed, State.setFmi, hm, hs]

@[simp] theorem fixed_modLink (n : LinkId) (f : Link → Link) : (s.modLink n f).fixed = s.fixed := rfl
@[simp] theorem fixed_modLane (n : LinkId) (f : Lane → Lane) : (s.modLane n f).fixed = s.fixed := rfl
@[simp] theorem fixed_modFaults (n : LinkId) (f : LinkFaults → LinkFaults) : (s.modFaults n f).fixed = s.fixed := rfl
@[simp] theorem fixed_modQueue (i : BitVec 8) (f : List Client → List Client) : (s.modQueue i f).fixed = s.fixed := rfl
@[simp] theorem fixed_modPart (i : BitVec 8) (f : Option ChangePart → Option ChangePart) :
    (s.modPart i f).fixed = s.fixed := rfl
@[simp] theorem fixed_served (r : Requester) : (s.served r).fixed = s.fixed := rfl
@[simp] theorem fixed_setStage (st : Stage) : (s.setStage st).fixed = s.fixed := rfl
@[simp] theorem fixed_modJob (f : FillJob → FillJob) : (s.modJob f).fixed = s.fixed := rfl
@[simp] theorem fixed_setFillState (st : FillState) : (s.setFillState st).fixed = s.fixed := rfl
@[simp] theorem fixed_decided (n : LinkId) : (s.decided n).fixed = s.fixed := rfl
@[simp] theorem fixed_takeRequest (n : LinkId) (p : Option Progress) : (s.takeRequest n p).fixed = s.fixed := rfl
@[simp] theorem fixed_withFill (f : FillEngine) : ({ s with fill := f } : State).fixed = s.fixed := rfl
@[simp] theorem fixed_withDraws (d : Nat) : ({ s with draws := d } : State).fixed = s.fixed := rfl
@[simp] theorem fixed_setDraws (d : Nat) : (s.setDraws d).fixed = s.fixed := rfl
@[simp] theorem fixed_setLine (l : List LineEntry) : (s.setLine l).fixed = s.fixed := rfl
@[simp] theorem fixed_withdrawLine (n : LinkId) : (s.withdrawLine n).fixed = s.fixed := rfl
@[simp] theorem fixed_popLine : s.popLine.fixed = s.fixed := rfl
@[simp] theorem fixed_setRecords (q : List FaultRecord) : (s.setRecords q).fixed = s.fixed := rfl
@[simp] theorem fixed_rowDone : s.rowDone.fixed = s.fixed := rfl

@[simp] theorem fixed_setClaim (c : Client) (k : Fin 16) (v : Option Claim) : (s.setClaim c k v).fixed = s.fixed := by
  cases c with
  | fill => simp only [State.setClaim]; split <;> rfl
  | link n => rfl

@[simp] theorem fixed_modClaim (c : Client) (k : Fin 16) (f : Claim → Claim) : (s.modClaim c k f).fixed = s.fixed := by
  unfold State.modClaim; split <;> simp

@[simp] theorem fixed_raiseOutstanding (c : Client) (k : Fin 16) (t : Nat) :
    (s.raiseOutstanding c k t).fixed = s.fixed := by simp [State.raiseOutstanding]

@[simp] theorem fixed_lowerOutstanding (c : Client) (k : Fin 16) : (s.lowerOutstanding c k).fixed = s.fixed := by
  simp [State.lowerOutstanding]

@[simp] theorem fixed_markBand (i : BitVec 8) (w : Bool) (b : Nat) : (s.markBand i w b).fixed = s.fixed := by
  unfold State.markBand; split <;> simp

@[simp] theorem fixed_countClaim (p : Client × Fin 16) : (s.countClaim p).fixed = s.fixed := by
  simp [State.countClaim]

/-! ## Completions -/

@[simp] theorem fixed_post (v : Verdict) (ws : List Word) : (s.post v ws).fixed = s.fixed := by
  unfold State.post; split <;> rfl

@[simp] theorem fixed_toBackground (h : Handle) : (s.toBackground h).fixed = s.fixed := by
  unfold State.toBackground; split <;> rfl

@[simp] theorem fixed_postBackground (p : Background → Bool) (v : Verdict) (ws : List Word) :
    (s.postBackground p v ws).fixed = s.fixed := by
  unfold State.postBackground; split <;> rfl

@[simp] theorem fixed_takeNext : s.takeNext.fixed = s.fixed := by
  unfold State.takeNext; split
  · split <;> rfl
  · rfl

/-! ## Teardown starts and messages -/

@[simp] theorem fixed_abandonRetry (n : LinkId) : (s.abandonRetry n).fixed = s.fixed := by
  unfold State.abandonRetry; split
  · split <;> simp
  · rfl

@[simp] theorem fixed_beginTeardown (n : LinkId) (c : Cause) : (s.beginTeardown n c).fixed = s.fixed := by
  simp [State.beginTeardown]

@[simp] theorem fixed_takeCause (n : LinkId) (c : Cause) : (s.takeCause n c).fixed = s.fixed := by
  unfold State.takeCause; split <;> simp

@[simp] theorem fixed_handOver (n : LinkId) (m : Message) : (s.handOver n m).fixed = s.fixed := by
  simp only [State.handOver]; split
  · split <;> simp
  · rfl

@[simp] theorem fixed_handOverAccess (n : LinkId) (m : Message) : (s.handOverAccess n m).fixed = s.fixed := by
  simp only [State.handOverAccess]; split <;> simp

@[simp] theorem fixed_respond (n : LinkId) (tag : Byte) (ss : BitVec 8) (b : Body) :
    (s.respond n tag ss b).fixed = s.fixed := by
  simp [State.respond]

@[simp] theorem fixed_examineDrain (i : BitVec 8) : (s.examineDrain i).fixed = s.fixed := by
  unfold State.examineDrain; split
  · split <;> rfl
  · rfl

/-! ## Claims -/

@[simp] theorem fixed_fillEnd (v : Verdict) : (s.fillEnd v).fixed = s.fixed := by
  unfold State.fillEnd; split
  · rfl
  · simp only []; split <;> simp

@[simp] theorem fixed_fillDrained (k : ReleaseKind) : (s.fillDrained k).fixed = s.fixed := by
  unfold State.fillDrained; split <;> simp

@[simp] theorem fixed_fillGranted : s.fillGranted.fixed = s.fixed := by
  unfold State.fillGranted; split <;> simp

@[simp] theorem fixed_grant (i : BitVec 8) (c : Client) (k : Fin 16) (cl : Claim) :
    (s.grant i c k cl).fixed = s.fixed := by
  cases c <;> simp [State.grant]

@[simp] theorem fixed_serveFrom (i : BitVec 8) (q : List Client) : (s.serveFrom i q).fixed = s.fixed := by
  induction q generalizing s with
  | nil => rfl
  | cons c rest ih =>
    simp only [State.serveFrom]
    split
    · rfl
    · split
      · rw [ih]; simp
      · rfl

@[simp] theorem fixed_serve (i : BitVec 8) : (s.serve i).fixed = s.fixed := by simp [State.serve]

@[simp] theorem fixed_settleChanges (cl : Claim) (k : ReleaseKind) : (s.settleChanges cl k).fixed = s.fixed := by
  unfold State.settleChanges; split
  · simp
  · split <;> simp

@[simp] theorem fixed_reportDrain (c : Client) (k : Fin 16) (cl : Claim) (kind : ReleaseKind) :
    (s.reportDrain c k cl kind).fixed = s.fixed := by
  cases c with
  | fill => simp [State.reportDrain]
  | link n => cases kind <;> simp [State.reportDrain]

@[simp] theorem fixed_finishDrain (c : Client) (k : Fin 16) : (s.finishDrain c k).fixed = s.fixed := by
  unfold State.finishDrain; split
  · rfl
  · split <;> simp

@[simp] theorem fixed_afterLoss (i : BitVec 8) : (s.afterLoss i).fixed = s.fixed := by simp [State.afterLoss]

@[simp] theorem fixed_reportFill (c : Client) (kind : ReleaseKind) : (s.reportFill c kind).fixed = s.fixed := by
  cases c <;> simp [State.reportFill]

@[simp] theorem fixed_drainIfDone (c : Client) (k : Fin 16) : (s.drainIfDone c k).fixed = s.fixed := by
  unfold State.drainIfDone; split
  · rfl
  · split
    · split <;> simp
    · rfl

@[simp] theorem fixed_releaseClaim (c : Client) (k : Fin 16) (kind : ReleaseKind) (tag : Byte) :
    (s.releaseClaim c k kind tag).fixed = s.fixed := by simp [State.releaseClaim]

@[simp] theorem fixed_dropWaiting (c : Client) (k : Fin 16) (i : BitVec 8) :
    (s.dropWaiting c k i).fixed = s.fixed := by simp [State.dropWaiting]

@[simp] theorem fixed_revokeWaiting (i : BitVec 8) (r : Reason) (sel : Client → Claim → Bool) (c : Client) :
    (s.revokeWaiting i r sel c).fixed = s.fixed := by
  unfold State.revokeWaiting; split
  · rfl
  · split
    · cases c <;> simp
    · rfl

@[simp] theorem fixed_revokeHeld (i : BitVec 8) (r : Reason) (sel : Client → Claim → Bool) (c : Client) :
    (s.revokeHeld i r sel c).fixed = s.fixed := by
  unfold State.revokeHeld; split
  · rfl
  · split
    · simp only []; split <;> simp
    · rfl

/-- An operation that keeps the fixed part keeps it when folded over a list. -/
theorem fixed_foldl {α : Type} (op : State → α → State) (h : ∀ s a, (op s a).fixed = s.fixed) (l : List α) :
    (l.foldl op s).fixed = s.fixed := by
  induction l generalizing s with
  | nil => rfl
  | cons a rest ih => rw [List.foldl_cons, ih, h]

@[simp] theorem fixed_revoke (i : BitVec 8) (r : Reason) (sel : Client → Claim → Bool) :
    (s.revoke i r sel).fixed = s.fixed := by
  have h : (s.revoke i r sel).fixed = ((allClients.foldl (State.revokeHeld i r sel)
      (allClients.foldl (State.revokeWaiting i r sel) s)).afterLoss i).fixed := by
    unfold State.revoke; dsimp only; split <;> simp
  rw [h, fixed_afterLoss]
  rw [fixed_foldl _ _ (fun s c => fixed_revokeHeld s i r sel c),
    fixed_foldl _ _ (fun s c => fixed_revokeWaiting s i r sel c)]

@[simp] theorem fixed_expire (p : Client × Fin 16) : (s.expire p).fixed = s.fixed := by
  unfold State.expire; split
  · rfl
  · split
    · simp only []; split <;> simp
    · rfl

@[simp] theorem fixed_timeOut (p : Client × Fin 16) : (s.timeOut p).fixed = s.fixed := by
  unfold State.timeOut; split
  · rfl
  · split
    · simp only []; split <;> simp
    · rfl

@[simp] theorem fixed_warn (w : Nat) (p : Client × Fin 16) : (s.warn w p).fixed = s.fixed := by
  unfold State.warn; split
  · rfl
  · split
    · simp only []; split <;> simp
    · rfl

@[simp] theorem fixed_leaseTick : s.leaseTick.fixed = s.fixed := by
  simp only [State.leaseTick]
  rw [fixed_foldl _ _ (fun s i => fixed_examineDrain s i), fixed_foldl _ _ (fun s i => fixed_serve s i),
    fixed_foldl _ _ (fun s p => fixed_warn s _ p), fixed_foldl _ _ (fun s p => fixed_timeOut s p),
    fixed_foldl _ _ (fun s p => fixed_expire s p), fixed_foldl _ _ (fun s p => fixed_countClaim s p)]

@[simp] theorem fixed_removeClaim (n : LinkId) (k : Fin 16) : (s.removeClaim n k).fixed = s.fixed := by
  unfold State.removeClaim; split
  · rfl
  · simp only []; split
    · simp
    · split <;> simp

@[simp] theorem fixed_removeClaims (n : LinkId) : (s.removeClaims n).fixed = s.fixed := by
  simp only [State.removeClaims]
  rw [fixed_foldl _ _ (fun s i => fixed_examineDrain s i), fixed_foldl _ _ (fun s i => fixed_serve s i),
    fixed_foldl _ _ (fun s k => fixed_removeClaim s n k)]

/-! ## The Access Path -/

@[simp] theorem fixed_releaseFrom (n : LinkId) (l : List Response) : (s.releaseFrom n l).fixed = s.fixed := by
  induction l generalizing s with
  | nil => rfl
  | cons r rest ih =>
    cases r with
    | inFlight b w ps => rfl
    | ready t ss b => simp only [State.releaseFrom]; rw [ih]; simp

@[simp] theorem fixed_releaseResponses (n : LinkId) : (s.releaseResponses n).fixed = s.fixed := by
  simp [State.releaseResponses]

@[simp] theorem mem_issue (f : MemoryInterface) (o : Owner) (a len : Nat) (op : TxnOp) :
    (f.issue o a len op).mem = f.mem := rfl

@[simp] theorem seed_issue (f : MemoryInterface) (o : Owner) (a len : Nat) (op : TxnOp) :
    (f.issue o a len op).seed = f.seed := rfl

@[simp] theorem mem_issueParts (o : Owner) (dir : Mode) (parts : List (Nat × Nat)) (data : List Byte)
    (f : MemoryInterface) : (issueParts o dir parts data f).2.mem = f.mem := by
  induction parts generalizing data f with
  | nil => rfl
  | cons p rest ih => simp [issueParts, ih]

@[simp] theorem seed_issueParts (o : Owner) (dir : Mode) (parts : List (Nat × Nat)) (data : List Byte)
    (f : MemoryInterface) : (issueParts o dir parts data f).2.seed = f.seed := by
  induction parts generalizing data f with
  | nil => rfl
  | cons p rest ih => simp [issueParts, ih]

@[simp] theorem fixed_accept (n : LinkId) (b : Burst) (c : Copy) (k : Fin 16) :
    (s.accept n b c k).fixed = s.fixed := by
  simp [State.accept, fixed_setFmi]

@[simp] theorem fixed_sendResumed (n : LinkId) (tag : Byte) (a : ResolveAction) (k : Nat) :
    (s.sendResumed n tag a k).fixed = s.fixed := by simp [State.sendResumed]

@[simp] theorem fixed_retryAccepted (n : LinkId) (b : Burst) : (s.retryAccepted n b).fixed = s.fixed := by
  simp only [State.retryAccepted]; split
  · split <;> simp
  · rfl

@[simp] theorem fixed_retryRefaulted (n : LinkId) (k : LinkCode) (w : Nat) :
    (s.retryRefaulted n k w).fixed = s.fixed := by
  unfold State.retryRefaulted; split <;> simp

@[simp] theorem fixed_faultAnswered (n : LinkId) (k : LinkCode) (b : Burst) :
    (s.faultAnswered n k b).fixed = s.fixed := by
  simp only [State.faultAnswered]; split <;> simp

@[simp] theorem fixed_faultHeld (n : LinkId) (k : LinkCode) (b : Burst) : (s.faultHeld n k b).fixed = s.fixed := by
  simp [State.faultHeld]

@[simp] theorem fixed_faultBurst (n : LinkId) (k : LinkCode) (b : Burst) : (s.faultBurst n k b).fixed = s.fixed := by
  unfold State.faultBurst; split <;> simp

@[simp] theorem fixed_judgeAgainst (n : LinkId) (b : Burst) (c : Copy) : (s.judgeAgainst n b c).fixed = s.fixed := by
  unfold State.judgeAgainst; split <;> simp

@[simp] theorem fixed_judgeHead (n : LinkId) : (s.judgeHead n).fixed = s.fixed := by
  unfold State.judgeHead; split
  · rfl
  · split
    · simp
    · split <;> simp

@[simp] theorem fixed_refill (n : LinkId) (d : Mode) (h : Handle) : (s.refill n d h).fixed = s.fixed := by
  simp [State.refill]

@[simp] theorem fixed_reloadForJudging (n : LinkId) (x : Extent) : (s.reloadForJudging n x).fixed = s.fixed := by
  unfold State.reloadForJudging; split
  · rfl
  · split
    · rfl
    · split
      · cases x <;> simp
      · simp

@[simp] theorem fixed_surfaceDone (i : BitVec 8) : (s.surfaceDone i).fixed = s.fixed := by
  simp only [State.surfaceDone]; split <;> simp

@[simp] theorem fixed_claimDone (c : Client) (h : Handle) : (s.claimDone c h).fixed = s.fixed := by
  unfold State.claimDone; split <;> simp

/-! ## The Fill Engine -/

@[simp] theorem fixed_issueBurst (j : FillJob) : (s.issueBurst j).fixed = s.fixed := by
  simp only [State.issueBurst]
  split <;> simp [fixed_setFmi]

@[simp] theorem fixed_fillRelease (j : FillJob) : (s.fillRelease j).fixed = s.fixed := by simp [State.fillRelease]

@[simp] theorem fixed_issueBursts (k : Nat) : (s.issueBursts k).fixed = s.fixed := by
  induction k generalizing s with
  | zero => rfl
  | succ k ih =>
    simp only [State.issueBursts]
    split
    · rfl
    · split
      · rfl
      · split
        · simp
        · split
          · simp
          · split
            · simp
            · rw [ih]; simp

@[simp] theorem fixed_fillRun : s.fillRun.fixed = s.fixed := by
  unfold State.fillRun; split <;> simp

@[simp] theorem fixed_fillWithdraw : s.fillWithdraw.fixed = s.fixed := by
  simp only [State.fillWithdraw]; split
  · simp
  · split <;> simp

/-! ## What follows at the same event -/

@[simp] theorem fixed_removeRecord (n : LinkId) : (s.removeRecord n).fixed = s.fixed := rfl

@[simp] theorem fixed_finishTeardown (n : LinkId) : (s.finishTeardown n).fixed = s.fixed := by
  simp [State.finishTeardown]

@[simp] theorem fixed_finishTeardowns (k : Nat) : (s.finishTeardowns k).fixed = s.fixed := by
  induction k generalizing s with
  | zero => rfl
  | succ k ih =>
    simp only [State.finishTeardowns]; split
    · rfl
    · rw [ih]; simp

/-- What follows at the same event never changes the fixed part. -/
@[simp] theorem fixed_settle : s.settle.fixed = s.fixed := by simp [State.settle]

end Sys2Proof.Machine
end

