-- ==== Sys2Proof/Laws/Ops.lean ====
section
/-! SUPPORT. One lemma for each shared operation that says what it does: completions, the table's updates, the choice
of an entry, messages to a link, the start of a teardown, and what follows an event. -/

namespace Sys2Proof.Machine

variable (s : State)

/-! ## Completions -/

theorem post_completing {s : State} {r : CmdRecord} {st : Stage} (h : s.cmd.executing = some ⟨r, st⟩) (v : Verdict)
    (ws : List Word) : s.post v ws = s.completing r v ws := by
  simp [State.post, h, State.completing, CommandEngine.completed]

theorem executingAs_eq {s : State} {r : CmdRecord} {st : Stage} {k : CmdKind} (h : s.cmd.executing = some ⟨r, st⟩)
    (hk : r.command = some k) : s.executingAs k = some (r, st) := by
  simp [State.executingAs, h, hk]

theorem served_pointing (r : Requester) : s.served r = s.pointing r.next := rfl

/-! ## The choice of an entry and its update -/

theorem freeEntry_eq_some {s : State} {i : BitVec 8} (h : s.lowestFree i) : s.freeEntry = some i := by
  obtain ⟨h0, hf, hl⟩ := h
  have hi : 1 ≤ i.toNat := by
    have : i.toNat ≠ 0 := fun h => h0 (BitVec.eq_of_toNat_eq (by simpa using h))
    omega
  have hlt := i.isLt
  rw [State.freeEntry, List.find?_eq_some_iff_append]
  refine ⟨by simp [hf], (List.range (i.toNat - 1)).map (fun k => BitVec.ofNat 8 (k + 1)),
    (List.range (255 - i.toNat)).map fun k => BitVec.ofNat 8 (k + i.toNat + 1), ?_, ?_⟩
  · apply List.ext_getElem
    · simp [surfaceIndexes]; omega
    · intro k _ _
      simp only [surfaceIndexes, List.getElem_map, List.getElem_range, List.getElem_append, List.getElem_cons,
        List.length_map, List.length_range]
      split
      · rfl
      · split
        · apply BitVec.eq_of_toNat_eq; simp; omega
        · congr 1; omega
  · intro j hj
    simp at hj
    obtain ⟨a, ha, rfl⟩ := hj
    have := hl (BitVec.ofNat 8 (a + 1)) (by intro h; have := congrArg BitVec.toNat h; simp at this; omega)
      (by simp; omega)
    simpa using this

theorem freeEntry_eq_none {s : State} (h : ∀ i, i ≠ 0 → (s.entry i).state ≠ .free) : s.freeEntry = none := by
  rw [State.freeEntry, List.find?_eq_none]
  intro i hi
  simp [surfaceIndexes] at hi
  obtain ⟨a, ha, rfl⟩ := hi
  have := h (BitVec.ofNat 8 (a + 1)) (by intro h; have := congrArg BitVec.toNat h; simp at this; omega)
  simpa using this

theorem guardedSlot_eq (i : BitVec 8) (stamp : BitVec 16) (c : Option Copy) :
    (match c with
      | some c => if c.handle.index = i ∧ c.stamp = stamp then none else some c
      | none => none) = guardedSlot i stamp c := by
  cases c with
  | none => rfl
  | some c =>
    by_cases h : c.handle.index = i ∧ c.stamp = stamp
    · simp [guardedSlot, Option.filter, h]
    · have : (c.handle.index == i && c.stamp == stamp) = false := by simpa using fun a => fun b => h ⟨a, b⟩
      simp [guardedSlot, Option.filter, h, this]

theorem guardedJob_eq (i : BitVec 8) (stamp : BitVec 16) (j : FillJob) :
    (if j.copy.handle.index = i ∧ j.copy.stamp = stamp then { j with outdated := true } else j) =
      { j with outdated := j.outdated || (j.copy.handle.index == i && j.copy.stamp == stamp) } := by
  by_cases h : j.copy.handle.index = i ∧ j.copy.stamp = stamp
  · simp [h]
  · have : (j.copy.handle.index == i && j.copy.stamp == stamp) = false := by simpa using fun a => fun b => h ⟨a, b⟩
    simp [h, this]

/-- The Command Engine's update of an entry, with the stamp guard. -/
theorem served_updateEntry (i : BitVec 8) (f : Entry → Entry) :
    (s.served .commandEngine).updateEntry i f =
      s.updated i { f (s.entry i) with stamp := (s.entry i).stamp + 1 } := by
  simp only [State.updateEntry, State.stampGuard, guardedJob_eq]
  simp only [State.modEntry, State.entry, State.served, State.updated, FillEngine.guarded, Requester.next,
    Vector.getElem_set_self]
  congr 2
  funext l
  simp only [Lane.guarded]
  congr 1 <;> exact guardedSlot_eq _ _ _

theorem updateEntry_served (i : BitVec 8) (f : Entry → Entry) :
    (s.updateEntry i f).served .commandEngine =
      s.updated i { f (s.entry i) with stamp := (s.entry i).stamp + 1 } := served_updateEntry s i f

/-! ## Teardown and messages to a link -/

theorem abandonRetry_eq (n : LinkId) : s.abandonRetry n = { s with cmd := match s.cmd.executing with
    | some ⟨r, .retrying m _⟩ => if m = n then s.cmd.completed r .noFault [] else s.cmd
    | _ => s.cmd } := by
  cases h : s.cmd.executing with
  | none => simp only [State.abandonRetry, h]
  | some e =>
    obtain ⟨r, st⟩ := e
    cases st with
    | retrying m q =>
      simp only [State.abandonRetry, h]
      by_cases e : m = n
      · rw [if_pos e, if_pos e, post_completing h]; rfl
      · rw [if_neg e, if_neg e]
    | _ => simp only [State.abandonRetry, h]

theorem beginTeardown_begun (n : LinkId) (c : Cause) : teardownBegun s (s.beginTeardown n c) n c := by
  unfold State.beginTeardown
  rw [abandonRetry_eq]
  refine ⟨?_, ?_, rfl, fun m hm => ?_, rfl, rfl⟩
  · simp [State.link, State.modLink, State.modLane, State.withdrawLine, State.setLine, Link.startTeardown]
  · simp [State.lane, State.modLink, State.modLane, State.withdrawLine, State.setLine, Lane.startTeardown]
  · have : n.val ≠ m.val := fun h => hm (Fin.ext h.symm)
    constructor <;>
      simp [State.lane, State.link, State.modLink, State.modLane, State.withdrawLine, State.setLine, this]

theorem takeCause_online {s : State} {n : LinkId} (h : (s.link n).state = .online) (c : Cause) :
    s.takeCause n c = s.beginTeardown n c := by simp [State.takeCause, h]

theorem handOver_hears {s : State} {n : LinkId} {m : Message} (h : (s.link n).hears m.session) :
    s.handOver n m = s.modLink n fun l => l.queued m := by
  obtain ⟨h1, h2, h3⟩ := h
  simp [State.handOver, h1, h2, controlQueueLimit, h3, Link.queued]

theorem handOver_deaf {s : State} {n : LinkId} {m : Message}
    (h : (s.link n).state ≠ .online ∨ (s.link n).session ≠ m.session) : s.handOver n m = s := by
  simp only [State.handOver]
  rw [if_neg]
  rintro ⟨h1, h2⟩
  exact h.elim (fun h => h h1) fun h => h h2

theorem handOver_full {s : State} {n : LinkId} {m : Message} (h1 : (s.link n).state = .online)
    (h2 : (s.link n).session = m.session) (h3 : 72 ≤ (s.link n).ctrlOut.length) :
    s.handOver n m = s.beginTeardown n .lost := by
  simp [State.handOver, h1, h2, controlQueueLimit, Nat.not_lt.mpr h3]

/-! ## Grants and drain ends that do nothing -/

theorem serve_nil {s : State} {i : BitVec 8} (h : s.queue i = []) : s.serve i = s := by
  simp [State.serve, h, State.serveFrom]

theorem examineDrain_live {s : State} {i : BitVec 8} {d : Desc} (h : (s.entry i).state = .live d) :
    s.examineDrain i = s := by simp [State.examineDrain, h]

theorem afterLoss_quiet {s : State} {i : BitVec 8} {d : Desc} (hq : s.queue i = []) (h : (s.entry i).state = .live d) :
    s.afterLoss i = s := by rw [State.afterLoss, serve_nil hq, examineDrain_live h]

/-! ## What follows an event -/

theorem teardownReady_false {s : State} {n : LinkId} (h : (s.link n).state ≠ .teardown) : s.teardownReady n = false := by
  simp [State.teardownReady, h]

theorem finishTeardowns_quiet {s : State} (h : ∀ n, s.teardownReady n = false) (k : Nat) : s.finishTeardowns k = s := by
  cases k with
  | zero => rfl
  | succ k => simp [State.finishTeardowns, allLinks, h]

theorem fillRun_idle {s : State} (h : s.fill.state ≠ .writing) : s.fillRun = s := by
  unfold State.fillRun
  split
  · rfl
  · rename_i j hj
    simp [FillJob.bursts, State.issueBursts, hj, h]

/-- With no link in TEARDOWN and no fill WRITING only the taking of the next command follows. -/
theorem settle_eq_takeNext {s : State} (h1 : ∀ n, (s.link n).state ≠ .teardown) (h2 : s.fill.state ≠ .writing) :
    s.settle = s.takeNext := by
  have e := finishTeardowns_quiet fun n => teardownReady_false (h1 n)
  rw [State.settle, e, fillRun_idle h2, e]

end Sys2Proof.Machine
end

