-- ==== Sys2Proof/Laws/Claims.lean ====
section
/-! SUPPORT. What each shared operation does to the claims: an operation that is not one of the Claim Engine's leaves
every slot and queue alone, and each of the Claim Engine's changes the slots and queues that its lemma names. -/

namespace Sys2Proof.Machine

/-- The claim tables and the wait queues. -/
abbrev ClaimView := Vector (Vector (Option Claim) 16) 6 × Option Claim × Vector (List Client) 256

/-- The claim tables and the wait queues of a state. -/
def State.claimView (s : State) : ClaimView := (s.claims.tables, s.claims.filler, s.claims.queues)

variable (s : State)

theorem claimAt_of_view {s t : State} (h : t.claimView = s.claimView) (c : Client) (k : Fin 16) :
    t.claimAt c k = s.claimAt c k := by
  have h1 : t.claims.tables = s.claims.tables := congrArg Prod.fst h
  have h2 : t.claims.filler = s.claims.filler := congrArg (fun v => v.2.1) h
  cases c <;> simp [State.claimAt, h1, h2]

theorem queue_of_view {s t : State} (h : t.claimView = s.claimView) (i : BitVec 8) : t.queue i = s.queue i := by
  have h3 : t.claims.queues = s.claims.queues := congrArg (fun v => v.2.2) h
  simp [State.queue, h3]

/-! ## Operations that leave the claims alone -/

@[simp] theorem view_setFmi (f : MemoryInterface) : (s.setFmi f).claimView = s.claimView := rfl
@[simp] theorem view_setDraws (d : Nat) : (s.setDraws d).claimView = s.claimView := rfl
@[simp] theorem view_setAlloc (a : Allocator) : (s.setAlloc a).claimView = s.claimView := rfl
@[simp] theorem view_modEntry (i : BitVec 8) (f : Entry → Entry) : (s.modEntry i f).claimView = s.claimView := rfl
@[simp] theorem view_modLink (n : LinkId) (f : Link → Link) : (s.modLink n f).claimView = s.claimView := rfl
@[simp] theorem view_modLane (n : LinkId) (f : Lane → Lane) : (s.modLane n f).claimView = s.claimView := rfl
@[simp] theorem view_modFaults (n : LinkId) (f : LinkFaults → LinkFaults) :
    (s.modFaults n f).claimView = s.claimView := rfl
@[simp] theorem view_modPart (i : BitVec 8) (f : Option ChangePart → Option ChangePart) :
    (s.modPart i f).claimView = s.claimView := rfl
@[simp] theorem view_setRecords (q : List FaultRecord) : (s.setRecords q).claimView = s.claimView := rfl
@[simp] theorem view_setLine (l : List LineEntry) : (s.setLine l).claimView = s.claimView := rfl
@[simp] theorem view_served (r : Requester) : (s.served r).claimView = s.claimView := rfl
@[simp] theorem view_setStage (st : Stage) : (s.setStage st).claimView = s.claimView := rfl
@[simp] theorem view_modJob (f : FillJob → FillJob) : (s.modJob f).claimView = s.claimView := rfl
@[simp] theorem view_setFillState (st : FillState) : (s.setFillState st).claimView = s.claimView := rfl
@[simp] theorem view_updateEntry (i : BitVec 8) (f : Entry → Entry) : (s.updateEntry i f).claimView = s.claimView := rfl
@[simp] theorem view_startInterval : s.startInterval.claimView = s.claimView := rfl

@[simp] theorem view_post (v : Verdict) (ws : List Word) : (s.post v ws).claimView = s.claimView := by
  unfold State.post; split <;> rfl

@[simp] theorem view_toBackground (h : Handle) : (s.toBackground h).claimView = s.claimView := by
  unfold State.toBackground; split <;> rfl

@[simp] theorem view_postBackground (p : Background → Bool) (v : Verdict) (ws : List Word) :
    (s.postBackground p v ws).claimView = s.claimView := by
  unfold State.postBackground; split <;> rfl

@[simp] theorem view_beginTeardown (n : LinkId) (c : Cause) : (s.beginTeardown n c).claimView = s.claimView := by
  rw [State.beginTeardown, abandonRetry_eq]; rfl

@[simp] theorem view_handOver (n : LinkId) (m : Message) : (s.handOver n m).claimView = s.claimView := by
  simp only [State.handOver]; split
  · split <;> simp
  · rfl

@[simp] theorem view_examineDrain (i : BitVec 8) : (s.examineDrain i).claimView = s.claimView := by
  unfold State.examineDrain; split
  · split <;> rfl
  · rfl

@[simp] theorem view_fillEnd (v : Verdict) : (s.fillEnd v).claimView = s.claimView := by
  unfold State.fillEnd; split
  · rfl
  · dsimp only
    split
    · rw [view_postBackground]; rfl
    · exact (view_postBackground _ _ _ _).trans rfl

@[simp] theorem view_fillDrained (k : ReleaseKind) : (s.fillDrained k).claimView = s.claimView := by
  unfold State.fillDrained; split <;> simp

@[simp] theorem view_fillGranted : s.fillGranted.claimView = s.claimView := by
  unfold State.fillGranted; split <;> rfl

@[simp] theorem view_settleChanges (cl : Claim) (k : ReleaseKind) : (s.settleChanges cl k).claimView = s.claimView := by
  unfold State.settleChanges; split
  · rfl
  · split <;> rfl

@[simp] theorem view_reportDrain (c : Client) (k : Fin 16) (cl : Claim) (kind : ReleaseKind) :
    (s.reportDrain c k cl kind).claimView = s.claimView := by
  cases c with
  | fill => simp [State.reportDrain]
  | link n => cases kind <;> simp [State.reportDrain]

@[simp] theorem view_reportFill (c : Client) (kind : ReleaseKind) : (s.reportFill c kind).claimView = s.claimView := by
  cases c <;> simp [State.reportFill]

/-! ## Finding a claim -/

/-- The claim that `findClaim` finds stands in the slot it gives, on the entry asked for, and the slot exists. -/
theorem findClaim_at {s : State} {c : Client} {i : BitVec 8} {k : Fin 16} {cl : Claim}
    (h : s.findClaim c i = some (k, cl)) :
    s.claimAt c k = some cl ∧ cl.handle.index = i ∧ slotExists c k = true := by
  unfold State.findClaim at h
  obtain ⟨j, _, hj⟩ := List.exists_of_findSome?_eq_some h
  split at hj
  · rename_i cl' he
    split at hj
    · rename_i hi
      simp only [Option.some.injEq, Prod.mk.injEq] at hj
      obtain ⟨rfl, rfl⟩ := hj
      refine ⟨he, hi, ?_⟩
      cases c with
      | link n => rfl
      | fill =>
        by_cases e : j = 0
        · simp [slotExists, e]
        · simp [State.claimAt, e] at he
    · cases hj
  · cases hj

theorem findClaim_of_view {s t : State} (h : t.claimView = s.claimView) (c : Client) (i : BitVec 8) :
    t.findClaim c i = s.findClaim c i := by
  unfold State.findClaim
  congr 1
  funext k
  rw [claimAt_of_view h]

/-- What a client's claim on an entry is depends on that client's slots only. -/
theorem findClaim_congr {s t : State} {c : Client} (h : ∀ k, t.claimAt c k = s.claimAt c k) (i : BitVec 8) :
    t.findClaim c i = s.findClaim c i := by
  unfold State.findClaim
  congr 1
  funext k
  rw [h]

theorem claimAt_modClaim {c : Client} {k : Fin 16} {f : Claim → Claim} {cl : Claim} {s : State}
    (h : s.claimAt c k = some cl) : (s.modClaim c k f).claimAt c k = some (f cl) := by
  have hk : slotExists c k = true := by
    cases c with
    | link n => rfl
    | fill =>
      by_cases e : k = 0
      · simp [slotExists, e]
      · simp [State.claimAt, e] at h
  simp only [State.modClaim, h]
  exact setClaim_self s c k _ hk

theorem claimAt_modClaim_other {c c' : Client} {k k' : Fin 16} (f : Claim → Claim) (h : ¬(c' = c ∧ k' = k)) :
    (s.modClaim c k f).claimAt c' k' = s.claimAt c' k' := by
  unfold State.modClaim
  split
  · rfl
  · exact setClaim_other s _ h

/-! ## Drain ends -/

/-- A drain end empties the slot of a RELEASING claim and leaves every other slot alone. -/
theorem finishDrain_claimAt {c : Client} {k : Fin 16} {cl : Claim} {kind : ReleaseKind} {s : State}
    (h : s.claimAt c k = some cl) (hk : cl.state = .releasing kind) (hs : slotExists c k = true) (c' : Client)
    (k' : Fin 16) :
    (s.finishDrain c k).claimAt c' k' = if c' = c ∧ k' = k then none else s.claimAt c' k' := by
  simp only [State.finishDrain, h, hk]
  rw [claimAt_of_view (view_reportDrain _ _ _ _ _)]
  split
  · rename_i e
    obtain ⟨rfl, rfl⟩ := e
    exact setClaim_self _ _ _ _ hs
  · rename_i e
    rw [setClaim_other _ _ e, claimAt_of_view (view_settleChanges _ _ _)]

theorem finishDrain_queue (c : Client) (k : Fin 16) (i : BitVec 8) : (s.finishDrain c k).queue i = s.queue i := by
  unfold State.finishDrain
  split
  · rfl
  · split
    · rw [queue_of_view (view_reportDrain _ _ _ _ _), setClaim_queue, queue_of_view (view_settleChanges _ _ _)]
    · rfl

/-! ## Grants -/

/-- A grant changes the slot of the claim granted and no other. -/
theorem grant_claimAt {i : BitVec 8} {c c' : Client} {k k' : Fin 16} {cl : Claim} (h : ¬(c' = c ∧ k' = k)) :
    (s.grant i c k cl).claimAt c' k' = s.claimAt c' k' := by
  cases c with
  | fill =>
    simp only [State.grant]
    rw [claimAt_of_view (view_fillGranted _), setClaim_other _ _ h, modQueue_claimAt]
  | link n =>
    simp only [State.grant]
    rw [claimAt_of_view (view_handOver _ _ _), setClaim_other _ _ h, modQueue_claimAt]

/-- Serving a queue changes only slots whose claim is on that entry and whose client waits there. -/
theorem serveFrom_claimAt (i : BitVec 8) (q : List Client) {c : Client} {k : Fin 16}
    (h : c ∉ q ∨ (∀ cl, s.claimAt c k = some cl → cl.handle.index ≠ i)) :
    (s.serveFrom i q).claimAt c k = s.claimAt c k := by
  induction q generalizing s with
  | nil => rfl
  | cons d rest ih =>
    simp only [State.serveFrom]
    split
    · rfl
    · rename_i k' cl hf
      split
      · have hne : ¬(c = d ∧ k = k') := by
          rintro ⟨rfl, rfl⟩
          obtain ⟨h1, h2, _⟩ := findClaim_at hf
          rcases h with h | h
          · exact h (List.mem_cons_self ..)
          · exact h cl h1 h2
        have e := grant_claimAt s (i := i) (cl := cl) hne
        rw [ih, e]
        rcases h with h | h
        · exact .inl fun m => h (List.mem_cons_of_mem _ m)
        · right; rw [e]; exact h
      · rfl

theorem serve_claimAt (i : BitVec 8) {c : Client} {k : Fin 16}
    (h : c ∉ s.queue i ∨ (∀ cl, s.claimAt c k = some cl → cl.handle.index ≠ i)) :
    (s.serve i).claimAt c k = s.claimAt c k := serveFrom_claimAt s i _ h

theorem afterLoss_claimAt (i : BitVec 8) {c : Client} {k : Fin 16}
    (h : c ∉ s.queue i ∨ (∀ cl, s.claimAt c k = some cl → cl.handle.index ≠ i)) :
    (s.afterLoss i).claimAt c k = s.claimAt c k := by
  rw [State.afterLoss, claimAt_of_view (view_examineDrain _ _), serve_claimAt _ _ h]

/-! ## Revocation -/

/-- The revocation of waiting claims at one client changes no other client's slots. -/
theorem revokeWaiting_other (i : BitVec 8) (r : Reason) (sel : Client → Claim → Bool) {c d : Client} (h : d ≠ c)
    (k : Fin 16) : (s.revokeWaiting i r sel c).claimAt d k = s.claimAt d k := by
  unfold State.revokeWaiting
  split
  · rfl
  · split
    · dsimp only
      split
      · rw [claimAt_of_view (view_fillEnd _ _), State.dropWaiting, setClaim_other _ _ fun e => h e.1, modQueue_claimAt]
      · rw [claimAt_of_view (view_handOver _ _ _), State.dropWaiting, setClaim_other _ _ fun e => h e.1,
          modQueue_claimAt]
    · rfl

/-- A client's queue places only go. -/
theorem revokeWaiting_queue (i : BitVec 8) (r : Reason) (sel : Client → Claim → Bool) (c d : Client)
    (h : d ∉ s.queue i) : d ∉ (s.revokeWaiting i r sel c).queue i := by
  unfold State.revokeWaiting
  split
  · exact h
  · split
    · dsimp only
      split
      · rw [queue_of_view (view_fillEnd _ _), State.dropWaiting, setClaim_queue, modQueue_self]
        exact fun m => h (List.mem_of_mem_erase m)
      · rw [queue_of_view (view_handOver _ _ _), State.dropWaiting, setClaim_queue, modQueue_self]
        exact fun m => h (List.mem_of_mem_erase m)
    · exact h

/-- A selected WAITING claim is removed; any other claim of the client stays. -/
theorem revokeWaiting_self (i : BitVec 8) (r : Reason) (sel : Client → Claim → Bool) {c : Client} {k : Fin 16}
    {cl : Claim} {s : State} (h : s.findClaim c i = some (k, cl)) :
    (cl.state = .waiting → sel c cl = true → (s.revokeWaiting i r sel c).claimAt c k = none) ∧
      (¬(cl.state = .waiting ∧ sel c cl = true) → s.revokeWaiting i r sel c = s) := by
  obtain ⟨_, _, h3⟩ := findClaim_at h
  constructor
  · intro hw hsel
    simp only [State.revokeWaiting, h, hw, hsel, and_self, if_true]
    split
    · rw [claimAt_of_view (view_fillEnd _ _), State.dropWaiting, setClaim_self _ _ _ _ h3]
    · rw [claimAt_of_view (view_handOver _ _ _), State.dropWaiting, setClaim_self _ _ _ _ h3]
  · intro hn
    simp only [State.revokeWaiting, h]
    exact if_neg hn

/-- The revocation of held claims at one client changes no other client's slots. -/
theorem revokeHeld_other (i : BitVec 8) (r : Reason) (sel : Client → Claim → Bool) {c d : Client} (h : d ≠ c)
    (k : Fin 16) : (s.revokeHeld i r sel c).claimAt d k = s.claimAt d k := by
  unfold State.revokeHeld
  split
  · rfl
  · rename_i k' cl hf
    obtain ⟨_, _, h3⟩ := findClaim_at hf
    split
    · dsimp only
      split
      · rw [finishDrain_claimAt (setClaim_self _ _ _ _ h3) rfl h3, if_neg fun e => h e.1,
          setClaim_other _ _ fun e => h e.1]
      · rw [setClaim_other _ _ fun e => h e.1]
    · rfl

theorem revokeHeld_queue (i : BitVec 8) (r : Reason) (sel : Client → Claim → Bool) (c : Client) (j : BitVec 8) :
    (s.revokeHeld i r sel c).queue j = s.queue j := by
  unfold State.revokeHeld
  split
  · rfl
  · split
    · dsimp only
      split
      · rw [finishDrain_queue, setClaim_queue]
      · rw [setClaim_queue]
    · rfl

/-- A selected HELD claim becomes RELEASING, or goes when nothing is outstanding; any other claim stays. -/
theorem revokeHeld_self (i : BitVec 8) (r : Reason) (sel : Client → Claim → Bool) {c : Client} {k : Fin 16}
    {cl : Claim} {s : State} (h : s.findClaim c i = some (k, cl)) :
    (cl.state = .held → sel c cl = true → (s.revokeHeld i r sel c).claimAt c k =
        if cl.outstanding = 0 then none else some { cl with state := .releasing (.revoked r) }) ∧
      (¬(cl.state = .held ∧ sel c cl = true) → s.revokeHeld i r sel c = s) := by
  obtain ⟨_, _, h3⟩ := findClaim_at h
  constructor
  · intro hw hsel
    simp only [State.revokeHeld, h, hw, hsel, and_self, if_true]
    split
    · rw [finishDrain_claimAt (setClaim_self _ _ _ _ h3) rfl h3]; simp
    · rw [setClaim_self _ _ _ _ h3]
  · intro hn
    simp only [State.revokeHeld, h]
    exact if_neg hn

theorem findClaim_none_revokeHeld (i : BitVec 8) (r : Reason) (sel : Client → Claim → Bool) {c : Client} {s : State}
    (h : s.findClaim c i = none) : s.revokeHeld i r sel c = s := by simp [State.revokeHeld, h]

/-- An operation made once for each client acts on a client's slots only at that client's turn. -/
theorem foldl_clients_other (op : State → Client → State)
    (h : ∀ s c d k, d ≠ c → (op s c).claimAt d k = s.claimAt d k) (l : List Client) {d : Client} (hd : d ∉ l)
    (k : Fin 16) : (l.foldl op s).claimAt d k = s.claimAt d k := by
  induction l generalizing s with
  | nil => rfl
  | cons c rest ih =>
    rw [List.foldl_cons, ih _ fun m => hd (List.mem_cons_of_mem _ m)]
    exact h _ _ _ _ fun e => hd (e ▸ List.mem_cons_self ..)

/-- What a fold over clients makes of one client's slots is what that client's turn makes of them. -/
theorem foldl_clients_at (op : State → Client → State)
    (h : ∀ s c d k, d ≠ c → (op s c).claimAt d k = s.claimAt d k) {l : List Client} (hn : l.Nodup) {d : Client}
    (hd : d ∈ l) (P : (Fin 16 → Option Claim) → Prop)
    (hop : ∀ t : State, (∀ k, t.claimAt d k = s.claimAt d k) → P fun k => (op t d).claimAt d k) :
    P fun k => (l.foldl op s).claimAt d k := by
  obtain ⟨a, b, rfl⟩ := List.append_of_mem hd
  have hn' := List.nodup_append.mp hn
  have ha : d ∉ a := fun m => hn'.2.2 _ m _ (List.mem_cons_self ..) rfl
  have hb : d ∉ b := (List.nodup_cons.mp hn'.2.1).1
  rw [List.foldl_append, List.foldl_cons]
  have e : (fun k => (b.foldl op (op (a.foldl op s) d)).claimAt d k) =
      fun k => (op (a.foldl op s) d).claimAt d k := by
    funext k; exact foldl_clients_other _ op h b hb k
  rw [e]
  exact hop _ fun k => foldl_clients_other s op h a ha k

theorem allClients_nodup : allClients.Nodup := by decide

theorem mem_allClients (c : Client) : c ∈ allClients := by
  cases c with
  | fill => exact List.mem_cons_self ..
  | link n => exact List.mem_cons_of_mem _ (List.mem_map_of_mem (by revert n; decide))

/-- What a revocation leaves of each claim on the surface (R44, R45). -/
theorem revoke_slots (i : BitVec 8) (r : Reason) (sel : Client → Claim → Bool) :
    revokesSlots s (s.revoke i r sel) i r sel := by
  intro c k cl hf
  obtain ⟨hat, hidx, hex⟩ := findClaim_at hf
  have hw : ∀ s c d k, d ≠ c → (State.revokeWaiting i r sel s c).claimAt d k = s.claimAt d k :=
    fun s c d k h => revokeWaiting_other s i r sel h k
  have hh : ∀ s c d k, d ≠ c → (State.revokeHeld i r sel s c).claimAt d k = s.claimAt d k :=
    fun s c d k h => revokeHeld_other s i r sel h k
  have qw : ∀ (l : List Client) (t : State), c ∉ t.queue i → c ∉ (l.foldl (State.revokeWaiting i r sel) t).queue i := by
    intro l
    induction l with
    | nil => intro t h; exact h
    | cons a rest ih => intro t h; exact ih _ (revokeWaiting_queue t i r sel a c h)
  have qh : ∀ (l : List Client) (t : State), (l.foldl (State.revokeHeld i r sel) t).queue i = t.queue i := by
    intro l
    induction l with
    | nil => intro t; rfl
    | cons a rest ih => intro t; rw [List.foldl_cons, ih, revokeHeld_queue]
  let t := allClients.foldl (State.revokeWaiting i r sel) s
  let u := allClients.foldl (State.revokeHeld i r sel) t
  have hu : (s.revoke i r sel).claimAt c k = (u.afterLoss i).claimAt c k := by
    unfold State.revoke; dsimp only
    split
    · exact claimAt_of_view (view_fillDrained _ _) c k
    · rfl
  constructor
  · intro hwait hsel
    have ht : t.claimAt c k = none :=
      foldl_clients_at s _ hw allClients_nodup (mem_allClients c) (fun f => f k = none) fun t' ht' => by
        have hf' : t'.findClaim c i = some (k, cl) := by rw [findClaim_congr ht' i, hf]
        exact (revokeWaiting_self i r sel hf').1 hwait hsel
    have hu0 : u.claimAt c k = none :=
      foldl_clients_at t _ hh allClients_nodup (mem_allClients c) (fun f => f k = none) fun t' ht' => by
        have hn : t'.claimAt c k = none := by rw [ht', ht]
        show (t'.revokeHeld i r sel c).claimAt c k = none
        cases hf' : t'.findClaim c i with
        | none => rw [findClaim_none_revokeHeld i r sel hf', hn]
        | some p =>
          obtain ⟨k', cl'⟩ := p
          obtain ⟨h1, _, h3⟩ := findClaim_at hf'
          have hne : k ≠ k' := fun e => by rw [e, h1] at hn; cases hn
          simp only [State.revokeHeld, hf']
          split
          · split
            · rw [finishDrain_claimAt (setClaim_self _ _ _ _ h3) rfl h3, if_neg fun e => hne e.2,
                setClaim_other _ _ fun e => hne e.2, hn]
            · rw [setClaim_other _ _ fun e => hne e.2, hn]
          · exact hn
    rw [hu, afterLoss_claimAt u i (.inr fun cl' h => by rw [hu0] at h; cases h), hu0]
  · intro hq
    have hq' : c ∉ u.queue i := by rw [qh]; exact qw _ _ hq
    have after : ∀ v, u.claimAt c k = v → (s.revoke i r sel).claimAt c k = v := by
      intro v h; rw [hu, afterLoss_claimAt u i (.inl hq'), h]
    have keepW : ¬(cl.state = .waiting ∧ sel c cl = true) → ∀ j, t.claimAt c j = s.claimAt c j := by
      intro hn j
      exact foldl_clients_at s _ hw allClients_nodup (mem_allClients c) (fun f => f j = s.claimAt c j) fun t' ht' => by
        have hf' : t'.findClaim c i = some (k, cl) := by rw [findClaim_congr ht' i, hf]
        show (State.revokeWaiting i r sel t' c).claimAt c j = _
        rw [(revokeWaiting_self i r sel hf').2 hn, ht']
    constructor
    · intro hheld hsel
      apply after
      have ht := keepW fun h => by rw [hheld] at h; cases h.1
      exact foldl_clients_at t _ hh allClients_nodup (mem_allClients c)
        (fun f => f k = if cl.outstanding = 0 then none else some { cl with state := .releasing (.revoked r) })
        fun t' ht' => by
          have hf' : t'.findClaim c i = some (k, cl) := by
            rw [findClaim_congr (fun j => (ht' j).trans (ht j)) i, hf]
          exact (revokeHeld_self i r sel hf').1 hheld hsel
    · intro h
      apply after
      have ht := keepW fun e => by
        rcases h with h | ⟨kind, h⟩
        · rw [h] at e; cases e.2
        · rw [h] at e; cases e.1
      exact foldl_clients_at t _ hh allClients_nodup (mem_allClients c) (fun f => f k = some cl) fun t' ht' => by
        have hf' : t'.findClaim c i = some (k, cl) := by
          rw [findClaim_congr (fun j => (ht' j).trans (ht j)) i, hf]
        show (State.revokeHeld i r sel t' c).claimAt c k = _
        rw [(revokeHeld_self i r sel hf').2 (fun e => by
          rcases h with h | ⟨kind, h⟩
          · rw [h] at e; cases e.2
          · rw [h] at e; cases e.1), ht', ht, hat]

end Sys2Proof.Machine
end

