-- ==== Sys2Proof/Laws/Ends.lean ====
section
/-! SUPPORT. What the ends of claims come to: the service of a queue, a drain end that may be due, the end of a fill. -/

namespace Sys2Proof.Machine

variable (s : State)

theorem mem_allSlots (k : Fin 16) : k ∈ allSlots := by revert k; decide

/-! ## Change parts -/

theorem tear_eq (p : ChangePart) : p.tear = { p with torn := p.torn ||| p.pending, pending := 0 } := by
  unfold ChangePart.tear
  split
  · rename_i h; cases p; simp_all
  · rfl

@[simp] theorem ended_handle (p : ChangePart) (m : Mode) (k : ReleaseKind) : (p.ended m k).handle = p.handle := by
  unfold ChangePart.ended
  split
  · rfl
  · split <;> rfl

/-- The change part that a handle names is that of its entry. -/
theorem partOf_eq_some {s : State} {h : Handle} {p : ChangePart} (e : s.partOf h = some p) :
    s.part h.index = some p ∧ p.handle = h := by
  unfold State.partOf at e
  split at e
  · rename_i q hq
    split at e
    · cases e; exact ⟨hq, ‹_›⟩
    · cases e
  · cases e

@[simp] theorem modPart_part (i : BitVec 8) (f : Option ChangePart → Option ChangePart) :
    (s.modPart i f).part i = f (s.part i) := by simp [State.modPart, State.part]

/-! ## Drain ends that may be due -/

theorem examineDrain_eq (i : BitVec 8) : s.examineDrain i = s.drainLooked i := by
  unfold State.examineDrain State.drainLooked
  split <;> simp_all

/-- A surface with a claim has no drain end due. -/
theorem drainLooked_claimed {s : State} {i : BitVec 8} (h : s.hasClaim i = true) : s.drainLooked i = s := by
  unfold State.drainLooked
  split
  · simp [h]
  · rfl

/-- A slot with a claim on a surface gives the surface a claim. -/
theorem hasClaim_of_claimAt {s : State} {c : Client} {k : Fin 16} {cl : Claim} (h : s.claimAt c k = some cl) :
    s.hasClaim cl.handle.index = true := by
  refine List.any_eq_true.mpr ⟨c, mem_allClients c, ?_⟩
  unfold State.findClaim
  rw [List.findSome?_isSome_iff]
  exact ⟨k, mem_allSlots k, by simp [h]⟩

theorem drainLooked_keeps (i : BitVec 8) : (s.drainLooked i).fill = s.fill ∧
    (s.drainLooked i).cmd.background = s.cmd.background ∧ (s.drainLooked i).tracker = s.tracker := by
  unfold State.drainLooked
  split
  · split <;> exact ⟨rfl, rfl, rfl⟩
  · exact ⟨rfl, rfl, rfl⟩

/-! ## The service of a queue (R36) -/

@[simp] theorem modQueue_queue (i : BitVec 8) (f : List Client → List Client) :
    (s.modQueue i f).queue i = f (s.queue i) := by simp [State.modQueue, State.queue]

theorem grant_queue (i : BitVec 8) (c : Client) (k : Fin 16) (cl : Claim) :
    (s.grant i c k cl).queue i = (s.queue i).tail := by
  cases c with
  | fill =>
    simp only [State.grant]
    rw [queue_of_view (view_fillGranted _), setClaim_queue, modQueue_queue]
  | link n =>
    simp only [State.grant]
    rw [queue_of_view (view_handOver _ n _), setClaim_queue, modQueue_queue]

/-- A head that is not compatible waits on. -/
theorem serve_stops {s : State} {i : BitVec 8} {c : Client} {rest : List Client} {k : Fin 16} {cl : Claim}
    (hq : s.queue i = c :: rest) (hc : s.findClaim c i = some (k, cl)) (h : s.compatible i cl.mode = false) :
    s.serve i = s := by simp [State.serve, hq, State.serveFrom, hc, h]

/-- A compatible head is granted and the service goes on. -/
theorem serve_grants {s : State} {i : BitVec 8} {c : Client} {rest : List Client} {k : Fin 16} {cl : Claim}
    (hq : s.queue i = c :: rest) (hc : s.findClaim c i = some (k, cl)) (h : s.compatible i cl.mode = true) :
    s.serve i = (s.grant i c k cl).serve i := by
  have e : (s.grant i c k cl).queue i = rest := by rw [grant_queue, hq]; rfl
  rw [State.serve, State.serve, hq, e]
  simp [State.serveFrom, hc, h]

theorem grant_link_keeps (i : BitVec 8) (n : LinkId) (k : Fin 16) (cl : Claim) :
    (s.grant i (.link n) k cl).claims.filler = s.claims.filler ∧ (s.grant i (.link n) k cl).fill = s.fill ∧
      (s.grant i (.link n) k cl).cmd.background = s.cmd.background ∧
      (s.grant i (.link n) k cl).tracker = s.tracker := by
  simp only [State.grant, State.handOver]
  split
  · split
    · exact ⟨rfl, rfl, rfl, rfl⟩
    · rw [State.beginTeardown, abandonRetry_eq]
      refine ⟨rfl, rfl, ?_, rfl⟩
      split
      · split <;> rfl
      · rfl
  · exact ⟨rfl, rfl, rfl, rfl⟩

/-- With no claim of the fill engine, a service leaves the engine, the background commands and the change parts. -/
theorem serve_keeps {s : State} (i : BitVec 8) (h : s.claims.filler = none) : (s.serve i).fill = s.fill ∧
    (s.serve i).cmd.background = s.cmd.background ∧ (s.serve i).tracker = s.tracker := by
  have key : ∀ (q : List Client) (s : State), s.claims.filler = none → (s.serveFrom i q).fill = s.fill ∧
      (s.serveFrom i q).cmd.background = s.cmd.background ∧ (s.serveFrom i q).tracker = s.tracker := by
    intro q
    induction q with
    | nil => intro s _; simp [State.serveFrom]
    | cons c rest ih =>
      intro s h
      simp only [State.serveFrom]
      split
      · simp
      · rename_i k cl hf
        split
        · cases c with
          | fill => simp [State.findClaim, State.claimAt, h, allSlots] at hf
          | link n =>
            obtain ⟨e1, e2, e3, e4⟩ := grant_link_keeps s i n k cl
            have e := ih _ (e1.trans h)
            rwa [e2, e3, e4] at e
        · simp
  exact key _ _ h

/-! ## The end of a fill (R144, R146) -/

/-- A fill whose surface has a change part ends with rows done as they stand. -/
theorem fillEnd_over {s : State} {j : FillJob} {p : ChangePart} {b : Background} (hj : s.fill.job = some j)
    (hp : s.partOf j.handle = some p) (hb : s.cmd.background.find? (fun b => b.kind == 9) = some b) (v : Verdict) :
    s.fillEnd v = s.fillOver b v s.fill.rowsDone p := by
  have hh := (partOf_eq_some hp).2
  unfold State.fillEnd
  simp only [hj, hp, State.postBackground, hb]
  simp only [State.fillOver, CommandEngine.filled, hh, handleCode]
  congr
  simp only [ChangePart.tornFlag, place]
  by_cases h : p.torn = 0
  · simp [h, bit]
  · have e : (p.torn != 0) = true := by simpa using h
    rw [e, if_neg h]; rfl

theorem fillDrained_over {s : State} {j : FillJob} {p : ChangePart} {b : Background} (hj : s.fill.job = some j)
    (hp : s.partOf j.handle = some p) (hb : s.cmd.background.find? (fun b => b.kind == 9) = some b) (k : ReleaseKind) :
    s.fillDrained k = s.fillOver b (fillOutcome j k) s.fill.rowsDone p := by
  simp only [State.fillDrained, hj]
  rw [fillEnd_over hj hp hb]
  rfl

/-- The drain end of the fill engine's RELEASING claim with nothing outstanding. -/
theorem drainIfDone_fill {s : State} {cl : Claim} {j : FillJob} {p : ChangePart} {b : Background} {kind : ReleaseKind}
    (hf : s.claims.filler = some cl) (hj : s.fill.job = some j) (hh : cl.handle = j.handle)
    (hp : s.partOf j.handle = some p) (hb : s.cmd.background.find? (fun b => b.kind == 9) = some b)
    (hs : cl.state = .releasing kind) (h0 : cl.outstanding = 0) :
    s.drainIfDone .fill 0 = s.fillClosed j b kind s.fill.rowsDone (p.ended cl.mode kind) := by
  obtain ⟨hpi, hph⟩ := partOf_eq_some hp
  have ei : cl.handle.index = j.handle.index := by rw [hh]
  have hself : s.tracker.parts.set j.handle.index.toNat (some p) j.handle.index.isLt = s.tracker.parts := by
    rw [← show s.tracker.parts[j.handle.index.toNat]'j.handle.index.isLt = some p from hpi]; simp
  have hset : (s.settleChanges cl kind).setClaim .fill 0 none = { s.unclaimed with
      tracker := ⟨s.tracker.parts.set j.handle.index.toNat (some (p.ended cl.mode kind)) j.handle.index.isLt⟩ } := by
    cases kind
    case publish =>
      simp [State.settleChanges, State.setClaim, ChangePart.ended, State.modPart, ei, hpi, State.unclaimed,
        ChangePart.publish]
    all_goals
      simp only [State.settleChanges, ei, ChangePart.ended]
      by_cases hw : cl.mode = .write
      · rw [if_pos hw, if_pos hw]
        simp [State.setClaim, State.modPart, hpi, State.unclaimed, tear_eq]
      · rw [if_neg hw, if_neg hw]
        simp [State.setClaim, State.unclaimed, hself]
  have e : s.drainIfDone .fill 0 =
      (((s.settleChanges cl kind).setClaim .fill 0 none).afterLoss j.handle.index).fillDrained kind := by
    simp [State.drainIfDone, State.claimAt, hf, hs, h0, State.finishDrain, State.reportDrain, State.reportFill, hh]
  rw [e, hset, State.afterLoss, examineDrain_eq]
  unfold State.fillClosed
  generalize ht : ({ s.unclaimed with tracker :=
    ⟨s.tracker.parts.set j.handle.index.toNat (some (p.ended cl.mode kind)) j.handle.index.isLt⟩ } : State) = t
  obtain ⟨a1, a2, a3⟩ := serve_keeps (s := t) j.handle.index (by rw [← ht]; rfl)
  obtain ⟨b1, b2, b3⟩ := drainLooked_keeps (t.serve j.handle.index) j.handle.index
  rw [fillDrained_over (j := j) (b := b) (p := p.ended cl.mode kind)]
  · rw [b1, a1, ← ht]; rfl
  · rw [b1, a1, ← ht]; exact hj
  · unfold State.partOf State.part
    rw [b3, a3]
    simp [← ht, hph]
  · rw [b2, a2, ← ht]; exact hb

end Sys2Proof.Machine
end

