-- ==== Sys2Proof/Laws/Issue.lean ====
section
/-! SUPPORT. What issuing transactions comes to: the acceptance of a link's burst (R113) and the issue of a fill's
bursts (R142). -/

namespace Sys2Proof.Machine

/-! ## Transactions -/

@[simp] theorem cellsFrom_snd (a : Nat) (l : List Byte) : (cellsFrom a l).map Prod.snd = l := by
  induction l generalizing a with
  | nil => rfl
  | cons v r ih => simp [cellsFrom, ih]

@[simp] theorem cellsFrom_length (a : Nat) (l : List Byte) : (cellsFrom a l).length = l.length := by
  induction l generalizing a with
  | nil => rfl
  | cons v r ih => simp [cellsFrom, ih]

/-- A write's transactions: one for each part, numbered on, each with its bytes of the data. -/
theorem issueParts_write (o : Owner) (parts : List (Nat × Nat)) : ∀ (data : List Byte) (f : MemoryInterface),
    (parts.map Prod.snd).sum ≤ data.length →
    ∃ issued : List Txn,
      (issueParts o .write parts data f).2 =
        { f with txns := f.txns ++ issued, nextId := f.nextId + parts.length } ∧
      issued.map (fun x => (x.addr, x.length)) = parts ∧
      issued.map Txn.id = (List.range parts.length).map (fun k => f.nextId + k) ∧
      (∀ x ∈ issued, x.owner = o ∧ x.op = .write (cellsFrom x.addr (x.cells.map Prod.snd)) ∧
        x.cells.length = x.length) ∧
      (issued.flatMap Txn.cells).map Prod.snd = data.take (parts.map Prod.snd).sum ∧
      (issueParts o .write parts data f).1 = (List.range parts.length).map (fun k => ⟨f.nextId + k, .issued⟩) := by
  induction parts with
  | nil => intro data f _; exact ⟨[], by simp [issueParts]⟩
  | cons p rest ih =>
    obtain ⟨a, len⟩ := p
    intro data f h
    simp only [List.map_cons, List.sum_cons] at h
    obtain ⟨iss, h1, h2, h3, h4, h5, h6⟩ :=
      ih (data.drop len) (f.issue o a len (.write (cellsFrom a (data.take len)))) (by simp; omega)
    refine ⟨⟨f.nextId, o, a, len, .write (cellsFrom a (data.take len))⟩ :: iss, ?_, ?_, ?_, ?_, ?_, ?_⟩
    · simp only [issueParts, h1]; simp [MemoryInterface.issue]; omega
    · simp [h2]
    · simp [h3, MemoryInterface.issue, List.range_succ_eq_map, Function.comp_def]; intros; omega
    · intro x hx
      rcases List.mem_cons.mp hx with rfl | hx
      · refine ⟨rfl, ?_, ?_⟩
        · simp [Txn.cells, cellsFrom_snd]
        · simp [Txn.cells, cellsFrom_length]; omega
      · exact h4 x hx
    · simp [Txn.cells, cellsFrom_snd, h5, List.take_add]
    · simp only [issueParts, h6]; simp [MemoryInterface.issue, List.range_succ_eq_map, Function.comp_def]; intros; omega

theorem view_issue_read (f : MemoryInterface) (o a len data) (b : Nat) :
    (f.issue o a len (.read data)).view b = f.view b := by
  simp [MemoryInterface.view, MemoryInterface.issue, Txn.byteAt]

/-- A read's transactions: one for each part, numbered on, each with the bytes that it now returns. -/
theorem issueParts_read (o : Owner) (parts : List (Nat × Nat)) : ∀ (data : List Byte) (f : MemoryInterface),
    ∃ issued : List Txn,
      (issueParts o .read parts data f).2 =
        { f with txns := f.txns ++ issued, nextId := f.nextId + parts.length } ∧
      issued.map (fun x => (x.addr, x.length)) = parts ∧
      issued.map Txn.id = (List.range parts.length).map (fun k => f.nextId + k) ∧
      (∀ x ∈ issued, x.owner = o ∧ x.op = .read (f.readBytes x.addr x.length)) ∧
      (issueParts o .read parts data f).1 = (List.range parts.length).map (fun k => ⟨f.nextId + k, .issued⟩) := by
  induction parts with
  | nil => intro data f; exact ⟨[], by simp [issueParts]⟩
  | cons p rest ih =>
    obtain ⟨a, len⟩ := p
    intro data f
    obtain ⟨iss, h1, h2, h3, h4, h6⟩ := ih (data.drop len) (f.issue o a len (.read (f.readBytes a len)))
    refine ⟨⟨f.nextId, o, a, len, .read (f.readBytes a len)⟩ :: iss, ?_, ?_, ?_, ?_, ?_⟩
    · simp only [issueParts, h1]; simp [MemoryInterface.issue]; omega
    · simp [h2]
    · simp [h3, MemoryInterface.issue, List.range_succ_eq_map, Function.comp_def]; intros; omega
    · intro x hx
      rcases List.mem_cons.mp hx with rfl | hx
      · exact ⟨rfl, rfl⟩
      · refine ⟨(h4 x hx).1, ?_⟩
        rw [(h4 x hx).2]
        simp only [MemoryInterface.readBytes, MemoryInterface.readByte, view_issue_read]
        rfl
    · simp only [issueParts, h6]; simp [MemoryInterface.issue, List.range_succ_eq_map, Function.comp_def]; intros; omega

/-- No more bytes are moved than the span has. -/
theorem spanParts_le (runs : List Run) (o len : Nat) : ((spanParts runs o len).map Prod.snd).sum ≤ len := by
  unfold spanParts
  dsimp only
  split
  · simp
  · split
    · split <;> simp
    · cases blockOf runs (o / 16384) <;> cases blockOf runs (o / 16384 + 1) <;> simp <;> omega

/-! ## A link's burst (R113) -/

/-- The acceptance of the head burst with at least one transaction, and the release of responses after it. -/
theorem accept_accepts {s : State} {n : LinkId} {b : Burst} {rest : List Burst} {c : Copy} {k : Fin 16} {cl : Claim}
    (hq : (s.lane n).accessQ = b :: rest) (hw : (s.lane n).waits) (hc : s.claimAt (.link n) k = some cl)
    (ht : 1 ≤ (c.parts b.y (movedSpan b c).1 (movedSpan b c).2).length) :
    let v := (s.accept n b c k).releaseResponses n
    accepts s v n b rest c k cl ∧ v.links = s.links ∧ v.faults = s.faults ∧ v.cmd = s.cmd ∧ v.pending = s.pending := by
  intro v
  have hspan : b.span c.clip = movedSpan b c := by unfold Burst.span movedSpan; cases b.dir <;> rfl
  generalize hp : c.parts b.y (movedSpan b c).1 (movedSpan b c).2 = parts at ht
  have ht0 : parts.length ≠ 0 := by omega
  generalize hd : b.written s.draws c.format.bpp (movedSpan b c).1 (movedSpan b c).2 = data
  have hdl : data.length = (movedSpan b c).2 * c.format.bpp := by rw [← hd]; simp [Burst.written]
  have hsum : (parts.map Prod.snd).sum ≤ data.length := by rw [hdl, ← hp]; exact spanParts_le _ _ _
  obtain ⟨iss, e1, e2, e3, e4, e5, e6⟩ : ∃ issued : List Txn,
      (issueParts (.lane n b.handle) b.dir parts data s.fmi).2 =
        { s.fmi with txns := s.fmi.txns ++ issued, nextId := s.fmi.nextId + parts.length } ∧
      issued.map (fun x => (x.addr, x.length)) = parts ∧
      issued.map Txn.id = (List.range parts.length).map (fun k => s.fmi.nextId + k) ∧
      (∀ x ∈ issued, x.owner = .lane n b.handle ∧ (b.dir = .read → x.op = .read (s.fmi.readBytes x.addr x.length)) ∧
        (b.dir = .write → x.op = .write (cellsFrom x.addr (x.cells.map Prod.snd)) ∧ x.cells.length = x.length)) ∧
      (b.dir = .write → (issued.flatMap Txn.cells).map Prod.snd = data.take (parts.map Prod.snd).sum) ∧
      (issueParts (.lane n b.handle) b.dir parts data s.fmi).1 =
        (List.range parts.length).map (fun k => ⟨s.fmi.nextId + k, .issued⟩) := by
    cases hb : b.dir with
    | read =>
      obtain ⟨iss, h1, h2, h3, h4, h6⟩ := issueParts_read (.lane n b.handle) parts data s.fmi
      exact ⟨iss, h1, h2, h3, fun x hx => ⟨(h4 x hx).1, fun _ => (h4 x hx).2, fun h => by cases h⟩,
        fun h => by (cases h), h6⟩
    | write =>
      obtain ⟨iss, h1, h2, h3, h4, h5, h6⟩ := issueParts_write (.lane n b.handle) parts data s.fmi hsum
      exact ⟨iss, h1, h2, h3, fun x hx => ⟨(h4 x hx).1, fun h => by (cases h), fun _ => (h4 x hx).2⟩,
        fun _ => h5, h6⟩
  let l' : Lane := { s.lane n with
      accessQ := rest, inFlight := (s.lane n).inFlight + parts.length
      responseQ := (s.lane n).responseQ ++
        [.inFlight b (movedSpan b c).2 ((List.range parts.length).map fun j => ⟨s.fmi.nextId + j, .issued⟩)] }
  let i := b.handle.index
  let e : Entry := { s.entry i with inFlight := (s.entry i).inFlight + parts.length }
  let held : State := s.setClaim (.link n) k (some { cl with outstanding := cl.outstanding + parts.length })
  let fmi : MemoryInterface := { s.fmi with txns := s.fmi.txns ++ iss, nextId := s.fmi.nextId + parts.length }
  let tr : ChangeTracker := if b.dir = .write ∧ 1 ≤ (movedSpan b c).2
    then ⟨s.tracker.parts.set i.toNat ((s.part i).map fun p =>
      { p with pending := p.pending ||| BitVec.twoPow 64 (bandOf c.height b.y) }) i.isLt⟩
    else s.tracker
  let u : State := { held with
    fmi := fmi
    draws := s.draws + bit (b.short c.format.bpp (movedSpan b c).1 (movedSpan b c).2)
    table := { s.table with entries := s.table.entries.set i.toNat e i.isLt }
    tracker := tr
    lanes := s.lanes.set n.val l' }
  have ha : s.accept n b c k = u := by
    unfold State.accept
    dsimp only
    rw [hspan, hp, hd, e1, e6]
    have x1 : ∀ w : State, w.claims = s.claims →
        w.raiseOutstanding (.link n) k parts.length = { w with claims := held.claims } := by
      intro w hw
      have : w.claimAt (.link n) k = some cl := by rw [← hc]; simp [State.claimAt, hw]
      simp [State.raiseOutstanding, State.modClaim, this, State.setClaim, hw, held]
    rw [x1 (State.raise i parts.length (State.setDraws _ (State.setFmi fmi s))) rfl]
    simp only [if_neg ht0]
    have hl : ∀ w : State, w.lanes = s.lanes → w.modLane n (fun l => { l.toResponses (.inFlight b (movedSpan b c).2
        ((List.range parts.length).map fun k => ⟨s.fmi.nextId + k, .issued⟩)) with
          inFlight := l.inFlight + parts.length }) = { w with lanes := s.lanes.set n.val l' } := by
      intro w hw
      have : w.lane n = s.lane n := by simp [State.lane, hw]
      simp [State.modLane, this, hw, Lane.toResponses, l', hq]
    rw [hl]
    · simp only [State.markBand]
      by_cases h : b.dir = .write ∧ 1 ≤ (movedSpan b c).2
      · simp [h.1, h.2, tr, u, held, fmi, i, e, State.modPart, State.raise, State.modEntry, State.setDraws,
          State.setFmi, State.setClaim, ChangePart.mark, oneBand]
        first | rfl | exact ⟨rfl, rfl⟩
      · have : (b.dir == .write && decide (1 ≤ (movedSpan b c).2)) = false := by
          cases hb : b.dir <;> simp_all
        simp [this, h, tr, u, held, fmi, i, e, State.raise, State.modEntry, State.setDraws, State.setFmi,
          State.setClaim]
        rfl
    · simp only [State.markBand]; split <;> rfl
  have hrel : u.releaseResponses n = u := by
    have : (u.lane n) = l' := by simp [u, State.lane]
    unfold State.releaseResponses
    rw [this]
    cases hr : (s.lane n).responseQ with
    | nil => simp [l', hr, State.releaseFrom]
    | cons r rs =>
      cases r with
      | ready a1 a2 a3 => exact absurd hr (hw _ _ _ _)
      | inFlight => simp [l', hr, State.releaseFrom]
  rw [show v = u by simp only [v, ha, hrel]]
  refine ⟨?_, rfl, rfl, rfl, rfl⟩
  unfold accepts
  dsimp only
  rw [hp]
  refine ⟨iss, rfl, e2, e3, e4, ?_, ?_, ?_, ?_, ?_, ?_, ?_, ?_, rfl, rfl, ?_, ?_, rfl, rfl, rfl⟩
  · intro hb o v ho hv
    rw [e5 hb, List.getElem?_take, if_pos ho, ← hd]
    have hlt : o < (movedSpan b c).2 * c.format.bpp := by rw [← hdl]; omega
    simp [Burst.written, hlt, hv]
  · simp [u, i, e, State.entry]
  · intro j hj
    have : b.handle.index.toNat ≠ j.toNat := fun h => hj (BitVec.eq_of_toNat_eq h.symm)
    simp [u, i, State.entry, this]
  · simp [u, held, State.claimAt, State.setClaim]
  · intro c' k' hne
    cases c' with
    | fill => rfl
    | link m =>
      by_cases hm : m = n
      · subst hm
        have : k.val ≠ k'.val := fun h => hne (by rw [Fin.ext h])
        simp [u, held, State.claimAt, State.setClaim, this]
      · have : n.val ≠ m.val := fun h => hm (Fin.ext h.symm)
        simp [u, held, State.claimAt, State.setClaim, this]
  · by_cases h : b.dir = .write ∧ 1 ≤ (movedSpan b c).2
    · rw [if_pos h]; simp [u, tr, i, h, State.part]
    · rw [if_neg h]; simp [u, tr, h, State.part]
  · simp [u, State.lane, l']
  · intro m hm
    have : n.val ≠ m.val := fun h => hm (Fin.ext h.symm)
    simp [u, State.lane, this]
  · intro j hj
    have : b.handle.index.toNat ≠ j.toNat := fun h => hj (BitVec.eq_of_toNat_eq h.symm)
    by_cases h : b.dir = .write ∧ 1 ≤ (movedSpan b c).2
    · simp [u, tr, i, h, State.part, this]
    · simp [u, tr, h, State.part]
  · intro j; exact setClaim_queue s _ _ _ j

/-! ## A fill's bursts (R142) -/

/-- The fill value repeated, its low byte first (R139). -/
theorem fillData_get (value : Word) (bpp w o : Nat) (hb : 1 ≤ bpp ∧ bpp ≤ 4) (h : o < w * bpp) :
    (fillData value bpp w)[o]? = some (value.extractLsb' (8 * (o % bpp)) 8) := by
  unfold fillData
  have hl : ((le32 value).take bpp).length = bpp := by simp [le32]; omega
  have hx : ∀ k, k < bpp → ((le32 value).take bpp)[k]? = some (value.extractLsb' (8 * k) 8) := by
    intro k hk
    have : k = 0 ∨ k = 1 ∨ k = 2 ∨ k = 3 := by omega
    rcases this with rfl | rfl | rfl | rfl <;> simp [le32, hk]
  induction w generalizing o with
  | zero => omega
  | succ w ih =>
    simp only [List.replicate_succ, List.flatten_cons]
    by_cases ho : o < bpp
    · rw [List.getElem?_append_left (by omega), hx _ ho, Nat.mod_eq_of_lt ho]
    · rw [List.getElem?_append_right (by omega), hl, ih (o - bpp) (by rw [Nat.add_mul] at h; omega)]
      congr 3
      rw [Nat.mod_eq_sub_mod (a := o) (by omega)]

theorem fillData_length (value : Word) (bpp w : Nat) (hb : bpp ≤ 4) : (fillData value bpp w).length = w * bpp := by
  simp [fillData, le32, Nat.min_eq_left hb]

/-- The issue of the burst at the job's next position (R142). -/
theorem issueBurst_issues (s : State) (j : FillJob) (cl : Claim) (hj : s.fill.job = some j)
    (hc : s.claims.filler = some cl) : issuesBurst s (s.issueBurst j) j cl := by
  have hbpp : 1 ≤ j.copy.format.bpp ∧ j.copy.format.bpp ≤ 4 := by cases j.copy.format <;> decide
  have hs : j.nextSpan = trim j.copy.clip j.nextX j.nextRow j.burstLength := rfl
  have hle : (j.nextParts.map Prod.snd).sum ≤ (fillData j.value j.copy.format.bpp j.nextSpan.2).length := by
    rw [fillData_length _ _ _ hbpp.2]; exact spanParts_le _ _ _
  obtain ⟨iss, h1, h2, h3, h4, h5, h6⟩ :=
    issueParts_write (.fill j.handle) j.nextParts (fillData j.value j.copy.format.bpp j.nextSpan.2) s.fmi hle
  let i := j.handle.index
  let entry : Entry := { s.entry i with inFlight := (s.entry i).inFlight + j.nextParts.length }
  let fmi : MemoryInterface := { s.fmi with txns := s.fmi.txns ++ iss, nextId := s.fmi.nextId + j.nextParts.length }
  let left : Option FillBurst :=
    if j.nextParts.length = 0 then none else some ⟨j.nextParts.length, decide j.rowEnds⟩
  have e : s.issueBurst j = { s with
      fmi := fmi
      table := { s.table with entries := s.table.entries.set i.toNat entry i.isLt }
      tracker := if 1 ≤ j.nextSpan.2
        then ⟨s.tracker.parts.set i.toNat ((s.part i).map fun p =>
          { p with pending := p.pending ||| BitVec.twoPow 64 (bandOf j.copy.height j.nextRow) }) i.isLt⟩
        else s.tracker
      claims := { s.claims with filler := some { cl with outstanding := cl.outstanding + j.nextParts.length } }
      fill := { s.fill with
        rowsDone := s.fill.rowsDone + if j.nextParts.length = 0 ∧ j.rowEnds then 1 else 0
        job := some { j with
          nextRow := if j.rowEnds then j.nextRow + 1 else j.nextRow
          nextX := if j.rowEnds then j.x else j.nextX + 256
          burst := left } } } := by
    unfold State.issueBurst
    have e2 : (j.copy.parts j.nextRow j.nextSpan.fst j.nextSpan.snd) = j.nextParts := rfl
    rw [← hs]
    dsimp only
    simp only [e2]
    rw [h1]
    have e1 : ∀ u : State, u.claims = s.claims → u.raiseOutstanding .fill 0 j.nextParts.length =
        { u with claims := { s.claims with filler := some { cl with
          outstanding := cl.outstanding + j.nextParts.length } } } := by
      intro u hu; simp [State.raiseOutstanding, State.modClaim, State.claimAt, State.setClaim, hu, hc]
    rw [e1 (State.raise i j.nextParts.length (State.setFmi fmi s)) rfl]
    by_cases hw : 1 ≤ j.nextSpan.2 <;> by_cases ht : j.nextParts.length = 0 <;> by_cases hr : j.rowEnds <;>
      (have hr' := hr
       simp [i, entry, fmi, left, State.raise, State.modEntry, State.setFmi, State.markBand, hw, ht, FillJob.endsRow,
         State.modPart, State.modJob, hj, FillJob.advance, State.rowDone, FillJob.rowEnds] at hr ⊢
       try simp [hr, Nat.not_le.mpr])
    all_goals first | rfl | exact ⟨rfl, rfl⟩
  rw [e]
  refine ⟨iss, rfl, h2, h3, h4, ?_, ?_, ?_, ?_, ?_, rfl⟩
  · intro o ho
    rw [h5, List.getElem?_take, if_pos ho]
    exact fillData_get _ _ _ _ hbpp (Nat.lt_of_lt_of_le ho (spanParts_le _ _ _))
  · simp [State.entry, i, entry]
  · intro k hk
    have : j.handle.index.toNat ≠ k.toNat := fun h => hk (BitVec.eq_of_toNat_eq h.symm)
    simp [State.entry, i, this]
  · by_cases h : 1 ≤ j.nextSpan.2
    · rw [if_pos h]; simp [State.part, i, h]
    · rw [if_neg h]; simp [State.part, h]
  · intro k hk
    have : j.handle.index.toNat ≠ k.toNat := fun h => hk (BitVec.eq_of_toNat_eq h.symm)
    by_cases h : 1 ≤ j.nextSpan.2
    · simp [State.part, i, h, this]
    · simp [State.part, h]

/-- The bursts that a job has left to issue, the one at its next position among them (R142). -/
def FillJob.burstsLeft (j : FillJob) : Nat :=
  if j.nextRow < j.y + j.h
  then (j.y + j.h - 1 - j.nextRow) * ceilDiv j.w 256 + max 1 (ceilDiv (j.x + j.w - j.nextX) 256)
  else 0

/-- The job once the burst at its next position has been issued. -/
abbrev FillJob.nextJob (j : FillJob) : FillJob :=
  { j with
    nextRow := if j.rowEnds then j.nextRow + 1 else j.nextRow
    nextX := if j.rowEnds then j.x else j.nextX + 256
    burst := if j.nextParts.length = 0 then none else some ⟨j.nextParts.length, decide j.rowEnds⟩ }

theorem burstsLeft_next {j : FillJob} (hrow : j.nextRow < j.y + j.h) (hw : 1 ≤ j.w) :
    j.nextJob.burstsLeft + 1 ≤ j.burstsLeft := by
  unfold FillJob.burstsLeft FillJob.nextJob
  dsimp only
  rw [if_pos hrow]
  by_cases hr : j.rowEnds
  · simp only [hr, if_true]
    split
    · rename_i h3
      have : j.y + j.h - 1 - j.nextRow = (j.y + j.h - 1 - (j.nextRow + 1)) + 1 := by omega
      rw [this, Nat.add_mul, Nat.one_mul]
      have : max 1 (ceilDiv (j.x + j.w - j.x) 256) ≤ ceilDiv j.w 256 := by
        simp [ceilDiv]; omega
      omega
    · omega
  · simp only [hr, if_false, if_pos hrow]
    have : max 1 (ceilDiv (j.x + j.w - (j.nextX + 256)) 256) + 1 ≤ max 1 (ceilDiv (j.x + j.w - j.nextX) 256) := by
      simp only [FillJob.rowEnds] at hr
      simp only [ceilDiv]; omega
    omega

theorem burstsLeft_le {j : FillJob} (hrow : j.nextRow < j.y + j.h) (hw : 1 ≤ j.w) (hx : j.x ≤ j.nextX)
    (hy : j.y ≤ j.nextRow) : j.burstsLeft ≤ j.h * ceilDiv j.w 256 := by
  unfold FillJob.burstsLeft
  rw [if_pos hrow]
  have c2 : max 1 (ceilDiv (j.x + j.w - j.nextX) 256) ≤ ceilDiv j.w 256 := by
    simp only [ceilDiv]; omega
  have c3 : (j.y + j.h - 1 - j.nextRow) + 1 ≤ j.h := by omega
  calc _ ≤ (j.y + j.h - 1 - j.nextRow) * ceilDiv j.w 256 + ceilDiv j.w 256 := by omega
    _ = ((j.y + j.h - 1 - j.nextRow) + 1) * ceilDiv j.w 256 := by rw [Nat.add_mul, Nat.one_mul]
    _ ≤ _ := Nat.mul_le_mul_right _ c3

/-- The bound of `issueBursts` makes no difference where it is at least the bursts that are left. -/
theorem issueBursts_bound (f : Nat) : ∀ (s : State) (j : FillJob) (g : Nat), s.fill.job = some j →
    j.burstsLeft ≤ f → j.burstsLeft ≤ g → 1 ≤ j.w → j.x ≤ j.nextX →
    s.issueBursts f = s.issueBursts g := by
  induction f with
  | zero =>
    intro s j g hj h0 _ hw hx
    have : ¬ j.nextRow < j.y + j.h := by
      intro h; simp [FillJob.burstsLeft, h] at h0
    cases g with
    | zero => rfl
    | succ g => simp [State.issueBursts, hj, FillJob.burstLeft, this]
  | succ f ih =>
    intro s j g hj h1 h2 hw hx
    cases g with
    | zero =>
      have : ¬ j.nextRow < j.y + j.h := by
        intro h; simp [FillJob.burstsLeft, h] at h2
      simp [State.issueBursts, hj, FillJob.burstLeft, this]
    | succ g =>
      simp only [State.issueBursts, hj]
      split
      · rfl
      · rename_i hc
        split
        · rfl
        · split
          · rfl
          · split
            · rfl
            · rename_i hl
              simp only [Bool.or_eq_true, not_or] at hc
              have hrow : j.nextRow < j.y + j.h := by simpa [FillJob.burstLeft] using hc.2
              have hany : (s.claims.filler.any fun cl => cl.state == .held) = true := by
                simpa using ‹¬ (Option.any _ _) = false›
              obtain ⟨cl, hcl⟩ : ∃ cl, s.claims.filler = some cl := by
                cases h : s.claims.filler with
                | none => simp [h] at hany
                | some cl => exact ⟨cl, rfl⟩
              obtain ⟨iss, _, _, _, _, _, _, _, _, _, e⟩ := issueBurst_issues s j cl hj hcl
              have hj' : (s.issueBurst j).fill.job = some { j with
                  nextRow := if j.rowEnds then j.nextRow + 1 else j.nextRow
                  nextX := if j.rowEnds then j.x else j.nextX + 256
                  burst := if j.nextParts.length = 0 then none else some ⟨j.nextParts.length, decide j.rowEnds⟩ } := by
                rw [e]
              have hle := burstsLeft_next hrow hw
              refine ih _ j.nextJob g hj' (by omega) (by omega) hw ?_
              dsimp only
              split <;> omega

end Sys2Proof.Machine
end

