-- ==== Sys2Proof/Laws/Memory.lean ====
section
/-! SUPPORT. The laws of the frame memory: what a byte reads as after each memory operation, and that each keeps the
canonical form. -/

namespace Sys2Proof.Machine

variable {m : Memory}

/-- The canonical form, as one relation between any two cells in order. -/
theorem Memory.wf_iff (m : Memory) : m.wf = true ↔ m.Pairwise (fun c d => c.1 < d.1) := by
  induction m with
  | nil => simp [Memory.wf]
  | cons a rest ih =>
    cases rest with
    | nil => simp [Memory.wf]
    | cons b rest =>
      rw [Memory.wf, Bool.and_eq_true, ih, decide_eq_true_eq, List.pairwise_cons (a := a)]
      refine ⟨fun ⟨h, hp⟩ => ⟨fun c hc => ?_, hp⟩, fun ⟨h, hp⟩ => ⟨h b (by simp), hp⟩⟩
      rcases List.mem_cons.1 hc with rfl | hc
      · exact h
      · exact Nat.lt_trans h (List.rel_of_pairwise_cons hp hc)

/-! ## One byte -/

theorem Memory.mem_put {a : Nat} {v : Byte} {c : Host.Cell} (h : c ∈ m.put a v) : c = (a, v) ∨ c ∈ m := by
  induction m with
  | nil => exact .inl (by simpa [Memory.put] using h)
  | cons d rest ih =>
    simp only [Memory.put] at h
    split at h
    · simpa using h
    · split at h
      · rcases List.mem_cons.1 h with h | h
        · exact .inl h
        · exact .inr (List.mem_cons_of_mem _ h)
      · rcases List.mem_cons.1 h with h | h
        · exact .inr (h ▸ List.mem_cons_self)
        · exact (ih h).imp id (List.mem_cons_of_mem _)

/-- Storing a byte keeps the canonical form. -/
theorem Memory.put_wf (h : m.wf = true) (a : Nat) (v : Byte) : (m.put a v).wf = true := by
  rw [Memory.wf_iff] at h ⊢
  induction m with
  | nil => simp [Memory.put]
  | cons d rest ih =>
    have hr := (List.pairwise_cons.1 h)
    simp only [Memory.put]
    split
    · refine List.pairwise_cons.2 ⟨fun c hc => ?_, h⟩
      rcases List.mem_cons.1 hc with rfl | hc
      · assumption
      · exact Nat.lt_trans ‹a < d.1› (hr.1 c hc)
    · split
      · subst a; exact List.pairwise_cons.2 ⟨hr.1, hr.2⟩
      · refine List.pairwise_cons.2 ⟨fun c hc => ?_, ih hr.2⟩
        rcases Memory.mem_put hc with rfl | hc
        · show d.1 < a
          omega
        · exact hr.1 c hc

/-- A byte after one byte is stored. -/
theorem Memory.byte_put (m : Memory) (a b : Nat) (v : Byte) :
    (m.put a v).byte b = if b = a then some v else m.byte b := by
  induction m with
  | nil => simp [Memory.put, Memory.byte, eq_comm]
  | cons d rest ih =>
    simp only [Memory.put]
    split
    · simp [Memory.byte, eq_comm]
    · split
      · subst a
        simp only [Memory.byte]
        by_cases hb : d.1 = b
        · simp [hb]
        · rw [if_neg hb, if_neg hb, if_neg (fun e => hb e.symm)]
      · simp only [Memory.byte, ih]
        by_cases hb : d.1 = b
        · subst hb; rw [if_pos rfl, if_pos rfl, if_neg (by omega)]
        · simp [hb]

/-! ## Cells stored one after another -/

/-- Storing cells keeps the canonical form. -/
theorem Memory.store_wf (h : m.wf = true) (cs : List Host.Cell) : (m.store cs).wf = true := by
  induction cs generalizing m with
  | nil => exact h
  | cons c rest ih => exact ih (Memory.put_wf h c.1 c.2)

/-- A byte outside the stored cells reads as before. -/
theorem Memory.byte_store_outside (m : Memory) (cs : List Host.Cell) (a : Nat) (ha : a ∉ cs.map Prod.fst) :
    (m.store cs).byte a = m.byte a := by
  induction cs generalizing m with
  | nil => rfl
  | cons c rest ih =>
    simp only [List.map_cons, List.mem_cons, not_or] at ha
    show (Memory.store (m.put c.1 c.2) rest).byte a = _
    rw [ih _ ha.2, Memory.byte_put, if_neg ha.1]

theorem Memory.byte_none {cs : Memory} {a : Nat} (h : a ∉ cs.map Prod.fst) : Memory.byte cs a = none := by
  induction cs with
  | nil => rfl
  | cons c rest ih =>
    simp only [List.map_cons, List.mem_cons, not_or] at h
    rw [Memory.byte, if_neg (fun e => h.1 e.symm), ih h.2]

/-- A byte after cells of distinct addresses are stored: the cell's byte where there is one. -/
theorem Memory.byte_store (m : Memory) (cs : List Host.Cell) (hn : (cs.map Prod.fst).Nodup) (a : Nat) :
    (m.store cs).byte a = match Memory.byte cs a with
      | some v => some v
      | none => m.byte a := by
  induction cs generalizing m with
  | nil => rfl
  | cons c rest ih =>
    rw [List.map_cons, List.nodup_cons] at hn
    show (Memory.store (m.put c.1 c.2) rest).byte a = _
    by_cases hc : c.1 = a
    · subst hc
      rw [Memory.byte_store_outside _ rest c.1 hn.1, Memory.byte_put]
      simp [Memory.byte]
    · rw [ih _ hn.2, Memory.byte_put, if_neg (fun e => hc e.symm)]
      simp [Memory.byte, hc]

/-! ## A block of zeros -/

theorem cellsFrom_mem {a : Nat} {l : List Byte} {c : Host.Cell} (h : c ∈ cellsFrom a l) :
    a ≤ c.1 ∧ c.1 < a + l.length := by
  induction l generalizing a with
  | nil => simp [cellsFrom] at h
  | cons v rest ih =>
    rcases List.mem_cons.1 h with rfl | h
    · simp
    · have := ih h; simp only [List.length_cons]; omega

theorem cellsFrom_rising (a : Nat) (l : List Byte) : (cellsFrom a l).Pairwise (fun c d => c.1 < d.1) := by
  induction l generalizing a with
  | nil => exact .nil
  | cons v rest ih => exact List.pairwise_cons.2 ⟨fun c hc => (cellsFrom_mem hc).1, ih (a + 1)⟩

theorem byte_cellsFrom (a : Nat) (l : List Byte) (b : Nat) :
    Memory.byte (cellsFrom a l) b = if a ≤ b then l[b - a]? else none := by
  induction l generalizing a with
  | nil => simp [cellsFrom, Memory.byte]
  | cons v rest ih =>
    rw [cellsFrom, Memory.byte, ih]
    by_cases h : a = b
    · subst h; simp
    · by_cases hl : a ≤ b
      · have : b - a = b - (a + 1) + 1 := by omega
        rw [if_neg h, if_pos (by omega), if_pos hl, this, List.getElem?_cons_succ]
      · rw [if_neg h, if_neg (by omega), if_neg hl]

/-- Zeroing a block keeps the canonical form. -/
theorem Memory.zeroBlock_wf (h : m.wf = true) (a : Nat) : (m.zeroBlock a).wf = true := by
  rw [Memory.wf_iff] at h ⊢
  rw [Memory.zeroBlock, List.pairwise_append, List.pairwise_append]
  refine ⟨⟨h.filter _, cellsFrom_rising _ _, fun c hc d hd => ?_⟩, h.filter _, fun c hc d hd => ?_⟩
  · have := (cellsFrom_mem hd).1
    have : c.1 < a := by simpa using (List.mem_filter.1 hc).2
    omega
  · have hd' : a + 16384 ≤ d.1 := by simpa using (List.mem_filter.1 hd).2
    rcases List.mem_append.1 hc with hc | hc
    · have : c.1 < a := by simpa using (List.mem_filter.1 hc).2
      omega
    · have h' := (cellsFrom_mem hc).2
      rw [List.length_replicate] at h'
      exact Nat.lt_of_lt_of_le h' hd'

theorem Memory.byte_append (m n : Memory) (a : Nat) :
    Memory.byte (m ++ n) a = (Memory.byte m a).or (Memory.byte n a) := by
  induction m with
  | nil => simp [Memory.byte]
  | cons c rest ih =>
    rw [List.cons_append, Memory.byte, Memory.byte, ih]
    split <;> simp

theorem Memory.byte_filter (m : Memory) (p : Nat → Bool) (a : Nat) :
    Memory.byte (m.filter fun c => p c.1) a = if p a then Memory.byte m a else none := by
  induction m with
  | nil => simp [Memory.byte]
  | cons c rest ih =>
    rw [List.filter_cons]
    split
    · rw [Memory.byte, Memory.byte, ih]
      by_cases h : c.1 = a
      · subst h; simp_all
      · simp [h]
    · rw [ih, Memory.byte]
      by_cases h : c.1 = a
      · subst h; simp_all
      · simp [h]

/-- A byte after a block is zeroed (R93). -/
theorem Memory.byte_zeroBlock (m : Memory) (a b : Nat) :
    (m.zeroBlock a).byte b = if a ≤ b ∧ b < a + 16384 then some 0 else m.byte b := by
  rw [Memory.zeroBlock, Memory.byte_append, Memory.byte_append, zeroCells, byte_cellsFrom,
    Memory.byte_filter m (fun x => decide (x < a)), Memory.byte_filter m (fun x => decide (a + 16384 ≤ x)),
    List.getElem?_replicate]
  by_cases h1 : a ≤ b
  · by_cases h2 : b < a + 16384
    · have h3 : b - a < 16384 := by omega
      simp only [decide_eq_true_eq]
      rw [if_neg (by omega), if_pos h1, if_pos h3, if_neg (by omega), if_pos (And.intro h1 h2)]
      rfl
    · have h3 : ¬ b - a < 16384 := by omega
      simp only [decide_eq_true_eq]
      rw [if_neg (by omega), if_pos h1, if_neg h3, if_pos (by omega), if_neg (by omega)]
      rfl
  · simp only [decide_eq_true_eq]
    rw [if_pos (by omega), if_neg h1, if_neg (by omega), if_neg (by omega)]
    cases m.byte b <;> rfl

/-! ## The interface -/

/-- Ending a transaction keeps the canonical form. -/
theorem MemoryInterface.finish_wf {f : MemoryInterface} (h : Memory.wf f.mem = true) (id : Nat) :
    Memory.wf (f.finish id).mem = true := by
  rw [MemoryInterface.finish]
  split
  · exact h
  · split
    · exact h
    · exact Memory.zeroBlock_wf h _
    · exact Memory.store_wf h _

/-- A soft reset's abandoned transactions keep the canonical form, whichever bytes land. -/
theorem MemoryInterface.abandon_wf {f : MemoryInterface} (h : Memory.wf f.mem = true) (draw : Nat) :
    Memory.wf (f.abandon draw).mem = true := by
  rw [MemoryInterface.abandon]
  generalize hm : f.mem = m at h
  clear hm
  induction f.txns generalizing m with
  | nil => exact h
  | cons t rest ih => exact ih _ (Memory.store_wf h _)

/-- Issuing a transaction leaves the contents. -/
@[simp] theorem MemoryInterface.issue_mem (f : MemoryInterface) (o : Owner) (a len : Nat) (op : TxnOp) :
    (f.issue o a len op).mem = f.mem := rfl

/-- The memory after reset is in its canonical form. -/
theorem reset_memory_wf : Memory.wf State.reset.fmi.mem = true := rfl

end Sys2Proof.Machine
end

