-- ==== Sys2Proof/Laws/Revoke.lean ====
section
/-! SUPPORT. What a revocation does (`revoke_revokes`): the claims, the change parts, the links and the fill. -/

namespace Sys2Proof.Machine

/-! ## What a message leaves alone -/

/-- A message handed to link `n` touches that link, its lane, the line and, where it loses the link, the Command Engine;
and no command is abandoned unless a RETRY is being judged. -/
theorem handOver_keeps (s : State) (n : LinkId) (m : Message) :
    (s.handOver n m).tracker = s.tracker ∧ (s.handOver n m).fill = s.fill ∧ (s.handOver n m).faults = s.faults ∧
      (∀ j, j ≠ n → (s.handOver n m).link j = s.link j ∧ (s.handOver n m).lane j = s.lane j) ∧
      ((∀ r k q, s.cmd.executing ≠ some ⟨r, .retrying k q⟩) → (s.handOver n m).cmd = s.cmd) ∧
      ((s.link n).state ≠ .online → s.handOver n m = s) := by
  simp only [State.handOver]
  split
  · rename_i ho
    split
    · exact ⟨rfl, rfl, rfl, fun j h => ⟨modLink_other s _ h, rfl⟩, fun _ => rfl, fun h => absurd ho.1 h⟩
    · obtain ⟨_, _, _, h4, h5, h6⟩ := beginTeardown_begun s n .lost
      refine ⟨by rw [h5], by rw [h5], by rw [h5], fun j h => h4 j h, fun hx => ?_, fun h => absurd ho.1 h⟩
      rw [h6]
      split
      · rename_i r m' q he; exact absurd he (hx r m' q)
      · rfl
  · exact ⟨rfl, rfl, rfl, fun _ _ => ⟨rfl, rfl⟩, fun _ => rfl, fun _ => rfl⟩

theorem part_of_tracker {s t : State} (h : t.tracker = s.tracker) (i : BitVec 8) : t.part i = s.part i := by
  simp [State.part, h]

/-! ## What the end of a fill and an examined drain leave alone -/

theorem fillEnd_keeps (s : State) (v : Verdict) : (s.fillEnd v).tracker = s.tracker ∧
    (s.fillEnd v).faults = s.faults ∧ (s.fillEnd v).links = s.links ∧ (s.fillEnd v).lanes = s.lanes ∧
    (s.fillEnd v).cmd.executing = s.cmd.executing := by
  have hp : ∀ (t : State) p ws, (t.postBackground p v ws).tracker = t.tracker ∧
      (t.postBackground p v ws).faults = t.faults ∧ (t.postBackground p v ws).links = t.links ∧
      (t.postBackground p v ws).lanes = t.lanes ∧ (t.postBackground p v ws).cmd.executing = t.cmd.executing := by
    intro t p ws
    unfold State.postBackground
    split <;> exact ⟨rfl, rfl, rfl, rfl, rfl⟩
  unfold State.fillEnd
  split
  · exact ⟨rfl, rfl, rfl, rfl, rfl⟩
  · dsimp only
    split <;> exact hp _ _ _

theorem fillDrained_keeps (s : State) (k : ReleaseKind) : (s.fillDrained k).tracker = s.tracker ∧
    (s.fillDrained k).faults = s.faults ∧ (s.fillDrained k).links = s.links ∧ (s.fillDrained k).lanes = s.lanes ∧
    (s.fillDrained k).cmd.executing = s.cmd.executing := by
  unfold State.fillDrained
  split
  · exact ⟨rfl, rfl, rfl, rfl, rfl⟩
  · exact fillEnd_keeps _ _

theorem link_of_links {s t : State} (h : t.links = s.links) (n : LinkId) : t.link n = s.link n := by
  simp [State.link, h]

theorem lane_of_lanes {s t : State} (h : t.lanes = s.lanes) (n : LinkId) : t.lane n = s.lane n := by
  simp [State.lane, h]

theorem examineDrain_keeps (s : State) (i : BitVec 8) : (s.examineDrain i).tracker = s.tracker ∧
    (s.examineDrain i).faults = s.faults ∧ (s.examineDrain i).links = s.links ∧ (s.examineDrain i).lanes = s.lanes ∧
    (s.examineDrain i).fill = s.fill ∧ (s.examineDrain i).cmd.executing = s.cmd.executing ∧
    (s.examineDrain i).cmd.background = s.cmd.background ∧
    (s.examineDrain i).cmd.completions = s.cmd.completions := by
  unfold State.examineDrain
  split
  · split <;> exact ⟨rfl, rfl, rfl, rfl, rfl, rfl, rfl, rfl⟩
  · exact ⟨rfl, rfl, rfl, rfl, rfl, rfl, rfl, rfl⟩

/-! ## What serving a queue leaves alone -/

theorem grant_keeps (s : State) (i : BitVec 8) (c : Client) (k : Fin 16) (cl : Claim) :
    (s.grant i c k cl).tracker = s.tracker ∧ (s.grant i c k cl).faults = s.faults ∧
      (c ≠ .fill → (s.grant i c k cl).fill = s.fill) ∧
      (∀ n, c ≠ .link n ∨ (s.link n).state ≠ .online →
        (s.grant i c k cl).link n = s.link n ∧ (s.grant i c k cl).lane n = s.lane n) ∧
      ((∀ r k q, s.cmd.executing ≠ some ⟨r, .retrying k q⟩) → (s.grant i c k cl).cmd = s.cmd) := by
  cases c with
  | fill =>
    have hf : ∀ t : State, t.fillGranted.tracker = t.tracker ∧ t.fillGranted.faults = t.faults ∧
        t.fillGranted.links = t.links ∧ t.fillGranted.lanes = t.lanes ∧ t.fillGranted.cmd = t.cmd := by
      intro t
      unfold State.fillGranted
      split <;> exact ⟨rfl, rfl, rfl, rfl, rfl⟩
    obtain ⟨a, b, d, e, f⟩ := hf ((s.modQueue i List.tail).setClaim .fill k (some cl.granted))
    simp only [State.grant]
    refine ⟨by rw [a]; simp, by rw [b]; simp, fun h => absurd rfl h, fun n _ => ?_, fun _ => by rw [f]; simp⟩
    rw [link_of_links d, lane_of_lanes e]; simp
  | link m =>
    simp only [State.grant]
    generalize hm : State.grantedMessage _ _ _ _ = msg
    obtain ⟨a, b, d, e, f, g⟩ := handOver_keeps ((s.modQueue i List.tail).setClaim (.link m) k (some cl.granted)) m msg
    refine ⟨by rw [a]; simp, by rw [d]; simp, fun _ => by rw [b]; simp, fun n h => ?_, fun hx => ?_⟩
    · by_cases hn : n = m
      · subst hn
        rw [g]
        · simp
        · rcases h with h | h
          · exact absurd rfl h
          · simpa using h
      · have := e n hn; simpa using this
    · rw [f (by simpa using hx)]; simp

/-- What no service of a queue changes, and what it leaves alone of a client that is not granted. -/
theorem serveFrom_keeps (i : BitVec 8) (q : List Client) : ∀ s : State,
    (s.serveFrom i q).tracker = s.tracker ∧ (s.serveFrom i q).faults = s.faults ∧
      (Client.fill ∉ q ∨ s.findClaim .fill i = none → (s.serveFrom i q).fill = s.fill) ∧
      (∀ n, Client.link n ∉ q ∨ s.findClaim (.link n) i = none ∨ (s.link n).state ≠ .online →
        (s.serveFrom i q).link n = s.link n ∧ (s.serveFrom i q).lane n = s.lane n) ∧
      ((∀ r k q, s.cmd.executing ≠ some ⟨r, .retrying k q⟩) → (s.serveFrom i q).cmd = s.cmd) := by
  induction q with
  | nil => exact fun s => ⟨rfl, rfl, fun _ => rfl, fun _ _ => ⟨rfl, rfl⟩, fun _ => rfl⟩
  | cons c rest ih =>
    intro s
    simp only [State.serveFrom]
    split
    · exact ⟨rfl, rfl, fun _ => rfl, fun _ _ => ⟨rfl, rfl⟩, fun _ => rfl⟩
    · rename_i k cl hf
      split
      · obtain ⟨a1, a2, a3, a4, a5⟩ := grant_keeps s i c k cl
        obtain ⟨b1, b2, b3, b4, b5⟩ := ih (s.grant i c k cl)
        have hfind : ∀ d, d ≠ c → (s.grant i c k cl).findClaim d i = s.findClaim d i := fun d hd =>
          findClaim_congr (fun j => grant_claimAt s fun e => hd e.1) i
        refine ⟨b1.trans a1, b2.trans a2, fun h => ?_, fun n h => ?_, fun hx => ?_⟩
        · have hc : c ≠ .fill := by
            rintro rfl
            rcases h with h | h
            · exact h (List.mem_cons_self ..)
            · rw [h] at hf; cases hf
          rw [b3, a3 hc]
          rcases h with h | h
          · exact .inl fun m => h (List.mem_cons_of_mem _ m)
          · exact .inr ((hfind _ (Ne.symm hc)).trans h)
        · have hc : c ≠ .link n ∨ (s.link n).state ≠ .online := by
            rcases h with h | h | h
            · exact .inl fun e => h (e ▸ List.mem_cons_self ..)
            · exact .inl fun e => by rw [e, h] at hf; cases hf
            · exact .inr h
          obtain ⟨e1, e2⟩ := a4 n hc
          have h' : Client.link n ∉ rest ∨ (s.grant i c k cl).findClaim (.link n) i = none ∨
              ((s.grant i c k cl).link n).state ≠ .online := by
            rcases h with h | h | h
            · exact .inl fun m => h (List.mem_cons_of_mem _ m)
            · refine .inr (.inl ((hfind _ ?_).trans h))
              rintro rfl; rw [h] at hf; cases hf
            · exact .inr (.inr (by rw [e1]; exact h))
          obtain ⟨f1, f2⟩ := b4 n h'
          exact ⟨f1.trans e1, f2.trans e2⟩
        · rw [b5 (by rw [a5 hx]; exact hx), a5 hx]
      · exact ⟨rfl, rfl, fun _ => rfl, fun _ _ => ⟨rfl, rfl⟩, fun _ => rfl⟩

theorem compatible_of_view {s t : State} (h : t.claimView = s.claimView) (i : BitVec 8) (m : Mode) :
    t.compatible i m = s.compatible i m := by
  have e : t.holders i = s.holders i := by
    unfold State.holders
    congr 1
    funext c
    rw [findClaim_of_view h]
  cases m <;> simp [State.compatible, e]

/-- A queue that has been served: its head is not compatible with the holders (R36). -/
def State.servedAt (s : State) (i : BitVec 8) : Prop :=
  ∀ c rest k cl, s.queue i = c :: rest → s.findClaim c i = some (k, cl) → s.compatible i cl.mode = false

theorem servedAt_of_view {s t : State} (h : t.claimView = s.claimView) {i : BitVec 8} (hs : s.servedAt i) :
    t.servedAt i := by
  intro c rest k cl hq hf
  rw [compatible_of_view h]
  exact hs c rest k cl (by rw [← queue_of_view h, hq]) (by rw [← findClaim_of_view h, hf])

theorem serve_served (i : BitVec 8) (s : State) : (s.serve i).servedAt i := by
  have key : ∀ (q : List Client) (s : State), s.queue i = q → (s.serveFrom i q).servedAt i := by
    intro q
    induction q with
    | nil => intro s h c rest k cl hq; rw [State.serveFrom, h] at hq; cases hq
    | cons c rest ih =>
      intro s h
      simp only [State.serveFrom]
      split
      · rename_i hf
        intro c' rest' k cl hq hf'
        rw [h] at hq
        cases hq
        rw [hf] at hf'; cases hf'
      · rename_i k cl hf
        split
        · exact ih _ (by rw [grant_queue, h]; rfl)
        · rename_i hc
          intro c' rest' k' cl' hq hf'
          rw [h] at hq
          cases hq
          rw [hf] at hf'
          cases hf'
          simpa using hc
  exact key _ s rfl

theorem serve_notMem {i : BitVec 8} {d : Client} {s : State} (h : d ∉ s.queue i) : d ∉ (s.serve i).queue i := by
  have key : ∀ (q : List Client) (s : State), s.queue i = q → d ∉ q → d ∉ (s.serveFrom i q).queue i := by
    intro q
    induction q with
    | nil => intro s e h; rw [State.serveFrom, e]; exact h
    | cons c rest ih =>
      intro s e h
      simp only [State.serveFrom]
      split
      · rw [e]; exact h
      · split
        · exact ih _ (by rw [grant_queue, e]; rfl) fun m => h (List.mem_cons_of_mem _ m)
        · rw [e]; exact h
  exact key _ s rfl h

/-! ## The turn of one client -/

/-- A WAITING claim that the revocation removes (R44). -/
def State.dropped (s : State) (i : BitVec 8) (sel : Client → Claim → Bool) (c : Client) (k : Fin 16) (cl : Claim) :
    Prop := s.findClaim c i = some (k, cl) ∧ cl.state = .waiting ∧ sel c cl = true

/-- The turn of a client without such a claim does nothing. -/
theorem revokeWaiting_idle {s : State} {i : BitVec 8} {r : Reason} {sel : Client → Claim → Bool} {c : Client}
    (h : ∀ k cl, ¬ s.dropped i sel c k cl) : s.revokeWaiting i r sel c = s := by
  unfold State.revokeWaiting
  split
  · rfl
  · rename_i k cl hf
    split
    · rename_i e; exact absurd ⟨hf, e.1, e.2⟩ (h k cl)
    · rfl

/-- The REVOKED notice of a claim with the change part as it stands (R45). -/
def State.revokedNotice (s : State) (i : BitVec 8) (k : Fin 16) (cl : Claim) (r : Reason) : Message :=
  ⟨cl.tag, cl.session, true, .revoked k.val cl.handle cl.mode r (s.seqTorn i).1 (s.seqTorn i).2⟩

/-- The turn of a client with one: the claim goes, the link is told, or the fill ends. -/
theorem revokeWaiting_turn {s : State} {i : BitVec 8} {sel : Client → Claim → Bool} {c : Client} {k : Fin 16}
    {cl : Claim} (h : s.dropped i sel c k cl) (r : Reason) : s.revokeWaiting i r sel c = match c with
      | .fill => (s.dropWaiting c k i).fillEnd r.fillVerdict
      | .link n => (s.dropWaiting c k i).handOver n (s.revokedNotice i k cl r) := by
  have e : (s.dropWaiting c k i).seqTorn i = s.seqTorn i := by simp [State.seqTorn, State.dropWaiting, State.part]
  unfold State.revokeWaiting
  rw [h.1]
  dsimp only
  rw [if_pos ⟨h.2.1, h.2.2⟩, e]
  cases c <;> rfl

/-- The turns of the waiting claims: no change part changes, a link only at its own turn, the fill only at its own. -/
theorem revokeWaiting_keeps (s : State) (i : BitVec 8) (r : Reason) (sel : Client → Claim → Bool) (c : Client) :
    (s.revokeWaiting i r sel c).tracker = s.tracker ∧
      (c ≠ .fill → (s.revokeWaiting i r sel c).fill = s.fill) ∧
      (∀ n, c ≠ .link n → (s.revokeWaiting i r sel c).link n = s.link n) ∧
      ((∀ r k q, s.cmd.executing ≠ some ⟨r, .retrying k q⟩) →
        (c ≠ .fill → (s.revokeWaiting i r sel c).cmd = s.cmd) ∧
        (s.revokeWaiting i r sel c).cmd.executing = s.cmd.executing) := by
  by_cases h : ∃ k cl, s.dropped i sel c k cl
  · obtain ⟨k, cl, h⟩ := h
    rw [revokeWaiting_turn h]
    cases c with
    | fill =>
      obtain ⟨a, _, b, _, d⟩ := fillEnd_keeps (s.dropWaiting .fill k i) r.fillVerdict
      refine ⟨a.trans (by simp [State.dropWaiting]), fun h => absurd rfl h,
        fun n _ => (link_of_links b n).trans (by simp [State.dropWaiting]), fun _ => ⟨fun h => absurd rfl h,
          d.trans (by simp [State.dropWaiting])⟩⟩
    | link m =>
      dsimp only
      generalize s.revokedNotice i k cl r = msg
      obtain ⟨a, b, _, d, e, _⟩ := handOver_keeps (s.dropWaiting (.link m) k i) m msg
      refine ⟨a.trans (by simp [State.dropWaiting]), fun _ => b.trans (by simp [State.dropWaiting]), fun n hn => ?_,
        fun hx => ?_⟩
      · exact (d n fun e => hn (by rw [e])).1.trans (by simp [State.dropWaiting])
      · have e' := (e (by simpa [State.dropWaiting] using hx)).trans (show _ = s.cmd by simp [State.dropWaiting])
        exact ⟨fun _ => e', by rw [e']⟩
  · rw [revokeWaiting_idle fun k cl e => h ⟨k, cl, e⟩]
    exact ⟨rfl, fun _ => rfl, fun _ _ => rfl, fun _ => ⟨fun _ => rfl, rfl⟩⟩

/-- The turns of the waiting claims only take claims away. -/
theorem revokeWaiting_claimAt {s : State} {i : BitVec 8} {r : Reason} {sel : Client → Claim → Bool} {c d : Client}
    {k : Fin 16} {cl : Claim} (h : (s.revokeWaiting i r sel c).claimAt d k = some cl) : s.claimAt d k = some cl := by
  by_cases hd : d = c
  · subst hd
    by_cases e : ∃ k cl, s.dropped i sel d k cl
    · obtain ⟨k', cl', e⟩ := e
      obtain ⟨_, _, h3⟩ := findClaim_at e.1
      by_cases hk : k = k'
      · subst hk
        rw [(revokeWaiting_self i r sel e.1).1 e.2.1 e.2.2] at h
        cases h
      · rw [revokeWaiting_turn e] at h
        have hdrop : (s.dropWaiting d k' i).claimAt d k = s.claimAt d k := by
          rw [State.dropWaiting, setClaim_other _ _ fun e => hk e.2, modQueue_claimAt]
        cases d with
        | fill => rwa [claimAt_of_view (view_fillEnd _ _), hdrop] at h
        | link n => rwa [claimAt_of_view (view_handOver _ _ _), hdrop] at h
    · rwa [revokeWaiting_idle fun k cl e' => e ⟨k, cl, e'⟩] at h
  · rwa [revokeWaiting_other s i r sel hd] at h

/-- A HELD claim whose drain ends inside the revocation (R44, R45). -/
def State.drained (s : State) (i : BitVec 8) (sel : Client → Claim → Bool) (c : Client) (k : Fin 16) (cl : Claim) :
    Prop := s.findClaim c i = some (k, cl) ∧ cl.state = .held ∧ sel c cl = true ∧ cl.outstanding = 0

/-- A change part with its pending bands torn (R45). -/
def ChangePart.tornOff (p : ChangePart) : ChangePart := { p with torn := p.torn ||| p.pending, pending := 0 }

theorem tornOff_idem (p : ChangePart) : p.tornOff.tornOff = p.tornOff := by simp [ChangePart.tornOff]

theorem tear_eq_tornOff : ChangePart.tear = ChangePart.tornOff := by funext p; exact tear_eq p

/-- The turn of a client whose HELD claim drains at once. -/
theorem revokeHeld_turn {s : State} {i : BitVec 8} {sel : Client → Claim → Bool} {c : Client} {k : Fin 16}
    {cl : Claim} (h : s.drained i sel c k cl) (r : Reason) : s.revokeHeld i r sel c =
      (((s.setClaim c k (some { cl with state := .releasing (.revoked r) })).settleChanges
        { cl with state := .releasing (.revoked r) } (.revoked r)).setClaim c k none).reportDrain c k
          { cl with state := .releasing (.revoked r) } (.revoked r) := by
  obtain ⟨hf, h1, h2, h3⟩ := h
  obtain ⟨_, _, h6⟩ := findClaim_at hf
  unfold State.revokeHeld
  rw [hf]
  dsimp only
  rw [if_pos ⟨h1, h2⟩, if_pos h3]
  simp only [State.finishDrain, setClaim_self _ _ _ _ h6]

/-- The turn of any other client changes claims only. -/
theorem revokeHeld_quiet {s : State} {i : BitVec 8} {r : Reason} {sel : Client → Claim → Bool} {c : Client}
    (h : ∀ k cl, ¬ s.drained i sel c k cl) : (s.revokeHeld i r sel c).tracker = s.tracker ∧
      (s.revokeHeld i r sel c).fill = s.fill ∧ (s.revokeHeld i r sel c).links = s.links ∧
      (s.revokeHeld i r sel c).cmd = s.cmd := by
  unfold State.revokeHeld
  split
  · exact ⟨rfl, rfl, rfl, rfl⟩
  · rename_i k cl hf
    split
    · rename_i e
      split
      · rename_i e0; exact absurd ⟨hf, e.1, e.2, e0⟩ (h k cl)
      · simp
    · exact ⟨rfl, rfl, rfl, rfl⟩

theorem settleChanges_keeps (s : State) (cl : Claim) (k : ReleaseKind) : (s.settleChanges cl k).fill = s.fill ∧
    (s.settleChanges cl k).links = s.links ∧ (s.settleChanges cl k).lanes = s.lanes ∧
    (s.settleChanges cl k).faults = s.faults ∧ (s.settleChanges cl k).cmd = s.cmd := by
  unfold State.settleChanges
  cases k <;> dsimp only <;> (try split) <;> exact ⟨rfl, rfl, rfl, rfl, rfl⟩

theorem settleChanges_part (s : State) (cl : Claim) (r : Reason) (j : BitVec 8) :
    (s.settleChanges cl (.revoked r)).part j =
      if cl.mode = .write ∧ j = cl.handle.index then (s.part j).map ChangePart.tornOff else s.part j := by
  simp only [State.settleChanges]
  by_cases hw : cl.mode = .write
  · simp only [hw, if_true, true_and]
    by_cases hj : j = cl.handle.index
    · subst hj; rw [if_pos rfl, modPart_part, tear_eq_tornOff]
    · rw [if_neg hj, modPart_other _ _ hj]
  · simp [hw]

theorem reportDrain_keeps (s : State) (c : Client) (k : Fin 16) (cl : Claim) (kind : ReleaseKind) :
    (s.reportDrain c k cl kind).tracker = s.tracker ∧ (s.reportDrain c k cl kind).fill = s.fill ∧
      (s.reportDrain c k cl kind).faults = s.faults ∧
      (∀ n, c ≠ .link n ∨ (s.link n).state ≠ .online → (s.reportDrain c k cl kind).link n = s.link n ∧
        (s.reportDrain c k cl kind).lane n = s.lane n) ∧
      ((∀ r k q, s.cmd.executing ≠ some ⟨r, .retrying k q⟩) → (s.reportDrain c k cl kind).cmd = s.cmd) := by
  cases c with
  | fill => exact ⟨rfl, rfl, rfl, fun _ _ => ⟨rfl, rfl⟩, fun _ => rfl⟩
  | link m =>
    have key : ∀ msg, (s.handOver m msg).tracker = s.tracker ∧ (s.handOver m msg).fill = s.fill ∧
        (s.handOver m msg).faults = s.faults ∧
        (∀ n, Client.link m ≠ .link n ∨ (s.link n).state ≠ .online → (s.handOver m msg).link n = s.link n ∧
          (s.handOver m msg).lane n = s.lane n) ∧
        ((∀ r k q, s.cmd.executing ≠ some ⟨r, .retrying k q⟩) → (s.handOver m msg).cmd = s.cmd) := by
      intro msg
      obtain ⟨a, b, d, e, f, g⟩ := handOver_keeps s m msg
      refine ⟨a, b, d, fun n h => ?_, f⟩
      by_cases hn : n = m
      · subst hn
        rcases h with h | h
        · exact absurd rfl h
        · rw [g h]; exact ⟨rfl, rfl⟩
      · exact e n hn
    cases kind <;> exact key _

/-- The turns of the held claims: the surface's change part is torn where a WRITE claim drains, no other changes, a link
changes only at its own turn, and the fill engine not yet. -/
theorem revokeHeld_keeps (s : State) (i : BitVec 8) (r : Reason) (sel : Client → Claim → Bool) (c : Client) :
    (∀ j, ((∃ k cl, s.drained i sel c k cl ∧ cl.mode = .write) → j = i →
        (s.revokeHeld i r sel c).part j = (s.part j).map ChangePart.tornOff) ∧
      (¬ (∃ k cl, s.drained i sel c k cl ∧ cl.mode = .write) ∨ j ≠ i →
        (s.revokeHeld i r sel c).part j = s.part j)) ∧
      (s.revokeHeld i r sel c).fill = s.fill ∧
      (∀ n, c ≠ .link n → (s.revokeHeld i r sel c).link n = s.link n) ∧
      ((∀ r k q, s.cmd.executing ≠ some ⟨r, .retrying k q⟩) → (s.revokeHeld i r sel c).cmd = s.cmd) := by
  by_cases h : ∃ k cl, s.drained i sel c k cl
  · obtain ⟨k, cl, h⟩ := h
    have huniq : ∀ k' cl', s.drained i sel c k' cl' → cl' = cl := by
      intro k' cl' h'
      have := h'.1.symm.trans h.1
      cases this; rfl
    obtain ⟨_, hidx, _⟩ := findClaim_at h.1
    rw [revokeHeld_turn h]
    generalize hb : { cl with state := ClaimState.releasing (.revoked r) } = cl'
    have hm : cl'.mode = cl.mode := by rw [← hb]
    have hi : cl'.handle.index = i := by rw [← hb]; exact hidx
    obtain ⟨a, b, _, d, e⟩ := reportDrain_keeps (((s.setClaim c k (some cl')).settleChanges cl' (.revoked r)).setClaim
      c k none) c k cl' (.revoked r)
    obtain ⟨f1, f2, _, _, f5⟩ := settleChanges_keeps (s.setClaim c k (some cl')) cl' (.revoked r)
    refine ⟨fun j => ?_, b.trans ?_, fun n hn => (d n (.inl hn)).1.trans ?_, fun hx => (e ?_).trans ?_⟩
    · rw [part_of_tracker a, setClaim_part, settleChanges_part, setClaim_part, hm, hi]
      constructor
      · rintro ⟨k', cl'', h', hw⟩ rfl
        rw [huniq _ _ h'] at hw
        rw [if_pos ⟨hw, rfl⟩]
      · intro hn
        rw [if_neg]
        rintro ⟨hw, rfl⟩
        exact hn.elim (fun hn => hn ⟨k, cl, h, hw⟩) fun hn => hn rfl
    · rw [setClaim_fill, f1, setClaim_fill]
    · rw [setClaim_link, link_of_links f2, setClaim_link]
    · simpa [f5] using hx
    · rw [setClaim_cmd, f5, setClaim_cmd]
  · obtain ⟨a, b, d, e⟩ := revokeHeld_quiet (r := r) fun k cl e => h ⟨k, cl, e⟩
    refine ⟨fun j => ⟨?_, fun _ => part_of_tracker a j⟩, b, fun n _ => link_of_links d n, fun _ => e⟩
    rintro ⟨k, cl, h', _⟩
    exact absurd ⟨k, cl, h'⟩ h

/-! ## All the turns -/

theorem split_clients (c : Client) : ∃ a b, allClients = a ++ c :: b ∧ c ∉ a ∧ c ∉ b := by
  obtain ⟨a, b, e⟩ := List.append_of_mem (mem_allClients c)
  have h := allClients_nodup
  rw [e] at h
  have h' := List.nodup_append.mp h
  exact ⟨a, b, e, fun m => h'.2.2 _ m _ (List.mem_cons_self ..) rfl, (List.nodup_cons.mp h'.2.1).1⟩

theorem waits_keep (i : BitVec 8) (r : Reason) (sel : Client → Claim → Bool) (l : List Client) : ∀ s : State,
    let t := l.foldl (State.revokeWaiting i r sel) s
    t.tracker = s.tracker ∧ (∀ d k cl, t.claimAt d k = some cl → s.claimAt d k = some cl) ∧
      (Client.fill ∉ l → t.fill = s.fill) ∧ (∀ n, Client.link n ∉ l → t.link n = s.link n) ∧
      (∀ d k, d ∉ l → t.claimAt d k = s.claimAt d k) ∧ (∀ d, d ∉ s.queue i → d ∉ t.queue i) ∧
      ((∀ r k q, s.cmd.executing ≠ some ⟨r, .retrying k q⟩) →
        t.cmd.executing = s.cmd.executing ∧ (Client.fill ∉ l → t.cmd = s.cmd)) := by
  induction l with
  | nil => exact fun s => ⟨rfl, fun _ _ _ h => h, fun _ => rfl, fun _ _ => rfl, fun _ _ _ => rfl, fun _ h => h,
      fun _ => ⟨rfl, fun _ => rfl⟩⟩
  | cons c rest ih =>
    intro s
    obtain ⟨a1, a2, a3, a4⟩ := revokeWaiting_keeps s i r sel c
    obtain ⟨b1, b2, b3, b4, b5, b6, b7⟩ := ih (s.revokeWaiting i r sel c)
    refine ⟨b1.trans a1, fun d k cl h => revokeWaiting_claimAt (b2 d k cl h), fun h => ?_, fun n h => ?_,
      fun d k h => ?_, fun d h => b6 d (revokeWaiting_queue s i r sel c d h), fun hx => ?_⟩
    · rw [List.mem_cons, not_or] at h
      exact (b3 h.2).trans (a2 (Ne.symm h.1))
    · rw [List.mem_cons, not_or] at h
      exact (b4 n h.2).trans (a3 n (Ne.symm h.1))
    · rw [List.mem_cons, not_or] at h
      exact (b5 d k h.2).trans (revokeWaiting_other s i r sel h.1 k)
    · obtain ⟨e1, e2⟩ := a4 hx
      obtain ⟨f1, f2⟩ := b7 (by rw [e2]; exact hx)
      refine ⟨f1.trans e2, fun h => ?_⟩
      rw [List.mem_cons, not_or] at h
      exact (f2 h.2).trans (e1 (Ne.symm h.1))

/-- A removed WAITING claim leaves its queue (R44). -/
theorem revokeWaiting_leaves {s : State} {i : BitVec 8} {sel : Client → Claim → Bool} {c : Client} {k : Fin 16}
    {cl : Claim} (h : s.dropped i sel c k cl) (r : Reason) (hn : (s.queue i).Nodup) :
    c ∉ (s.revokeWaiting i r sel c).queue i := by
  have e : c ∉ (s.dropWaiting c k i).queue i := by
    rw [State.dropWaiting, setClaim_queue, modQueue_self]
    exact hn.not_mem_erase
  rw [revokeWaiting_turn h]
  cases c with
  | fill => rwa [queue_of_view (view_fillEnd _ _)]
  | link n => rwa [queue_of_view (view_handOver _ _ _)]

theorem revokeWaiting_nodup {s : State} {i : BitVec 8} {r : Reason} {sel : Client → Claim → Bool} {c : Client}
    (hn : (s.queue i).Nodup) : ((s.revokeWaiting i r sel c).queue i).Nodup := by
  by_cases h : ∃ k cl, s.dropped i sel c k cl
  · obtain ⟨k, cl, h⟩ := h
    have e : ((s.dropWaiting c k i).queue i).Nodup := by
      rw [State.dropWaiting, setClaim_queue, modQueue_self]
      exact hn.erase _
    rw [revokeWaiting_turn h]
    cases c with
    | fill => rwa [queue_of_view (view_fillEnd _ _)]
    | link n => rwa [queue_of_view (view_handOver _ _ _)]
  · rwa [revokeWaiting_idle fun k cl e => h ⟨k, cl, e⟩]

theorem waits_nodup (i : BitVec 8) (r : Reason) (sel : Client → Claim → Bool) (l : List Client) : ∀ s : State,
    (s.queue i).Nodup → ((l.foldl (State.revokeWaiting i r sel) s).queue i).Nodup := by
  induction l with
  | nil => exact fun _ h => h
  | cons c rest ih => exact fun s h => ih _ (revokeWaiting_nodup h)

theorem drained_congr {s t : State} {c : Client} (h : ∀ k, t.claimAt c k = s.claimAt c k) (i : BitVec 8)
    (sel : Client → Claim → Bool) (k : Fin 16) (cl : Claim) : t.drained i sel c k cl ↔ s.drained i sel c k cl := by
  unfold State.drained
  rw [findClaim_congr h]

theorem held_keep (i : BitVec 8) (r : Reason) (sel : Client → Claim → Bool) (l : List Client) : ∀ s : State,
    let t := l.foldl (State.revokeHeld i r sel) s
    (∀ j, j ≠ i → t.part j = s.part j) ∧
      (t.part i = s.part i ∨ t.part i = (s.part i).map ChangePart.tornOff) ∧
      (l.Nodup → (∃ c ∈ l, ∃ k cl, s.drained i sel c k cl ∧ cl.mode = .write) →
        t.part i = (s.part i).map ChangePart.tornOff) ∧
      (l.Nodup → (∀ c ∈ l, ∀ k cl, s.drained i sel c k cl → cl.mode ≠ .write) → t.part i = s.part i) ∧
      t.fill = s.fill ∧ (∀ n, Client.link n ∉ l → t.link n = s.link n) ∧
      (∀ d k, d ∉ l → t.claimAt d k = s.claimAt d k) ∧ t.queue i = s.queue i ∧
      ((∀ r k q, s.cmd.executing ≠ some ⟨r, .retrying k q⟩) → t.cmd = s.cmd) := by
  induction l with
  | nil =>
    refine fun s => ⟨fun _ _ => rfl, .inl rfl, ?_, fun _ _ => rfl, rfl, fun _ _ => rfl, fun _ _ _ => rfl, rfl,
      fun _ => rfl⟩
    rintro _ ⟨c, m, _⟩
    cases m
  | cons c rest ih =>
    intro s
    obtain ⟨a1, a2, a3, a4⟩ := revokeHeld_keeps s i r sel c
    obtain ⟨b1, b2, b3, b4, b5, b6, b7, b8, b9⟩ := ih (s.revokeHeld i r sel c)
    have hpart : (s.revokeHeld i r sel c).part i = s.part i ∨
        (s.revokeHeld i r sel c).part i = (s.part i).map ChangePart.tornOff := by
      by_cases h : ∃ k cl, s.drained i sel c k cl ∧ cl.mode = .write
      · exact .inr ((a1 i).1 h rfl)
      · exact .inl ((a1 i).2 (.inl h))
    have idem : ∀ o : Option ChangePart, (o.map ChangePart.tornOff).map ChangePart.tornOff =
        o.map ChangePart.tornOff := by
      intro o; cases o <;> simp [tornOff_idem]
    have hd : ∀ d, d ≠ c → ∀ k cl, (s.revokeHeld i r sel c).drained i sel d k cl ↔ s.drained i sel d k cl :=
      fun d h k cl => drained_congr (fun j => revokeHeld_other s i r sel h j) i sel k cl
    refine ⟨fun j h => (b1 j h).trans ((a1 j).2 (.inr h)), ?_, fun hn h => ?_, fun hn h => ?_, b5.trans a2,
      fun n h => ?_, fun d k h => ?_, b8.trans (revokeHeld_queue s i r sel c i), fun hx => ?_⟩
    · rcases b2 with e | e <;> rcases hpart with f | f
      · exact .inl (e.trans f)
      · exact .inr (e.trans f)
      · exact .inr (by rw [List.foldl_cons, e, f])
      · exact .inr (by rw [List.foldl_cons, e, f, idem])
    · obtain ⟨hc, hn'⟩ := List.nodup_cons.mp hn
      obtain ⟨d, hm, k, cl, h1, h2⟩ := h
      by_cases e : d = c
      · subst e
        have hp := (a1 i).1 ⟨k, cl, h1, h2⟩ rfl
        rw [List.foldl_cons]
        rcases b2 with e | e
        · rw [e, hp]
        · rw [e, hp, idem]
      · have hm' : d ∈ rest := (List.mem_cons.mp hm).resolve_left e
        have := b3 hn' ⟨d, hm', k, cl, (hd d e k cl).mpr h1, h2⟩
        rw [List.foldl_cons, this]
        rcases hpart with f | f
        · rw [f]
        · rw [f, idem]
    · obtain ⟨hc, hn'⟩ := List.nodup_cons.mp hn
      refine (b4 hn' fun d hm k cl h1 => ?_).trans ((a1 i).2 (.inl ?_))
      · have e : d ≠ c := fun e => hc (e ▸ hm)
        exact h d (List.mem_cons_of_mem _ hm) k cl ((hd d e k cl).mp h1)
      · rintro ⟨k, cl, h1, h2⟩
        exact h c (List.mem_cons_self ..) k cl h1 h2
    · rw [List.mem_cons, not_or] at h
      exact (b6 n h.2).trans (a3 n (Ne.symm h.1))
    · rw [List.mem_cons, not_or] at h
      exact (b7 d k h.2).trans (revokeHeld_other s i r sel h.1 k)
    · rw [List.foldl_cons, b9 (by rw [a4 hx]; exact hx), a4 hx]

/-! ## A revocation -/

theorem findClaim_none {s : State} {c : Client} {i : BitVec 8}
    (h : ∀ k cl, s.claimAt c k = some cl → cl.handle.index ≠ i) : s.findClaim c i = none := by
  cases e : s.findClaim c i with
  | none => rfl
  | some p =>
    obtain ⟨h1, h2, _⟩ := findClaim_at e
    exact absurd h2 (h p.1 p.2 h1)

theorem dropped_congr {s t : State} {c : Client} (h : ∀ k, t.claimAt c k = s.claimAt c k) (i : BitVec 8)
    (sel : Client → Claim → Bool) (k : Fin 16) (cl : Claim) : t.dropped i sel c k cl ↔ s.dropped i sel c k cl := by
  unfold State.dropped
  rw [findClaim_congr h]

/-- The turn of one client among all the turns of the waiting claims. -/
theorem waits_turn (s : State) (i : BitVec 8) (r : Reason) (sel : Client → Claim → Bool) (c : Client) :
    ∃ s1 : State, s1.tracker = s.tracker ∧ (∀ k, s1.claimAt c k = s.claimAt c k) ∧
      (∀ n, c = .link n → s1.link n = s.link n) ∧ ((s.queue i).Nodup → (s1.queue i).Nodup) ∧
      let t1 := s1.revokeWaiting i r sel c
      let t := allClients.foldl (State.revokeWaiting i r sel) s
      (∀ k, t.claimAt c k = t1.claimAt c k) ∧ (∀ n, c = .link n → t.link n = t1.link n) ∧
        (c ∉ t1.queue i → c ∉ t.queue i) := by
  obtain ⟨a, b, e, ha, hb⟩ := split_clients c
  obtain ⟨a1, _, _, a4, a5, _, _⟩ := waits_keep i r sel a s
  obtain ⟨_, _, _, b4, b5, b6, _⟩ :=
    waits_keep i r sel b ((a.foldl (State.revokeWaiting i r sel) s).revokeWaiting i r sel c)
  refine ⟨a.foldl (State.revokeWaiting i r sel) s, a1, fun k => a5 c k ha, fun n h => a4 n (h ▸ ha),
    waits_nodup i r sel a s, ?_⟩
  rw [e, List.foldl_append, List.foldl_cons]
  exact ⟨fun k => b5 c k hb, fun n h => b4 n (h ▸ hb), b6 c⟩

/-- A client whose WAITING claim is not removed keeps its claims. -/
theorem waits_idle {s : State} {i : BitVec 8} (r : Reason) {sel : Client → Claim → Bool} {c : Client}
    (h : ∀ k cl, ¬ s.dropped i sel c k cl) :
    let t := allClients.foldl (State.revokeWaiting i r sel) s
    (∀ k, t.claimAt c k = s.claimAt c k) ∧ ∀ n, c = .link n → t.link n = s.link n := by
  obtain ⟨s1, _, h2, h3, _, h5, h6, _⟩ := waits_turn s i r sel c
  have e := revokeWaiting_idle (s := s1) (r := r) fun k cl e => h k cl ((dropped_congr h2 i sel k cl).mp e)
  rw [e] at h5 h6
  exact ⟨fun k => (h5 k).trans (h2 k), fun n hn => (h6 n hn).trans (h3 n hn)⟩

/-- The turn of one client among all the turns of the held claims. -/
theorem held_turn (t : State) (i : BitVec 8) (r : Reason) (sel : Client → Claim → Bool) (c : Client) :
    ∃ t1 : State, (∀ k, t1.claimAt c k = t.claimAt c k) ∧ (∀ n, c = .link n → t1.link n = t.link n) ∧
      (t1.part i = t.part i ∨ t1.part i = (t.part i).map ChangePart.tornOff) ∧
      ((∀ d k cl, t.drained i sel d k cl → cl.mode ≠ .write) → t1.part i = t.part i) ∧
      let u1 := t1.revokeHeld i r sel c
      let u := allClients.foldl (State.revokeHeld i r sel) t
      (∀ k, u.claimAt c k = u1.claimAt c k) ∧ ∀ n, c = .link n → u.link n = u1.link n := by
  obtain ⟨a, b, e, ha, hb⟩ := split_clients c
  have hna : a.Nodup := (List.nodup_append.mp (e ▸ allClients_nodup)).1
  obtain ⟨_, a2, _, a4, _, a6, a7, _⟩ := held_keep i r sel a t
  obtain ⟨_, _, _, _, _, b6, b7, _⟩ := held_keep i r sel b ((a.foldl (State.revokeHeld i r sel) t).revokeHeld i r sel c)
  refine ⟨a.foldl (State.revokeHeld i r sel) t, fun k => a7 c k ha, fun n h => a6 n (h ▸ ha), a2,
    fun h => a4 hna fun d _ k cl e => h d k cl e, ?_⟩
  rw [e, List.foldl_append, List.foldl_cons]
  exact ⟨fun k => b7 c k hb, fun n h => b6 n (h ▸ hb)⟩

/-- What follows the turns changes neither change parts nor, but for grants, links. -/
theorem revoke_ends (s : State) (i : BitVec 8) (r : Reason) (sel : Client → Claim → Bool) :
    let t := allClients.foldl (State.revokeWaiting i r sel) s
    let u := allClients.foldl (State.revokeHeld i r sel) t
    (s.revoke i r sel).claimView = (u.serve i).claimView ∧ (s.revoke i r sel).tracker = u.tracker ∧
      (s.revoke i r sel).links = (u.serve i).links := by
  intro t u
  have h : (u.afterLoss i).claimView = (u.serve i).claimView ∧ (u.afterLoss i).tracker = u.tracker ∧
      (u.afterLoss i).links = (u.serve i).links := by
    obtain ⟨a, _, b, _⟩ := examineDrain_keeps (u.serve i) i
    exact ⟨view_examineDrain _ _, a.trans (serveFrom_keeps i _ u).1, b⟩
  unfold State.revoke
  dsimp only
  split
  · obtain ⟨a, _, b, _⟩ := fillDrained_keeps (u.afterLoss i) (.revoked r)
    exact ⟨(view_fillDrained _ _).trans h.1, a.trans h.2.1, b.trans h.2.2⟩
  · exact h

theorem revoke_tears (s : State) (i : BitVec 8) (r : Reason) (sel : Client → Claim → Bool) :
    revokesTears s (s.revoke i r sel) i sel := by
  obtain ⟨t1, t2, _⟩ := waits_keep i r sel allClients s
  obtain ⟨h1, _, h3, h4, _⟩ := held_keep i r sel allClients (allClients.foldl (State.revokeWaiting i r sel) s)
  have hp : ∀ j, (s.revoke i r sel).part j = _ := fun j => part_of_tracker (revoke_ends s i r sel).2.1 j
  have ht : ∀ j, (allClients.foldl (State.revokeWaiting i r sel) s).part j = s.part j := fun j => part_of_tracker t1 j
  refine ⟨?_, fun h => ?_, fun j hj => ?_⟩
  · rintro ⟨c, k, cl, hf, hs, hm, ho, hsel⟩
    have hk := (waits_idle r (sel := sel) (c := c) (s := s) (i := i) fun k' cl' e => by
      have := e.1.symm.trans hf
      cases this
      cases hs.symm.trans e.2.1).1
    rw [hp, h3 allClients_nodup ⟨c, mem_allClients c, k, cl, (drained_congr hk i sel k cl).mpr ⟨hf, hs, hsel, ho⟩, hm⟩,
      ht]
    rfl
  · rw [hp, h4 allClients_nodup, ht]
    rintro c _ k cl ⟨hf, hs, hsel, ho⟩ hm
    obtain ⟨e1, e2, _⟩ := findClaim_at hf
    rcases h c k cl (t2 _ _ _ e1) e2 hs hm with e | e
    · exact e ho
    · rw [e] at hsel; cases hsel
  · rw [hp, h1 j hj, ht]

theorem seqTorn_of_part {s : State} {i : BitVec 8} {p : ChangePart} (h : s.part i = some p) :
    s.seqTorn i = (p.sequence, p.torn != 0) := by simp [State.seqTorn, h, ChangePart.tornFlag]

theorem revoke_tells (s : State) (i : BitVec 8) (r : Reason) (sel : Client → Claim → Bool) :
    revokesTells s (s.revoke i r sel) i r sel := by
  intro n
  obtain ⟨w1, w2, _, _, _, w6, _⟩ := waits_keep i r sel allClients s
  obtain ⟨_, _, _, _, _, _, _, hq, _⟩ := held_keep i r sel allClients (allClients.foldl (State.revokeWaiting i r sel) s)
  obtain ⟨t1, a1, a2, a3, a4, a5, a6⟩ := held_turn (allClients.foldl (State.revokeWaiting i r sel) s) i r sel (.link n)
  have hz := (revoke_ends s i r sel).2.2
  generalize hu : allClients.foldl (State.revokeHeld i r sel) (allClients.foldl (State.revokeWaiting i r sel) s) = u at *
  generalize ht : allClients.foldl (State.revokeWaiting i r sel) s = t at *
  have last : (Client.link n ∉ s.queue i ∨ u.findClaim (.link n) i = none) →
      (s.revoke i r sel).link n = (t1.revokeHeld i r sel (.link n)).link n := by
    intro h
    rw [link_of_links hz, ← a6 n rfl]
    refine ((serveFrom_keeps i (u.queue i) u).2.2.2.1 n ?_).1
    rcases h with h | h
    · exact .inl (by rw [hq]; exact w6 _ h)
    · exact .inr (.inl h)
  have quiet : (∀ k cl, ¬ t.drained i sel (.link n) k cl) → (t1.revokeHeld i r sel (.link n)).link n = t.link n := by
    intro h
    have := (revokeHeld_quiet (s := t1) (r := r) fun k cl e => h k cl ((drained_congr a1 i sel k cl).mp e)).2.2.1
    rw [link_of_links this, a2 n rfl]
  have gone : t.findClaim (.link n) i = none → (s.revoke i r sel).link n = t.link n := by
    intro h
    have e : t1.revokeHeld i r sel (.link n) = t1 := by
      apply findClaim_none_revokeHeld
      rw [findClaim_congr a1, h]
    refine (last (.inr ?_)).trans (by rw [e, a2 n rfl])
    rw [findClaim_congr (fun k => (a5 k).trans (by rw [e])), findClaim_congr a1, h]
  constructor
  · intro hf
    obtain ⟨hk, hl⟩ := ht ▸ waits_idle r (sel := sel) (c := .link n) (s := s) (i := i) fun k cl e => by
      cases hf.symm.trans e.1
    rw [gone (by rw [findClaim_congr hk, hf]), hl n rfl]
  · intro k cl hf
    obtain ⟨hat, hidx, hex⟩ := findClaim_at hf
    refine ⟨fun hnq hst => ?_, fun p hp hsel hh => ⟨fun hw huniq => ?_, fun hs ho hnq hrd => ?_⟩⟩
    · obtain ⟨hk, hl⟩ := ht ▸ waits_idle r (sel := sel) (c := .link n) (s := s) (i := i) fun k' cl' e => by
        have := e.1.symm.trans hf
        cases this
        rcases hst with e' | ⟨e', _⟩ | ⟨_, e'⟩
        · cases e'.symm.trans e.2.2
        · cases e'.symm.trans e.2.1
        · cases e'.symm.trans e.2.1
      rw [last (.inl hnq), quiet, hl n rfl]
      rintro k' cl' ⟨e1, e2, e3, e4⟩
      rw [findClaim_congr hk, hf] at e1
      cases e1
      rcases hst with e' | ⟨_, e'⟩ | ⟨_, e'⟩
      · rw [e'] at e3; cases e3
      · exact e' e4
      · rw [e'] at e2; cases e2
    · obtain ⟨s1, b1, b2, b3, _, b5, b6, _⟩ := waits_turn s i r sel (.link n)
      rw [ht] at b5 b6
      have hd : s1.dropped i sel (.link n) k cl := ⟨by rw [findClaim_congr b2, hf], hw, hsel⟩
      have hnone : t.findClaim (.link n) i = none := by
        refine findClaim_none fun k' cl' e e' => ?_
        have := huniq k' cl' (w2 _ _ _ e) e'
        subst this
        rw [b5, (revokeWaiting_self i r sel hd.1).1 hw hsel] at e
        cases e
      have hl : (s1.dropWaiting (.link n) k i).link n = s.link n := by
        rw [← b3 n rfl]; simp [State.dropWaiting]
      have hm : s1.revokedNotice i k cl r = endMessage k cl (.revoked r) p := by
        simp [State.revokedNotice, endMessage, seqTorn_of_part ((part_of_tracker b1 i).trans hp)]
      rw [gone hnone, b6 n rfl, revokeWaiting_turn hd]
      dsimp only
      rw [handOver_hears (by rw [hl, hm]; exact hh), modLink_self, hl, hm]
    · obtain ⟨hk, hl⟩ := ht ▸ waits_idle r (sel := sel) (c := .link n) (s := s) (i := i) fun k' cl' e => by
        have := e.1.symm.trans hf
        cases this
        cases hs.symm.trans e.2.1
      have hd : t1.drained i sel (.link n) k cl :=
        (drained_congr (fun k => (a1 k).trans (hk k)) i sel k cl).mpr ⟨hf, hs, hsel, ho⟩
      have htp : t.part i = some p := (part_of_tracker w1 i).trans hp
      rw [last (.inl hnq), revokeHeld_turn hd]
      have hpart : cl.mode = .write ∨ t1.part i = some p := by
        cases hm : cl.mode with
        | write => exact .inl rfl
        | read =>
          right
          rw [a4, htp]
          rintro d k' cl' ⟨e1, e2, _, _⟩ e3
          obtain ⟨f1, f2, _⟩ := findClaim_at e1
          rw [hrd hm d k' cl' (w2 _ _ _ f1) f2 e2] at e3
          cases e3
      generalize hb : { cl with state := ClaimState.releasing (.revoked r) } = cl'
      have hbm : cl'.mode = cl.mode := by rw [← hb]
      have hbi : cl'.handle.index = i := by rw [← hb]; exact hidx
      generalize hv : ((t1.setClaim (.link n) k (some cl')).settleChanges cl' (.revoked r)).setClaim (.link n) k none = v
      have hvp : v.part i = some (p.ended cl.mode (.revoked r)) := by
        rw [← hv, setClaim_part, settleChanges_part, setClaim_part, hbm, hbi]
        rcases hpart with hw | hr
        · rw [if_pos ⟨hw, rfl⟩, hw]
          have e : ∀ o : Option ChangePart, (o.map ChangePart.tornOff).map ChangePart.tornOff =
              o.map ChangePart.tornOff := by intro o; cases o <;> simp [tornOff_idem]
          rcases a3 with f | f
          · rw [f, htp]; rfl
          · rw [f, e, htp]; rfl
        · rw [hr]
          by_cases hw : cl.mode = .write
          · rw [if_pos ⟨hw, rfl⟩, hw]; rfl
          · rw [if_neg fun e => hw e.1]
            simp [ChangePart.ended, hw]
      have hvl : v.link n = s.link n := by
        rw [← hv, setClaim_link, link_of_links (settleChanges_keeps _ _ _).2.1, setClaim_link, a2 n rfl, hl n rfl]
      have hmsg : v.reportDrain (.link n) k cl' (.revoked r) =
          v.handOver n (endMessage k cl (.revoked r) (p.ended cl.mode (.revoked r))) := by
        simp only [State.reportDrain, hbi, seqTorn_of_part hvp]
        rw [← hb]; rfl
      rw [hmsg, handOver_hears (by rw [hvl]; exact hh), modLink_self, hvl]

theorem fillLoses_false {s : State} {i : BitVec 8} {sel : Client → Claim → Bool}
    (h : ∀ k cl, ¬ s.drained i sel .fill k cl) : s.fillLoses i sel = false := by
  unfold State.fillLoses
  split
  · rename_i k cl hf
    cases e : (cl.state == .held && sel .fill cl && cl.outstanding == 0) with
    | false => rfl
    | true =>
      simp only [Bool.and_eq_true, beq_iff_eq] at e
      exact absurd ⟨hf, e.1.1, e.1.2, e.2⟩ (h k cl)
  · rfl

/-- The fill engine and the Command Engine after a revocation. A RETRY in progress is left out: a link that the
revocation loses would complete it (R136). -/
theorem revoke_fill (s : State) (i : BitVec 8) (r : Reason) (sel : Client → Claim → Bool)
    (hx : ∀ r k q, s.cmd.executing ≠ some ⟨r, .retrying k q⟩) : revokesFill s (s.revoke i r sel) i r sel := by
  have hnf : Client.fill ∉ allLinks.map Client.link := by decide
  obtain ⟨w1, _, w3, _, w5, w6, w7⟩ := waits_keep i r sel (allLinks.map Client.link) (s.revokeWaiting i r sel .fill)
  obtain ⟨a1, _, _, a4⟩ := revokeWaiting_keeps s i r sel .fill
  obtain ⟨_, a5⟩ := a4 hx
  obtain ⟨w7, w8⟩ := w7 (by rw [a5]; exact hx)
  obtain ⟨_, _, h3, _, h5, _, _, h8, h9⟩ :=
    held_keep i r sel allClients (allClients.foldl (State.revokeWaiting i r sel) s)
  have hcons : allClients.foldl (State.revokeWaiting i r sel) s =
      (allLinks.map Client.link).foldl (State.revokeWaiting i r sel) (s.revokeWaiting i r sel .fill) := by
    rw [show allClients = .fill :: allLinks.map Client.link from rfl, List.foldl_cons]
  obtain ⟨t1, b1, _, _, _, b5, _⟩ := held_turn (allClients.foldl (State.revokeWaiting i r sel) s) i r sel .fill
  have hrev : s.revoke i r sel = if (allClients.foldl (State.revokeWaiting i r sel) s).fillLoses i sel
      then ((allClients.foldl (State.revokeHeld i r sel) (allClients.foldl (State.revokeWaiting i r sel) s)).afterLoss
        i).fillDrained (.revoked r)
      else (allClients.foldl (State.revokeHeld i r sel) (allClients.foldl (State.revokeWaiting i r sel) s)).afterLoss
        i := by rw [State.revoke]
  rw [← hcons] at w1 w3 w5 w6 w7 w8
  generalize hu : allClients.foldl (State.revokeHeld i r sel) (allClients.foldl (State.revokeWaiting i r sel) s) = u at *
  generalize ht : allClients.foldl (State.revokeWaiting i r sel) s = t at *
  have hcu : u.cmd = t.cmd := h9 (by rw [w7, a5]; exact hx)
  have hex : ∀ r k q, u.cmd.executing ≠ some ⟨r, .retrying k q⟩ := by rw [hcu, w7, a5]; exact hx
  obtain ⟨c1, _, c3, _, c5⟩ := serveFrom_keeps i (u.queue i) u
  obtain ⟨d1, _, _, _, d5, _, d7, d8⟩ := examineDrain_keeps (u.serve i) i
  have hcv : (u.afterLoss i).cmd.completions = t.cmd.completions ∧
      (u.afterLoss i).cmd.background = t.cmd.background :=
    ⟨d8.trans (by rw [State.serve, c5 hex, hcu]), d7.trans (by rw [State.serve, c5 hex, hcu])⟩
  have claims : (∀ k cl, ¬ s.dropped i sel .fill k cl) → ∀ k, t.claimAt .fill k = s.claimAt .fill k := by
    intro h k
    rw [w5 .fill k hnf, revokeWaiting_idle h]
  refine ⟨fun h => ?_, fun k cl j p b hf hsel hj hh hp hb => ?_⟩
  · have hd : ∀ k cl, ¬ s.dropped i sel .fill k cl := by
      intro k cl e
      obtain ⟨_, e'⟩ := h k cl e.1
      rcases e' with e' | ⟨e', _⟩ | ⟨_, e'⟩
      · cases e'.symm.trans e.2.2
      · cases e'.symm.trans e.2.1
      · cases e'.symm.trans e.2.1
    have hn : ∀ k cl, ¬ t.drained i sel .fill k cl := by
      intro k cl e
      rw [drained_congr (claims hd)] at e
      obtain ⟨_, e'⟩ := h k cl e.1
      rcases e' with e' | ⟨_, e'⟩ | ⟨_, e'⟩
      · cases e'.symm.trans e.2.2.1
      · exact e' e.2.2.2
      · cases e'.symm.trans e.2.1
    rw [hrev, fillLoses_false hn]
    have hfu : Client.fill ∉ u.queue i ∨ u.findClaim .fill i = none := by
      cases hf : s.findClaim .fill i with
      | none =>
        right
        have e : t1.revokeHeld i r sel .fill = t1 :=
          findClaim_none_revokeHeld i r sel (by rw [findClaim_congr b1, findClaim_congr (claims hd), hf])
        rw [findClaim_congr (fun k => (b5 k).trans (by rw [e])), findClaim_congr b1, findClaim_congr (claims hd), hf]
      | some q =>
        left
        rw [h8]
        refine w6 _ ?_
        rw [revokeWaiting_idle hd]
        exact (h q.1 q.2 hf).1
    exact d5.trans ((c3 hfu).trans (h5.trans ((w3 hnf).trans (by rw [revokeWaiting_idle hd]))))
  · obtain ⟨hat, hidx, hk⟩ := findClaim_at hf
    have hji : j.handle.index = i := by rw [← hh]; exact hidx
    obtain ⟨hpi, hph⟩ := partOf_eq_some hp
    intro closed
    refine ⟨fun hw => ?_, fun hs ho hm => ?_⟩
    · have hd : s.dropped i sel .fill k cl := ⟨hf, hw, hsel⟩
      have e1 : s.revokeWaiting i r sel .fill = (s.dropWaiting .fill k i).fillOver b (fillOutcome j (.revoked r))
          s.fill.rowsDone p := by
        rw [revokeWaiting_turn hd]
        dsimp only
        rw [fillEnd_over (j := j) (p := p) (b := b) (by simpa [State.dropWaiting] using hj)
          (by simpa [State.partOf, State.dropWaiting] using hp) (by simpa [State.dropWaiting] using hb)]
        have : r.fillVerdict = fillOutcome j (.revoked r) := by cases r <;> rfl
        rw [this]; simp [State.dropWaiting]
      have hnone : t.findClaim .fill i = none := by
        refine findClaim_none fun k' cl' e e' => ?_
        rw [w5 .fill k' hnf] at e
        by_cases hk' : k' = k
        · rw [hk', (revokeWaiting_self i r sel hf).1 hw hsel] at e; cases e
        · have := revokeWaiting_claimAt e
          have z : ∀ q, slotExists .fill q = true → q = 0 := by decide
          have hz := z k hk
          have z' : k' = 0 := by
            by_cases e0 : k' = 0
            · exact e0
            · simp [State.claimAt, e0] at this
          exact hk' (z'.trans hz.symm)
      have hnd : ∀ k cl, ¬ t.drained i sel .fill k cl := fun k cl e => by cases hnone.symm.trans e.1
      have e2 : t1.revokeHeld i r sel .fill = t1 :=
        findClaim_none_revokeHeld i r sel (by rw [findClaim_congr b1, hnone])
      have hfu : u.findClaim .fill i = none := by
        rw [findClaim_congr (fun k => (b5 k).trans (by rw [e2])), findClaim_congr b1, hnone]
      refine ⟨?_, ?_⟩ <;> rw [hrev, fillLoses_false hnd]
      · refine d5.trans ((c3 (.inr hfu)).trans (h5.trans ((w3 hnf).trans ?_)))
        rw [e1]; simp [State.fillOver, State.dropWaiting]
      · rw [if_neg (by decide), hcv.1, w8 hnf, e1]
        simp [State.fillOver, State.dropWaiting]
    · have hd : ∀ k cl, ¬ s.dropped i sel .fill k cl := by
        intro k' cl' e
        have := e.1.symm.trans hf
        cases this
        cases hs.symm.trans e.2.1
      have hdr : t.drained i sel .fill k cl := (drained_congr (claims hd) i sel k cl).mpr ⟨hf, hs, hsel, ho⟩
      have hl : t.fillLoses i sel = true := by
        unfold State.fillLoses
        rw [hdr.1]
        simp [hs, hsel, ho]
      have hst : t.fill = s.fill ∧ t.cmd = s.cmd := by
        refine ⟨(w3 hnf).trans ?_, (w8 hnf).trans ?_⟩ <;> rw [revokeWaiting_idle hd]
      have hfu : u.findClaim .fill i = none := by
        have hd1 : t1.drained i sel .fill k cl := (drained_congr b1 i sel k cl).mpr hdr
        refine findClaim_none fun k' cl' e _ => ?_
        rw [b5] at e
        by_cases hk' : k' = k
        · rw [hk', (revokeHeld_self i r sel hd1.1).1 hs hsel, if_pos ho] at e; cases e
        · have z : ∀ q, slotExists .fill q = true → q = 0 := by decide
          have : k' ≠ 0 := fun e0 => hk' (e0.trans (z k hk).symm)
          simp [State.claimAt, this] at e
      have hup : (u.afterLoss i).part i = some (p.ended .write (.revoked r)) := by
        refine (part_of_tracker (d1.trans c1) i).trans ?_
        rw [h3 allClients_nodup ⟨.fill, mem_allClients _, k, cl, hdr, hm⟩,
          part_of_tracker (w1.trans a1) i, ← hji, hpi]
        rfl
      have hfill : (u.afterLoss i).fill = s.fill := d5.trans ((c3 (.inr hfu)).trans (h5.trans hst.1))
      have key := fillDrained_over (s := u.afterLoss i) (j := j) (p := p.ended .write (.revoked r)) (b := b)
        (by rw [hfill, hj]) (by simp [State.partOf, hji, hup, hph]) (by rw [hcv.2, hst.2, hb]) (.revoked r)
      refine ⟨?_, ?_⟩ <;> rw [hrev, hl, if_pos rfl, key]
      · simp [State.fillOver, hfill]
      · simp [State.fillOver, CommandEngine.filled, hcv.1, hst.2, hfill]

/-- What a revocation does (R44, R45, R73, R146). A RETRY in progress is left out: a link that the revocation loses
would complete it (R136). -/
theorem revoke_revokes (s : State) (i : BitVec 8) (r : Reason) (sel : Client → Claim → Bool)
    (hx : ∀ r k q, s.cmd.executing ≠ some ⟨r, .retrying k q⟩) : revokes s (s.revoke i r sel) i r sel := by
  have hv := (revoke_ends s i r sel).1
  refine ⟨revoke_slots s i r sel, revoke_tears s i r sel, revoke_tells s i r sel, revoke_fill s i r sel hx, ?_, ?_⟩
  · intro c k cl hf hw hsel hn
    obtain ⟨s1, _, a2, _, a4, _, _, a7⟩ := waits_turn s i r sel c
    have hd : s1.dropped i sel c k cl := (dropped_congr a2 i sel k cl).mpr ⟨hf, hw, hsel⟩
    obtain ⟨_, _, _, _, _, _, _, b8, _⟩ :=
      held_keep i r sel allClients (allClients.foldl (State.revokeWaiting i r sel) s)
    rw [queue_of_view hv]
    refine serve_notMem ?_
    rw [b8]
    exact a7 (revokeWaiting_leaves hd r (a4 hn))
  · exact servedAt_of_view hv (serve_served i _)

end Sys2Proof.Machine
end

