-- ==== Sys2Proof/Laws/Settle.lean ====
section
/-! SUPPORT. What follows an event (`State.settle`): it ends every teardown that is due, and leaves every other link
that is not ONLINE as it is. -/

namespace Sys2Proof.Machine

/-- An operation that leaves the Fault Unit alone, every link that is not ONLINE with its lane, and every link without a
claim without one. -/
def Spares (s t : State) : Prop :=
  t.faults = s.faults ∧ ∀ n : LinkId,
    ((s.link n).state ≠ .online → t.link n = s.link n ∧ t.lane n = s.lane n) ∧
    ((∀ k, s.claimAt (.link n) k = none) → ∀ k, t.claimAt (.link n) k = none)

theorem Spares.refl (s : State) : Spares s s := ⟨rfl, fun _ => ⟨fun _ => ⟨rfl, rfl⟩, fun h => h⟩⟩

theorem Spares.trans {s t u : State} (h : Spares s t) (h' : Spares t u) : Spares s u := by
  refine ⟨h'.1.trans h.1, fun n => ⟨fun hn => ?_, fun hk => (h'.2 n).2 ((h.2 n).2 hk)⟩⟩
  obtain ⟨a, b⟩ := (h.2 n).1 hn
  obtain ⟨c, d⟩ := (h'.2 n).1 (by rw [a]; exact hn)
  exact ⟨c.trans a, d.trans b⟩

theorem Spares.of_eq {s t : State} (h1 : t.faults = s.faults) (h2 : t.links = s.links) (h3 : t.lanes = s.lanes)
    (h4 : ∀ n k, t.claimAt (.link n) k = s.claimAt (.link n) k) : Spares s t :=
  ⟨h1, fun n => ⟨fun _ => ⟨link_of_links h2 n, lane_of_lanes h3 n⟩, fun h k => (h4 n k).trans (h k)⟩⟩

theorem spares_serve (s : State) (i : BitVec 8) : Spares s (s.serve i) := by
  obtain ⟨_, a, _, b, _⟩ := serveFrom_keeps i (s.queue i) s
  exact ⟨a, fun n => ⟨fun h => b n (.inr (.inr h)), fun h k => by
    rw [serve_claimAt s i (.inr fun cl e => by rw [h k] at e; cases e), h k]⟩⟩

theorem spares_examineDrain (s : State) (i : BitVec 8) : Spares s (s.examineDrain i) := by
  obtain ⟨_, a, b, c, _⟩ := examineDrain_keeps s i
  exact .of_eq a b c fun n k => claimAt_of_view (view_examineDrain s i) _ k

theorem spares_fillDrained (s : State) (k : ReleaseKind) : Spares s (s.fillDrained k) := by
  obtain ⟨_, a, b, c, _⟩ := fillDrained_keeps s k
  exact .of_eq a b c fun n j => claimAt_of_view (view_fillDrained s k) _ j

theorem spares_setClaim_fill (s : State) (k : Fin 16) (v : Option Claim) : Spares s (s.setClaim .fill k v) :=
  .of_eq (by simp) (by simp) (by simp) fun n j => setClaim_other s _ fun e => by cases e.1

theorem spares_modClaim_fill (s : State) (k : Fin 16) (f : Claim → Claim) : Spares s (s.modClaim .fill k f) := by
  unfold State.modClaim
  split
  · exact .refl s
  · exact spares_setClaim_fill s k _

theorem spares_settleChanges (s : State) (cl : Claim) (k : ReleaseKind) : Spares s (s.settleChanges cl k) := by
  obtain ⟨_, a, b, c, _⟩ := settleChanges_keeps s cl k
  exact .of_eq c a b fun n j => claimAt_of_view (view_settleChanges s cl k) _ j

theorem spares_drainIfDone_fill (s : State) (k : Fin 16) : Spares s (s.drainIfDone .fill k) := by
  unfold State.drainIfDone
  split
  · exact .refl s
  · split
    · split
      · rename_i cl _ kind hk _
        have h : Spares s (s.finishDrain .fill k) := by
          unfold State.finishDrain
          split
          · exact .refl s
          · split
            · exact (spares_settleChanges s _ _).trans (spares_setClaim_fill _ k none)
            · exact .refl s
        exact ((h.trans (spares_serve _ _)).trans (spares_examineDrain _ _)).trans (spares_fillDrained _ _)
      · exact .refl s
    · exact .refl s

theorem spares_releaseClaim_fill (s : State) (k : Fin 16) (kind : ReleaseKind) (tag : Byte) :
    Spares s (s.releaseClaim .fill k kind tag) := (spares_modClaim_fill s k _).trans (spares_drainIfDone_fill _ k)

theorem spares_markBand (s : State) (i : BitVec 8) (w : Bool) (b : Nat) : Spares s (s.markBand i w b) := by
  unfold State.markBand
  split
  · exact .of_eq rfl rfl rfl fun _ _ => rfl
  · exact .refl s

theorem spares_rowDone (s : State) : Spares s s.rowDone := .of_eq rfl rfl rfl fun _ _ => rfl

theorem spares_modJob (s : State) (f : FillJob → FillJob) : Spares s (s.modJob f) := .of_eq rfl rfl rfl fun _ _ => rfl

theorem spares_setFillState (s : State) (f : FillState) : Spares s (s.setFillState f) :=
  .of_eq rfl rfl rfl fun _ _ => rfl

theorem spares_issueBurst (s : State) (j : FillJob) : Spares s (s.issueBurst j) := by
  unfold State.issueBurst
  dsimp only
  have key : ∀ (f : MemoryInterface) (i : BitVec 8) (t : Nat) (w : Bool) (b : Nat) (g : FillJob → FillJob),
      Spares s (((((s.setFmi f).raise i t).raiseOutstanding .fill 0 t).markBand i w b).modJob g) := by
    intro f i t w b g
    have raised : Spares s ((s.setFmi f).raise i t) := .of_eq rfl rfl rfl fun _ _ => rfl
    exact ((raised.trans (spares_modClaim_fill _ _ _)).trans (spares_markBand _ _ _ _)).trans (spares_modJob _ _)
  split
  · exact (key _ _ _ _ _ _).trans (spares_rowDone _)
  · exact key _ _ _ _ _ _

theorem spares_issueBursts (k : Nat) : ∀ s : State, Spares s (s.issueBursts k) := by
  induction k with
  | zero => exact fun s => .refl s
  | succ k ih =>
    intro s
    unfold State.issueBursts
    split
    · exact .refl s
    · split
      · exact .refl s
      · split
        · exact spares_modJob _ _
        · split
          · exact spares_setFillState _ _
          · dsimp only
            split
            · exact ((spares_issueBurst s _).trans (spares_setFillState _ _)).trans (spares_releaseClaim_fill _ _ _ _)
            · exact (spares_issueBurst s _).trans (ih _)

theorem spares_fillRun (s : State) : Spares s s.fillRun := by
  unfold State.fillRun
  split
  · exact .refl s
  · exact spares_issueBursts _ s

theorem spares_takeNext (s : State) : Spares s s.takeNext := by
  unfold State.takeNext
  split
  · split
    · exact .of_eq rfl rfl rfl fun _ _ => rfl
    · exact .refl s
  · exact .refl s

/-! ## Teardowns -/

theorem spares_foldl (op : State → BitVec 8 → State) (h : ∀ s i, Spares s (op s i)) (l : List (BitVec 8)) :
    ∀ s, Spares s (l.foldl op s) := by
  induction l with
  | nil => exact Spares.refl
  | cons i rest ih => exact fun s => (h s i).trans (ih _)

/-- The removal of a link's claims leaves every slot of the link empty. -/
theorem removeClaims_spares (s : State) (n : LinkId) : Spares s (s.removeClaims n) ∧
    ∀ k, (s.removeClaims n).claimAt (.link n) k = none := by
  have one : ∀ (s : State) (k : Fin 16), Spares s (s.removeClaim n k) ∧ (s.removeClaim n k).claimAt (.link n) k = none ∧
      ∀ j, s.claimAt (.link n) j = none → (s.removeClaim n k).claimAt (.link n) j = none := by
    intro s k
    unfold State.removeClaim
    split
    · rename_i h; exact ⟨.refl s, h, fun _ h => h⟩
    · rename_i cl _
      have hs : Spares s (s.setClaim (.link n) k none) ∧ (s.setClaim (.link n) k none).claimAt (.link n) k = none ∧
          ∀ j, s.claimAt (.link n) j = none → (s.setClaim (.link n) k none).claimAt (.link n) j = none := by
        have e : ∀ d j, s.claimAt d j = none → (s.setClaim (.link n) k none).claimAt d j = none := by
          intro d j h
          by_cases hd : d = .link n ∧ j = k
          · rw [hd.1, hd.2]; exact setClaim_self _ _ _ _ rfl
          · rw [setClaim_other _ _ hd, h]
        exact ⟨⟨by simp, fun m => ⟨fun _ => ⟨by simp, by simp⟩, fun h j => e _ j (h j)⟩⟩,
          setClaim_self _ _ _ _ rfl, fun j h => e _ j h⟩
      have same : ∀ {a b : State}, b.faults = a.faults → b.links = a.links → b.lanes = a.lanes →
          (∀ d j, b.claimAt d j = a.claimAt d j) → (Spares s a ∧ a.claimAt (.link n) k = none ∧
            ∀ j, s.claimAt (.link n) j = none → a.claimAt (.link n) j = none) →
          (Spares s b ∧ b.claimAt (.link n) k = none ∧
            ∀ j, s.claimAt (.link n) j = none → b.claimAt (.link n) j = none) :=
        fun h1 h2 h3 h4 h => ⟨h.1.trans (.of_eq h1 h2 h3 fun _ j => h4 _ j), (h4 _ _).trans h.2.1,
          fun j hj => (h4 _ j).trans (h.2.2 j hj)⟩
      split
      · exact same rfl rfl rfl (fun _ _ => modQueue_claimAt _ _ _ _ _) hs
      · split
        · exact same rfl rfl rfl (fun _ _ => rfl) hs
        · exact hs
  have fold : ∀ (l : List (Fin 16)) (s : State), Spares s (l.foldl (State.removeClaim n) s) ∧
      (∀ k ∈ l, (l.foldl (State.removeClaim n) s).claimAt (.link n) k = none) ∧
      ∀ j, s.claimAt (.link n) j = none → (l.foldl (State.removeClaim n) s).claimAt (.link n) j = none := by
    intro l
    induction l with
    | nil => exact fun s => ⟨.refl s, fun k h => (by cases h), fun _ h => h⟩
    | cons k rest ih =>
      intro s
      obtain ⟨a, b, c⟩ := one s k
      obtain ⟨a', b', c'⟩ := ih (s.removeClaim n k)
      refine ⟨a.trans a', fun j hj => ?_, fun j hj => c' j (c j hj)⟩
      rcases List.mem_cons.mp hj with rfl | hj
      · exact c' _ b
      · exact b' j hj
  unfold State.removeClaims
  dsimp only
  obtain ⟨a, b, _⟩ := fold allSlots s
  have tail := (spares_foldl (fun s i => s.serve i) spares_serve (s.surfacesOf n) (allSlots.foldl (State.removeClaim n) s)).trans
    (spares_foldl (fun s i => s.examineDrain i) spares_examineDrain (s.surfacesOf n) _)
  exact ⟨a.trans tail, (tail.2 n).2 fun k => b k (mem_allSlots k)⟩

/-- The end of a teardown of a link that is in TEARDOWN: what it leaves of that link, and of every other. -/
theorem finishTeardown_does (s : State) (n : LinkId) (h : (s.link n).state = .teardown) :
    (s.finishTeardown n).link n = (s.link n).endTeardown ∧
      (s.finishTeardown n).lane n = { s.lane n with responseQ := [], readSlot := none, writeSlot := none } ∧
      (∀ q ∈ (s.finishTeardown n).faults.queue, q ∈ s.faults.queue ∧ q.link ≠ n) ∧
      ((s.finishTeardown n).linkFaults n).stream = .flowing ∧ (∀ k, (s.finishTeardown n).claimAt (.link n) k = none) ∧
      ∀ m, m ≠ n → ((s.link m).state ≠ .online → (s.finishTeardown n).link m = s.link m ∧
          (s.finishTeardown n).lane m = s.lane m) ∧
        (s.finishTeardown n).linkFaults m = s.linkFaults m ∧
        ((∀ k, s.claimAt (.link m) k = none) → ∀ k, (s.finishTeardown n).claimAt (.link m) k = none) := by
  unfold State.finishTeardown
  dsimp only
  generalize hv : (((s.modLane n fun l => { l with responseQ := [] }).removeRecord n).modFaults n fun f =>
    { f with stream := .flowing }) = v
  obtain ⟨⟨a, b⟩, c⟩ := removeClaims_spares v n
  have hl : ∀ m, v.link m = s.link m := fun m => by rw [← hv]; simp
  have hn : v.lane n = { s.lane n with responseQ := [] } := by rw [← hv]; simp
  obtain ⟨e1, e2⟩ := (b n).1 (by rw [hl, h]; decide)
  refine ⟨by simp [e1, hl], by simp [e2, hn], ?_, ?_, ?_, fun m hm => ⟨fun ho => ?_, ?_, fun hk k => ?_⟩⟩
  · intro q hq
    have : q ∈ v.faults.queue := by simpa [a] using hq
    rw [← hv] at this
    simpa [State.removeRecord] using this
  · have : (v.removeClaims n).linkFaults n = v.linkFaults n := by simp [State.linkFaults, a]
    simp only [modLink_linkFaults, modLane_linkFaults, this]
    rw [← hv, modFaults_self]
  · exact c
  · obtain ⟨f1, f2⟩ := (b m).1 (by rw [hl]; exact ho)
    rw [modLink_other _ _ hm, modLane_link, f1, hl, modLink_lane, modLane_other _ _ hm, f2, ← hv]
    simp [modLane_other _ _ hm]
  · have : (v.removeClaims n).linkFaults m = v.linkFaults m := by simp [State.linkFaults, a]
    simp only [modLink_linkFaults, modLane_linkFaults, this]
    rw [← hv, modFaults_other _ _ hm]; simp
  · exact (b m).2 (fun k => by rw [← hv]; exact hk k) k

/-- The links that are ONLINE or in TEARDOWN: each may yet end a teardown. -/
def State.mayEnd (s : State) (n : LinkId) : Bool := (s.link n).state == .teardown || (s.link n).state == .online

theorem removalDue_iff (s : State) (n : LinkId) : s.teardownReady n = true ↔ s.removalDue n := by
  simp [State.teardownReady, State.removalDue]

theorem endTeardown_state (l : Link) : l.endTeardown.state = .offline ∨ l.endTeardown.state = .disabled := by
  simp only [Link.endTeardown]; split
  · exact .inl rfl
  · exact .inr rfl

theorem countP_lt {α : Type} {p q : α → Bool} {l : List α} {a : α} (h : ∀ x, q x = true → p x = true) (ha : a ∈ l)
    (hp : p a = true) (hq : q a = false) : l.countP q < l.countP p := by
  obtain ⟨x, y, rfl⟩ := List.append_of_mem ha
  have h1 : x.countP q ≤ x.countP p := List.countP_mono_left fun z _ => h z
  have h2 : y.countP q ≤ y.countP p := List.countP_mono_left fun z _ => h z
  rw [List.countP_append, List.countP_append, List.countP_cons_of_neg (by simp [hq]), List.countP_cons_of_pos hp]
  omega

theorem mem_allLinks (n : LinkId) : n ∈ allLinks := by revert n; decide

/-- A teardown that ends leaves fewer links that may end one: an ONLINE link stays so or begins one, and a link that has
left TEARDOWN does not come back. -/
theorem finishTeardown_fewer {s : State} {n : LinkId} (h : (s.link n).state = .teardown) :
    allLinks.countP (s.finishTeardown n).mayEnd < allLinks.countP s.mayEnd := by
  obtain ⟨a, _, _, _, _, b⟩ := finishTeardown_does s n h
  refine countP_lt (a := n) (fun m hm => ?_) (mem_allLinks n) (by simp [State.mayEnd, h]) ?_
  · by_cases e : m = n
    · subst e; simp [State.mayEnd, h]
    · by_cases ho : (s.link m).state = .online
      · simp [State.mayEnd, ho]
      · simpa [State.mayEnd, ((b m e).1 ho).1] using hm
  · unfold State.mayEnd
    rw [a]
    rcases endTeardown_state (s.link n) with e | e <;> rw [e] <;> decide

/-- With no more links that may end a teardown than `k`, one more turn changes nothing. -/
theorem finishTeardowns_enough (k : Nat) : ∀ s : State, allLinks.countP s.mayEnd ≤ k →
    s.finishTeardowns (k + 1) = s.finishTeardowns k := by
  induction k with
  | zero =>
    intro s h
    rw [finishTeardowns_quiet, finishTeardowns_quiet] <;>
    · intro n
      refine teardownReady_false fun e => ?_
      have := List.countP_eq_zero.mp (Nat.le_zero.mp h) n (mem_allLinks n)
      simp [State.mayEnd, e] at this
  | succ k ih =>
    intro s h
    rw [State.finishTeardowns, State.finishTeardowns]
    cases e : allLinks.find? s.teardownReady with
    | none => rfl
    | some n =>
      dsimp only
      have hn := ((removalDue_iff s n).mp (List.find?_some e)).1
      exact ih _ (by have := finishTeardown_fewer hn; omega)

/-- A link that is not ONLINE and whose removal is not due stays as it is, whatever other teardowns end. -/
theorem finishTeardowns_spares (k : Nat) : ∀ (s : State) (n : LinkId), (s.link n).state ≠ .online → ¬ s.removalDue n →
    (s.finishTeardowns k).link n = s.link n ∧ (s.finishTeardowns k).lane n = s.lane n ∧
      (s.finishTeardowns k).linkFaults n = s.linkFaults n ∧
      (∀ q ∈ (s.finishTeardowns k).faults.queue, q ∈ s.faults.queue) ∧
      ((∀ k, s.claimAt (.link n) k = none) → ∀ j, (s.finishTeardowns k).claimAt (.link n) j = none) := by
  induction k with
  | zero => exact fun s n _ _ => ⟨rfl, rfl, rfl, fun _ h => h, fun h => h⟩
  | succ k ih =>
    intro s n ho hd
    rw [State.finishTeardowns]
    split
    · exact ⟨rfl, rfl, rfl, fun _ h => h, fun h => h⟩
    · rename_i m e
      have hm := (removalDue_iff s m).mp (List.find?_some e)
      have hne : n ≠ m := fun e => hd (e ▸ hm)
      obtain ⟨_, _, a, _, _, b⟩ := finishTeardown_does s m hm.1
      obtain ⟨b1, b2, b3⟩ := b n hne
      obtain ⟨c1, c2⟩ := b1 ho
      obtain ⟨d1, d2, d3, d4, d5⟩ := ih (s.finishTeardown m) n (by rw [c1]; exact ho)
        (by rw [State.removalDue, c1, c2]; exact hd)
      exact ⟨d1.trans c1, d2.trans c2, d3.trans b2, fun q hq => (a q (d4 q hq)).1, fun h => d5 (b3 h)⟩

/-- Every teardown that is due ends. -/
theorem finishTeardowns_ends (k : Nat) : ∀ (s : State) (n : LinkId), allLinks.countP s.mayEnd ≤ k → s.removalDue n →
    (s.finishTeardowns k).link n = (s.link n).endTeardown ∧
      (s.finishTeardowns k).lane n = { s.lane n with responseQ := [], readSlot := none, writeSlot := none } ∧
      (∀ q ∈ (s.finishTeardowns k).faults.queue, q.link ≠ n) ∧
      ((s.finishTeardowns k).linkFaults n).stream = .flowing ∧
      ∀ j, (s.finishTeardowns k).claimAt (.link n) j = none := by
  induction k with
  | zero =>
    intro s n h hd
    have := List.countP_eq_zero.mp (Nat.le_zero.mp h) n (mem_allLinks n)
    simp [State.mayEnd, hd.1] at this
  | succ k ih =>
    intro s n h hd
    rw [State.finishTeardowns]
    split
    · rename_i e
      have := List.find?_eq_none.mp e n (mem_allLinks n)
      exact absurd ((removalDue_iff s n).mpr hd) this
    · rename_i m e
      have hm := (removalDue_iff s m).mp (List.find?_some e)
      obtain ⟨a1, a2, a3, a4, a5, b⟩ := finishTeardown_does s m hm.1
      by_cases hn : n = m
      · subst hn
        have hs : ((s.finishTeardown n).link n).state ≠ .online ∧ ((s.finishTeardown n).link n).state ≠ .teardown := by
          rw [a1]
          rcases endTeardown_state (s.link n) with e | e <;> rw [e] <;> decide
        obtain ⟨d1, d2, d3, d4, d5⟩ := finishTeardowns_spares k (s.finishTeardown n) n hs.1 fun e => hs.2 e.1
        exact ⟨d1.trans a1, d2.trans a2, fun q hq => (a3 q (d4 q hq)).2, by rw [d3]; exact a4, d5 a5⟩
      · obtain ⟨b1, _, _⟩ := b n hn
        obtain ⟨c1, c2⟩ := b1 (by rw [hd.1]; decide)
        obtain ⟨d1, d2, d3, d4, d5⟩ := ih (s.finishTeardown m) n
          (by have := finishTeardown_fewer hm.1; omega) (by rw [State.removalDue, c1, c2]; exact hd)
        rw [c1] at d1
        rw [c2] at d2
        exact ⟨d1, d2, d3, d4, d5⟩

/-- A teardown's end with its causes written out. -/
theorem endTeardown_tornDown {l : Link} {c : Cause} {rest : List Cause} (h : l.causes = c :: rest) :
    l.endTeardown = l.tornDown c rest := by
  have hw : (if l.causes.head? = some Cause.detach ∧ l.causes.contains Cause.lost = false
      then Message.bytes ⟨l.detachTag, l.session, false, .detached⟩ else l.wire) =
      if c = .detach ∧ Cause.lost ∉ rest then [0x82, l.detachTag, l.session, 0, 0, 0] else l.wire := by
    rw [h]
    cases c <;> simp [Message.bytes, Body.kind, Body.bytes, le16, byteOf, bit]
  unfold Link.endTeardown Link.tornDown
  rw [hw, h]
  rfl

/-- What follows an event, at a link in TEARDOWN (R163): with transactions in flight the link and its lane stay; with
none the teardown has ended. -/
theorem settle_teardown (s : State) (n : LinkId) (h : (s.link n).state = .teardown) :
    ((s.lane n).inFlight ≠ 0 → s.settle.link n = s.link n ∧ s.settle.lane n = s.lane n) ∧
    ((s.lane n).inFlight = 0 → s.settle.link n = (s.link n).endTeardown ∧
      s.settle.lane n = { s.lane n with responseQ := [], readSlot := none, writeSlot := none } ∧
      (∀ q ∈ s.settle.faults.queue, q.link ≠ n) ∧ (s.settle.linkFaults n).stream = .flowing ∧
      ∀ k, s.settle.claimAt (.link n) k = none) := by
  have later : ∀ t : State, (t.link n).state ≠ .online → ¬ t.removalDue n →
      let u := (t.fillRun.finishTeardowns 6).takeNext
      u.link n = t.link n ∧ u.lane n = t.lane n ∧ u.linkFaults n = t.linkFaults n ∧
        (∀ q ∈ u.faults.queue, q ∈ t.faults.queue) ∧
        ((∀ k, t.claimAt (.link n) k = none) → ∀ j, u.claimAt (.link n) j = none) := by
    intro t ho hd
    obtain ⟨a, b⟩ := spares_fillRun t
    obtain ⟨b1, b2⟩ := (b n).1 ho
    obtain ⟨c1, c2, c3, c4, c5⟩ := finishTeardowns_spares 6 t.fillRun n (by rw [b1]; exact ho)
      (by rw [State.removalDue, b1, b2]; exact hd)
    obtain ⟨d, e⟩ := spares_takeNext (t.fillRun.finishTeardowns 6)
    obtain ⟨e1, e2⟩ := (e n).1 (by rw [c1, b1]; exact ho)
    refine ⟨e1.trans (c1.trans b1), e2.trans (c2.trans b2), ?_, fun q hq => ?_, fun hk => (e n).2 (c5 ((b n).2 hk))⟩
    · have l1 : t.fillRun.linkFaults n = t.linkFaults n := by simp [State.linkFaults, a]
      have l2 : (t.fillRun.finishTeardowns 6).takeNext.linkFaults n = (t.fillRun.finishTeardowns 6).linkFaults n := by
        simp [State.linkFaults, d]
      exact l2.trans (c3.trans l1)
    · rw [d] at hq
      have := c4 q hq
      rwa [a] at this
  constructor
  · intro hi
    have hd : ¬ s.removalDue n := fun e => hi e.2
    obtain ⟨a1, a2, _⟩ := finishTeardowns_spares 6 s n (by rw [h]; decide) hd
    obtain ⟨b1, b2, _⟩ := later (s.finishTeardowns 6) (by rw [a1, h]; decide) (by rw [State.removalDue, a1, a2]; exact hd)
    exact ⟨b1.trans a1, b2.trans a2⟩
  · intro hi
    obtain ⟨a1, a2, a3, a4, a5⟩ := finishTeardowns_ends 6 s n
      (Nat.le_trans List.countP_le_length (by decide)) ⟨h, hi⟩
    have hs : ((s.finishTeardowns 6).link n).state ≠ .online ∧ ((s.finishTeardowns 6).link n).state ≠ .teardown := by
      rw [a1]
      rcases endTeardown_state (s.link n) with e | e <;> rw [e] <;> decide
    obtain ⟨b1, b2, b3, b4, b5⟩ := later (s.finishTeardowns 6) hs.1 fun e => hs.2 e.1
    exact ⟨b1.trans a1, b2.trans a2, fun q hq => a3 q (b4 q hq), by rw [State.settle, b3]; exact a4, b5 a5⟩

/-- The lowest-numbered teardown that is due ends first: what follows an event is then what follows its removal. -/
theorem settle_lowest {s : State} {n : LinkId} (h : s.removalDue n) (hl : ∀ m : LinkId, m.val < n.val → ¬ s.removalDue m) :
    s.settle = (s.finishTeardown n).settle := by
  have hsplit : allLinks = allLinks.take n.val ++ n :: allLinks.drop (n.val + 1) ∧
      ∀ m ∈ allLinks.take n.val, m.val < n.val := by clear h hl; revert n; decide
  have hf : allLinks.find? s.teardownReady = some n := by
    have hn : (allLinks.take n.val).find? s.teardownReady = none := List.find?_eq_none.mpr fun m hm e =>
      hl m (hsplit.2 m hm) ((removalDue_iff s m).mp e)
    rw [hsplit.1, List.find?_append, hn, List.find?_cons_of_pos ((removalDue_iff s n).mpr h)]
    rfl
  have e : s.finishTeardowns 6 = (s.finishTeardown n).finishTeardowns 6 := by
    rw [finishTeardowns_enough 5 (s.finishTeardown n)]
    · rw [State.finishTeardowns, hf]
    · have h1 := finishTeardown_fewer h.1
      have h2 : allLinks.countP s.mayEnd ≤ 6 := Nat.le_trans List.countP_le_length (by decide)
      omega
  rw [State.settle, State.settle, e]

end Sys2Proof.Machine
end

