-- ==== Sys2Proof/Tests/Slice0.lean ====
section
/-! SUPPORT. Tests: the checks of WellFormed, points of the manual's examples and tables, and for each statement with
hypotheses a state that meets them, clause by clause. -/

namespace Sys2Proof.Tests

set_option Elab.async false

open Sys2Proof Sys2Proof.Machine

/-! ## WellFormed refuses an ill-formed operand at each check -/

theorem test_undefined_kind_is_not_a_message : (Instr.undefinedKindFrame 0 0x03).wellFormed = false ∧
    (Instr.undefinedKindFrame 0 0x77).wellFormed = true := by decide

theorem test_fill_client_has_slot_0_only : (Instr.claimDrainEnd .fill 1).wellFormed = false ∧
    (Instr.revokedDrainEnd .fill 1).wellFormed = false ∧ (Instr.timedOut .fill 15).wellFormed = false ∧
    (Instr.claimDrainEnd .fill 0).wellFormed = true := by decide

theorem test_fill_claim_has_no_lease : (Instr.leaseExpiry .fill 0).wellFormed = false := by decide

theorem test_fill_has_two_transactions : (Instr.fillCompletion 2).wellFormed = false := by decide

theorem test_lane_has_sixteen_transactions : (Instr.transactionCompletion 0 16 false).wellFormed = false := by decide

/-! ## States built in the tests -/

/-- The state after a command, when it answers one. -/
def after (i : Instr) (s : State) : State :=
  match exec i s with
  | .next t => t
  | _ => s

/-- The state after some commands. -/
def run (l : List Instr) (s : State) : State := l.foldl (fun s i => after i s) s

/-- A frame whose length field is right. -/
def frame (tag : Byte) (body : List Byte) : Frame := ⟨tag, BitVec.ofNat 16 body.length, body⟩

/-- A surface of one block: RGB16, 100 by 64 pixels, with a clip; link 1 may write, link 2 may read. -/
def desc : Desc :=
  ⟨.rgb16, 100, 64, 256, 1, [⟨0, 1⟩], some ⟨10, 0, 19, 63⟩, #v[.write, .read, .none, .write, .none, .none], 10, false⟩

/-- Entry 1 holds the surface with generation 1. -/
def live : State :=
  { (State.reset.modEntry 1 fun _ => ⟨.live desc, 1, 1, 0⟩).modPart 1 fun _ => some (ChangePart.fresh ⟨1, 1⟩) with
    alloc := ⟨4, [.owned 1, .free, .free, .free], [⟨1, 3⟩], [], 3, 1, 0, 0⟩ }

/-- Entry 1 is RETIRING. -/
def retiring : State := live.modEntry 1 fun e => { e with state := .retiring desc }

/-- Link `n` is ONLINE in session 1. -/
def online (n : LinkId) (s : State) : State :=
  s.modLink n fun l => { l with state := .online, enable := true, session := 1, ctrlCredits := 4, accCredits := 8 }

/-- The command with the kind, the tag 7 and the staging words given executes, at a stage. -/
def executing (kind : Byte) (stage : Vector Word 8) (st : Stage) (s : State) : State :=
  { s with cmd := { s.cmd with executing := some ⟨⟨kind, 7, stage⟩, st⟩, reserved := 1 } }

/-- The record of that command. -/
def record (kind : Byte) (stage : Vector Word 8) : CmdRecord := ⟨kind, 7, stage⟩

/-- CREATE's staging for a surface of one block. -/
def createWords : Vector Word 8 := #v[1, 0x00400064, 0x000A0100, 0, 0, 0x046, 0, 0]

/-- A claim of link 1 on entry 1 in a state and a mode, with a lease of 5. -/
def claim (st : ClaimState) (m : Mode) : Claim := ⟨⟨1, 1⟩, m, st, 5, 5, false, 0, 0, 0, 0, 9, 1, 8⟩

/-- The slot copy of the surface. -/
def copy : Copy := copyOf ⟨1, 1⟩ 1 desc

/-- A burst of link 1 on the surface: ten pixels from pixel 5 of row 3. -/
def burst (d : Mode) : Burst := ⟨d, 0x21, ⟨1, 1⟩, 5, 3, 10, if d = .write then List.replicate 20 0xAB else [], 1, false⟩

/-- Link 1 is ONLINE with a claim, both slots filled and a burst to judge. -/
def judging (d : Mode) : State :=
  ((online 0 live).setClaim (.link 0) 0 (some (claim .held .write))).modLane 0 fun l =>
    { l with accessQ := [burst d], readSlot := some copy, writeSlot := some copy }

/-- A lane with no response in its queue has no READY one at its head. -/
theorem waits_of_nil {l : Lane} (h : l.responseQ = []) : l.waits := by
  intro _ _ _ _ h'; rw [h] at h'; cases h'

/-- A lane whose oldest response is in flight has no READY one at its head. -/
theorem waits_of_inFlight {l : Lane} {b w ps r} (h : l.responseQ = .inFlight b w ps :: r) : l.waits := by
  intro _ _ _ _ h'; rw [h] at h'; cases h'

/-! ## Points of the manual -/

/-- R8: the generation after 255 is 1. -/
theorem test_generation_wraps_to_1 : nextGen 255 = 1 ∧ nextGen 0 = 1 ∧ nextGen 254 = 255 := by decide

/-- R9: index 0 is stale in every state; a wrong generation is stale. -/
theorem test_handle_classes : live.classify ⟨0, 0⟩ = .stale ∧ live.classify ⟨1, 2⟩ = .stale ∧
    live.classify ⟨1, 1⟩ = .current desc ∧ retiring.classify ⟨1, 1⟩ = .retiring desc := by decide +kernel

/-- R15: width 100 of RGB16 needs a pitch of at least 200, and a pitch that is a multiple of 64. -/
theorem test_create_pitch_check : (createParams #v[1, 0x00400064, 192, 0, 0, 0, 0, 0]).check = .error 4 ∧
    (createParams #v[1, 0x00400064, 288, 0, 0, 0, 0, 0]).check = .error 4 ∧
    ((createParams #v[1, 0x00400064, 256, 0, 0, 0, 0, 0]).check.map Desc.blocks) = .ok 1 := ⟨rfl, rfl, rfl⟩

/-- R17: after a reset the first CREATE makes the surface 1:1 with its blocks from block 0. -/
theorem test_create_first_surface : ((after .create (executing 1 createWords .fresh live)).cmd.completions.map
    Completion.words) = [[0x0201, 1, 1]] := by decide +kernel

/-- R89: the lowest run long enough is used; otherwise whole runs in ascending order. -/
theorem test_choose_runs : chooseRuns 2 [⟨0, 1⟩, ⟨4, 3⟩, ⟨9, 2⟩] = some ([⟨4, 2⟩], [⟨0, 1⟩, ⟨6, 1⟩, ⟨9, 2⟩]) ∧
    chooseRuns 5 [⟨0, 1⟩, ⟨4, 3⟩, ⟨9, 2⟩] = some ([⟨0, 1⟩, ⟨4, 3⟩, ⟨9, 1⟩], [⟨10, 1⟩]) := by decide

/-- R86: a run that touches both neighbours makes one of the three. -/
theorem test_join_merges_both : joinFree ⟨2, 2⟩ [⟨0, 2⟩, ⟨4, 1⟩] = [⟨0, 5⟩] ∧
    joinFree ⟨3, 1⟩ [⟨0, 2⟩, ⟨5, 1⟩] = [⟨0, 2⟩, ⟨3, 1⟩, ⟨5, 1⟩] := by decide

/-- R68: a height of 65 gives bands of 2 rows and 33 non-empty bands. -/
theorem test_bands_of_65_rows : bandHeight 65 = 2 ∧ bandOf 65 64 = 32 ∧ allBands 65 = 0x1FFFFFFFF := by decide

/-- R112: a span that crosses a block is split at the boundary, each part through the run list. -/
theorem test_span_splits_at_block : spanParts [⟨7, 1⟩, ⟨2, 1⟩] 16380 10 = [(7 * 16384 + 16380, 4), (2 * 16384, 6)] := by
  decide

/-- R110: pixels 5 to 14 under a clip from 10 to 19 leave five. -/
theorem test_trim : trim (some ⟨10, 0, 19, 63⟩) 5 3 10 = (10, 5) ∧ (trim (some ⟨10, 0, 19, 63⟩) 5 64 10).2 = 0 := by decide

/-- R55: with WARN_EIGHTHS 6 a lease of 10 is warned at 7 ticks. -/
theorem test_warning_point : warningPoint 10 6 = 7 := by decide

/-- R187, 11.5: the bytes of ATTACHED in session 3. -/
theorem test_attached_bytes : Message.bytes ⟨0, 3, false, .attached 4 8⟩ = [0x81, 0, 3, 0, 2, 0, 4, 8] := by decide

/-- R187, 11.5: the bytes of a RELEASE with tag 0x31, slot 2 and PUBLISH are that request of link 1. -/
theorem test_release_message : messageCommand 0 [0x04, 0x31, 2, 0, 2, 1] =
    some (.controlRequest 0 .release (frame 0x31 [2, 1])) ∧
    parseControl .release (frame 0x31 [2, 1]) = some (.release 0x31 2 true) := by decide

/-- R187: the body length's least significant byte comes first. -/
theorem test_body_length_bytes : (readHeader [0x11, 7, 0x07, 0x01]).map (fun m => m.2.len.toNat) = some 263 := by decide

/-- R77: two publishes behind with two entries in the ring is DELTA, three is FULL. -/
theorem test_changes_distance :
    let p : ChangePart := ⟨⟨1, 1⟩, 2, 0, 0, [(1, 1), (2, 4)]⟩
    p.answer 64 0 = (.delta, 5) ∧ p.answer 64 1 = (.delta, 4) ∧ p.answer 64 2 = (.current, 0) ∧
      (p.answer 64 3).1 = .full := by decide

/-- R33, R35: a first CLAIM of a free surface is granted in slot 0 and answered GRANTED. -/
theorem test_claim_granted : (((run [.controlRequest 0 .claim (frame 0x31 [1, 1, 1, 5, 0, 0, 0]), .claim 0 .whole]
    (online 0 live)).link 0).ctrlOut.map Message.body) = [.granted 0 ⟨1, 1⟩ .write 0 false 0] := by decide +kernel

/-- R113, R110: the write of ten pixels under the clip issues one transaction for five. -/
theorem test_write_is_trimmed : ((after (.burstJudging 0) (judging .write)).fmi.txns.map fun t => (t.addr, t.length)) =
    [(3 * 256 + 20, 10)] := by decide +kernel

/-- R114: the read that is issued after that write returns the written bytes. -/
theorem test_read_after_write : ((after (.burstJudging 0) (judging .write)).fmi.readBytes 788 2) = [0xAB, 0xAB] := by
  decide +kernel

/-- R116: of two READs the second completes first and waits; at the first's completion both are sent in order. -/
theorem test_responses_in_order :
    let two := run [.burstJudging 0, .burstJudging 0] ((judging .read).modLane 0 fun l =>
      { l with accessQ := [burst .read, { burst .read with tag := 0x22 }] })
    let one := after (.transactionCompletion 0 1 true) two
    ((one.link 0).accOut = [] ∧ ((after (.transactionCompletion 0 0 true) one).link 0).accOut.map Message.tag =
      [0x21, 0x22]) := by decide +kernel

/-- R45, R73: a RETIRE that revokes a HELD WRITE claim with nothing outstanding tears the surface and tells the link. -/
theorem test_retire_tears_and_tells :
    let u := after .retire (executing 3 #v[0x0101, 0, 0, 0, 0, 0, 0, 0] .fresh
      (((online 0 live).setClaim (.link 0) 2 (some (claim .held .write))).modPart 1 (Option.map fun p =>
        { p with pending := 4 })))
    (u.part 1).map ChangePart.torn = some 4 ∧
      (u.link 0).ctrlOut.map Message.body = [.revoked 2 ⟨1, 1⟩ .write .retired 0 true] := by decide +kernel

/-- R157: a WRITE whose format was not known at its length check faults STALE_HANDLE, though its handle is current when
it is judged. -/
theorem test_formatless_write_is_stale :
    (((after (.burstJudging 0) (((judging .write).modLane 0 fun l =>
      { l with accessQ := [(burst .write).unformatted] }).modFaults 0 fun f => { f with policy := .answer })).link 0).accOut.map
      Message.body) = [.accessError .staleHandle] := by decide +kernel

/-- R124: a burst outside the surface under ANSWER is answered BOUNDS. -/
theorem test_bounds_answered : (((after (.burstJudging 0) (((judging .read).modLane 0 fun l =>
    { l with accessQ := [{ burst .read with x := 91 }] }).modFaults 0 fun f => { f with policy := .answer })).link 0).accOut.map
      Message.body) = [.accessError .bounds] := by decide +kernel

/-- R180: SCRUB_IDLE asserts INT while enabled. -/
theorem test_int_follows_enable : ({ State.reset with cmd := { State.reset.cmd with
      scrubIdle := true, enables := 8 } } : State).interruptOutput = true ∧
    ({ State.reset with cmd := { State.reset.cmd with scrubIdle := true } } : State).interruptOutput = false := by
  decide +kernel

/-- R166, 11.6: the identification register and a DISABLED link's status. -/
theorem test_window_reads : State.reset.hostRead 64 = 0x00010640 ∧ State.reset.hostRead 258 = 0 ∧
    (online 0 live).hostRead 258 = 0x08040102 := by decide +kernel

/-! ## States that meet the hypotheses of the statements

Each theorem is named after the statement; its conjuncts are the hypotheses of the statement's clauses, in their
order, at states and operands that meet them. -/

theorem witness_StepRunsTheFrontCommand : ({ State.reset with pending := [.tick, .space] } : State).pending =
    .tick :: [.space] := rfl

theorem witness_MemoryRecordsBlocksAndRegistersHaveTheirCommands :
    (∃ t, exec (.softReset 2) State.reset = .next t) ∧ changesMemory (.softReset 2) = false ∧
    changesRecords (.softReset 2) = false ∧ changesBlocks (.softReset 2) = false ∧
    changesHostRegisters (.softReset 2) = false := ⟨⟨_, rfl⟩, rfl, rfl, rfl, rfl⟩

/-- With 31 and with 32 slots used, and with a link in TEARDOWN whose link in-flight count is 1. -/
theorem witness_NextCommandIsTakenWhenItCan :
    let r := record 8 createWords
    let s (n : Nat) : State := { State.reset with cmd := { State.reset.cmd with
      queue := [r], completions := List.replicate n ⟨0, 8, .ok, []⟩ } }
    let down := (State.reset.modLink 0 fun l => { l with state := .teardown, causes := [.lost] }).modLane 0 fun l =>
      { l with inFlight := 1 }
    (∀ n, ¬ State.reset.removalDue n) ∧ (∀ n, ¬ down.removalDue n) ∧ (down.link 0).state = .teardown ∧
      State.reset.fill.state ≠ .writing ∧ State.reset.cmd.queue = [] ∧
      (s 31).cmd.executing = none ∧ (s 31).cmd.completions.length + (s 31).cmd.reserved < 32 ∧
      32 ≤ (s 32).cmd.completions.length + (s 32).cmd.reserved ∧
      (executing 8 createWords .fresh State.reset).cmd.executing ≠ none := by decide +kernel

theorem witness_EitherResetClearsTheFaultUnit : (∃ strap, Instr.powerOn 3 = .powerOn strap) ∧
    ∃ w, Instr.softReset 1 = .softReset w ∧ flag w 0 = true := ⟨⟨3, rfl⟩, 1, rfl, by decide⟩

theorem witness_SoftResetKeepsGenerationsStampsAndSessions : flag 2 0 = false ∧ flag 1 0 = true := by decide

/-- With 15 and with 16 records, and with a completion and none. -/
theorem witness_SubmitAppendsAndPopRemoves :
    let s (n : Nat) : State := { State.reset with cmd := { State.reset.cmd with
      queue := List.replicate n (record 8 createWords), completions := List.replicate n ⟨0, 8, .ok, []⟩ } }
    (s 15).cmd.queue.length < 16 ∧ 16 ≤ (s 16).cmd.queue.length ∧ (s 1).cmd.completions = ⟨0, 8, .ok, []⟩ :: [] ∧
      (s 0).cmd.completions = [] := by decide +kernel

theorem witness_StatusWriteClearsStickySources : 3 ≤ 6 ∧ 6 ≤ 6 ∧ 2 < 3 := by decide

theorem witness_EnablesDriveTheInterruptOutput : 6 < 7 ∧ ∃ w, Instr.softReset 1 = .softReset w ∧ flag w 0 = true :=
  ⟨by decide, 1, rfl, by decide⟩

theorem witness_ConfigurationWritesStoreTheirFields : (State.reset.link 5).state = .disabled ∧
    ((online 5 live).link 5).state ≠ .disabled := by decide +kernel

theorem witness_LinkControlWritesMoveTheLink :
    let offline := live.modLink 0 fun l => { l with enable := true, state := .offline }
    let teardown := live.modLink 0 fun l => { l with enable := true, state := .teardown, causes := [.lost] }
    (State.reset.link 0).enable = false ∧ (offline.link 0).enable = true ∧ (offline.link 0).state = .offline ∧
      ((online 0 live).link 0).enable = true ∧ ((online 0 live).link 0).state = .online ∧
      (teardown.link 0).enable = true ∧ (teardown.link 0).state = .teardown ∧
      (State.reset.link 0).state = .disabled := by decide +kernel

/-- Every range at its ends; and a write of ENABLE and RESET together in each state of a link. -/
theorem witness_RegisterWriteStoresOrIsIgnored :
    let offline := live.modLink 0 fun l => { l with enable := true, state := .offline }
    let teardown := live.modLink 0 fun l => { l with enable := true, state := .teardown, causes := [.lost] }
    let half := (online 0 live).modLink 0 fun l => { l with enable := false }
    (7 : BitVec 10).toNat < 8 ∧ 9 ≤ (9 : BitVec 10).toNat ∧ (255 : BitVec 10).toNat < 256 ∧
      (9 : BitVec 10).toNat ∉ [22, 32, 33, 48, 49, 50, 51, 192, 193] ∧
      (255 : BitVec 10).toNat ∉ [22, 32, 33, 48, 49, 50, 51, 192, 193] ∧ 256 ≤ (258 : BitVec 10).toNat ∧
      2 ≤ (258 : BitVec 10).toNat % 32 ∧ 2 ≤ (447 : BitVec 10).toNat % 32 ∧ 448 ≤ (448 : BitVec 10).toNat ∧
      (1 : Word).getLsbD 1 = false ∧ (1 : Word).getLsbD 0 = (offline.link 0).enable ∧ (2 : Word).getLsbD 1 = true ∧
      (3 : Word).getLsbD 0 ≠ (live.link 0).enable ∧ (live.link 0).state = .disabled ∧
      (2 : Word).getLsbD 0 ≠ (offline.link 0).enable ∧ (offline.link 0).state = .offline ∧
      (2 : Word).getLsbD 0 ≠ (teardown.link 0).enable ∧ (teardown.link 0).state = .teardown ∧
      (3 : Word).getLsbD 0 ≠ (half.link 0).enable ∧ (half.link 0).state = .online ∧ (half.link 0).enable = false ∧
      (2 : Word).getLsbD 0 ≠ ((online 0 live).link 0).enable ∧ ((online 0 live).link 0).state = .online ∧
      ((online 0 live).link 0).enable = true := by decide +kernel

theorem witness_CreateMakesALiveSurface :
    let s := executing 1 createWords .fresh live
    s.executes .create (record 1 createWords) ∧ (∃ d, (createParams createWords).check = .ok d ∧ d.blocks = 1) ∧
      s.lowestFree 2 ∧ (∃ p, s.alloc.allocate 1 2 = .ok p) ∧ s.portTurn = some .commandEngine :=
  ⟨by decide +kernel, ⟨_, rfl, rfl⟩, by decide +kernel, ⟨_, rfl⟩, by decide +kernel⟩

/-- CREATE's staging with a right of 3. -/
def wrongRight : Vector Word 8 := #v[1, 0x00400064, 0x000A0100, 0, 0, 3, 0, 0]

/-- Each parameter of `createWords` is in range, and each of `wrongRight` before the last. -/
theorem witness_parameters_in_range :
    (∀ j, (createParams createWords).inRange j) ∧ ∀ j, j < 6 → (createParams wrongRight).inRange j := by
  have good : ∀ st : Vector Word 8, (createParams st).format = some .rgb16 → (createParams st).width = 100 →
      (createParams st).height = 64 → (createParams st).pitch = 256 → (createParams st).clip = none →
      ∀ j, j ≠ 6 → (createParams st).inRange j := by
    intro st hf hw hh hp hc j hj
    match j with
    | 0 => trivial
    | 1 => simp [CreateParams.inRange, hf]
    | 2 => simp [CreateParams.inRange, hw]
    | 3 => simp [CreateParams.inRange, hh]
    | 4 => simp [CreateParams.inRange, hf, hw, hp, Format.bpp]
    | 5 => simp [CreateParams.inRange, hc]
    | 6 => exact absurd rfl hj
    | j + 7 => trivial
  refine ⟨fun j => ?_, fun j h => good wrongRight (by decide) (by decide) (by decide) (by decide) (by decide) j (by omega)⟩
  by_cases h : j = 6
  · subst h; exact (by decide : (createParams createWords).rights.isSome = true)
  · exact good createWords (by decide) (by decide) (by decide) (by decide) (by decide) j h

/-- The first and the last parameter out of range, a full table, and each refusal of the space checks. -/
theorem witness_CreateIsRefusedAtItsFirstFailedCheck :
    let full : State := { live with table := { live.table with
      entries := Vector.replicate 256 ⟨.live desc, 1, 1, 0⟩ } }
    (executing 1 createWords .fresh live).executes .create (record 1 createWords) ∧
      ¬ (createParams #v[4, 0, 0, 0, 0, 0, 0, 0]).inRange 1 ∧
      (∀ j, 1 ≤ j → j < 6 → (createParams wrongRight).inRange j) ∧ ¬ (createParams wrongRight).inRange 6 ∧
      (∀ k, (createParams createWords).inRange k) ∧
      (∀ i, i ≠ 0 → (full.entry i).state ≠ .free) ∧ live.lowestFree 2 ∧
      (let a : Allocator := ⟨4, [], [], [], 0, 3, 1, 0⟩; a.free < 1 ∧ 1 ≤ a.free + a.scrubbing + a.retiringOwned) ∧
      (let a : Allocator := ⟨4, [], [], [], 0, 4, 0, 0⟩; a.free < 1 ∧ a.free + a.scrubbing + a.retiringOwned < 1) ∧
      chooseRuns 9 ((List.range 9).map fun k => ⟨2 * k, 1⟩) = none :=
  ⟨by decide +kernel, (by decide : ¬ (createParams #v[4, 0, 0, 0, 0, 0, 0, 0]).format.isSome = true),
    fun j _ h => witness_parameters_in_range.2 j h, (by decide : ¬ (createParams wrongRight).rights.isSome = true),
    witness_parameters_in_range.1, by decide +kernel, by decide +kernel, by decide, by decide, by decide⟩

/-- A null, a stale and a retiring handle; a clip to the surface's last pixel, one past it, and a right 3. -/
theorem witness_ModifyChecksAndUpdates :
    let st (h clip x1 rights : Word) : Vector Word 8 := #v[h ||| (clip <<< 16), 0, 0, 0, x1, rights, 0, 0]
    let s (w : Vector Word 8) := executing 2 w .fresh live
    let good := st 0x0101 1 (99 + 63 * 65536) 0x555
    (s good).executes .modify (record 2 good) ∧ (stagedHandle (st 0 0 0 0)).index = 0 ∧
      (stagedHandle good).index ≠ 0 ∧ (s good).portTurn = some .commandEngine ∧
      (s good).classify ⟨1, 2⟩ = .stale ∧ retiring.classify ⟨1, 1⟩ = .retiring desc ∧
      (s good).classify (stagedHandle good) = .current desc ∧
      (rectOf good[3] good[4]).x1 < desc.width ∧ (rectOf good[3] good[4]).y1 < desc.height ∧
      ¬ (rectOf 0 (100 + 63 * 65536)).x1 < desc.width ∧ (good[0].extractLsb' 16 8) = 1 ∧
      (rightsOf good[5]).isSome = true ∧ rightsOf 3 = none := by decide +kernel

/-- After MODIFY's update, and REVOKE with a target out of range, a null, a stale and a retiring handle, a current one
whose whole row is taken, and checked. -/
theorem witness_ModifyAndRevokeRevokeClaims :
    let words (h target : Word) : Vector Word 8 := #v[h ||| (target <<< 16), 0, 0, 0, 0, 0, 0, 0]
    let w := words 0x0101 1
    let s := executing 7 w .fresh live
    (executing 2 w (.modifyUpdated 2) live).cmd.executing = some ⟨record 2 w, .modifyUpdated 2⟩ ∧
      (record 2 w).command = some .modify ∧ (live.entry (stagedHandle w).index).state = .live desc ∧
      s.executes .revoke (record 7 w) ∧ revokeTarget (words 0x0101 7) = none ∧ revokeTarget w ≠ none ∧
      (stagedHandle (words 0 1)).index = 0 ∧ (stagedHandle w).index ≠ 0 ∧ s.portTurn = some .commandEngine ∧
      s.classify ⟨1, 2⟩ = .stale ∧ retiring.classify (stagedHandle w) = .retiring desc ∧
      s.classify (stagedHandle w) = .current desc ∧
      (executing 7 w .revokeChecked live).cmd.executing = some ⟨record 7 w, .revokeChecked⟩ ∧
      revokeTarget w = some (.link 0) ∧ revokeTarget (words 0x0101 0) = some .all := by decide +kernel

/-- The claims that `revokes` speaks of: a HELD one with and without a transaction, a WAITING and a RELEASING one, alone
on its surface and the only one of its link, which hears; a HELD READ one; no claim; and a WAITING one that is queued
behind a writer. -/
theorem witness_revokes :
    let s (cl : Claim) := (online 0 live).setClaim (.link 0) 0 (some cl)
    let queued := ((s (claim .waiting .write)).modQueue 1 fun _ => [.link 0]).setClaim (.link 3) 0
      (some (claim .held .write))
    (∀ cl ∈ [claim .held .write, claim .held .read, claim .waiting .write, claim (.releasing .plain) .write,
        { claim .held .write with outstanding := 1 }],
      (s cl).findClaim (.link 0) 1 = some (0, cl) ∧ ((s cl).link 0).hears cl.session ∧ ((s cl).part 1).isSome = true ∧
      (∀ k, k ≠ 0 → (s cl).claimAt (.link 0) k = none) ∧ (s cl).claimAt .fill 0 = none ∧
      (∀ n k, n ≠ 0 → (s cl).claimAt (.link n) k = none) ∧ (s cl).queue 1 = []) ∧
    (claim .held .write).outstanding = 0 ∧ (live.findClaim (.link 0) 1) = none ∧
    (queued.queue 1 = .link 0 :: [] ∧ (queued.queue 1).Nodup ∧
      queued.findClaim (.link 0) 1 = some (0, claim .waiting .write)) := by decide +kernel

theorem witness_RetireMakesTheSurfaceRetiring :
    let w : Vector Word 8 := #v[0x0101, 0, 0, 0, 0, 0, 0, 0]
    let s := executing 3 w .fresh live
    s.executes .retire (record 3 w) ∧ (stagedHandle createWords).index = 0 ∧ (stagedHandle w).index ≠ 0 ∧
      s.portTurn = some .commandEngine ∧ s.classify ⟨1, 2⟩ = .stale ∧
      retiring.classify (stagedHandle w) = .retiring desc ∧ s.classify (stagedHandle w) = .current desc ∧
      s.hasClaim 1 = false ∧ (s.entry 1).inFlight = 0 ∧ (live.updated 1 ⟨.retiring desc, 1, 2, 0⟩).part 1 ≠ none := by
  decide +kernel

/-- The RETIRE alone in the background, and behind a FILL of the same surface and a RETIRE of another. -/
theorem witness_DrainEndFreesTheSurface :
    let b : Background := ⟨7, 3, ⟨1, 1⟩⟩
    let others : List Background := [⟨5, 9, ⟨1, 1⟩⟩, ⟨6, 3, ⟨2, 1⟩⟩]
    let s (l : List Background) : State :=
      { retiring with cmd := { retiring.cmd with drainEnds := [1], background := l, reserved := l.length } }
    let retires (g : Background) : Bool := g.kind == 3 && g.handle == ⟨1, ((s [b]).entry 1).gen⟩
    (∀ l ∈ [[b], others ++ [b]], (s l).cmd.drainEnds = 1 :: [] ∧ (s l).portTurn = some .commandEngine ∧
      ((s l).entry 1).state = .retiring desc ∧ (s l).cmd.background.find? retires = some b) ∧
      (let s := s [b]; 3 < s.alloc.blocks.length ∧
      s.alloc.scrubQueue = [] ∧ s.fmi.ofScrub = none ∧ { desc with scrub := true }.scrub = true ∧
      desc.runs.head? = some ⟨0, 1⟩) := by decide +kernel

/-- Parts 2 and 3, index 0, a FREE entry, and the second event of part 2. -/
theorem witness_InspectFillsTheBuffer :
    let w (x : Word) : Vector Word 8 := #v[x, 0, 0, 0, 0, 0, 0, 0]
    let s := executing 4 (w 0x0201) .fresh live
    let t := executing 4 (w 0x0201) (.inspectRead 1 1) live
    s.executes .inspect (record 4 (w 0x0201)) ∧ (w 0x0200)[0].extractLsb' 0 8 = 0 ∧
      (w 0x0201)[0].extractLsb' 0 8 ≠ 0 ∧ 2 < ((w 0x0301)[0].extractLsb' 8 8).toNat ∧
      ((w 0x0201)[0].extractLsb' 8 8).toNat ≤ 2 ∧ s.portTurn = some .commandEngine ∧
      (s.entry 2).state.desc = none ∧ (s.entry 1).state.desc = some desc ∧ (w 0x0201)[0].extractLsb' 8 8 = 2 ∧
      t.cmd.executing = some ⟨record 4 (w 0x0201), .inspectRead 1 1⟩ ∧
      (record 4 (w 0x0201)).command = some .inspect := by decide +kernel

theorem witness_QueriesOnlyComplete :
    let w : Vector Word 8 := #v[0x0101, 0, 0, 0, 0, 0, 0, 0]
    (executing 5 w .fresh live).executes .changes (record 5 w) ∧ live.partOf (stagedHandle createWords) = none ∧
      (live.partOf (stagedHandle w)).isSome = true ∧ (executing 8 w .fresh live).executes .space (record 8 w) ∧
      live.alloc.free < 65536 ∧ live.alloc.scrubbing < 65536 ∧ live.alloc.freeRuns.length < 65536 ∧
      (executing 11 w .fresh live).cmd.executing = some ⟨record 11 w, .fresh⟩ ∧ 10 < (record 11 w).kind.toNat ∧
      (record 0 w).kind = 0 := by decide +kernel

/-- A record of link 1's held burst. -/
def held (d : Mode) : State :=
  let s := (judging d).modFaults 0 fun f => { f with stream := .held }
  { s with faults := { s.faults with queue := [⟨0, .noClaim, ⟨1, 1⟩, 5, 3, 10, d, 0x21, 255⟩] } }

/-- Links 0, 6 and 7, actions 0 and 3, no record, and a record of a link in TEARDOWN. -/
theorem witness_ResolveIsRefusedAtItsFirstFailedCheck :
    let w (x : Word) : Vector Word 8 := #v[x, 0, 0, 0, 0, 0, 0, 0]
    let down := (held .read).modLink 0 fun l => { l with state := .teardown }
    (executing 6 (w 1) .fresh live).executes .resolve (record 6 (w 1)) ∧
      ((w 1)[0].extractLsb' 8 8).toNat = ResolveAction.retry.code ∧ 3 ≤ ((w 0x301)[0].extractLsb' 8 8).toNat ∧
      ((w 0x100)[0].extractLsb' 0 8).toNat = 0 ∧ 6 < ((w 7)[0].extractLsb' 0 8).toNat ∧
      1 ≤ ((w 1)[0].extractLsb' 0 8).toNat ∧ ((w 6)[0].extractLsb' 0 8).toNat ≤ 6 ∧
      (∀ q ∈ live.faults.queue, q.link.val + 1 ≠ 1) ∧ (∃ q ∈ down.faults.queue, q.link.val + 1 = 1) ∧
      ∃ n : LinkId, n.val + 1 = 1 ∧ (down.link n).state = .teardown := by decide +kernel

/-- At the taking; at the retried judging of a READ that passes, of a WRITE that the clip trims wholly, and of a burst
that fails, under each policy. -/
theorem witness_RetryTakesTheRecordAndJudgesOnceMore :
    let w : Vector Word 8 := #v[1, 0, 0, 0, 0, 0, 0, 0]
    let q : FaultRecord := ⟨0, .noClaim, ⟨1, 1⟩, 5, 3, 10, .read, 0x21, 255⟩
    let t := executing 6 w (.retrying 0 q) ((judging .read).modFaults 0 fun f => { f with stream := .retrying })
    let bad := { burst .read with x := 91 }
    let off := { burst .write with x := 50 }
    let v := t.modLane 0 fun l => { l with accessQ := [bad] }
    (record 6 w).command = some .resolve ∧ ((executing 6 w .fresh (held .read)).link 0).state = .online ∧
      (executing 6 w .fresh (held .read)).cmd.executing = some ⟨record 6 w, .fresh⟩ ∧
      (w[0].extractLsb' 0 8).toNat = (0 : LinkId).val + 1 ∧ w[0].extractLsb' 8 8 = 0 ∧
      (held .read).faults.queue.find? (fun q => q.link == 0) = some q ∧ ReloadJob.judge ∉ ((held .read).lane 0).reloads ∧
      t.cmd.executing = some ⟨record 6 w, .retrying 0 q⟩ ∧ (t.linkFaults 0).stream = .retrying ∧
      ReloadJob.judge ∉ (t.lane 0).reloads ∧ (t.lane 0).accessQ = burst .read :: [] ∧
      t.validCopy 0 (burst .read) = some copy ∧ (t.link 0).ctrlOut.length < 72 ∧
      (t.permits 0 (burst .read) copy).toOption = some 0 ∧ t.claimAt (.link 0) 0 = some (claim .held .write) ∧
      (t.lane 0).responseQ = [] ∧
      1 ≤ (copy.parts 3 (movedSpan (burst .read) copy).1 (movedSpan (burst .read) copy).2).length ∧
      off.session = (t.link 0).session ∧ off.dir = .write ∧ (movedSpan off copy).2 = 0 ∧
      ((t.modLane 0 fun l => { l with accessQ := [off] }).permits 0 off copy).toOption = some 0 ∧
      (v.lane 0).accessQ = bad :: [] ∧ v.validCopy 0 bad = some copy ∧ (v.permits 0 bad copy).toOption = none ∧
      (v.permits 0 { burst .write with formatless := true } copy).toOption = none ∧
      (v.linkFaults 0).policy = .hold ∧ bad.session = (v.link 0).session ∧
      ((v.modFaults 0 fun f => { f with policy := .answer }).linkFaults 0).policy = .answer := by
  decide +kernel

/-- `Lane.waits` holds of that state's lane, and of a lane whose oldest burst is in flight. -/
theorem witness_waits : ((judging .read).lane 0).waits ∧
    (((judging .write).modLane 0 fun l => { l with responseQ := [.inFlight (burst .write) 5 []] }).lane 0).waits :=
  ⟨waits_of_nil (by decide +kernel), waits_of_inFlight (b := burst .write) (w := 5) (ps := []) (r := [])
    (by decide +kernel)⟩

theorem witness_SkipAndFlushAnswerWithoutJudging :
    let w (x : Word) : Vector Word 8 := #v[x, 0, 0, 0, 0, 0, 0, 0]
    let s := executing 6 (w 0x101) .fresh (held .write)
    s.executes .resolve (record 6 (w 0x101)) ∧ ((w 0x101)[0].extractLsb' 0 8).toNat = (0 : LinkId).val + 1 ∧
      s.faults.queue.find? (fun q => q.link == 0) = some ⟨0, .noClaim, ⟨1, 1⟩, 5, 3, 10, .write, 0x21, 255⟩ ∧
      (s.lane 0).accessQ = burst .write :: [] ∧ (s.lane 0).responseQ = [] ∧ (s.link 0).hears (s.link 0).session ∧
      (∀ c ∈ [burst .write], c.session = (s.link 0).session) ∧ (w 0x101)[0].extractLsb' 8 8 = 1 ∧
      (w 0x201)[0].extractLsb' 8 8 = 2 := by decide +kernel

/-- FILL's staging: x 90, a width, y 63, height 1. -/
def fillWords (w : Word) : Vector Word 8 := #v[0x0101, 90 + 63 * 65536, w + 65536, 0x00FF, 0, 0, 0, 0]

/-- A job on the surface: ten pixels of row 63 from pixel 90. -/
def job : FillJob := ⟨7, ⟨1, 1⟩, 90, 63, 10, 1, 0xFF, true, 0, 63, 90, none, false, copy, false, false, false, false⟩

/-- The fill engine in a state, with the job. -/
def filling (st : FillState) (j : FillJob) (s : State) : State :=
  { s with fill := ⟨st, some j, 7, ⟨1, 1⟩, 0⟩, cmd := { s.cmd with background := [⟨7, 9, ⟨1, 1⟩⟩], reserved := 1 } }

/-- The fill engine's claims that `revokes` speaks of: a WAITING one, and a HELD one with and without a transaction. -/
theorem witness_revokes_fill :
    let f (st : ClaimState) (k : Nat) : Claim := ⟨⟨1, 1⟩, .write, st, 0, 0, false, 0, 9, 9, k, 7, 0, 0⟩
    let s (cl : Claim) := (filling (if cl.state = .waiting then .waiting else .writing) job live).setClaim .fill 0 (some cl)
    (∀ cl ∈ [f .waiting 0, f .held 0, f .held 1], (s cl).findClaim .fill 1 = some (0, cl) ∧ Client.fill ∉ (s cl).queue 1 ∧
      (s cl).fill.job = some job ∧ cl.handle = job.handle ∧ ((s cl).partOf job.handle).isSome = true ∧
      (s cl).cmd.background.find? (fun b => b.kind == 9) = some ⟨7, 9, ⟨1, 1⟩⟩) ∧
    (live.findClaim .fill 1) = none := by decide +kernel

/-- A fill to the surface's last column, and one past it. -/
theorem witness_FillIsRefusedOrStartsAJob :
    let s := executing 9 (fillWords 10) .fresh live
    s.executes .fill (record 9 (fillWords 10)) ∧ (filling .draining job live).fill.state ≠ .idle ∧
      s.fill.state = .idle ∧ (stagedHandle createWords).index = 0 ∧ (stagedHandle (fillWords 10)).index ≠ 0 ∧
      s.portTurn = some .fillEngine ∧ s.classify ⟨1, 2⟩ = .stale ∧ retiring.classify ⟨1, 1⟩ = .retiring desc ∧
      s.classify (stagedHandle (fillWords 10)) = .current desc ∧ desc.width < 90 + 11 ∧ 90 + 10 ≤ desc.width ∧
      63 + 1 ≤ desc.height := by decide +kernel

/-- The engine in each state, its claim undecided, WAITING, HELD with and without a transaction, and RELEASING; and a
withdrawal that is due, with no command executing and with a second STOP_FILL. -/
theorem witness_StopFillActsByTheEnginesState :
    let w := createWords
    let s (st : FillState) := executing 10 w .fresh (filling st job live)
    let cl (st : ClaimState) (k : Nat) : Claim := ⟨⟨1, 1⟩, .write, st, 0, 0, false, 0, 0, 0, k, 7, 0, 0⟩
    let c (st : ClaimState) (k : Nat) := (s .writing).setClaim .fill 0 (some (cl st k))
    let asked : FillJob := { job with stop := true, withdrawAsked := true }
    let due := executing 10 w .fresh (filling .draining asked live)
    (executing 10 w .fresh live).executes .stopFill (record 10 w) ∧ (s .waiting).executes .stopFill (record 10 w) ∧
      live.withdrawalDue = false ∧ (s .waiting).withdrawalDue = false ∧ live.fill.state = .idle ∧
      (s .draining).fill.state = .draining ∧ (s .waiting).fill.job = some job ∧ (s .waiting).fill.state = .waiting ∧
      (s .waiting).claims.filler = none ∧ (s .writing).fill.state = .writing ∧
      (c (.releasing (.revoked .host)) 1).claims.filler = some (cl (.releasing (.revoked .host)) 1) ∧
      (∀ k ∈ [0, 1], (c .held k).claims.filler = some (cl .held k)) ∧ (cl .held 0).handle = job.handle ∧
      ((c .held 0).partOf job.handle).isSome = true ∧
      (c .held 0).cmd.background.find? (fun b => b.kind == 9) = some ⟨7, 9, ⟨1, 1⟩⟩ ∧
      0 < (cl .held 1).outstanding ∧ (cl .held 0).outstanding = 0 ∧ (cl .waiting 0).state = .waiting ∧
      due.executes .stopFill (record 10 w) ∧ due.withdrawalDue = true ∧ due.fill.state = .draining ∧
      (filling .draining asked live).cmd.executing = none ∧ due.fill.job = some asked ∧
      asked.withdrawAsked = true ∧ asked.withdrawTaken = false := by decide +kernel

theorem witness_AttachOpensASession :
    let offline := live.modLink 0 fun l => { l with enable := true, state := .offline }
    (offline.link 0).state = .offline ∧ (offline.link 0).ctrlOut = [] ∧ ((online 0 live).link 0).state = .online ∧
      (live.link 0).state = .disabled ∧ (⟨0, 3, [0, 0, 0]⟩ : Frame).len.toNat ≠ 4 ∧
      (⟨0, 4, [0, 0, 0]⟩ : Frame).body.length ≠ 4 := by decide +kernel

theorem witness_OfflineFramesAreDropped :
    let offline := live.modLink 0 fun l => { l with enable := true, state := .offline }
    clientKinds.contains 0x77 = false ∧ (Instr.read 0 (frame 0 []) = .read 0 (frame 0 [])) ∧
      (offline.link 0).state = .offline ∧ (live.link 0).state = .disabled := by decide +kernel

/-- With the last credit, with a length field that is wrong, and with no credit; a defined kind and an undefined one in
a header, and three bytes. -/
theorem witness_ControlRequestsAreCredited :
    let s := online 0 live
    let f : Frame := ⟨0x31, (0x00 : Byte) ++ (0x02 : Byte), [0, 1]⟩
    (s.link 0).state = .online ∧ parseControl .release (frame 0x31 [0, 1]) = some (.release 0x31 0 true) ∧
      1 ≤ (s.link 0).ctrlCredits ∧ (⟨0, 3, [0, 1]⟩ : Frame).len.toNat ≠ (⟨0, 3, [0, 1]⟩ : Frame).body.length ∧
      parseControl .release (frame 0x31 [0, 2]) = none ∧
      ((s.modLink 0 fun l => { l with ctrlCredits := 0 }).link 0).ctrlCredits = 0 ∧
      clientKinds.contains 0x77 = false ∧
      ((0x04, .controlRequest 0 .release f) : Byte × Instr) ∈ ([(0x04, .controlRequest 0 .release f)] :
        List (Byte × Instr)) ∧ ([0x04, 0x31, 2] : List Byte).length < 4 := by decide +kernel

/-- With a slot that holds the handle, with none, and with index 0. -/
theorem witness_ReadAndWriteJoinTheAccessQueue :
    let s := judging .read
    (s.link 0).state = .online ∧ (s.link 0).arrivals = [] ∧ 1 ≤ (s.link 0).accCredits ∧ (8 : BitVec 16) ≠ 7 ∧
      (27 : BitVec 16).toNat = 7 + (List.replicate 20 (0 : Byte)).length ∧ (s.lane 0).writeSlot = some copy ∧
      copy.handle = ⟨1, 1⟩ ∧ copy.format.bpp = 2 ∧ 20 = ((9 : Byte).toNat + 1) * 2 ∧
      ((online 0 live).lane 0).writeSlot = none ∧ (Handle.mk 0 0).index = 0 ∧
      (((online 0 live).modLink 0 fun l => { l with accCredits := 0 }).link 0).accCredits = 0 := by decide +kernel

/-- Each check failing first, and a claim with exactly the ceiling. -/
theorem witness_ClaimIsRefusedAtItsFirstFailedCheck :
    let own := live.setClaim (.link 0) 0 (some (claim .held .read))
    let full : State := { live with claims := { live.claims with tables := Vector.replicate 6 (Vector.replicate 16
      (some { claim .held .read with handle := ⟨2, 1⟩ })) } }
    live.classify ⟨1, 2⟩ = .stale ∧ retiring.classify ⟨1, 1⟩ = .retiring desc ∧ live.classify ⟨1, 1⟩ = .current desc ∧
      (desc.rights[(1 : LinkId).val]).permits .write = false ∧ (desc.rights[(1 : LinkId).val]).permits .read = true ∧
      (∃ k cl, own.claimAt (.link 0) k = some cl ∧ cl.handle.index = 1) ∧ (∀ k, full.claimAt (.link 0) k ≠ none) ∧
      (∀ k cl, full.claimAt (.link 0) k = some cl → cl.handle.index ≠ 1) ∧
      (∃ k, live.claimAt (.link 0) k = none) ∧ 1 ≤ 10 ∧ 10 ≤ desc.ceiling := by
  refine ⟨by decide +kernel, by decide +kernel, by decide +kernel, by decide +kernel, by decide +kernel,
    ⟨0, claim .held .read, by decide +kernel, by decide⟩, by decide +kernel, ?_, ⟨0, by decide +kernel⟩, by decide, by decide⟩
  intro k cl h
  have : ∀ k : Fin 16, (Vector.replicate 6 (Vector.replicate 16
      (some { claim .held .read with handle := ⟨2, 1⟩ })))[0][k.val] = some { claim .held .read with handle := ⟨2, 1⟩ } := by
    decide +kernel
  have h2 := (this k).symm.trans h
  injection h2 with h2
  rw [← h2]; decide

/-- Link 1 with a request in its list, and with one at the head of the line. -/
def asked (r : CtrlReq) : State := (online 0 live).modLink 0 fun l => { l with requests := [r] }

/-- The request of link 1 at the head of the line of reads. -/
def lined (r : CtrlReq) (w : Bool) : State :=
  let s := (online 0 live).modLink 0 fun l => { l with progress := some .reading }
  { s with claims := { s.claims with line := [.link 0 1 r w] } }

theorem witness_ClaimIsGrantedQueuedOrRefused :
    let r : CtrlReq := .claim 9 ⟨1, 1⟩ .write 5 0
    let s := lined r false
    let other := s.setClaim (.link 3) 0 (some (claim .held .write))
    let joined (s : State) : State := ({ s with claims := { s.claims with line := s.claims.line ++
      [.link 0 1 r false] } } : State).modLink 0 fun l => { l with requests := [], progress := some .reading }
    let behind : State := { asked r with claims := { (asked r).claims with line := [.fill] } }
    (asked r).claims.line = [] ∧ (joined (asked r)).portTurn = some .claimEngine ∧ (joined behind).lineTurn 0 = none ∧
      (asked r).lineTurn 0 = none ∧ ((asked r).link 0).progress = none ∧ ((asked r).link 0).requests = r :: [] ∧
      ((asked r).link 0).hears ((asked r).link 0).session ∧ s.portTurn = some .claimEngine ∧
      (lined r true).claims.line = .link 0 1 r true :: [] ∧ s.claims.line = .link 0 1 r false :: [] ∧
      (s.link 0).hears 1 ∧ s.claimRefusal 0 ⟨1, 1⟩ .write 11 = some .leaseRange ∧
      s.claimRefusal 0 ⟨1, 1⟩ .write 10 = none ∧ s.claimAt (.link 0) 0 = none ∧ s.queue 1 = [] ∧ s.holders 1 = [] ∧
      other.claimRefusal 0 ⟨1, 1⟩ .write 5 = none ∧ other.holders 1 ≠ [] := by decide +kernel

theorem witness_ReleaseDrainsTheClaim :
    let s := asked (.release 8 0 true)
    let t (cl : Claim) := s.setClaim (.link 0) 0 (some cl)
    (s.link 0).progress = none ∧ (s.link 0).requests = .release 8 0 true :: [] ∧
      (s.link 0).hears (s.link 0).session ∧ (∀ k : Fin 16, s.claimAt (.link 0) k = none) ∧
      (t (claim .held .read)).claimAt (.link 0) 0 = some (claim .held .read) ∧ (claim .held .read).mode = .read ∧
      0 < { claim .held .write with outstanding := 1 }.outstanding ∧ (claim .held .write).outstanding = 0 ∧
      (t (claim .held .write)).queue 1 = [] ∧ ((t (claim .held .write)).entry 1).state = .live desc ∧
      (claim .held .write).session = ((t (claim .held .write)).link 0).session := by decide +kernel

/-- The taking that joins the line, empty and behind the fill engine's read; a withdrawn request; and the decision, at the
taking and at the read, with a new length of 0, of the ceiling and past it. -/
theorem witness_RenewStartsTheLeaseAgain :
    let r (l : Option Nat) : CtrlReq := .renew 8 0 0 l
    let s := (asked (r none)).setClaim (.link 0) 0 (some (claim .held .write))
    let t := (lined (r (some 10)) false).setClaim (.link 0) 0 (some (claim .held .write))
    let q := (asked (r (some 10))).setClaim (.link 0) 0 (some (claim .held .write))
    let joined (s : State) : State := ({ s with claims := { s.claims with line := s.claims.line ++
      [.link 0 1 (r (some 10)) false] } } : State).modLink 0 fun l => { l with requests := [], progress := some .reading }
    let behind : State := { q with claims := { q.claims with line := [.fill] } }
    (∀ u ∈ [q, behind], u.claimAt (.link 0) 0 = some (claim .held .write) ∧ u.lineTurn 0 = none ∧
      (u.link 0).progress = none ∧ (u.link 0).requests = r (some 10) :: [] ∧ (u.link 0).session = 1) ∧
      q.claims.line = [] ∧ (joined q).portTurn = some .claimEngine ∧ (joined behind).lineTurn 0 = none ∧
      (lined (r (some 10)) true).portTurn = some .claimEngine ∧
      (lined (r (some 10)) true).claims.line = .link 0 1 (r (some 10)) true :: [] ∧
    (s.link 0).hears (s.link 0).session ∧ s.lineTurn 0 = none ∧ (s.link 0).progress = none ∧
      (s.link 0).requests = r none :: [] ∧ (t.link 0).hears (t.link 0).session ∧
      t.portTurn = some .claimEngine ∧ t.claims.line = .link 0 (t.link 0).session (r (some 10)) false :: [] ∧
      ∀ u ∈ [s, t], u.claimAt (.link 0) 0 = some (claim .held .write) ∧ (u.entry 1).state = .live desc ∧
        (u.claimAt (.link 0) 1 = none) ∧ 1 ≤ (claim .held .write).leaseLen ∧ (0 : BitVec 8) = (claim .held .write).token ∧
        (1 : BitVec 8) ≠ (claim .held .write).token ∧ 10 ≤ desc.ceiling ∧ ¬ 11 ≤ desc.ceiling := by decide +kernel

theorem witness_ChangesOfALinkIsAnswered :
    let r (h : Handle) : CtrlReq := .changes 8 h 0
    let s := lined (r ⟨1, 1⟩) false
    let t := (online 0 live).modLink 0 fun l => { l with progress := some (.answering 8 ⟨1, 1⟩ 0) }
    let joined (s : State) : State := ({ s with claims := { s.claims with line := s.claims.line ++
      [.link 0 1 (r ⟨1, 1⟩) false] } } : State).modLink 0 fun l => { l with requests := [], progress := some .reading }
    let behind : State := { asked (r ⟨1, 1⟩) with claims := { (asked (r ⟨1, 1⟩)).claims with line := [.fill] } }
    (asked (r ⟨1, 1⟩)).claims.line = [] ∧ (joined (asked (r ⟨1, 1⟩))).portTurn = some .claimEngine ∧
      (joined behind).lineTurn 0 = none ∧ (asked (r ⟨1, 1⟩)).lineTurn 0 = none ∧ ((asked (r ⟨1, 1⟩)).link 0).progress = none ∧
      ((asked (r ⟨1, 1⟩)).link 0).requests = r ⟨1, 1⟩ :: [] ∧ (s.link 0).hears (s.link 0).session ∧
      s.portTurn = some .claimEngine ∧ s.claims.line = .link 0 (s.link 0).session (r ⟨1, 1⟩) false :: [] ∧
      (lined (r ⟨1, 1⟩) true).claims.line = .link 0 1 (r ⟨1, 1⟩) true :: [] ∧ (⟨1, 1⟩ : Handle).index ≠ 0 ∧
      (asked (r ⟨0, 0⟩)).lineTurn 0 = none ∧ ((asked (r ⟨0, 0⟩)).link 0).requests = r ⟨0, 0⟩ :: [] ∧
      s.classify ⟨1, 2⟩ = .stale ∧ s.classify ⟨1, 1⟩ = .current desc ∧ retiring.classify ⟨1, 1⟩ = .retiring desc ∧
      desc.rights[(2 : LinkId).val] = .none ∧ desc.rights[(0 : LinkId).val] ≠ .none ∧
      (t.link 0).progress = some (.answering 8 ⟨1, 1⟩ 0) ∧ t.partOf ⟨1, 2⟩ = none ∧
      (t.partOf ⟨1, 1⟩).isSome = true := by decide +kernel

theorem witness_LossAndDetachBeginATeardown :
    let s := asked (.detach 8)
    let down := s.modLink 0 fun l => { l with state := .teardown, causes := [.host] }
    (s.link 0).state = .online ∧ (down.link 0).state = .teardown ∧ (s.link 0).progress = none ∧
      (s.link 0).requests = .detach 8 :: [] := by decide +kernel

/-- With a HELD WRITE claim on a RETIRING surface with nothing in flight, and a READ claim of another surface; and with
one transaction in flight on the link, and a lower link in TEARDOWN whose removal is not due. -/
theorem witness_TeardownEndsTheSession :
    let down := (((online 0 retiring).setClaim (.link 0) 0 (some (claim .held .write))).setClaim (.link 0) 1
      (some { claim .held .read with handle := ⟨2, 1⟩ })).modLink 0 fun l =>
        { l with state := .teardown, causes := [.detach, .host] }
    let waits := down.modLane 0 fun l => { l with inFlight := 1 }
    let two := waits.modLink 1 fun l => { l with state := .teardown, causes := [.lost] }
    (waits.link 0).state = .teardown ∧ (waits.lane 0).inFlight ≠ 0 ∧ two.removalDue 1 ∧
      (∀ m : LinkId, m.val < (1 : LinkId).val → ¬ two.removalDue m) ∧
    down.removalDue 0 ∧ (down.link 0).causes = .detach :: [.host] ∧
      down.claimAt (.link 0) 0 = some (claim .held .write) ∧ (down.entry 1).state = .retiring desc ∧
      (down.entry 1).inFlight = 0 ∧ down.claimAt (.link 0) 1 = some { claim .held .read with handle := ⟨2, 1⟩ } := by
  decide +kernel

/-- Queues with a message, with 71 and with 72 of them. -/
theorem witness_OutboundQueuesSendAndOverflow :
    let m : Message := ⟨8, 1, false, .refused .busy 0⟩
    let s (k : Nat) := (online 0 live).modLink 0 fun l => { l with ctrlOut := List.replicate k m, accOut := [m] }
    ((s 1).link 0).state = .online ∧ ((s 1).link 0).ctrlOut = m :: [] ∧ ((s 1).link 0).accOut = m :: [] ∧
      (live.link 0).state ≠ .online ∧ ((s 1).link 0).session = m.session ∧ ((s 71).link 0).ctrlOut.length < 72 ∧
      72 ≤ ((s 72).link 0).ctrlOut.length := by decide +kernel

/-- A READ to the last column of the last row, a WRITE that the clip trims, and one that it trims wholly, with no
response in the queue (so that `waits` holds, as `witness_waits` says) and with one. -/
theorem witness_JudgingAcceptsAPermittedBurst :
    let e : Burst := { burst .read with x := 90, y := 63 }
    let o : Burst := { burst .write with x := 50 }
    let with_ (b : Burst) := (judging b.dir).modLane 0 fun l => { l with accessQ := [b] }
    (∀ b ∈ [e, burst .write, o],
      ((with_ b).link 0).state = .online ∧ ((with_ b).linkFaults 0).stream = .flowing ∧
      ReloadJob.judge ∉ ((with_ b).lane 0).reloads ∧ ((with_ b).lane 0).accessQ = b :: [] ∧
      ((with_ b).lane 0).responseQ = [] ∧ b.session = ((with_ b).link 0).session ∧
      ((with_ b).lane 0).slot b.dir = some copy ∧ copy.handle = b.handle ∧
      copy.stamp = ((with_ b).entry b.handle.index).stamp ∧
      (with_ b).findClaim (.link 0) b.handle.index = some (0, claim .held .write) ∧
      (claim .held .write).handle = b.handle ∧ b.x + b.n ≤ copy.width ∧ b.y < copy.height ∧
      b.formatless = false) ∧
    1 ≤ (copy.parts 63 90 10).length ∧ 1 ≤ (copy.parts 3 10 5).length ∧ (movedSpan o copy).2 = 0 ∧
    (((with_ o).modLane 0 fun l => { l with responseQ := [.inFlight (burst .write) 5 []] }).lane 0).responseQ ≠ [] := by
  decide +kernel

/-- No valid copy, index 0, a WRITE whose format was not known, no claim, and one column past the surface. -/
theorem witness_JudgingFaultsByThePolicy :
    let s (b : Burst) := (judging .read).modLane 0 fun l => { l with accessQ := [b] }
    let empty := (s (burst .read)).modLane 0 fun l => { l with readSlot := none }
    let unclaimed := (s (burst .read)).setClaim (.link 0) 0 none
    let null := { burst .read with handle := ⟨0, 0⟩ }
    let past := { burst .read with x := 91 }
    (empty.link 0).state = .online ∧ (empty.linkFaults 0).stream = .flowing ∧
      ReloadJob.judge ∉ (empty.lane 0).reloads ∧ (empty.lane 0).accessQ = burst .read :: [] ∧
      empty.validCopy 0 (burst .read) = none ∧ (burst .read).handle.index ≠ 0 ∧ (s null).validCopy 0 null = none ∧
      null.handle.index = 0 ∧ unclaimed.validCopy 0 (burst .read) = some copy ∧
      unclaimed.findClaim (.link 0) 1 = none ∧ (s past).validCopy 0 past = some copy ∧
      (s { burst .write with formatless := true }).validCopy 0 { burst .write with formatless := true } = some copy ∧
      (burst .read).formatless = false ∧ past.formatless = false ∧
      (s past).findClaim (.link 0) 1 = some (0, claim .held .write) ∧ copy.width < past.x + past.n ∧
      (((s past).modFaults 0 fun f => { f with policy := .answer }).linkFaults 0).policy = .answer ∧
      ((s past).lane 0).responseQ = [] ∧ past.session = ((s past).link 0).session ∧
      ((s past).linkFaults 0).policy = .hold ∧ ((s past).link 0).hears ((s past).link 0).session ∧
      (s past).cmd.executing = none := by decide +kernel

/-- A reload for judging, one that is discarded, one for a WRITE's length check and one whose burst or frame is gone; a
stale handle under ANSWER, under HOLD and for a retried burst. -/
theorem witness_ReloadRefillsTheSlot :
    let w : Vector Word 8 := #v[1, 0, 0, 0, 0, 0, 0, 0]
    let q : FaultRecord := ⟨0, .noClaim, ⟨1, 1⟩, 5, 3, 10, .read, 0x21, 1⟩
    let f : AccessFrame := ⟨.write, frame 0x21 ([1, 1, 5, 0, 3, 0, 9] ++ List.replicate 20 0xAB)⟩
    let s (j : ReloadJob) := (judging .read).modLane 0 fun l => { l with reloads := [j] }
    let waits := (s .length).modLink 0 fun l => { l with arrivals := [f] }
    let retry := executing 6 w (.retrying 0 q) ((s .judge).modFaults 0 fun f => { f with stream := .retrying })
    (s .judge).portTurn = some (.reload 0) ∧ ((s .judge).lane 0).reloads = .judge :: [] ∧
      ((s .discarded).lane 0).reloads = .discarded :: [] ∧ ((s .length).link 0).arrivals = [] ∧
      (((s .judge).modLane 0 fun l => { l with accessQ := [] }).lane 0).accessQ = [] ∧
      ReloadJob.judge ∉ ([] : List ReloadJob) ∧
      ((s .judge).link 0).state = .online ∧ ((s .judge).linkFaults 0).stream = .flowing ∧
      ((s .judge).lane 0).accessQ = burst .read :: [] ∧ (s .judge).classify ⟨1, 1⟩ = .current desc ∧
      (s .judge).classify ⟨1, 2⟩ = .stale ∧
      (((s .judge).modFaults 0 fun f => { f with policy := .answer }).linkFaults 0).policy = .answer ∧
      ((s .judge).linkFaults 0).policy = .hold ∧ ((s .judge).link 0).hears ((s .judge).link 0).session ∧
      (s .judge).cmd.executing = none ∧
      ((s .judge).lane 0).responseQ = [] ∧ (burst .read).session = ((s .judge).link 0).session ∧
      retry.portTurn = some (.reload 0) ∧ (retry.linkFaults 0).stream = .retrying ∧
      retry.cmd.executing = some ⟨record 6 w, .retrying 0 q⟩ ∧ (retry.link 0).ctrlOut.length < 72 ∧
      waits.portTurn = some (.reload 0) ∧ (waits.link 0).arrivals = [f] ∧
      parseAccess (waits.link 0).session f = some (burst .write) ∧
      (burst .write).data.length = (burst .write).n * desc.format.bpp ∧ 19 ≠ (burst .write).n * desc.format.bpp ∧
      waits.classify ⟨1, 2⟩ = .stale := by decide +kernel

/-- The one transaction of an accepted READ and of an accepted WRITE, under a HELD claim and as the last one under a
RELEASING claim; alone, and between a part that has completed and one that has not; its burst alone in the response
queue, and with another in flight before it, a READY one behind it and one in flight behind that. -/
theorem witness_CompletionStoresCountsAndAnswers :
    ∀ d ∈ [Mode.read, .write], ∀ st ∈ [ClaimState.held, .releasing .publish], ∀ many ∈ [false, true],
      let before : List Part := if many then [⟨7, .done [1]⟩] else []
      let behind : List Part := if many then [⟨8, .issued⟩] else []
      let inFlight (l : List (List Part)) : List Response := l.map fun ps => .inFlight (burst .read) 10 ps
      let front : List (List Part) := if many then [[⟨9, .issued⟩]] else []
      let ready : List (Byte × BitVec 8 × Body) := if many then [(0x22, 1, .writeDone 5)] else []
      let tail : List (List Part) := if many then [[⟨10, .done [1]⟩, ⟨11, .issued⟩]] else []
      let start := judging d
      let u := after (.burstJudging 0)
        { start with fmi := { start.fmi with mem := (List.range 20).map fun k => (778 + k, BitVec.ofNat 8 k) } }
      let cl := { claim st .write with outstanding := 1 }
      let w := if d = .read then 10 else 5
      ∃ t ∈ u.fmi.txns,
        let q : List Response := inFlight front ++ .inFlight (burst d) w (before ++ ⟨t.id, .issued⟩ :: behind) ::
          (ready.map (fun x => .ready x.1 x.2.1 x.2.2) ++ inFlight tail)
        let s := (u.setClaim (.link 0) 0 (some cl)).modLane 0 fun l => { l with responseQ := q }
        (s.fmi.ofLane 0)[0]? = some t ∧ (s.fmi.txns.map Txn.id).Nodup ∧ t.owner = .lane 0 ⟨1, 1⟩ ∧
        (s.entry 1).state = .live desc ∧ s.findClaim (.link 0) 1 = some (0, cl) ∧ cl.handle = ⟨1, 1⟩ ∧
        (s.lane 0).responseQ = q ∧ (∀ ps ∈ front ++ tail, (∃ p ∈ ps, p.state = .issued) ∧ ∀ p ∈ ps, p.txn ≠ t.id) ∧
        (∀ p ∈ before ++ behind, p.txn ≠ t.id) ∧ (s.part 1).isSome = true ∧
        (s.link 0).state = .online ∧ (burst d).session = (s.link 0).session ∧ cl.session = (s.link 0).session ∧
        s.queue 1 = [] ∧ (s.link 0).ctrlOut.length < 72 ∧ (t.cells.map Prod.fst).Nodup := by decide +kernel

theorem witness_ClaimsEndWithTheirMessages :
    let s (cl : Claim) := (online 0 live).setClaim (.link 0) 0 (some cl)
    let q := (s { claim .waiting .read with waitLimit := 65534 }).modQueue 1 fun _ => [.link 0]
    let b : Background := ⟨7, 9, ⟨1, 1⟩⟩
    let f (st : ClaimState) : Claim := ⟨⟨1, 1⟩, .write, st, 0, 0, false, 0, 65534, 0, 0, 7, 0, 0⟩
    let t (st : ClaimState) := (filling .draining job live).setClaim .fill 0 (some (f st))
    (∀ k ∈ [ReleaseKind.plain, .publish, .revoked .retired],
      (s (claim (.releasing k) .write)).claimAt (.link 0) 0 = some (claim (.releasing k) .write) ∧
      ((s (claim (.releasing k) .write)).entry 1).state = .live desc ∧
      ((s (claim (.releasing k) .write)).link 0).hears (claim (.releasing k) .write).session ∧
      (claim (.releasing k) .write).outstanding = 0) ∧
    (let cl : Claim := { claim .held .write with leaseLeft := 0, outstanding := 1 }
     (s cl).queue 1 = [] ∧ cl.state = .held ∧ 1 ≤ cl.leaseLen ∧ cl.leaseLeft = 0 ∧ 1 ≤ cl.outstanding) ∧
    (∀ st ∈ [ClaimState.waiting, .releasing .plain, .releasing .publish, .releasing (.revoked .host)],
      (t st).claims.filler = some (f st) ∧ (t st).fill.job = some job ∧ (f st).handle = job.handle ∧
      ((t st).partOf job.handle).isSome = true ∧
      (t st).cmd.background.find? (fun b => b.kind == 9) = some b ∧ (f st).outstanding = 0 ∧
      1 ≤ (f st).waitLimit ∧ (f st).waitLimit ≤ 65534 ∧ (f st).waitLeft = 0) ∧
    q.queue 1 = [.link 0] ∧ (q.claimAt (.link 0) 0).isSome = true ∧ (q.link 0).hears 1 ∧ 65534 ≤ 65534 := by
  decide +kernel

/-- The head of a queue, of link 1 and of the fill engine, compatible with no holder and not with a writer. -/
theorem witness_serving_a_queue :
    let f : Claim := ⟨⟨1, 1⟩, .write, .waiting, 0, 0, false, 0, 9, 9, 0, 7, 0, 0⟩
    let s := ((online 0 live).setClaim (.link 0) 0 (some (claim .waiting .write))).modQueue 1 fun _ => [.link 0]
    let t := ((filling .waiting job live).setClaim .fill 0 (some f)).modQueue 1 fun _ => [.fill]
    let writer (u : State) := u.setClaim (.link 3) 0 (some (claim .held .write))
    s.queue 1 = .link 0 :: [] ∧ s.findClaim (.link 0) 1 = some (0, claim .waiting .write) ∧
      s.compatible 1 .write = true ∧ (s.link 0).hears (claim .waiting .write).session ∧
      (writer s).compatible 1 .write = false ∧ t.queue 1 = .fill :: [] ∧ t.findClaim .fill 1 = some (0, f) ∧
      t.compatible 1 f.mode = true ∧ (writer t).compatible 1 f.mode = false := by decide +kernel

/-- Each case of a claim, at the boundaries of its counts, alone on its surface and the only claim of its link; with
WARN_EIGHTHS 6 a lease of 5 is warned at 3 ticks, which are here the third. -/
theorem witness_TickCountsEveryClaim :
    let s (cl : Claim) := (online 0 live).setClaim (.link 0) 0 (some cl)
    let full : State := { State.reset with cmd := { State.reset.cmd with micros := 999 } }
    let warned : Claim := { claim .held .write with leaseLeft := 3 }
    State.reset.pending = [] ∧ State.reset.cmd.micros < State.reset.cmd.interval.toNat ∧
      full.cmd.interval.toNat ≤ full.cmd.micros ∧
      (∀ cl ∈ [{ claim .waiting .read with waitLimit := 65534, waitLeft := 1 },
          { claim .waiting .read with waitLimit := 1, waitLeft := 2 }, claim .waiting .read,
          { claim .waiting .read with waitLimit := 65535 }, claim (.releasing .plain) .write,
          { claim .held .write with leaseLen := 0 }, { claim .held .write with leaseLeft := 2 }, warned,
          { claim .held .write with leaseLeft := 1 }],
        (s cl).claimAt (.link 0) 0 = some cl ∧ Client.link 0 ∉ (s cl).queue cl.handle.index ∧
        ((s cl).link 0).hears cl.session ∧ ((s cl).part cl.handle.index).isSome = true ∧
        (∀ k, k ≠ 0 → (s cl).claimAt (.link 0) k = none) ∧ (s cl).claimAt .fill 0 = none ∧
        ∀ n k, n ≠ 0 → (s cl).claimAt (.link n) k = none) ∧
      warned.warned = false ∧ 1 ≤ 6 ∧ 1 ≤ warned.leaseLen * 6 / 8 ∧ warned.leaseLen * 6 / 8 < warned.leaseLen ∧
      warned.leaseLen * 6 / 8 ≤ warned.leaseLen - (warned.leaseLeft - 1) := by decide +kernel

/-- The FILL alone in the background, and behind a RETIRE; its claim's surface free, and held by another link. -/
theorem witness_FillClaimIsDecidedAtItsRead :
    let b : Background := ⟨7, 9, ⟨1, 1⟩⟩
    let s (j : FillJob) : State :=
      let t := filling .waiting j live
      { t with claims := { t.claims with line := [.fill] } }
    let other := (s job).setClaim (.link 3) 0 (some (claim .held .write))
    (s job).claims.line = .fill :: [] ∧ (s job).portTurn = some .claimEngine ∧ (s job).fill.job = some job ∧
      (s job).claims.filler = none ∧
      (s job).cmd.background.find? (fun g => g.kind == 9) = some b ∧
      ([⟨6, 3, ⟨2, 1⟩⟩, b] : List Background).find? (fun g => g.kind == 9) = some b ∧
      { job with withdrawTaken := true }.withdrawTaken = true ∧ job.withdrawTaken = false ∧
      (s job).classify ⟨1, 2⟩ = .stale ∧ retiring.classify ⟨1, 1⟩ = .retiring desc ∧
      (s job).classify job.handle = .current desc ∧ (s job).queue 1 = [] ∧ (s job).holders 1 = [] ∧
      other.holders 1 ≠ [] ∧ job.waitLimit = 0 ∧ 1 ≤ { job with waitLimit := 1 }.waitLimit := by decide +kernel

/-- The reload; the last transaction of a burst under a HELD claim and under a RELEASING one; and the issue of bursts:
with no need for one, with a copy out of date, with a claim that is not HELD, of the last burst with and without a
transaction, and of one that is not the last. -/
theorem witness_FillReloadsAndCompletes :
    let r := filling .writing { job with reading := true } live
    let cl (st : ClaimState) (k : Nat) : Claim := ⟨⟨1, 1⟩, .write, st, 0, 0, false, 0, 0, 0, k, 7, 0, 0⟩
    let t : Txn := ⟨0, .fill ⟨1, 1⟩, 16308, 2, .write [(16308, 1), (16309, 2)]⟩
    let s (st : ClaimState) : State :=
      { (filling .writing { job with burst := some ⟨1, true⟩ } live).setClaim .fill 0 (some (cl st 1)) with
        fmi := ⟨[t], 1, [], 0⟩ }
    let g (j : FillJob) (st : ClaimState) := (filling .writing j live).setClaim .fill 0 (some (cl st 0))
    let old : FillJob := { job with outdated := true }
    let seen : FillJob := { job with x := 10, nextX := 10 }
    let two : FillJob := { seen with h := 2, y := 62, nextRow := 62 }
    let none_ : FillJob := { job with h := 2, y := 62, nextRow := 62 }
    r.fill.job = some { job with reading := true } ∧ r.portTurn = some .fillEngine ∧ r.fill.state = .writing ∧
      r.classify ⟨1, 1⟩ = .current desc ∧ retiring.classify ⟨1, 1⟩ ≠ .current desc ∧
      (∀ st ∈ [ClaimState.held, .releasing .plain],
        (s st).fmi.ofFill[0]? = some t ∧ ((s st).fmi.txns.map Txn.id).Nodup ∧ ((s st).entry 1).state = .live desc ∧
        (s st).claims.filler = some (cl st 1) ∧ (s st).fill.job = some { job with burst := some ⟨1, true⟩ }) ∧
      (([(16308, 1), (16309, 2)] : List Host.Cell).map Prod.fst).Nodup ∧ (cl .held 1).handle = ⟨1, 1⟩ ∧
      ((s .held).partOf job.handle).isSome = true ∧
      (s .held).cmd.background.find? (fun g => g.kind == 9) = some ⟨7, 9, ⟨1, 1⟩⟩ ∧
      (∀ n, ¬ live.removalDue n) ∧ live.fill.state ≠ .writing ∧
      (∀ j ∈ [job, old, seen, two, none_], ∀ st ∈ [ClaimState.held, .releasing .plain],
        (g j st).fill.job = some j ∧ (g j st).fill.state = .writing ∧ j.burst = none ∧ j.reading = false ∧
        j.nextRow < j.y + j.h ∧ j.copy.stamp = ((g j st).entry j.handle.index).stamp ∧
        (g j st).claims.filler = some (cl st 0) ∧ (cl st 0).outstanding = 0 ∧ (cl st 0).handle = j.handle ∧ 1 ≤ j.w ∧
        j.x ≤ j.nextX ∧ j.y ≤ j.nextRow) ∧
      old.outdated = true ∧ job.outdated = false ∧ job.isLast ∧ job.nextParts.length = 0 ∧ seen.isLast ∧
      1 ≤ seen.nextParts.length ∧ ¬ two.isLast ∧ 1 ≤ two.nextParts.length ∧ ¬ none_.isLast ∧
      none_.nextParts.length = 0 := by decide +kernel

/-- With the scrubber's transaction alone, and between one of a lane and one of the fill engine; with one and with two
blocks left in the scrub queue. -/
theorem witness_ScrubCompletionFreesTheBlock :
    let t : Txn := ⟨4, .scrub, 2 * 16384, 16384, .zero⟩
    let lane : Txn := ⟨3, .lane 0 ⟨1, 1⟩, 0, 2, .read [0, 0]⟩
    let fill : Txn := ⟨5, .fill ⟨1, 1⟩, 16, 2, .write [(16, 1), (17, 2)]⟩
    ∀ l ∈ [[t], [lane, t, fill]], ∀ r ∈ [(⟨2, 1⟩ : Run), ⟨2, 2⟩],
      let s : State := { live with
        fmi := ⟨l, 6, [], 0⟩
        alloc := ⟨4, [.owned 1, .free, .scrubbing, .scrubbing], [⟨1, 1⟩], [r], 1, 1, r.length, 0⟩ }
      (s.fmi.txns.filter fun x => x.owner == .scrub) = [t] ∧ (s.fmi.txns.map Txn.id).Nodup ∧ t.op = .zero ∧
        t.addr = 2 * 16384 ∧ s.alloc.scrubQueue = r :: [] := by decide +kernel

/-- Heights 1 and 4096, and each distance. -/
theorem witness_ChangesAnswerByDistance :
    let p : ChangePart := ⟨⟨1, 1⟩, 2, 0, 0, [(1, 1), (2, 4)]⟩
    1 ≤ 1 ∧ 4096 ≤ 4096 ∧ (p.sequence - 2).toNat = 0 ∧ (p.sequence - 0).toNat ≤ p.ring.length ∧
      p.ring.length < (p.sequence - 3).toNat := by decide

/-- A span that just fits its block and one that just does not. -/
theorem witness_SpansAreTrimmedSplitAndTranslated :
    16380 % 16384 + 4 ≤ 16384 ∧ 16384 < 16380 % 16384 + 5 ∧
      (∀ o, o < 5 → (blockOf [⟨7, 1⟩, ⟨2, 1⟩] ((16380 + o) / 16384)).isSome = true) := by decide

/-- R89's choice: a run that is long enough at its boundary, runs together just enough in 8 and in 9 of them, and too few
blocks. -/
theorem witness_choice_of_runs :
    let ones (k : Nat) : List Run := (List.range k).map fun j => ⟨2 * j, 1⟩
    ((∀ q ∈ ones 3, q.length < 2) ∧ 2 ≤ (⟨8, 2⟩ : Run).length) ∧
      (∀ k ∈ [7, 8], (∀ q ∈ ones k ++ [(⟨20, 2⟩ : Run)], q.length < k + 2) ∧ ((ones k).map Run.length).sum < k + 2 ∧
        k + 2 ≤ ((ones k).map Run.length).sum + 2) ∧
      (ones 7 ++ [(⟨20, 2⟩ : Run)]).length ≤ 8 ∧ 8 < (ones 8 ++ [(⟨20, 2⟩ : Run)]).length ∧
      ((ones 3 ++ [(⟨20, 2⟩ : Run)]).map Run.length).sum < 6 := by decide

theorem witness_AllocationAndMergingKeepTheFreeRuns :
    risingRuns live.alloc.freeRuns ∧ (∃ p, live.alloc.allocate 3 2 = .ok p) ∧ risingRuns [⟨0, 2⟩, ⟨4, 1⟩] ∧
      ∀ k, (⟨2, 2⟩ : Run).has k = true → ¬ inRuns [⟨0, 2⟩, ⟨4, 1⟩] k := by
  refine ⟨(by decide : 1 ≤ 3), ⟨_, rfl⟩, ⟨by decide, by decide, (by decide : 1 ≤ 1)⟩, fun k h => ?_⟩
  rintro ⟨r, hr, hk⟩
  have h' : 2 ≤ k ∧ k < 4 := of_decide_eq_true h
  rcases List.mem_cons.1 hr with rfl | hr
  · have : k < 2 := by simpa [Run.has, Run.stop] using hk
    omega
  · obtain rfl := List.mem_singleton.1 hr
    have : 4 ≤ k ∧ k < 5 := of_decide_eq_true hk
    omega

/-- A surface of one block, a free run, and two blocks in the scrub queue, the first of them being written. -/
def scrubbing : State :=
  { live with
    fmi := ⟨[⟨0, .scrub, 2 * 16384, 16384, .zero⟩], 1, [], 0⟩
    alloc := ⟨4, [.owned 1, .free, .scrubbing, .scrubbing], [⟨1, 1⟩], [⟨2, 2⟩], 1, 1, 2, 0⟩
    pending := [.scrubCompletion] }

theorem scrubbing_blocksLawful : scrubbing.blocksLawful := by
  have hd : ∀ i, (scrubbing.entry i).state.desc = if i = 1 then some desc else none := by decide +kernel
  have hs : ∀ (r : Run) k, inRuns [r] k ↔ r.has k = true := fun r k => by simp [inRuns]
  have ho : ∀ k, inRuns desc.runs k ↔ k = 0 := fun k => by
    refine (hs ⟨0, 1⟩ k).trans ⟨fun h => ?_, fun h => by subst h; decide⟩
    have : 0 ≤ k ∧ k < 1 := of_decide_eq_true h
    omega
  refine ⟨by decide, rfl, (by decide : 1 ≤ 1), ⟨by decide, List.pairwise_singleton _ _⟩,
    ⟨by decide, List.pairwise_singleton _ _⟩, fun i d h => ?_, fun k st h => ?_, rfl, rfl, by decide +kernel,
    by decide +kernel, rfl, by decide, fun t ht _ => ?_⟩
  · rw [hd] at h
    split at h
    · cases h; exact ⟨⟨by decide, List.pairwise_singleton _ _⟩, by decide, by decide⟩
    · cases h
  · have owned : ∀ i : BitVec 8, (∃ d, (scrubbing.entry i).state.desc = some d ∧ inRuns d.runs k) ↔ i = 1 ∧ k = 0 := by
      intro i
      rw [hd]
      by_cases hi : i = 1
      · rw [if_pos hi]
        exact ⟨fun ⟨_, e, h⟩ => by cases e; exact ⟨hi, (ho k).1 h⟩, fun h => ⟨desc, rfl, (ho k).2 h.2⟩⟩
      · rw [if_neg hi]
        exact ⟨fun ⟨_, e, _⟩ => (by cases e), fun h => absurd h.1 hi⟩
    have free : inRuns scrubbing.alloc.freeRuns k ↔ k = 1 := by
      refine (hs ⟨1, 1⟩ k).trans ⟨fun h => ?_, fun h => by subst h; decide⟩
      have : 1 ≤ k ∧ k < 2 := of_decide_eq_true h
      omega
    have scrub : inRuns scrubbing.alloc.scrubQueue k ↔ k = 2 ∨ k = 3 := by
      refine (hs ⟨2, 2⟩ k).trans ⟨fun h => ?_, fun h => by rcases h with h | h <;> (subst h; decide)⟩
      have : 2 ≤ k ∧ k < 4 := of_decide_eq_true h
      omega
    simp only [owned, free, scrub]
    match k with
    | 0 => cases h; simp; exact fun _ => eq_comm
    | 1 => cases h; simp
    | 2 => cases h; simp
    | 3 => cases h; simp
    | k + 4 => simp [scrubbing] at h
  · obtain rfl := List.mem_singleton.1 ht
    exact ⟨rfl, ⟨2, 2⟩, [], rfl, rfl⟩

theorem scrubbing_steps : ∃ t, step scrubbing = .next t := ⟨_, rfl⟩

/-- A WRITE in flight on link 1, link 3 ONLINE and HELD with a fault record, and a command waiting. -/
def busy : State :=
  let s := after (.burstJudging 0) (((online 2 (judging .write)).modLane 2 fun l =>
    { l with accessQ := [burst .read] }).modFaults 2 fun f => { f with stream := .held })
  { s with
    pending := [.transactionCompletion 0 0 false]
    faults := { s.faults with queue := [⟨2, .noClaim, ⟨1, 1⟩, 5, 3, 10, .read, 0x21, 1⟩] } }

theorem busy_steps : (∃ t, step busy = .next t) ∧ busy.fmi.txns ≠ [] ∧ busy.faults.queue ≠ [] := by
  refine ⟨⟨_, rfl⟩, by decide +kernel, by decide +kernel⟩

/-- Link 1 is the writer of `busy`'s surface, link 2 waits for it, and every other slot is empty. -/
def contended : State :=
  (busy.setClaim (.link 1) 0 (some { claim .waiting .read with waitLimit := 9, waitLeft := 9 })).modQueue 1 fun _ =>
    [.link 1]

theorem contended_claims : ∀ c k, contended.claimAt c k =
    if c = .link 0 ∧ k = 0 then some { claim .held .write with outstanding := 1 }
    else if c = .link 1 ∧ k = 0 then some { claim .waiting .read with waitLimit := 9, waitLeft := 9 } else none := by
  intro c; rcases c with _ | n
  · decide +kernel
  · revert n; decide +kernel

theorem witness_StepKeepsClaimsLawful : contended.claimsLawful := by
  have hq : ∀ i, contended.queue i = if i = 1 then [.link 1] else [] := by decide +kernel
  refine ⟨fun c k k' cl cl' h h' _ => ?_, fun c c' k k' cl cl' h h' _ hw hw' _ => ?_, fun i => ?_,
    fun i c rest k cl h hf => ?_⟩
  · rw [contended_claims] at h h'
    split at h <;> split at h' <;> simp_all
  · rw [contended_claims] at h h'
    split at h
    · split at h'
      · simp_all
      · split at h'
        · cases h'; exact absurd rfl hw'
        · cases h'
    · split at h
      · cases h; exact absurd rfl hw
      · cases h
  · rw [hq]
    split
    · subst i
      exact ⟨by decide, fun c hc => by
        obtain rfl := List.mem_singleton.1 hc
        exact ⟨0, { claim .waiting .read with waitLimit := 9, waitLeft := 9 }, by decide +kernel, rfl⟩⟩
    · exact ⟨.nil, fun c hc => by cases hc⟩
  · rw [hq] at h
    split at h
    · subst i
      cases h
      have : contended.findClaim (.link 1) 1 =
        some (0, { claim .waiting .read with waitLimit := 9, waitLeft := 9 }) := by decide +kernel
      rw [this] at hf
      cases hf
      decide +kernel
    · cases h

theorem witness_claimsFollow : contended.claimsFollow := by
  have he : ∀ i, (contended.entry i).state = if i = 1 then .live desc else .free := by decide +kernel
  have hd : contended.cmd.drainEnds = [] := by decide +kernel
  have hf : contended.claims.filler = none := by decide +kernel
  have hl : contended.claims.line = [] := by decide +kernel
  refine ⟨fun c k cl h => ?_, fun i h => ?_, by rw [hd]; exact .nil, by rw [hd]; simp, fun cl h => ?_, by rw [hl]; simp⟩
  · rw [contended_claims] at h
    split at h
    · cases h; rw [he]; trivial
    · split at h
      · cases h; rw [he]; trivial
      · cases h
  · revert i; decide +kernel
  · rw [hf] at h; cases h

theorem witness_StepKeepsTheCommandCounts : busy.accounted ∧ busy.bounded := by decide +kernel

theorem witness_StepKeepsRingsAndGenerations : busy.ringsOk ∧ busy.entriesLawful := by
  have h : ∀ i : BitVec 8, busy.part i = if i = 1 then busy.part 1 else none := by decide +kernel
  have h1 : (busy.part 1).map ChangePart.ring = some [] := by decide +kernel
  refine ⟨fun i p hp => ?_, by decide +kernel, by decide +kernel⟩
  rw [h] at hp
  split at hp
  · rw [hp] at h1
    have : p.ring = [] := by simpa using h1
    exact ⟨by simp [this], fun k hk => by simp [this] at hk⟩
  · cases hp

theorem witness_StepKeepsSlotsCurrent : busy.slotsCurrent := by
  have h : ∀ n d, (busy.lane n).slot d = if n = 0 then some copy else none := by
    intro n d; revert n; cases d <;> decide +kernel
  intro n d c hc _
  rw [h] at hc
  split at hc
  · cases hc; exact ⟨desc, by decide +kernel, by decide +kernel⟩
  · cases hc

theorem witness_StepKeepsOneRecordPerHeldLink : busy.faultsLawful :=
  ⟨by decide +kernel, fun r hr => by obtain rfl := List.mem_singleton.1 hr; decide +kernel⟩

theorem witness_StepKeepsLinksQuiet : busy.linksQuiet := by
  have h : busy.claims.line = [] := by decide +kernel
  refine ⟨by decide +kernel, fun n session r hm => ?_, by decide +kernel⟩
  rw [h] at hm; cases hm

theorem witness_StepKeepsTheInterface : busy.memoryCanonical ∧ busy.transactionsCounted :=
  ⟨(by decide +kernel : Memory.wf busy.fmi.mem = true), by decide +kernel, by decide +kernel, by decide +kernel⟩

theorem witness_EventClearClearsBitsWrittenWithOne : 0 < 6 ∧ 5 < 6 := by decide

end Sys2Proof.Tests
end

/-! PROOFS. What the removal of a link's claims leaves on each surface (R50), for the end of a teardown (R163). -/

namespace Sys2Proof.Machine.GrantOrder

/-! ## The table of records stays -/

theorem handOver_table (s : State) (n : LinkId) (m : Message) : (s.handOver n m).table = s.table := by
  simp only [State.handOver]
  split
  · split
    · rfl
    · rw [State.beginTeardown, abandonRetry_eq]; rfl
  · rfl

theorem fillGranted_table (s : State) : s.fillGranted.table = s.table := by
  unfold State.fillGranted; split <;> rfl

theorem grant_table (s : State) (i : BitVec 8) (c : Client) (k : Fin 16) (cl : Claim) :
    (s.grant i c k cl).table = s.table := by
  cases c with
  | fill => simp [State.grant, fillGranted_table]
  | link n => simp [State.grant, handOver_table]

theorem serve_table (s : State) (i : BitVec 8) : (s.serve i).table = s.table := by
  have key : ∀ (q : List Client) (s : State), (s.serveFrom i q).table = s.table := by
    intro q
    induction q with
    | nil => exact fun _ => rfl
    | cons c rest ih =>
      intro s
      simp only [State.serveFrom]
      split
      · rfl
      · split
        · rw [ih, grant_table]
        · rfl
  exact key _ s

theorem examineDrain_table (s : State) (i : BitVec 8) : (s.examineDrain i).table = s.table := by
  unfold State.examineDrain
  split
  · split <;> rfl
  · rfl

theorem removeClaim_table (s : State) (n : LinkId) (k : Fin 16) : (s.removeClaim n k).table = s.table := by
  unfold State.removeClaim
  split
  · rfl
  · dsimp only
    split
    · simp
    · split <;> simp [State.modPart]

/-- What each step of a run over a list leaves as it is, the run leaves as it is. -/
theorem foldl_keeps {α β : Type} (op : State → α → State) (f : State → β) (h : ∀ s a, f (op s a) = f s) (l : List α) :
    ∀ s, f (l.foldl op s) = f s := by
  induction l with
  | nil => exact fun _ => rfl
  | cons a rest ih => exact fun s => (ih _).trans (h s a)

theorem entry_of_table {s t : State} (h : t.table = s.table) (i : BitVec 8) : t.entry i = s.entry i := by
  simp [State.entry, h]

/-! ## Change parts (R50, R72) -/

/-- Slot `k` of link `n` has a claim whose removal tears surface `i`: a WRITE claim on it that is not WAITING. -/
def tearsAt (s : State) (n : LinkId) (i : BitVec 8) (k : Fin 16) : Bool :=
  match s.claimAt (.link n) k with
  | some cl => cl.handle.index == i && cl.state != .waiting && cl.mode == .write
  | none => false

theorem tearsAt_iff {s : State} {n : LinkId} {i : BitVec 8} {k : Fin 16} : tearsAt s n i k = true ↔
    ∃ cl, s.claimAt (.link n) k = some cl ∧ cl.handle.index = i ∧ cl.state ≠ .waiting ∧ cl.mode = .write := by
  unfold tearsAt
  cases s.claimAt (.link n) k <;> simp [and_assoc]

theorem removeClaim_claimAt (s : State) (n : LinkId) (k j : Fin 16) :
    (s.removeClaim n k).claimAt (.link n) j = if j = k then none else s.claimAt (.link n) j := by
  unfold State.removeClaim
  split
  · rename_i h
    split
    · rename_i e; rw [e, h]
    · rfl
  · have set : (s.setClaim (.link n) k none).claimAt (.link n) j = if j = k then none else s.claimAt (.link n) j := by
      split
      · rename_i e; rw [e, setClaim_self _ _ _ _ rfl]
      · rename_i e; exact setClaim_other _ _ fun h => e h.2
    dsimp only
    split
    · rw [modQueue_claimAt, set]
    · split
      · exact set
      · exact set

theorem removeClaim_tearsAt (s : State) (n : LinkId) (i : BitVec 8) (k j : Fin 16) :
    tearsAt (s.removeClaim n k) n i j = (j != k && tearsAt s n i j) := by
  unfold tearsAt
  rw [removeClaim_claimAt]
  by_cases e : j = k <;> simp [e]

theorem removeClaim_part (s : State) (n : LinkId) (i : BitVec 8) (k : Fin 16) :
    (s.removeClaim n k).part i = if tearsAt s n i k then (s.part i).map ChangePart.tear else s.part i := by
  unfold State.removeClaim tearsAt
  cases hc : s.claimAt (.link n) k with
  | none => simp
  | some cl =>
    dsimp only
    by_cases hw : cl.state = .waiting
    · simp [hw, part_of_tracker (modQueue_tracker _ _ _)]
    · by_cases hm : cl.mode = .write
      · by_cases hi : cl.handle.index = i
        · simp [hw, hm, hi]
        · rw [if_neg hw, if_pos hm, modPart_other _ _ (Ne.symm hi), setClaim_part]
          simp [hi]
      · simp [hw, hm]

/-- The removal of a link's claims tears the surfaces of its WRITE claims that do not wait, and no other. -/
theorem removals_part (n : LinkId) (i : BitVec 8) (l : List (Fin 16)) : ∀ s : State,
    (l.foldl (State.removeClaim n) s).part i =
      if l.any (tearsAt s n i) then (s.part i).map ChangePart.tear else s.part i := by
  induction l with
  | nil => intro s; simp
  | cons k rest ih =>
    intro s
    rw [List.foldl_cons, ih, removeClaim_part]
    cases hk : tearsAt s n i k with
    | true =>
      have twice : ((s.part i).map ChangePart.tear).map ChangePart.tear = (s.part i).map ChangePart.tear := by
        rw [Option.map_map, tear_eq_tornOff]
        congr 1
        funext p
        exact tornOff_idem p
      simp [hk, twice]
    | false =>
      have same : tearsAt (s.removeClaim n k) n i = tearsAt s n i := by
        funext j
        rw [removeClaim_tearsAt]
        by_cases e : j = k
        · simp [e, hk]
        · simp [e]
      simp [hk, same]

/-! ## The service of other surfaces' queues -/

/-- The claims on surface `i` and its wait queue are the same. -/
def SameOn (i : BitVec 8) (s t : State) : Prop :=
  t.queue i = s.queue i ∧ ∀ c, t.findClaim c i = s.findClaim c i

theorem SameOn.refl (i : BitVec 8) (s : State) : SameOn i s s := ⟨rfl, fun _ => rfl⟩

theorem SameOn.trans {i : BitVec 8} {s t u : State} (h : SameOn i s t) (h' : SameOn i t u) : SameOn i s u :=
  ⟨h'.1.trans h.1, fun c => (h'.2 c).trans (h.2 c)⟩

theorem sameOn_of_view {s t : State} (h : t.claimView = s.claimView) (i : BitVec 8) : SameOn i s t :=
  ⟨queue_of_view h i, fun c => findClaim_of_view h c i⟩

theorem SameOn.servedAt {i : BitVec 8} {s t : State} (h : SameOn i s t) (hs : s.servedAt i) : t.servedAt i := by
  obtain ⟨hq, hf⟩ := h
  have holders : t.holders i = s.holders i := by simp only [State.holders, hf]
  have compatible : ∀ m, t.compatible i m = s.compatible i m := fun m => by
    cases m <;> simp [State.compatible, holders]
  intro c rest k cl e e'
  rw [compatible]
  exact hs c rest k cl (hq ▸ e) (hf c ▸ e')

/-- A slot that goes from one claim on another surface to one on another surface. -/
theorem findClaim_setClaim_elsewhere {s : State} {c : Client} {k : Fin 16} {cl v : Claim} {i : BitVec 8}
    (h : s.claimAt c k = some cl) (hk : slotExists c k = true) (hi : cl.handle.index ≠ i) (hv : v.handle.index ≠ i)
    (d : Client) : (s.setClaim c k (some v)).findClaim d i = s.findClaim d i := by
  unfold State.findClaim
  congr 1
  funext j
  by_cases e : d = c ∧ j = k
  · obtain ⟨rfl, rfl⟩ := e
    simp [setClaim_self _ _ _ _ hk, h, hi, hv]
  · rw [setClaim_other _ _ e]

theorem grant_sameOn {s : State} {i j : BitVec 8} {c : Client} {k : Fin 16} {cl : Claim}
    (h : s.findClaim c j = some (k, cl)) (hij : i ≠ j) : SameOn i s (s.grant j c k cl) := by
  obtain ⟨hat, hidx, hk⟩ := findClaim_at h
  have hi : cl.handle.index ≠ i := fun e => hij (e.symm.trans hidx)
  have granted : SameOn i s ((s.modQueue j List.tail).setClaim c k (some cl.granted)) := by
    refine ⟨by rw [setClaim_queue, modQueue_other _ _ hij], fun d => ?_⟩
    rw [findClaim_setClaim_elsewhere (s := s.modQueue j List.tail) (v := cl.granted) hat hk hi hi]
    exact findClaim_congr (fun _ => rfl) i
  cases c with
  | fill => exact granted.trans (sameOn_of_view (view_fillGranted _) i)
  | link n => exact granted.trans (sameOn_of_view (view_handOver _ n _) i)

theorem serve_sameOn {i j : BitVec 8} (hij : i ≠ j) (s : State) : SameOn i s (s.serve j) := by
  have key : ∀ (q : List Client) (s : State), SameOn i s (s.serveFrom j q) := by
    intro q
    induction q with
    | nil => exact SameOn.refl i
    | cons c rest ih =>
      intro s
      simp only [State.serveFrom]
      split
      · exact .refl i s
      · rename_i k cl hf
        split
        · exact (grant_sameOn hf hij).trans (ih _)
        · exact .refl i s
  exact key _ s

/-- Once the queues of several surfaces have been served, each is served. -/
theorem serves_servedAt (l : List (BitVec 8)) {i : BitVec 8} : ∀ s : State, i ∈ l ∨ s.servedAt i →
    (l.foldl (fun s j => s.serve j) s).servedAt i := by
  induction l with
  | nil => exact fun s h => h.resolve_left List.not_mem_nil
  | cons j rest ih =>
    intro s h
    refine ih _ ?_
    by_cases e : i = j
    · exact .inr (e ▸ serve_served i s)
    · rcases h with h | h
      · exact .inl ((List.mem_cons.1 h).resolve_left e)
      · exact .inr ((serve_sameOn e s).servedAt h)

/-! ## Drain ends that come due (R23) -/

/-- Surface `i` is RETIRING with no claim on it and no transaction in flight (R23). -/
def drained (s : State) (i : BitVec 8) : Prop :=
  (∃ d, (s.entry i).state = .retiring d) ∧ s.hasClaim i = false ∧ (s.entry i).inFlight = 0

theorem hasClaim_of_view {s t : State} (h : t.claimView = s.claimView) (i : BitVec 8) :
    t.hasClaim i = s.hasClaim i := by simp only [State.hasClaim, findClaim_of_view h]

theorem drained_iff {s t : State} (hv : t.claimView = s.claimView) (ht : t.table = s.table) (i : BitVec 8) :
    drained t i ↔ drained s i := by rw [drained, drained, entry_of_table ht, hasClaim_of_view hv]

theorem examineDrain_notes {s : State} {i : BitVec 8} (h : drained s i) : i ∈ (s.examineDrain i).cmd.drainEnds := by
  obtain ⟨⟨d, hd⟩, hc, hf⟩ := h
  by_cases hm : i ∈ s.cmd.drainEnds <;> simp [State.examineDrain, hd, hc, hf, hm]

theorem examineDrain_keeps_notes {s : State} {i : BitVec 8} (j : BitVec 8) (h : i ∈ s.cmd.drainEnds) :
    i ∈ (s.examineDrain j).cmd.drainEnds := by
  unfold State.examineDrain
  split
  · split
    · exact List.mem_append_left _ h
    · exact h
  · exact h

theorem examines_note (l : List (BitVec 8)) {i : BitVec 8} : ∀ s : State, (i ∈ l ∧ drained s i) ∨ i ∈ s.cmd.drainEnds →
    i ∈ (l.foldl (fun s j => s.examineDrain j) s).cmd.drainEnds := by
  induction l with
  | nil => exact fun s h => h.resolve_left fun h => List.not_mem_nil h.1
  | cons j rest ih =>
    intro s h
    refine ih _ ?_
    rcases h with ⟨hm, hd⟩ | h
    · rcases List.mem_cons.1 hm with rfl | hm
      · exact .inr (examineDrain_notes hd)
      · exact .inl ⟨hm, (drained_iff (view_examineDrain s j) (examineDrain_table s j) i).2 hd⟩
    · exact .inr (examineDrain_keeps_notes j h)

/-! ## The removal of a link's claims (R50) -/

theorem mem_surfacesOf {s : State} {n : LinkId} {k : Fin 16} {cl : Claim} (h : s.claimAt (.link n) k = some cl) :
    cl.handle.index ∈ s.surfacesOf n := by
  rw [State.surfacesOf, List.mem_eraseDups]
  exact List.mem_filterMap.2 ⟨k, mem_allSlots k, by rw [h]; rfl⟩

theorem removeClaims_part (s : State) (n : LinkId) (i : BitVec 8) : (s.removeClaims n).part i =
    if allSlots.any (tearsAt s n i) then (s.part i).map ChangePart.tear else s.part i := by
  rw [← removals_part n i allSlots s]
  refine part_of_tracker ?_ i
  unfold State.removeClaims
  dsimp only
  rw [foldl_keeps (fun s j => s.examineDrain j) State.tracker fun s j => (examineDrain_keeps s j).1,
    foldl_keeps (fun s j => s.serve j) State.tracker fun s j => (serveFrom_keeps j (s.queue j) s).1]

theorem removeClaims_table (s : State) (n : LinkId) : (s.removeClaims n).table = s.table := by
  unfold State.removeClaims
  dsimp only
  rw [foldl_keeps (fun s j => s.examineDrain j) State.table examineDrain_table,
    foldl_keeps (fun s j => s.serve j) State.table serve_table,
    foldl_keeps (State.removeClaim n) State.table fun s k => removeClaim_table s n k]

/-- The state in which the queues are served and the drain ends are yet to be examined has the same claims. -/
theorem removeClaims_view (s : State) (n : LinkId) : (s.removeClaims n).claimView =
    ((s.surfacesOf n).foldl (fun s i => s.serve i) (allSlots.foldl (State.removeClaim n) s)).claimView :=
  foldl_keeps (fun s i => s.examineDrain i) State.claimView view_examineDrain _ _

theorem removeClaims_servedAt (s : State) (n : LinkId) {i : BitVec 8} (h : i ∈ s.surfacesOf n) :
    (s.removeClaims n).servedAt i :=
  servedAt_of_view (removeClaims_view s n) (serves_servedAt _ _ (.inl h))

theorem removeClaims_notes (s : State) (n : LinkId) {i : BitVec 8} (h : i ∈ s.surfacesOf n)
    (hd : drained (s.removeClaims n) i) : i ∈ (s.removeClaims n).cmd.drainEnds := by
  refine examines_note _ _ (.inl ⟨h, (drained_iff (removeClaims_view s n) ?_ i).1 hd⟩)
  exact foldl_keeps (fun s j => s.examineDrain j) State.table examineDrain_table _ _

/-! ## The end of a teardown (R163) -/

/-- The state in which link `n`'s responses and fault record are gone, its claims not yet (R163). -/
def unrecorded (s : State) (n : LinkId) : State :=
  ((s.modLane n fun l => { l with responseQ := [] }).removeRecord n).modFaults n fun f => { f with stream := .flowing }

/-- Before and after the removal of the claims a teardown's end changes the link, its lane and the Fault Unit only. -/
theorem finishTeardown_frame (s : State) (n : LinkId) :
    (s.finishTeardown n).tracker = ((unrecorded s n).removeClaims n).tracker ∧
      (s.finishTeardown n).table = ((unrecorded s n).removeClaims n).table ∧
      (s.finishTeardown n).cmd = ((unrecorded s n).removeClaims n).cmd ∧
      (s.finishTeardown n).claimView = ((unrecorded s n).removeClaims n).claimView := ⟨rfl, rfl, rfl, rfl⟩

theorem finishTeardown_part (s : State) (n : LinkId) (i : BitVec 8) : (s.finishTeardown n).part i =
    if allSlots.any (tearsAt s n i) then (s.part i).map ChangePart.tear else s.part i :=
  (part_of_tracker (finishTeardown_frame s n).1 i).trans (removeClaims_part (unrecorded s n) n i)

/-- A surface that loses a HELD WRITE claim is torn. -/
theorem finishTeardown_tears {s : State} {n : LinkId} {k : Fin 16} {cl : Claim} (h : s.claimAt (.link n) k = some cl)
    (hs : cl.state = .held) (hm : cl.mode = .write) : (s.finishTeardown n).part cl.handle.index =
      (s.part cl.handle.index).map fun p => { p with torn := p.torn ||| p.pending, pending := 0 } := by
  have torn : allSlots.any (tearsAt s n cl.handle.index) = true :=
    List.any_eq_true.2 ⟨k, mem_allSlots k, tearsAt_iff.2 ⟨cl, h, rfl, by simp [hs], hm⟩⟩
  rw [finishTeardown_part, if_pos torn, funext tear_eq]

/-- A surface whose claims of the link all wait or read keeps its change part. -/
theorem finishTeardown_spares_part {s : State} {n : LinkId} {i : BitVec 8}
    (h : ∀ k cl, s.claimAt (.link n) k = some cl → cl.handle.index = i → cl.state = .waiting ∨ cl.mode = .read) :
    (s.finishTeardown n).part i = s.part i := by
  have untorn : ¬ allSlots.any (tearsAt s n i) = true := fun e => by
    obtain ⟨k, _, hk⟩ := List.any_eq_true.1 e
    obtain ⟨cl, hc, hi, hw, hm⟩ := tearsAt_iff.1 hk
    rcases h k cl hc hi with h | h
    · exact hw h
    · rw [hm] at h; cases h
  rw [finishTeardown_part, if_neg untorn]

theorem finishTeardown_servedAt {s : State} {n : LinkId} {k : Fin 16} {cl : Claim}
    (h : s.claimAt (.link n) k = some cl) : (s.finishTeardown n).servedAt cl.handle.index :=
  servedAt_of_view (finishTeardown_frame s n).2.2.2
    (removeClaims_servedAt (unrecorded s n) n (mem_surfacesOf (s := unrecorded s n) h))

theorem finishTeardown_notes {s : State} {n : LinkId} {k : Fin 16} {cl : Claim} {d : Desc}
    (h : s.claimAt (.link n) k = some cl) (hd : (s.entry cl.handle.index).state = .retiring d)
    (hc : (s.finishTeardown n).hasClaim cl.handle.index = false) (hf : (s.entry cl.handle.index).inFlight = 0) :
    cl.handle.index ∈ (s.finishTeardown n).cmd.drainEnds := by
  obtain ⟨_, htable, hcmd, hview⟩ := finishTeardown_frame s n
  have entry : ((unrecorded s n).removeClaims n).entry cl.handle.index = s.entry cl.handle.index :=
    entry_of_table (t := (unrecorded s n).removeClaims n) (removeClaims_table (unrecorded s n) n) _
  rw [hcmd]
  refine removeClaims_notes (unrecorded s n) n (mem_surfacesOf (s := unrecorded s n) h) ⟨⟨d, ?_⟩, ?_, ?_⟩
  · rw [entry, hd]
  · rw [← hasClaim_of_view hview, hc]
  · rw [entry, hf]

theorem exec_teardownRemoval {s : State} {n : LinkId} (h : s.removalDue n) :
    exec (.teardownRemoval n) s = .next (s.finishTeardown n).settle := by
  show execTeardownRemoval n s = _
  rw [execTeardownRemoval, if_pos ((removalDue_iff s n).2 h), settled]

/-- Settles O39: the row ends the teardown by `finishTeardown`, and what follows an event ends each that is due. -/
theorem teardownEndsTheSession : Obligations.TeardownEndsTheSession := by
  unfold Obligations.TeardownEndsTheSession
  refine ⟨fun n s c rest hdue hcauses => ?_, fun n s hstate => ?_⟩
  · obtain ⟨hlink, hlane, hrecords, hstream, hslots, _⟩ := finishTeardown_does s n hdue.1
    refine ⟨s.finishTeardown n, exec_teardownRemoval hdue, hlink.trans (endTeardown_tornDown hcauses), hlane,
      fun q hq => (hrecords q hq).2, hstream, hslots, fun k cl hk => ⟨finishTeardown_tears hk,
        finishTeardown_servedAt hk, fun d hd hc hf => finishTeardown_notes hk hd hc hf⟩,
      fun i => finishTeardown_spares_part, fixed_finishTeardown s n⟩
  · obtain ⟨busy, due⟩ := settle_teardown s n hstate
    refine ⟨busy, fun hzero => ?_⟩
    obtain ⟨hlink, hlane, hrecords, hstream, hslots⟩ := due hzero
    refine ⟨fun c rest hcauses => hlink.trans (endTeardown_tornDown hcauses), hlane, hrecords, hstream, hslots,
      fun hlowest => ?_⟩
    rw [exec_teardownRemoval ⟨hstate, hzero⟩, ← settle_lowest ⟨hstate, hzero⟩ hlowest]

end Sys2Proof.Machine.GrantOrder

/-! PROOFS. The checks of a CLAIM (R32), the RELEASE of a claim (R41) and the decision of the fill engine's claim
(R34). -/

namespace Sys2Proof.Machine.GrantOrder

/-! ## CLAIM's checks (R32) -/

theorem permits_eq_false_iff (r : Right) (m : Mode) :
    r.permits m = false ↔ r = .none ∨ (m = .write ∧ r = .read) := by
  cases r <;> cases m <;> simp [Right.permits]

/-- A client has a claim on a surface when one of its slots holds one (R27). -/
theorem findClaim_isSome_iff (s : State) (c : Client) (i : BitVec 8) :
    (s.findClaim c i).isSome = true ↔ ∃ k cl, s.claimAt c k = some cl ∧ cl.handle.index = i := by
  constructor
  · intro h
    obtain ⟨⟨k, cl⟩, hf⟩ := Option.isSome_iff_exists.1 h
    obtain ⟨hat, hidx, _⟩ := findClaim_at hf
    exact ⟨k, cl, hat, hidx⟩
  · rintro ⟨k, cl, hat, hidx⟩
    unfold State.findClaim
    rw [List.findSome?_isSome_iff]
    exact ⟨k, mem_allSlots k, by simp [hat, hidx]⟩

theorem emptySlot_isNone_iff (s : State) (n : LinkId) :
    (s.emptySlot (.link n)).isNone = true ↔ ∀ k, s.claimAt (.link n) k ≠ none := by
  simp [State.emptySlot, mem_allSlots]

/-- The last four checks of R32 against the record of a LIVE surface. -/
theorem claimRefusal_current {s : State} {h : Handle} {d : Desc} (hc : s.classify h = .current d) (n : LinkId)
    (mode : Mode) (lease : Nat) : s.claimRefusal n h mode lease =
      if d.rights[n.val].permits mode = false then some .noRight
      else if ∃ k cl, s.claimAt (.link n) k = some cl ∧ cl.handle.index = h.index then some .duplicate
      else if ∀ k, s.claimAt (.link n) k ≠ none then some .tableFull
      else if d.ceiling = 0 ∨ (1 ≤ lease ∧ lease ≤ d.ceiling) then none else some .leaseRange := by
  have range : (0 < d.ceiling ∧ (lease = 0 ∨ d.ceiling < lease)) ↔
      ¬ (d.ceiling = 0 ∨ (1 ≤ lease ∧ lease ≤ d.ceiling)) := by omega
  simp only [State.claimRefusal, hc, ← permits_eq_false_iff, findClaim_isSome_iff, emptySlot_isNone_iff, range, ite_not]

/-- Settles O33: each check is reached when those before it pass. -/
theorem claimIsRefusedAtItsFirstFailedCheck : Obligations.ClaimIsRefusedAtItsFirstFailedCheck := by
  unfold Obligations.ClaimIsRefusedAtItsFirstFailedCheck
  refine fun s n h mode lease => ⟨fun hc => ?_, fun d hc => ?_, fun d hc => ⟨fun hright => ?_, fun hright =>
    ⟨fun hdup => ?_, fun hfresh => ?_⟩⟩⟩
  · simp only [State.claimRefusal, hc]
  · simp only [State.claimRefusal, hc]
  · rw [claimRefusal_current hc, if_pos hright]
  · rw [claimRefusal_current hc, if_neg (by simp [hright]), if_pos hdup]
  · have hnone : ¬ ∃ k cl, s.claimAt (.link n) k = some cl ∧ cl.handle.index = h.index :=
      fun ⟨k, cl, hat, hidx⟩ => hfresh k cl hat hidx
    rw [claimRefusal_current hc, if_neg (by simp [hright]), if_neg hnone]
    exact ⟨fun hfull => if_pos hfull, fun ⟨k, hk⟩ => if_neg fun hfull => hfull k hk⟩

/-! ## The taking of a RELEASE (R155) -/

theorem modLink_congr {s : State} {n : LinkId} {f g : Link → Link} (h : f (s.link n) = g (s.link n)) :
    s.modLink n f = s.modLink n g := by rw [State.modLink, State.modLink, h]

theorem modLink_modLink (s : State) (n : LinkId) (f g : Link → Link) :
    (s.modLink n f).modLink n g = s.modLink n fun l => g (f l) := by
  simp [State.modLink, State.link]

/-- Link `n`'s request list is `rest`: its head has been taken. -/
def requestTaken (s : State) (n : LinkId) (rest : List CtrlReq) : State :=
  s.modLink n fun l => { l with requests := rest }

theorem requestTaken_link (s : State) (n : LinkId) (rest : List CtrlReq) :
    (requestTaken s n rest).link n = { s.link n with requests := rest } := modLink_self s n _

/-- Taking a request that waits for no read only shortens the request list. -/
theorem takeRequest_none {s : State} {n : LinkId} {r : CtrlReq} {rest : List CtrlReq}
    (hp : (s.link n).progress = none) (hr : (s.link n).requests = r :: rest) :
    s.takeRequest n none = requestTaken s n rest :=
  modLink_congr (by rw [hr, ← hp]; rfl)

theorem exec_release {s : State} {n : LinkId} {tag : Byte} {slot : Nat} {publish : Bool} {rest : List CtrlReq}
    (hp : (s.link n).progress = none) (hr : (s.link n).requests = .release tag slot publish :: rest) :
    exec (.release n) s = .next ((requestTaken s n rest).releaseDecision n tag slot publish).settle := by
  have next : s.nextRequest n = some (.release tag slot publish) := by simp [State.nextRequest, hp, hr]
  show execRelease n s = _
  simp only [execRelease, next, settled, takeRequest_none hp hr]

/-- A message behind the control outbound queue of a link whose request has been taken, in one change of the link. -/
theorem requestTaken_queued (s : State) (n : LinkId) (rest : List CtrlReq) (tag : Byte) (b : Body) :
    ((requestTaken s n rest).modLink n fun l => l.queued ⟨tag, (s.link n).session, false, b⟩) =
      s.modLink n fun l => { l with requests := rest }.queued ⟨tag, l.session, false, b⟩ := by
  rw [requestTaken, modLink_modLink]
  exact modLink_congr rfl

/-! ## The decision of a RELEASE (R41, R42) -/

/-- The kind with which a RELEASE ends its claim (R41). -/
def releaseKind (publish : Bool) : ReleaseKind := if publish then .publish else .plain

theorem heldSlot_eq_some {s : State} {n : LinkId} {k : Fin 16} {cl : Claim} (h : s.claimAt (.link n) k = some cl)
    (hs : cl.state = .held) : s.heldSlot n k.val = some (k, cl) := by
  simp [State.heldSlot, State.slotClaim, h, hs, Option.filter]

theorem heldSlot_eq_none {s : State} {n : LinkId} {slot : Nat}
    (h : ∀ k cl, k.val = slot → s.claimAt (.link n) k = some cl → cl.state ≠ .held) : s.heldSlot n slot = none := by
  unfold State.heldSlot State.slotClaim
  split
  · rename_i hlt
    cases hc : s.claimAt (.link n) ⟨slot, hlt⟩ with
    | none => rfl
    | some cl => simp [Option.filter, h ⟨slot, hlt⟩ cl rfl hc]
  · rfl

theorem respond_taken {s : State} {n : LinkId} (hh : (s.link n).hears (s.link n).session) (rest : List CtrlReq)
    (tag : Byte) (b : Body) : (requestTaken s n rest).respond n tag ((requestTaken s n rest).link n).session b =
      s.modLink n fun l => { l with requests := rest }.queued ⟨tag, l.session, false, b⟩ := by
  rw [← requestTaken_queued, requestTaken_link]
  exact handOver_hears (by rw [requestTaken_link]; exact hh)

/-- A RELEASE that passes its checks releases the claim (R41). -/
theorem releaseDecision_passes {s : State} {n : LinkId} {k : Fin 16} {cl : Claim} {publish : Bool} (tag : Byte)
    (h : s.claimAt (.link n) k = some cl) (hs : cl.state = .held) (hm : publish = false ∨ cl.mode = .write) :
    s.releaseDecision n tag k.val publish = s.releaseClaim (.link n) k (releaseKind publish) tag := by
  have passes : ¬ (publish = true ∧ cl.mode = .read) := by
    rintro ⟨hpub, hread⟩
    rcases hm with h | h
    · rw [hpub] at h; cases h
    · rw [hread] at h; cases h
  simp only [State.releaseDecision, heldSlot_eq_some h hs, if_neg passes, releaseKind]

theorem modClaim_eq {s : State} {c : Client} {k : Fin 16} {cl : Claim} (h : s.claimAt c k = some cl)
    (f : Claim → Claim) : s.modClaim c k f = s.setClaim c k (some (f cl)) := by simp only [State.modClaim, h]

/-- A claim as a RELEASE with the tag given leaves it while transactions are outstanding (R41). -/
def releasing (cl : Claim) (kind : ReleaseKind) (tag : Byte) : Claim :=
  { cl with state := .releasing kind, releaseTag := tag }

theorem releaseClaim_eq {s : State} {n : LinkId} {k : Fin 16} {cl : Claim} (h : s.claimAt (.link n) k = some cl)
    (kind : ReleaseKind) (tag : Byte) : s.releaseClaim (.link n) k kind tag =
      (s.setClaim (.link n) k (some (releasing cl kind tag))).drainIfDone (.link n) k := by
  rw [State.releaseClaim, modClaim_eq h, releasing]

theorem releasing_claimAt (s : State) (n : LinkId) (k : Fin 16) (cl : Claim) (kind : ReleaseKind) (tag : Byte) :
    (s.setClaim (.link n) k (some (releasing cl kind tag))).claimAt (.link n) k = some (releasing cl kind tag) :=
  setClaim_self _ _ _ _ rfl

/-- A HELD claim with transactions outstanding becomes RELEASING. -/
theorem releaseClaim_outstanding {s : State} {n : LinkId} {k : Fin 16} {cl : Claim}
    (h : s.claimAt (.link n) k = some cl) (ho : 0 < cl.outstanding) (kind : ReleaseKind) (tag : Byte) :
    s.releaseClaim (.link n) k kind tag = s.setClaim (.link n) k (some (releasing cl kind tag)) := by
  rw [releaseClaim_eq h]
  simp only [State.drainIfDone, releasing_claimAt]
  exact if_neg (Nat.ne_of_gt ho)

/-- The state in which a claim that a RELEASE ends has published or torn its surface (R41, step 1). -/
def changesSettled (s : State) (cl : Claim) (publish : Bool) : State :=
  if publish then s.modPart cl.handle.index (Option.map ChangePart.publish)
  else if cl.mode = .write then s.modPart cl.handle.index (Option.map ChangePart.tear) else s

theorem settleChanges_release (s : State) (cl : Claim) (publish : Bool) :
    s.settleChanges cl (releaseKind publish) = changesSettled s cl publish := by cases publish <;> rfl

theorem changesSettled_frame (s : State) (cl : Claim) (publish : Bool) :
    (changesSettled s cl publish).table = s.table ∧ (changesSettled s cl publish).links = s.links := by
  unfold changesSettled
  split
  · exact ⟨rfl, rfl⟩
  · split <;> exact ⟨rfl, rfl⟩

theorem changesSettled_requestTaken (s : State) (n : LinkId) (rest : List CtrlReq) (cl : Claim) (publish : Bool) :
    changesSettled (requestTaken s n rest) cl publish = requestTaken (changesSettled s cl publish) n rest := by
  unfold changesSettled
  split
  · rfl
  · split <;> rfl

/-- What a slot held before it is emptied does not matter to the change parts. -/
theorem changesSettled_setClaim (s : State) (n : LinkId) (k : Fin 16) (v : Option Claim) (cl : Claim) (publish : Bool) :
    (changesSettled (s.setClaim (.link n) k v) cl publish).setClaim (.link n) k none =
      (changesSettled s cl publish).setClaim (.link n) k none := by
  unfold changesSettled
  split
  · simp [State.setClaim, State.modPart, State.part]
  · split <;> simp [State.setClaim, State.modPart, State.part]

theorem changesSettled_setClaim_link (s : State) (cl : Claim) (publish : Bool) (n m : LinkId) (k : Fin 16)
    (v : Option Claim) : ((changesSettled s cl publish).setClaim (.link n) k v).link m = s.link m := by
  rw [setClaim_link, link_of_links (changesSettled_frame s cl publish).2]

theorem seqTorn_setClaim (s : State) (c : Client) (k : Fin 16) (v : Option Claim) (i : BitVec 8) :
    (s.setClaim c k v).seqTorn i = s.seqTorn i := by simp only [State.seqTorn, setClaim_part]

theorem changesSettled_setClaim_seqTorn (s : State) (n : LinkId) (k : Fin 16) (v : Option Claim) (cl : Claim)
    (publish : Bool) (i : BitVec 8) :
    (changesSettled (s.setClaim (.link n) k v) cl publish).seqTorn i = (changesSettled s cl publish).seqTorn i := by
  rw [← seqTorn_setClaim _ (.link n) k none, changesSettled_setClaim, seqTorn_setClaim]

/-- The change parts depend on a claim's surface and mode only. -/
theorem changesSettled_releasing (s : State) (cl : Claim) (kind : ReleaseKind) (tag : Byte) (publish : Bool) :
    changesSettled s (releasing cl kind tag) publish = changesSettled s cl publish := rfl

/-- RELEASED, as the drain end of a claim that a RELEASE ends hands it over (R42). -/
theorem reportDrain_release (s : State) (n : LinkId) (k : Fin 16) (cl : Claim) (publish : Bool) :
    s.reportDrain (.link n) k cl (releaseKind publish) = s.handOver n ⟨cl.releaseTag, cl.session, false,
      .released k.val cl.handle publish (s.seqTorn cl.handle.index).1 (s.seqTorn cl.handle.index).2⟩ := by
  cases publish <;> rfl

/-- Steps 1 to 3 of the drain end of a claim that a RELEASE ends (R41, R42). -/
theorem finishDrain_release {s : State} {n : LinkId} {k : Fin 16} {cl : Claim} {publish : Bool}
    (h : s.claimAt (.link n) k = some cl) (hs : cl.state = .releasing (releaseKind publish))
    (hh : (s.link n).hears cl.session) : s.finishDrain (.link n) k =
      ((changesSettled s cl publish).setClaim (.link n) k none).modLink n fun l =>
        l.queued ⟨cl.releaseTag, cl.session, false, .released k.val cl.handle publish
          ((changesSettled s cl publish).seqTorn cl.handle.index).1
          ((changesSettled s cl publish).seqTorn cl.handle.index).2⟩ := by
  simp only [State.finishDrain, h, hs]
  rw [settleChanges_release, reportDrain_release,
    handOver_hears (by rw [changesSettled_setClaim_link]; exact hh), seqTorn_setClaim]

/-- With nothing outstanding and no claim waiting on a LIVE surface, the drain end of a claim that a RELEASE ends is
those three steps. -/
theorem drainIfDone_release {s : State} {n : LinkId} {k : Fin 16} {cl : Claim} {d : Desc} {publish : Bool}
    (h : s.claimAt (.link n) k = some cl) (hs : cl.state = .releasing (releaseKind publish)) (ho : cl.outstanding = 0)
    (hq : s.queue cl.handle.index = []) (he : (s.entry cl.handle.index).state = .live d)
    (hh : (s.link n).hears cl.session) : s.drainIfDone (.link n) k = s.finishDrain (.link n) k := by
  have drained := finishDrain_release h hs hh
  have quiet : (s.finishDrain (.link n) k).afterLoss cl.handle.index = s.finishDrain (.link n) k := by
    refine afterLoss_quiet (d := d) (by rw [finishDrain_queue, hq]) ?_
    rw [drained, modLink_entry, setClaim_entry, entry_of_table (changesSettled_frame s cl publish).1, he]
  simp only [State.drainIfDone, h, hs, ho, if_true, quiet]
  rfl

/-- A HELD claim with nothing outstanding ends its drain at once; with no claim waiting on a LIVE surface only RELEASED
follows. -/
theorem releaseClaim_drained {s : State} {n : LinkId} {k : Fin 16} {cl : Claim} {d : Desc}
    (h : s.claimAt (.link n) k = some cl) (ho : cl.outstanding = 0) (hq : s.queue cl.handle.index = [])
    (he : (s.entry cl.handle.index).state = .live d) (hh : (s.link n).hears cl.session) (publish : Bool) (tag : Byte) :
    s.releaseClaim (.link n) k (releaseKind publish) tag =
      ((changesSettled s cl publish).setClaim (.link n) k none).modLink n fun l =>
        l.queued ⟨tag, cl.session, false, .released k.val cl.handle publish
          ((changesSettled s cl publish).seqTorn cl.handle.index).1
          ((changesSettled s cl publish).seqTorn cl.handle.index).2⟩ := by
  have hat := releasing_claimAt s n k cl (releaseKind publish) tag
  have hears : ((s.setClaim (.link n) k (some (releasing cl (releaseKind publish) tag))).link n).hears cl.session := by
    rw [setClaim_link]; exact hh
  rw [releaseClaim_eq h, drainIfDone_release (d := d) hat rfl ho (by rw [setClaim_queue]; exact hq)
    (by rw [setClaim_entry]; exact he) hears, finishDrain_release hat rfl hears, changesSettled_releasing,
    changesSettled_setClaim, changesSettled_setClaim_seqTorn]
  rfl

/-- Settles O35: the refusals, the drain that waits for its transactions, and the drain that ends at once. -/
theorem releaseDrainsTheClaim : Obligations.ReleaseDrainsTheClaim := by
  unfold Obligations.ReleaseDrainsTheClaim
  intro n s tag slot publish rest hp hr hh
  refine ⟨fun hnone => ?_, fun k cl hslot hat hheld => ?_⟩
  · have unheld : (requestTaken s n rest).heldSlot n slot = none := heldSlot_eq_none hnone
    rw [exec_release hp hr, State.releaseDecision]
    simp only [unheld]
    rw [respond_taken hh]
  · subst hslot
    have taken : (requestTaken s n rest).claimAt (.link n) k = some cl := hat
    refine ⟨fun hpub hmode => ?_, fun hmode => ⟨fun ho => ?_, fun d ho hq he hsession => ?_⟩⟩
    · rw [exec_release hp hr, State.releaseDecision]
      simp only [heldSlot_eq_some taken hheld, hpub, hmode, and_self, if_true]
      rw [respond_taken hh]
    · rw [exec_release hp hr, releaseDecision_passes tag taken hheld hmode, releaseClaim_outstanding taken ho]
      rfl
    · have hears : ((requestTaken s n rest).link n).hears cl.session := by
        rw [requestTaken_link, hsession]; exact hh
      rw [exec_release hp hr, releaseDecision_passes tag taken hheld hmode,
        releaseClaim_drained taken ho hq he hears, changesSettled_requestTaken]
      have message := requestTaken_queued ((changesSettled s cl publish).setClaim (.link n) k none) n rest tag
        (.released k.val cl.handle publish ((changesSettled s cl publish).seqTorn cl.handle.index).1
          ((changesSettled s cl publish).seqTorn cl.handle.index).2)
      rw [changesSettled_setClaim_link, ← hsession] at message
      exact congrArg (fun t => Host.Outcome.next (State.settle t)) message

/-! ## FILL_CLAIM (R34, R141) -/

/-- The service of the read at the head of the line leaves the line's rest. -/
theorem popLine_eq {s : State} {e : LineEntry} {line : List LineEntry} (h : s.claims.line = e :: line) :
    s.popLine = { s.pointing .fillEngine with claims := { s.claims with line := line } } := by
  simp [State.popLine, State.setLine, State.served, State.pointing, Requester.next, h]

theorem exec_fillClaim {s : State} {line : List LineEntry} (h : s.claims.line = .fill :: line)
    (ht : s.portTurn = some .claimEngine) : exec .fillClaim s = .next s.fillClaimService.settle := by
  show execFillClaim s = _
  simp only [execFillClaim, h, ht, if_true, settled]

/-- The Fill Engine's claim is granted on a surface with no claim, and else refused BUSY or queued (R34). -/
theorem placement_fill {s : State} (h : s.claims.filler = none) (i : BitVec 8) (wait : Nat) :
    s.placement .fill i .write wait =
      if s.queue i = [] ∧ s.holders i = [] then .grant 0 else if wait = 0 then .busy else .queue 0 := by
  simp [State.placement, State.emptySlot, h, State.compatible]

/-- The FILL `b` with job `j` has ended with rows done as they stand: the engine is IDLE and FILL has completed with the
sequence and torn words given (R146); `draws` free values have been drawn. -/
def fillEnded (s : State) (j : FillJob) (b : Background) (v : Verdict) (seq torn : Word) (draws : Nat) : State :=
  { s with
    fill := { s.fill with state := .idle, job := none }
    draws := draws
    cmd := { s.cmd with
      background := s.cmd.background.eraseP (fun g => g.kind == 9), reserved := s.cmd.reserved - 1
      completions := s.cmd.completions ++ [⟨b.tag, b.kind, v,
        [BitVec.ofNat 32 s.fill.rowsDone, BitVec.setWidth 32 (j.handle.index ++ j.handle.gen), seq, torn]⟩] } }

/-- The words of a FILL's completion are those of its surface's change part, where it has one (R144; log 10). -/
theorem fillEnd_ended {s : State} {j : FillJob} {b : Background} (hj : s.fill.job = some j)
    (hb : s.cmd.background.find? (fun g => g.kind == 9) = some b) (v : Verdict) : ∃ seq torn draws,
    s.fillEnd v = fillEnded s j b v seq torn draws ∧
      ∀ p, s.partOf j.handle = some p → seq = p.sequence ∧ torn = if p.torn = 0 then 0 else 1 := by
  cases hp : s.partOf j.handle with
  | some p =>
    refine ⟨p.sequence, if p.torn = 0 then 0 else 1, s.draws, ?_, fun q hq => by cases hq; exact ⟨rfl, rfl⟩⟩
    rw [fillEnd_over hj hp hb, State.fillOver, CommandEngine.filled, (partOf_eq_some hp).2]
    rfl
  | none =>
    refine ⟨Config.unstatedSequence s.draws, place 0 (bit (Config.unstatedTorn s.draws)), s.draws + 1, ?_,
      fun q hq => by cases hq⟩
    simp only [State.fillEnd, hj, hp, State.postBackground, hb]
    rfl

/-- The service of the engine's read, the line's rest being left in `v` (R34, R145). -/
theorem fillClaimService_eq {s v : State} {j : FillJob} (hv : s.popLine = v) (hj : v.fill.job = some j) :
    s.fillClaimService = if j.withdrawTaken then v.fillEnd .cancelled else v.fillClaimDecision j := by
  simp only [State.fillClaimService, hv, hj]

/-- The decision of the engine's claim on a LIVE surface (R34, R141). -/
theorem fillClaimDecision_current {s : State} {j : FillJob} {d : Desc} (hc : s.classify j.handle = .current d)
    (hf : s.claims.filler = none) : s.fillClaimDecision j =
      if s.queue j.handle.index = [] ∧ s.holders j.handle.index = [] then
        (s.setClaim .fill 0 (some (Claim.new j.handle .write true 0 j.waitLimit j.tag 0))).fillGranted
      else if j.waitLimit = 0 then s.fillEnd (.busy .surface)
      else (s.setClaim .fill 0 (some (Claim.new j.handle .write false 0 j.waitLimit j.tag 0))).modQueue
        j.handle.index fun q => q ++ [.fill] := by
  simp only [State.fillClaimDecision, hc, placement_fill hf]
  by_cases hfree : s.queue j.handle.index = [] ∧ s.holders j.handle.index = []
  · rw [if_pos hfree, if_pos hfree]
  · rw [if_neg hfree, if_neg hfree]
    by_cases hw : j.waitLimit = 0
    · rw [if_pos hw, if_pos hw]
    · rw [if_neg hw, if_neg hw]

theorem fillGranted_eq (s : State) : s.fillGranted = { s with
    fill := { s.fill with state := if s.fill.state = .waiting then .writing else s.fill.state } } := by
  unfold State.fillGranted; split <;> rfl

/-- Settles O47: every way in which the FILL ends is one end of a fill, and the claim on a LIVE surface is placed. -/
theorem fillClaimIsDecidedAtItsRead : Obligations.FillClaimIsDecidedAtItsRead := by
  unfold Obligations.FillClaimIsDecidedAtItsRead
  intro s line j b hline hturn hj hfill hb i s' claim ends free
  have service : exec .fillClaim s =
      .next (if j.withdrawTaken then s'.fillEnd .cancelled else s'.fillClaimDecision j).settle := by
    rw [exec_fillClaim hline hturn, fillClaimService_eq (popLine_eq hline) hj]
  have ended : ∀ v, exec .fillClaim s = .next (s'.fillEnd v).settle → ends v := fun v he => by
    obtain ⟨seq, torn, draws, hend, hpart⟩ := fillEnd_ended (s := s') hj hb v
    exact ⟨s'.fillEnd v, seq, torn, he, by rw [hend]; rfl, by rw [hend]; rfl, hpart, by rw [hend]; rfl⟩
  refine ⟨fun hw => ended _ (by rw [service, if_pos hw]), fun hw => ?_⟩
  rw [hw, if_neg Bool.false_ne_true] at service
  refine ⟨fun hc => ended _ ?_, fun d => ⟨fun hc => ended _ ?_, fun hc => ?_⟩⟩
  · have stale : s'.classify j.handle = .stale := hc
    simp only [service, State.fillClaimDecision, stale]
  · have retiring : s'.classify j.handle = .retiring d := hc
    simp only [service, State.fillClaimDecision, retiring]
  · rw [fillClaimDecision_current (s := s') hc hfill] at service
    have unchanged : free ↔ s'.queue j.handle.index = [] ∧ s'.holders j.handle.index = [] := Iff.rfl
    refine ⟨fun hfree => ?_, fun hheld hwait => ended _ ?_, fun hheld hwait => ?_⟩
    · rw [service, if_pos (unchanged.1 hfree), fillGranted_eq]
      rfl
    · rw [service, if_neg (mt unchanged.2 hheld), if_pos hwait]
    · rw [service, if_neg (mt unchanged.2 hheld), if_neg (Nat.ne_of_gt hwait)]
      rfl

end Sys2Proof.Machine.GrantOrder

/-! PROOFS. The Change Tracker's bands and answers (R68, R77), the host's queries that only complete (R79, R96, R173),
and CHANGES of a link (R76 to R78). -/

namespace Sys2Proof.Machine.ChangeTracking

open GrantOrder

/-! ## Bands (R68) -/

/-- A union over a list has the bands that it started with and those of each member. -/
theorem foldl_or_getLsbD {α : Type} (f : α → BandSet) (b : Nat) (l : List α) (m : BandSet) :
    (l.foldl (fun m e => m ||| f e) m).getLsbD b = true ↔
      m.getLsbD b = true ∨ ∃ e ∈ l, (f e).getLsbD b = true := by
  induction l generalizing m with
  | nil => simp
  | cons e rest ih => rw [List.foldl_cons, ih]; simp [or_assoc]

theorem union_getLsbD {α : Type} (f : α → BandSet) (b : Nat) (l : List α) :
    (l.foldl (fun m e => m ||| f e) 0).getLsbD b = true ↔ ∃ e ∈ l, (f e).getLsbD b = true := by
  simp [foldl_or_getLsbD]

theorem bandHeight_eq (height : Nat) : bandHeight height = (height + 63) / 64 := rfl

theorem oneBand_getLsbD (a b : Nat) : (oneBand a).getLsbD b = true ↔ b < 64 ∧ a = b := by
  simp only [oneBand, BitVec.getLsbD_twoPow, Bool.and_eq_true, decide_eq_true_eq]
  omega

theorem bandOf_lt {height y : Nat} (hy : y < height) : bandOf height y < 64 := by
  have cover : y < 64 * bandHeight height := by rw [bandHeight_eq]; omega
  exact Nat.div_lt_of_lt_mul (by rwa [Nat.mul_comm])

/-- No surface has more than 64 non-empty bands. -/
theorem bandCount_le {height : Nat} (hpos : 1 ≤ height) : ceilDiv height (bandHeight height) ≤ 64 := by
  have positive : 0 < bandHeight height := by rw [bandHeight_eq]; omega
  have cover : height + bandHeight height - 1 < 65 * bandHeight height := by rw [bandHeight_eq]; omega
  exact Nat.le_of_lt_succ ((Nat.div_lt_iff_lt_mul positive).2 cover)

theorem allBands_getLsbD {height : Nat} (hpos : 1 ≤ height) (b : Nat) :
    (allBands height).getLsbD b = true ↔ b < ceilDiv height (bandHeight height) := by
  have count := bandCount_le hpos
  rw [allBands, union_getLsbD]
  simp only [oneBand_getLsbD, List.mem_range]
  exact ⟨fun ⟨a, ha, _, hab⟩ => hab ▸ ha, fun hb => ⟨b, hb, Nat.lt_of_lt_of_le hb count, rfl⟩⟩

/-! ## The answer to CHANGES (R77) -/

/-- The newest ring entries stand at the ring's end. -/
theorem newestBands_getLsbD (entries : List (Word × BandSet)) (d b : Nat) :
    (newestBands entries d).getLsbD b = true ↔
      ∃ e ∈ entries.drop (entries.length - d), e.2.getLsbD b = true := by
  rw [newestBands, union_getLsbD, List.take_reverse]
  simp only [List.mem_reverse]

theorem answer_current {p : ChangePart} {since : Word} (h : (p.sequence - since).toNat = 0) (height : Nat) :
    p.answer height since = (.current, 0) := if_pos h

theorem answer_delta {p : ChangePart} {since : Word} (h1 : 1 ≤ (p.sequence - since).toNat)
    (h2 : (p.sequence - since).toNat ≤ p.ring.length) (height : Nat) :
    p.answer height since = (.delta, newestBands p.ring (p.sequence - since).toNat) :=
  (if_neg (Nat.ne_of_gt h1)).trans (if_pos h2)

theorem answer_full {p : ChangePart} {since : Word} (h : p.ring.length < (p.sequence - since).toNat) (height : Nat) :
    p.answer height since = (.full, allBands height) :=
  (if_neg (Nat.ne_of_gt (Nat.zero_lt_of_lt h))).trans (if_neg (Nat.not_le_of_gt h))

/-- Settles O50: the bands, and each of the three answers by its distance. -/
theorem changesAnswerByDistance : Obligations.ChangesAnswerByDistance := by
  unfold Obligations.ChangesAnswerByDistance
  intro p height since hpos _ bh d
  refine ⟨fun y hy => ⟨rfl, bandOf_lt hy⟩, fun h => answer_current h height, fun h1 h2 => ?_, fun h => ?_⟩
  · rw [answer_delta h1 h2]
    exact ⟨rfl, newestBands_getLsbD p.ring d⟩
  · rw [answer_full h]
    exact ⟨rfl, allBands_getLsbD hpos⟩

/-! ## Words of two fields (11.3) -/

theorem place_getLsbD (lo v : Nat) {b : Nat} (hb : b < 32) :
    (place lo v).getLsbD b = (decide (lo ≤ b) && v.testBit (b - lo)) := by
  simp [place, BitVec.getLsbD_ofNat, Nat.testBit_shiftLeft, hb, -BitVec.getLsbD_eq_getElem]

theorem place_pair_low (a b : Nat) : (place 0 a ||| place 16 b).extractLsb' 0 16 = BitVec.ofNat 16 a := by
  apply BitVec.eq_of_getLsbD_eq
  intro i hi
  have inWord : i < 32 := by omega
  simp [-BitVec.getLsbD_eq_getElem, BitVec.getLsbD_ofNat, place_getLsbD _ _ inWord, hi, Nat.not_le_of_gt hi]

theorem place_pair_high {a : Nat} (ha : a < 65536) (b : Nat) :
    (place 0 a ||| place 16 b).extractLsb' 16 16 = BitVec.ofNat 16 b := by
  apply BitVec.eq_of_getLsbD_eq
  intro i hi
  have clear : a.testBit (16 + i) = false :=
    Nat.testBit_lt_two_pow (Nat.lt_of_lt_of_le ha (Nat.pow_le_pow_right (by decide : 0 < 2) (Nat.le_add_right 16 i)))
  have inWord : 16 + i < 32 := by omega
  simp [-BitVec.getLsbD_eq_getElem, BitVec.getLsbD_ofNat, place_getLsbD _ _ inWord, hi, clear]

/-- Word 0 of a CHANGES completion: the status in bits [7:0] and the torn flag in bit [8]. -/
theorem statusWord_eq (c : ChangeStatus) (p : ChangePart) :
    place 0 c.code ||| place 8 (bit p.tornFlag) = BitVec.ofNat 32 (c.code + if p.torn = 0 then 0 else 256) := by
  by_cases h : p.torn = 0
  · have flag : p.tornFlag = false := by rw [ChangePart.tornFlag, h]; rfl
    rw [flag, if_pos h]
    cases c <;> rfl
  · have flag : p.tornFlag = true := bne_iff_ne.2 h
    rw [flag, if_neg h]
    cases c <;> rfl

theorem largestFree_eq (a : Allocator) : a.largestFree = (a.freeRuns.map Run.length).foldl max 0 := by
  rw [Allocator.largestFree, List.foldl_map]

/-! ## Queries of the host -/

theorem exec_changes_stale {s : State} {r : CmdRecord} (h : s.executes .changes r)
    (hp : s.partOf (stagedHandle r.stage) = none) :
    exec .changes s = .next (s.completing r .staleHandle []).settle := by
  show execChanges s = _
  simp only [execChanges, executingAs_eq h.1 h.2, hp, settled, post_completing h.1]

theorem exec_changes_answered {s : State} {r : CmdRecord} {p : ChangePart} (h : s.executes .changes r)
    (hp : s.partOf (stagedHandle r.stage) = some p) :
    let a := p.answer (s.height (stagedHandle r.stage).index) r.stage[1]
    exec .changes s = .next (s.completing r .ok [BitVec.ofNat 32 (a.1.code + if p.torn = 0 then 0 else 256), p.sequence,
      a.2.extractLsb' 0 32, a.2.extractLsb' 32 32]).settle := by
  show execChanges s = _
  simp only [execChanges, executingAs_eq h.1 h.2, hp, settled, post_completing h.1, statusWord_eq]

theorem exec_space {s : State} {r : CmdRecord} (h : s.executes .space r) :
    exec .space s = .next (s.completing r .ok s.alloc.report).settle := by
  show execSpace s = _
  simp only [execSpace, executingAs_eq h.1 h.2, settled, post_completing h.1]

/-- The codes outside 1 to 10 name no command (11.2). -/
theorem cmdKindOf_eq_none : ∀ {k : Byte}, k = 0 ∨ 10 < k.toNat → cmdKindOf k = none := by
  decide

theorem exec_unknownCommand {s : State} {r : CmdRecord} {st : Stage} (h : s.cmd.executing = some ⟨r, st⟩)
    (hk : r.command = none) : exec .unknownCommand s = .next (s.completing r .unknownCommand []).settle := by
  show execUnknownCommand s = _
  simp only [execUnknownCommand, h, hk, if_true, settled, post_completing h]

/-- Settles O23: each query posts its completion, and the two fields of each word of SPACE stand apart. -/
theorem queriesOnlyComplete : Obligations.QueriesOnlyComplete := by
  unfold Obligations.QueriesOnlyComplete
  refine fun s r => ⟨fun h => ⟨exec_changes_stale h, fun p hp => exec_changes_answered h hp⟩,
    fun h hfree hscrub hruns => ⟨_, _, _, exec_space h, ?_⟩,
    fun st h hk => exec_unknownCommand h (cmdKindOf_eq_none hk)⟩
  rw [← largestFree_eq]
  exact ⟨place_pair_low _ _, place_pair_high hfree _, place_pair_low _ _, place_pair_high hscrub _,
    place_pair_low _ _, place_pair_high hruns _⟩

/-! ## A request's turn in the line (R12, R32, R155) -/

theorem nextRequest_eq_some {s : State} {n : LinkId} {r : CtrlReq} {rest : List CtrlReq}
    (hp : (s.link n).progress = none) (hr : (s.link n).requests = r :: rest) : s.nextRequest n = some r := by
  simp [State.nextRequest, hp, hr]

theorem lineTurn_eq_some {s : State} {n : LinkId} {session : BitVec 8} {r : CtrlReq} {w : Bool} {line : List LineEntry}
    (hl : s.claims.line = .link n session r w :: line) (ht : s.portTurn = some .claimEngine) :
    s.lineTurn n = some (session, r, w) := by
  simp [State.lineTurn, hl, ht]

/-- The state once request `r` of link `n`, with `rest` behind it, has joined the Claim Engine's line. -/
def lineJoined (s : State) (n : LinkId) (r : CtrlReq) (rest : List CtrlReq) : State :=
  (s.setLine (s.claims.line ++ [.link n (s.link n).session r false])).modLink n
    fun l => { l with requests := rest, progress := some .reading }

theorem takeRequest_eq {s : State} {n : LinkId} {r : CtrlReq} {rest : List CtrlReq}
    (hr : (s.link n).requests = r :: rest) (p : Option Progress) :
    s.takeRequest n p = s.modLink n fun l => { l with requests := rest, progress := p } :=
  modLink_congr (by rw [hr]; rfl)

theorem joinLine_eq {s : State} {n : LinkId} {r : CtrlReq} {rest : List CtrlReq}
    (hr : (s.link n).requests = r :: rest) : s.joinLine n r = lineJoined s n r rest := by
  simp only [State.joinLine, takeRequest_eq hr, modLink_self]
  rfl

/-- A request that joins an empty line with the arbiter at the Claim Engine is the next served. -/
theorem lineJoined_lineTurn {s : State} {n : LinkId} {r : CtrlReq} {rest : List CtrlReq} (hl : s.claims.line = [])
    (ht : (lineJoined s n r rest).portTurn = some .claimEngine) :
    (lineJoined s n r rest).lineTurn n = some ((s.link n).session, r, false) := by
  refine lineTurn_eq_some (line := []) ?_ ht
  show s.claims.line ++ _ = _
  rw [hl]
  rfl

/-! ## The taking of a CHANGES of a link (R76, R155) -/

section Taking

variable {n : LinkId} {s : State} {tag : Byte} {h : Handle} {since : Word} {rest : List CtrlReq}

theorem exec_changesQuery_served {session : BitVec 8} {w : Bool}
    (ht : s.lineTurn n = some (session, .changes tag h since, w)) (x : Extent) :
    exec (.changesQuery n x) s = .next (s.serveChanges n session tag h since w).settle := by
  show execChangesQuery n x s = _
  simp only [execChangesQuery, ht, settled]

variable (ht : s.lineTurn n = none) (hp : (s.link n).progress = none)
  (hr : (s.link n).requests = .changes tag h since :: rest)

include ht hp hr

theorem exec_changesQuery_firstEvent (hi : h.index ≠ 0) :
    exec (.changesQuery n .firstEvent) s = .next (lineJoined s n (.changes tag h since) rest).settle := by
  show execChangesQuery n .firstEvent s = _
  simp only [execChangesQuery, ht, nextRequest_eq_some hp hr, hi, if_false, joinLine_eq hr, settled]

theorem exec_changesQuery_unserved (hi : h.index ≠ 0)
    (hj : (lineJoined s n (.changes tag h since) rest).lineTurn n = none) :
    exec (.changesQuery n .whole) s = .next (lineJoined s n (.changes tag h since) rest).settle := by
  show execChangesQuery n .whole s = _
  simp only [execChangesQuery, ht, nextRequest_eq_some hp hr, hi, if_false, joinLine_eq hr, hj, settled]

theorem exec_changesQuery_both {session : BitVec 8} {w : Bool} (hi : h.index ≠ 0)
    (hj : (lineJoined s n (.changes tag h since) rest).lineTurn n = some (session, .changes tag h since, w)) :
    exec (.changesQuery n .whole) s =
      exec (.changesQuery n .whole) (lineJoined s n (.changes tag h since) rest) := by
  rw [exec_changesQuery_served hj]
  show execChangesQuery n .whole s = _
  simp only [execChangesQuery, ht, nextRequest_eq_some hp hr, hi, if_false, joinLine_eq hr, hj, settled]

theorem exec_changesQuery_indexZero (hi : h.index = 0) (x : Extent) :
    exec (.changesQuery n x) s =
      .next ((s.takeRequest n none).respond n tag (s.link n).session (.refused .staleHandle 0)).settle := by
  show execChangesQuery n x s = _
  simp only [execChangesQuery, ht, nextRequest_eq_some hp hr, hi, if_true, settled]

end Taking

/-! ## Its decision and its answer (R76 to R78) -/

/-- Link `n`'s request is decided with the response `b`. -/
def answering (s : State) (n : LinkId) (tag : Byte) (b : Body) : State :=
  s.modLink n fun l => { l with progress := none }.queued ⟨tag, l.session, false, b⟩

theorem decided_respond {s : State} {n : LinkId} {session : BitVec 8} (hh : (s.link n).hears session) (tag : Byte)
    (b : Body) : (s.decided n).respond n tag session b = answering s n tag b := by
  have heard : ((s.decided n).link n).hears session := by rw [State.decided, modLink_self]; exact hh
  rw [State.respond, handOver_hears heard, State.decided, modLink_modLink]
  exact modLink_congr (by rw [← hh.2.1])

theorem takeRequest_none_eq_decided {s : State} {n : LinkId} {r : CtrlReq} {rest : List CtrlReq}
    (hr : (s.link n).requests = r :: rest) : s.takeRequest n none = (requestTaken s n rest).decided n := by
  rw [takeRequest_eq hr, requestTaken, State.decided, modLink_modLink]

theorem changesDecision_stale {s : State} {h : Handle} (hc : s.classify h = .stale) (n : LinkId) (session : BitVec 8)
    (tag : Byte) (since : Word) : s.changesDecision n session tag h since =
      (s.decided n).respond n tag session (.refused .staleHandle 0) := by
  simp only [State.changesDecision, hc]

theorem changesDecision_record {s : State} {h : Handle} {d : Desc}
    (hc : s.classify h = .current d ∨ s.classify h = .retiring d) (n : LinkId) (session : BitVec 8) (tag : Byte)
    (since : Word) : s.changesDecision n session tag h since =
      if d.rights[n.val] = .none then (s.decided n).respond n tag session (.refused .noRight 0)
      else s.modLink n fun l => { l with progress := some (.answering tag h since) } := by
  rcases hc with hc | hc <;> simp only [State.changesDecision, hc]

theorem exec_changesAnswer {s : State} {n : LinkId} {tag : Byte} {h : Handle} {since : Word}
    (hp : (s.link n).progress = some (.answering tag h since)) :
    exec (.changesAnswer n) s = .next ((s.decided n).changesAnswer n tag h since).settle := by
  show execChangesAnswer n s = _
  simp only [execChangesAnswer, hp, settled]

theorem decided_session (s : State) (n : LinkId) : ((s.decided n).link n).session = (s.link n).session := by
  rw [State.decided, modLink_self]

theorem changesAnswer_none {s : State} {h : Handle} (hp : s.partOf h = none) (n : LinkId) (tag : Byte) (since : Word) :
    s.changesAnswer n tag h since = s.respond n tag (s.link n).session (.refused .staleHandle 0) := by
  simp only [State.changesAnswer, hp]

theorem changesAnswer_some {s : State} {h : Handle} {p : ChangePart} (hp : s.partOf h = some p) (n : LinkId)
    (tag : Byte) (since : Word) : s.changesAnswer n tag h since = s.respond n tag (s.link n).session
      (.changeReport h (p.answer (s.height h.index) since).1 (p.torn != 0) p.sequence
        (p.answer (s.height h.index) since).2) := by
  simp only [State.changesAnswer, hp, ChangePart.tornFlag]

/-- Settles O37: the taking, the withdrawn query, the refusals, and the answer at the Change Tracker. -/
theorem changesOfALinkIsAnswered : Obligations.ChangesOfALinkIsAnswered := by
  unfold Obligations.ChangesOfALinkIsAnswered
  intro n x s tag h since rest line
  refine ⟨fun ht hp hr hi => ?taking, fun session hturn hline => ?withdrawn,
    fun hh => ⟨fun ht hp hr hi => ?indexZero, fun hturn hline => ?service, fun hp => ?answer⟩⟩
  case taking =>
    exact ⟨exec_changesQuery_firstEvent ht hp hr hi, exec_changesQuery_unserved ht hp hr hi,
      fun hempty hturn => exec_changesQuery_both ht hp hr hi (lineJoined_lineTurn hempty hturn)⟩
  case withdrawn =>
    rw [exec_changesQuery_served (lineTurn_eq_some hline hturn), State.serveChanges, if_pos rfl, popLine_eq hline]
  case indexZero =>
    have heard : ((requestTaken s n rest).link n).hears (s.link n).session := by rw [requestTaken_link]; exact hh
    rw [exec_changesQuery_indexZero ht hp hr hi, takeRequest_none_eq_decided hr, decided_respond heard]
    rfl
  case service =>
    intro served
    have decision : exec (.changesQuery n x) s =
        .next (served.changesDecision n (s.link n).session tag h since).settle := by
      rw [exec_changesQuery_served (lineTurn_eq_some hline hturn), State.serveChanges, if_neg Bool.false_ne_true,
        popLine_eq hline]
    have heard : (served.link n).hears (s.link n).session := hh
    refine ⟨fun hc => ?_, fun d hc => ⟨fun hnone => ?_, fun hright => ?_⟩⟩
    · rw [decision, changesDecision_stale (s := served) hc, decided_respond heard]
      rfl
    · rw [decision, changesDecision_record (s := served) hc, if_pos hnone, decided_respond heard]
      rfl
    · rw [decision, changesDecision_record (s := served) hc, if_neg hright]
  case answer =>
    refine ⟨fun hnone => ?_, fun p hpart => ?_⟩
    · rw [exec_changesAnswer hp, changesAnswer_none (s := s.decided n) hnone, decided_session, decided_respond hh]
      rfl
    · rw [exec_changesAnswer hp, changesAnswer_some (s := s.decided n) hpart, decided_session, decided_respond hh]
      rfl

end Sys2Proof.Machine.ChangeTracking

/-! PROOFS. What each operation and each command does to the Fault Unit, for law 9: a link has one fault record at
most, and its stream is then HELD (R123, R127). -/

namespace Sys2Proof.Machine.FaultQueue

open GrantOrder (foldl_keeps)

/-! ## Operations that leave the Fault Unit alone -/

section Leaves

variable (s : State)

@[simp] theorem post_faults (v : Verdict) (ws : List Word) : (s.post v ws).faults = s.faults := by
  unfold State.post; split <;> rfl

@[simp] theorem toBackground_faults (h : Handle) : (s.toBackground h).faults = s.faults := by
  unfold State.toBackground; split <;> rfl

@[simp] theorem postBackground_faults (p : Background → Bool) (v : Verdict) (ws : List Word) :
    (s.postBackground p v ws).faults = s.faults := by
  unfold State.postBackground; split <;> rfl

@[simp] theorem takeNext_faults : s.takeNext.faults = s.faults := (spares_takeNext s).1

@[simp] theorem updateEntry_faults (i : BitVec 8) (f : Entry → Entry) : (s.updateEntry i f).faults = s.faults := rfl

@[simp] theorem modClaim_faults (c : Client) (k : Fin 16) (f : Claim → Claim) :
    (s.modClaim c k f).faults = s.faults := by
  unfold State.modClaim; split <;> simp

@[simp] theorem markBand_faults (i : BitVec 8) (w : Bool) (b : Nat) : (s.markBand i w b).faults = s.faults :=
  (spares_markBand s i w b).1

/-! Teardown starts and messages to a link. -/

@[simp] theorem takeCause_faults (n : LinkId) (c : Cause) : (s.takeCause n c).faults = s.faults := by
  unfold State.takeCause
  split
  · rw [State.beginTeardown, abandonRetry_eq]; rfl
  · rfl
  · rfl

@[simp] theorem handOver_faults (n : LinkId) (m : Message) : (s.handOver n m).faults = s.faults := by
  obtain ⟨_, _, faults, _⟩ := handOver_keeps s n m
  exact faults

@[simp] theorem handOverAccess_faults (n : LinkId) (m : Message) : (s.handOverAccess n m).faults = s.faults := by
  simp only [State.handOverAccess]; split <;> rfl

@[simp] theorem respond_faults (n : LinkId) (tag : Byte) (session : BitVec 8) (b : Body) :
    (s.respond n tag session b).faults = s.faults := handOver_faults s n _

@[simp] theorem sendResumed_faults (n : LinkId) (tag : Byte) (a : ResolveAction) (k : Nat) :
    (s.sendResumed n tag a k).faults = s.faults := handOver_faults s n _

/-! Claims. -/

@[simp] theorem examineDrain_faults (i : BitVec 8) : (s.examineDrain i).faults = s.faults :=
  (spares_examineDrain s i).1

@[simp] theorem serve_faults (i : BitVec 8) : (s.serve i).faults = s.faults := (spares_serve s i).1

@[simp] theorem fillEnd_faults (v : Verdict) : (s.fillEnd v).faults = s.faults := by
  obtain ⟨_, faults, _⟩ := fillEnd_keeps s v
  exact faults

@[simp] theorem fillDrained_faults (k : ReleaseKind) : (s.fillDrained k).faults = s.faults :=
  (spares_fillDrained s k).1

@[simp] theorem fillGranted_faults : s.fillGranted.faults = s.faults := by
  unfold State.fillGranted; split <;> rfl

@[simp] theorem settleChanges_faults (cl : Claim) (k : ReleaseKind) : (s.settleChanges cl k).faults = s.faults :=
  (spares_settleChanges s cl k).1

@[simp] theorem reportDrain_faults (c : Client) (k : Fin 16) (cl : Claim) (kind : ReleaseKind) :
    (s.reportDrain c k cl kind).faults = s.faults := by
  obtain ⟨_, _, faults, _⟩ := reportDrain_keeps s c k cl kind
  exact faults

@[simp] theorem finishDrain_faults (c : Client) (k : Fin 16) : (s.finishDrain c k).faults = s.faults := by
  unfold State.finishDrain; split
  · rfl
  · split <;> simp

@[simp] theorem afterLoss_faults (i : BitVec 8) : (s.afterLoss i).faults = s.faults := by simp [State.afterLoss]

@[simp] theorem reportFill_faults (c : Client) (kind : ReleaseKind) : (s.reportFill c kind).faults = s.faults := by
  cases c <;> simp [State.reportFill]

@[simp] theorem drainIfDone_faults (c : Client) (k : Fin 16) : (s.drainIfDone c k).faults = s.faults := by
  unfold State.drainIfDone; split
  · rfl
  · split
    · split <;> simp
    · rfl

@[simp] theorem releaseClaim_faults (c : Client) (k : Fin 16) (kind : ReleaseKind) (tag : Byte) :
    (s.releaseClaim c k kind tag).faults = s.faults := by simp [State.releaseClaim]

@[simp] theorem dropWaiting_faults (c : Client) (k : Fin 16) (i : BitVec 8) :
    (s.dropWaiting c k i).faults = s.faults := by simp [State.dropWaiting]

theorem revokeWaiting_faults (i : BitVec 8) (r : Reason) (sel : Client → Claim → Bool) (c : Client) :
    (s.revokeWaiting i r sel c).faults = s.faults := by
  unfold State.revokeWaiting; split
  · rfl
  · split
    · cases c <;> simp
    · rfl

theorem revokeHeld_faults (i : BitVec 8) (r : Reason) (sel : Client → Claim → Bool) (c : Client) :
    (s.revokeHeld i r sel c).faults = s.faults := by
  unfold State.revokeHeld; split
  · rfl
  · split
    · dsimp only; split <;> simp
    · rfl

@[simp] theorem revoke_faults (i : BitVec 8) (r : Reason) (sel : Client → Claim → Bool) :
    (s.revoke i r sel).faults = s.faults := by
  have turns : (allClients.foldl (State.revokeHeld i r sel) (allClients.foldl (State.revokeWaiting i r sel) s)).faults =
      s.faults := by
    rw [foldl_keeps _ State.faults fun s c => revokeHeld_faults s i r sel c,
      foldl_keeps _ State.faults fun s c => revokeWaiting_faults s i r sel c]
  unfold State.revoke
  dsimp only
  split <;> simp [turns]

@[simp] theorem expire_faults (p : Client × Fin 16) : (s.expire p).faults = s.faults := by
  unfold State.expire; split
  · rfl
  · split
    · dsimp only; split <;> simp
    · rfl

@[simp] theorem timeOut_faults (p : Client × Fin 16) : (s.timeOut p).faults = s.faults := by
  unfold State.timeOut; split
  · rfl
  · split
    · dsimp only; split <;> simp
    · rfl

theorem warn_faults (w : Nat) (p : Client × Fin 16) : (s.warn w p).faults = s.faults := by
  unfold State.warn; split
  · rfl
  · split
    · dsimp only; split <;> simp
    · rfl

theorem countClaim_faults (p : Client × Fin 16) : (s.countClaim p).faults = s.faults := modClaim_faults s _ _ _

@[simp] theorem leaseTick_faults : s.leaseTick.faults = s.faults := by
  simp only [State.leaseTick]
  rw [foldl_keeps _ State.faults examineDrain_faults, foldl_keeps _ State.faults serve_faults,
    foldl_keeps _ State.faults fun s p => warn_faults s _ p, foldl_keeps _ State.faults timeOut_faults,
    foldl_keeps _ State.faults expire_faults, foldl_keeps _ State.faults countClaim_faults]

/-! The Access Path. -/

@[simp] theorem releaseResponses_faults (n : LinkId) : (s.releaseResponses n).faults = s.faults := by
  have key : ∀ (l : List Response) (s : State), (s.releaseFrom n l).faults = s.faults := by
    intro l
    induction l with
    | nil => exact fun _ => rfl
    | cons r rest ih =>
      intro s
      cases r with
      | inFlight b w ps => rfl
      | ready t ss b => rw [State.releaseFrom, ih, handOverAccess_faults, modLane_faults]
  exact key _ s

@[simp] theorem accept_faults (n : LinkId) (b : Burst) (c : Copy) (k : Fin 16) :
    (s.accept n b c k).faults = s.faults := by simp [State.accept, State.raiseOutstanding]

@[simp] theorem retryRefaulted_faults (n : LinkId) (kind : LinkCode) (k : Nat) :
    (s.retryRefaulted n kind k).faults = s.faults := by
  unfold State.retryRefaulted; split <;> simp

@[simp] theorem refill_faults (n : LinkId) (d : Mode) (h : Handle) : (s.refill n d h).faults = s.faults := rfl

@[simp] theorem surfaceDone_faults (i : BitVec 8) : (s.surfaceDone i).faults = s.faults := by
  simp only [State.surfaceDone]; split <;> simp

@[simp] theorem claimDone_faults (c : Client) (h : Handle) : (s.claimDone c h).faults = s.faults := by
  unfold State.claimDone; split <;> simp [State.lowerOutstanding]

@[simp] theorem laneCompletion_faults (n : LinkId) (t : Txn) (h : Handle) (err : Bool) :
    (s.laneCompletion n t h err).faults = s.faults := by
  simp only [State.laneCompletion]; split <;> simp [State.reportMemoryError]

/-! The Fill Engine and the scrubber. -/

@[simp] theorem fillRun_faults : s.fillRun.faults = s.faults := (spares_fillRun s).1

@[simp] theorem fillWithdraw_faults : s.fillWithdraw.faults = s.faults := by
  simp only [State.fillWithdraw]; split
  · simp
  · split <;> simp

@[simp] theorem fillTxnDone_faults (t : Txn) (h : Handle) : (s.fillTxnDone t h).faults = s.faults := by
  simp only [State.fillTxnDone, claimDone_faults, surfaceDone_faults]
  split
  · rfl
  · split
    · rfl
    · split
      · split <;> rfl
      · rfl

@[simp] theorem startScrub_faults : s.startScrub.faults = s.faults := by
  unfold State.startScrub; split <;> rfl

@[simp] theorem scrubDone_faults (t : Txn) : (s.scrubDone t).faults = s.faults := by
  simp only [State.scrubDone, startScrub_faults]; split <;> rfl

end Leaves

/-! ## Commands that leave the Fault Unit alone -/

/-- The commands whose own event can change the Fault Unit (R122, R125, R127, R131 to R134, R138, R184). -/
def changesFaults : Instr → Bool
  | .powerOn _ => true
  | .softReset _ => true
  | .registerWrite _ _ => true
  | .faultPolicyWrite _ _ => true
  | .resolveRetry _ => true
  | .resolveSkip => true
  | .resolveFlush => true
  | .teardownRemoval _ => true
  | .burstJudging _ => true
  | .reload _ _ => true
  | _ => false

/-- A command's own event leaves the Fault Unit as it was; what follows at the same event may yet change it. -/
def LeavesFaults (s : State) (o : Host.Outcome State Fault Refusal) : Prop :=
  ∃ u : State, u.faults = s.faults ∧ (o = .next u ∨ o = settled u)

theorem LeavesFaults.next {s u : State} (h : u.faults = s.faults) : LeavesFaults s (.next u) := ⟨u, h, .inl rfl⟩

theorem LeavesFaults.settled {s u : State} (h : u.faults = s.faults) : LeavesFaults s (settled u) := ⟨u, h, .inr rfl⟩

theorem LeavesFaults.noEvent (s : State) : LeavesFaults s (noEvent s) := ⟨s, rfl, .inl rfl⟩

/-- An event that occurs under a condition only. -/
theorem LeavesFaults.ite {s : State} {p : Prop} [Decidable p] {o o' : Host.Outcome State Fault Refusal}
    (h : LeavesFaults s o) (h' : LeavesFaults s o') : LeavesFaults s (if p then o else o') := by
  split
  · exact h
  · exact h'

section Commands

variable (s : State)

/-! Host writes. -/

theorem writeSubmit_faults (w : Word) : (s.writeSubmit w).faults = s.faults := by
  unfold State.writeSubmit; split <;> rfl

theorem writePop_faults : s.writePop.faults = s.faults := by
  unfold State.writePop; split <;> rfl

theorem writeComplThresh_faults (w : Word) : (s.writeComplThresh w).faults = s.faults := by
  unfold State.writeComplThresh; split <;> rfl

@[simp] theorem writeEnable_faults (n : LinkId) (b : Bool) : (s.writeEnable n b).faults = s.faults := by
  unfold State.writeEnable
  split
  · rfl
  · split <;> simp

@[simp] theorem writeReset_faults (n : LinkId) (b : Bool) : (s.writeReset n b).faults = s.faults := by
  unfold State.writeReset; split <;> simp

theorem writeLinkEvents_faults (second : Bool) (w : Word) : (s.writeLinkEvents second w).faults = s.faults := by
  unfold State.writeLinkEvents
  exact foldl_keeps _ State.faults (fun s n => by rw [modLink_faults]) _ s

/-! Host commands. -/

theorem execCreate_leaves : LeavesFaults s (execCreate s) := by
  unfold execCreate
  split
  · split
    · exact .settled (by simp)
    · exact .ite (.settled (by simp [State.createAt])) (.noEvent s)
  · exact .noEvent s

@[simp] theorem modifyRevoke_faults (h : Handle) (stamp : BitVec 16) : (s.modifyRevoke h stamp).faults = s.faults := by
  unfold State.modifyRevoke; split <;> simp

theorem modifyService_faults (r : CmdRecord) (x : Extent) : (s.modifyService r x).faults = s.faults := by
  simp only [State.modifyService]
  split
  · simp
  · simp
  · split
    · simp
    · cases x <;> simp

theorem execModify_leaves (x : Extent) : LeavesFaults s (execModify x s) := by
  unfold execModify
  split
  · exact .settled (by simp)
  · exact .ite (.settled (by simp)) (.ite (.settled (modifyService_faults s _ x)) (.noEvent s))
  · exact .noEvent s

theorem retireService_faults (h : Handle) : (s.retireService h).faults = s.faults := by
  simp only [State.retireService]
  split <;> simp [State.retireAt]

theorem execRetire_leaves : LeavesFaults s (execRetire s) := by
  unfold execRetire
  split
  · exact .ite (.settled (by simp)) (.ite (.settled (retireService_faults s _)) (.noEvent s))
  · exact .noEvent s

theorem execDrainEnd_leaves : LeavesFaults s (execDrainEnd s) := by
  unfold execDrainEnd
  split
  · exact .noEvent s
  · refine .ite ?_ (.noEvent s)
    dsimp only
    split
    · exact .settled (by simp [State.drainEndAt])
    · exact .settled rfl

@[simp] theorem fillInspection_faults (r : CmdRecord) (state : Byte) (gen : BitVec 8) (data : List Word) :
    (s.fillInspection r state gen data).faults = s.faults := by simp [State.fillInspection]

theorem inspectService_faults (r : CmdRecord) (x : Extent) : (s.inspectService r x).faults = s.faults := by
  simp only [State.inspectService]
  split
  · simp
  · split
    · simp
    · simp
    · cases x <;> simp

theorem execInspect_leaves (x : Extent) : LeavesFaults s (execInspect x s) := by
  unfold execInspect
  split
  · exact .settled (by simp)
  · exact .ite (.settled (by simp)) (.ite (.settled (by simp))
      (.ite (.settled (inspectService_faults s _ x)) (.noEvent s)))
  · exact .noEvent s

theorem execChanges_leaves : LeavesFaults s (execChanges s) := by
  unfold execChanges
  split
  · dsimp only; split <;> exact .settled (by simp)
  · exact .noEvent s

@[simp] theorem revokeNow_faults (r : CmdRecord) : (s.revokeNow r).faults = s.faults := by
  unfold State.revokeNow; split <;> simp

theorem revokeService_faults (r : CmdRecord) (x : Extent) : (s.revokeService r x).faults = s.faults := by
  simp only [State.revokeService]
  split
  · simp
  · simp
  · cases x <;> simp

theorem execRevoke_leaves (x : Extent) : LeavesFaults s (execRevoke x s) := by
  unfold execRevoke
  split
  · exact .settled (by simp)
  · exact .ite (.settled (by simp)) (.ite (.settled (by simp))
      (.ite (.settled (revokeService_faults s _ x)) (.noEvent s)))
  · exact .noEvent s

theorem execSpace_leaves : LeavesFaults s (execSpace s) := by
  unfold execSpace
  split
  · exact .settled (by simp)
  · exact .noEvent s

theorem fillService_faults (r : CmdRecord) : (s.fillService r).faults = s.faults := by
  simp only [State.fillService]
  split
  · simp
  · simp
  · split <;> simp [State.acceptFill]

theorem execFill_leaves : LeavesFaults s (execFill s) := by
  unfold execFill
  split
  · exact .ite (.settled (by simp)) (.ite (.settled (by simp)) (.ite (.settled (fillService_faults s _)) (.noEvent s)))
  · exact .noEvent s

theorem stopWaiting_faults (x : Extent) : (s.stopWaiting x).faults = s.faults := by
  cases x <;> simp [State.stopWaiting]

theorem stopWriting_faults : s.stopWriting.faults = s.faults := by
  simp only [State.stopWriting]; split <;> simp

theorem execStopFill_leaves (x : Extent) : LeavesFaults s (execStopFill x s) := by
  unfold execStopFill
  split
  · refine .ite (.settled (by simp)) ?_
    split
    · exact .settled (by simp)
    · exact .settled (by simp)
    · exact .settled (stopWaiting_faults s x)
    · exact .settled (stopWriting_faults s)
  · exact .ite (.settled (by simp)) (.noEvent s)

theorem execUnknownCommand_leaves : LeavesFaults s (execUnknownCommand s) := by
  unfold execUnknownCommand
  split
  · exact .ite (.settled (by simp)) (.noEvent s)
  · exact .noEvent s

/-! Frames. -/

theorem frameArrives_faults (n : LinkId) (online : State → State) (h : (online s).faults = s.faults) :
    (s.frameArrives n online).faults = s.faults := by
  unfold State.frameArrives
  split
  · exact h
  · rfl
  · rfl
  · rfl

theorem execAttach_leaves (n : LinkId) (f : Frame) : LeavesFaults s (execAttach n f s) := by
  unfold execAttach
  split
  · split
    · exact .settled (by simp [State.attach])
    · exact .settled rfl
  · exact .settled (takeCause_faults s n _)
  · exact .settled rfl
  · exact .settled rfl

theorem takeControl_faults (n : LinkId) (k : ControlKind) (f : Frame) : (s.takeControl n k f).faults = s.faults := by
  unfold State.takeControl
  split
  · exact takeCause_faults s n _
  · split
    · exact takeCause_faults s n _
    · rfl

theorem execUndefinedKindFrame_leaves (n : LinkId) (kind : Byte) :
    LeavesFaults s (execUndefinedKindFrame n kind s) := by
  unfold execUndefinedKindFrame
  exact .ite (.noEvent s) (.settled (frameArrives_faults s n _ (takeCause_faults s n _)))

theorem afterLength_faults (n : LinkId) (b : Burst) (ok : Bool) : (s.afterLength n b ok).faults = s.faults := by
  unfold State.afterLength
  split
  · rfl
  · exact takeCause_faults s n _

theorem takeArrivals_faults (n : LinkId) (l : List AccessFrame) :
    ∀ s : State, (s.takeArrivals n l).faults = s.faults := by
  induction l with
  | nil => exact fun _ => rfl
  | cons f rest ih =>
    intro s
    unfold State.takeArrivals
    split
    · rfl
    · split
      · exact takeCause_faults s n _
      · split
        · exact takeCause_faults s n _
        · split
          · exact ih _
          · split
            · exact (ih _).trans (afterLength_faults s n _ _)
            · exact ih _
            · rfl

theorem accessArrives_faults (n : LinkId) (f : AccessFrame) : (s.accessArrives n f).faults = s.faults := by
  unfold State.accessArrives
  split
  · exact takeArrivals_faults n _ s
  · rfl

/-! A link's requests and its session. -/

theorem claimDecision_faults (n : LinkId) (tag : Byte) (session : BitVec 8) (h : Handle) (mode : Mode)
    (lease wait : Nat) : (s.claimDecision n tag session h mode lease wait).faults = s.faults := by
  unfold State.claimDecision
  split
  · simp
  · split <;> simp

theorem serveClaim_faults (n : LinkId) (session : BitVec 8) (tag : Byte) (h : Handle) (mode : Mode) (lease wait : Nat)
    (w : Bool) : (s.serveClaim n session tag h mode lease wait w).faults = s.faults := by
  unfold State.serveClaim
  split
  · rfl
  · rw [claimDecision_faults]; rfl

theorem execClaim_leaves (n : LinkId) (x : Extent) : LeavesFaults s (execClaim n x s) := by
  unfold execClaim
  split
  · exact .settled (serveClaim_faults s n _ _ _ _ _ _ _)
  · split
    · refine .ite (.settled (by simp)) ?_
      dsimp only
      split
      · exact .settled (serveClaim_faults _ n _ _ _ _ _ _ _)
      · exact .settled rfl
    · exact .noEvent s

theorem releaseDecision_faults (n : LinkId) (tag : Byte) (slot : Nat) (publish : Bool) :
    (s.releaseDecision n tag slot publish).faults = s.faults := by
  unfold State.releaseDecision
  split
  · simp
  · split <;> simp

theorem execRelease_leaves (n : LinkId) : LeavesFaults s (execRelease n s) := by
  unfold execRelease
  split
  · exact .settled (releaseDecision_faults _ n _ _ _)
  · exact .noEvent s

theorem renewDecision_faults (n : LinkId) (session : BitVec 8) (tag : Byte) (slot : Nat) (token : BitVec 8)
    (newLen : Option Nat) : (s.renewDecision n session tag slot token newLen).faults = s.faults := by
  unfold State.renewDecision
  split
  · simp
  · split
    · simp
    · split
      · simp
      · split <;> simp

theorem serveRenew_faults (n : LinkId) (session : BitVec 8) (tag : Byte) (slot : Nat) (token : BitVec 8)
    (newLen : Option Nat) (w : Bool) : (s.serveRenew n session tag slot token newLen w).faults = s.faults := by
  unfold State.serveRenew
  split
  · rfl
  · rw [renewDecision_faults]; rfl

theorem execRenew_leaves (n : LinkId) (x : Extent) : LeavesFaults s (execRenew n x s) := by
  unfold execRenew
  split
  · exact .settled (serveRenew_faults s n _ _ _ _ _ _)
  · split
    · refine .ite ?_ (.settled (renewDecision_faults _ n _ _ _ _ _))
      dsimp only
      split
      · exact .settled (serveRenew_faults _ n _ _ _ _ _ _)
      · exact .settled rfl
    · exact .noEvent s

theorem changesDecision_faults (n : LinkId) (session : BitVec 8) (tag : Byte) (h : Handle) (since : Word) :
    (s.changesDecision n session tag h since).faults = s.faults := by
  simp only [State.changesDecision]
  split
  · simp
  · split <;> simp
  · split <;> simp

theorem serveChanges_faults (n : LinkId) (session : BitVec 8) (tag : Byte) (h : Handle) (since : Word) (w : Bool) :
    (s.serveChanges n session tag h since w).faults = s.faults := by
  unfold State.serveChanges
  split
  · rfl
  · rw [changesDecision_faults]; rfl

theorem execChangesQuery_leaves (n : LinkId) (x : Extent) : LeavesFaults s (execChangesQuery n x s) := by
  unfold execChangesQuery
  split
  · exact .settled (serveChanges_faults s n _ _ _ _ _)
  · split
    · refine .ite (.settled (by simp)) ?_
      dsimp only
      split
      · exact .settled (serveChanges_faults _ n _ _ _ _ _)
      · exact .settled rfl
    · exact .noEvent s

theorem execChangesAnswer_leaves (n : LinkId) : LeavesFaults s (execChangesAnswer n s) := by
  unfold execChangesAnswer
  split
  · refine .settled ?_
    unfold State.changesAnswer
    split <;> simp
  · exact .noEvent s

theorem execDetach_leaves (n : LinkId) : LeavesFaults s (execDetach n s) := by
  unfold execDetach
  split
  · exact .settled (by simp [State.detach])
  · exact .noEvent s

/-! Drain ends, expiry, timeout and completions. -/

theorem drainEndOf_faults (kinds : ReleaseKind → Bool) (c : Client) (k : Fin 16) :
    (s.drainEndOf kinds c k).faults = s.faults := by
  unfold State.drainEndOf
  split
  · split
    · split <;> simp
    · rfl
  · rfl

theorem execLeaseExpiry_leaves (c : Client) (k : Fin 16) : LeavesFaults s (execLeaseExpiry c k s) := by
  unfold execLeaseExpiry
  split
  · exact .ite (.settled (by simp)) (.noEvent s)
  · exact .noEvent s

theorem execTimedOut_leaves (c : Client) (k : Fin 16) : LeavesFaults s (execTimedOut c k s) := by
  unfold execTimedOut
  split
  · exact .ite (.settled (by simp)) (.noEvent s)
  · exact .noEvent s

theorem execTransactionCompletion_leaves (n : LinkId) (k : Nat) (err : Bool) :
    LeavesFaults s (execTransactionCompletion n k err s) := by
  unfold execTransactionCompletion
  split
  · split
    · exact .settled (by simp)
    · exact .noEvent s
  · exact .noEvent s

theorem fillClaimService_faults : s.fillClaimService.faults = s.faults := by
  have decision : ∀ (s : State) (j : FillJob), (s.fillClaimDecision j).faults = s.faults := by
    intro s j
    unfold State.fillClaimDecision
    split
    · simp
    · simp
    · split <;> simp
  simp only [State.fillClaimService]
  split
  · rfl
  · split
    · simp
    · rw [decision]; rfl

theorem execFillClaim_leaves : LeavesFaults s (execFillClaim s) := by
  unfold execFillClaim
  split
  · exact .ite (.settled (fillClaimService_faults s)) (.noEvent s)
  · exact .noEvent s

theorem fillReloadService_faults (j : FillJob) : (s.fillReloadService j).faults = s.faults := by
  simp only [State.fillReloadService]
  split
  · split <;> rfl
  · rfl

theorem execFillReload_leaves : LeavesFaults s (execFillReload s) := by
  unfold execFillReload
  split
  · exact .ite (.settled (fillReloadService_faults s _)) (.noEvent s)
  · exact .noEvent s

theorem execFillCompletion_leaves (k : Nat) : LeavesFaults s (execFillCompletion k s) := by
  unfold execFillCompletion
  split
  · split
    · exact .settled (by simp)
    · exact .noEvent s
  · exact .noEvent s

theorem execScrubCompletion_leaves : LeavesFaults s (execScrubCompletion s) := by
  unfold execScrubCompletion
  split
  · exact .settled (by simp)
  · exact .noEvent s

end Commands

/-- Every other command's own event leaves the Fault Unit alone. -/
theorem exec_leavesFaults {c : Instr} (hc : changesFaults c = false) (s : State) : LeavesFaults s (exec c s) := by
  cases c with
  | powerOn strap => cases hc
  | softReset w => cases hc
  | submit w => exact .settled (writeSubmit_faults s w)
  | complPop w => exact .settled (writePop_faults s)
  | interruptStatusWrite w => exact .next rfl
  | interruptEnableWrite w => exact .next rfl
  | tickDivWrite w => exact .next rfl
  | warnEighthsWrite w => exact .next rfl
  | complThreshWrite w => exact .next (writeComplThresh_faults s w)
  | enable n b => exact .settled (writeEnable_faults s n b)
  | reset n b => exact .settled (writeReset_faults s n b)
  | linkEventClear second w => exact .next (writeLinkEvents_faults s second w)
  | faultPolicyWrite n w => cases hc
  | registerWrite a w => cases hc
  | create => exact execCreate_leaves s
  | modify x => exact execModify_leaves s x
  | retire => exact execRetire_leaves s
  | drainEnd => exact execDrainEnd_leaves s
  | inspect x => exact execInspect_leaves s x
  | changes => exact execChanges_leaves s
  | resolveRetry x => cases hc
  | resolveSkip => cases hc
  | resolveFlush => cases hc
  | revoke x => exact execRevoke_leaves s x
  | space => exact execSpace_leaves s
  | fill => exact execFill_leaves s
  | stopFill x => exact execStopFill_leaves s x
  | unknownCommand => exact execUnknownCommand_leaves s
  | attach n f => exact execAttach_leaves s n f
  | controlRequest n k f => exact .settled (frameArrives_faults s n _ (takeControl_faults s n k f))
  | undefinedKindFrame n kind => exact execUndefinedKindFrame_leaves s n kind
  | read n f => exact .settled (frameArrives_faults s n _ (accessArrives_faults s n _))
  | write n f => exact .settled (frameArrives_faults s n _ (accessArrives_faults s n _))
  | claim n x => exact execClaim_leaves s n x
  | release n => exact execRelease_leaves s n
  | renew n x => exact execRenew_leaves s n x
  | changesQuery n x => exact execChangesQuery_leaves s n x
  | changesAnswer n => exact execChangesAnswer_leaves s n
  | detach n => exact execDetach_leaves s n
  | lost n => exact .settled (takeCause_faults s n .lost)
  | teardownRemoval n => cases hc
  | outboundSend n c => exact .ite (.settled rfl) (.noEvent s)
  | burstJudging n => cases hc
  | reload n x => cases hc
  | transactionCompletion n k err => exact execTransactionCompletion_leaves s n k err
  | claimDrainEnd c slot => exact .settled (drainEndOf_faults s _ c slot)
  | revokedDrainEnd c slot => exact .settled (drainEndOf_faults s _ c slot)
  | tick => exact .settled (leaseTick_faults _)
  | leaseExpiry c slot => exact execLeaseExpiry_leaves s c slot
  | timedOut c slot => exact execTimedOut_leaves s c slot
  | fillClaim => exact execFillClaim_leaves s
  | fillReload => exact execFillReload_leaves s
  | fillCompletion k => exact execFillCompletion_leaves s k
  | scrubCompletion => exact execScrubCompletion_leaves s

/-! ## Law 9 for each change of the Fault Unit -/

theorem faultsLawful_of_faults {s t : State} (h : t.faults = s.faults) (hs : s.faultsLawful) : t.faultsLawful := by
  unfold State.faultsLawful State.linkFaults at *
  rw [h]
  exact hs

theorem faultsLawful_of_reset {s : State} (h : s.faults = FaultUnit.reset) : s.faultsLawful := by
  have empty : s.faults.queue = [] := by rw [h]; rfl
  unfold State.faultsLawful
  rw [empty]
  exact ⟨List.nodup_nil, fun _ hr => absurd hr List.not_mem_nil⟩

/-- Link `n` has no record in the fault queue. -/
def NoRecord (s : State) (n : LinkId) : Prop := ∀ r ∈ s.faults.queue, r.link ≠ n

theorem noRecord_of_stream {s : State} {n : LinkId} (hs : s.faultsLawful) (h : (s.linkFaults n).stream ≠ .held) :
    NoRecord s n := by
  rintro r hr rfl
  exact h (hs.2 r hr)

theorem noRecord_removeRecord (s : State) (n : LinkId) : NoRecord (s.removeRecord n) n := by
  intro r hr
  simpa using (List.mem_filter.1 hr).2

theorem removeRecord_faultsLawful {s : State} (hs : s.faultsLawful) (n : LinkId) : (s.removeRecord n).faultsLawful := by
  obtain ⟨once, held⟩ := hs
  exact ⟨once.sublist (List.filter_sublist.map _), fun r hr => held r (List.mem_filter.1 hr).1⟩

/-- What stands for a link without a record is free. -/
theorem modFaults_faultsLawful {s : State} {n : LinkId} (hs : s.faultsLawful) (hn : NoRecord s n)
    (f : LinkFaults → LinkFaults) : (s.modFaults n f).faultsLawful := by
  obtain ⟨once, held⟩ := hs
  refine ⟨once, fun r hr => ?_⟩
  rw [modFaults_other _ _ (hn r hr)]
  exact held r hr

/-- A change that leaves the stream keeps the law, record or not. -/
theorem modFaults_faultsLawful_of_stream {s : State} {n : LinkId} {f : LinkFaults → LinkFaults} (hs : s.faultsLawful)
    (hf : ∀ l, (f l).stream = l.stream) : (s.modFaults n f).faultsLawful := by
  obtain ⟨once, held⟩ := hs
  refine ⟨once, fun r hr => ?_⟩
  by_cases e : r.link = n
  · rw [e, modFaults_self, hf, ← e]
    exact held r hr
  · rw [modFaults_other _ _ e]
    exact held r hr

/-- A record joins the queue for a link that has none and whose stream is HELD (R125). -/
theorem setRecords_faultsLawful {s : State} {r : FaultRecord} (hs : s.faultsLawful) (hn : NoRecord s r.link)
    (hr : (s.linkFaults r.link).stream = .held) : (s.setRecords (s.faults.queue ++ [r])).faultsLawful := by
  obtain ⟨once, held⟩ := hs
  refine ⟨?_, fun q hq => ?_⟩
  · have new : r.link ∉ s.faults.queue.map FaultRecord.link := by
      rintro h
      obtain ⟨q, hq, e⟩ := List.mem_map.1 h
      exact hn q hq e
    simpa [List.nodup_append] using ⟨once, fun q hq => hn q hq⟩
  · rcases List.mem_append.1 hq with hq | hq
    · exact held q hq
    · rw [List.mem_singleton.1 hq]
      exact hr

/-! ## Law 9 for the judging of a burst -/

/-- A fault under HOLD: the stream becomes HELD and a record of the link joins the queue (R125). -/
theorem faultHeld_faultsLawful {s : State} {n : LinkId} (hs : s.faultsLawful) (hn : NoRecord s n) (kind : LinkCode)
    (b : Burst) : (s.faultHeld n kind b).faultsLawful := by
  unfold State.faultHeld
  refine faultsLawful_of_faults ((handOver_faults _ _ _).trans (retryRefaulted_faults _ _ _ _)) ?_
  exact setRecords_faultsLawful (modFaults_faultsLawful hs hn _) hn (by simp)

/-- A fault under ANSWER makes the stream FLOWING and appends no record (R124). -/
theorem faultAnswered_faultsLawful {s : State} {n : LinkId} (hs : s.faultsLawful) (hn : NoRecord s n) (kind : LinkCode)
    (b : Burst) : (s.faultAnswered n kind b).faultsLawful := by
  have answered := modFaults_faultsLawful hs hn
    fun f => { f with stream := .flowing, lastKind := kind, lastHandle := b.handle }
  refine faultsLawful_of_faults ?_ answered
  simp only [State.faultAnswered, releaseResponses_faults]
  split
  · rw [sendResumed_faults, retryRefaulted_faults]; rfl
  · rfl

theorem faultBurst_faultsLawful {s : State} {n : LinkId} (hs : s.faultsLawful) (hn : NoRecord s n) (kind : LinkCode)
    (b : Burst) : (s.faultBurst n kind b).faultsLawful := by
  unfold State.faultBurst
  split
  · exact faultAnswered_faultsLawful hs hn kind b
  · exact faultHeld_faultsLawful hs hn kind b

theorem retryAccepted_faultsLawful {s : State} {n : LinkId} (hs : s.faultsLawful) (hn : NoRecord s n) (b : Burst) :
    (s.retryAccepted n b).faultsLawful := by
  unfold State.retryAccepted
  split
  · refine faultsLawful_of_faults ?_ (modFaults_faultsLawful hs hn fun f => { f with stream := .flowing })
    dsimp only
    rw [sendResumed_faults]
    split
    · exact post_faults _ _ _
    · rfl
  · exact hs

theorem judgeAgainst_faultsLawful {s : State} {n : LinkId} (hs : s.faultsLawful) (hn : NoRecord s n) (b : Burst)
    (c : Copy) : (s.judgeAgainst n b c).faultsLawful := by
  unfold State.judgeAgainst
  split
  · exact faultBurst_faultsLawful hs hn _ b
  · rename_i k _
    have same := accept_faults s n b c k
    refine faultsLawful_of_faults (releaseResponses_faults _ n) ?_
    exact retryAccepted_faultsLawful (faultsLawful_of_faults same hs) (fun r hr => hn r (same ▸ hr)) b

theorem judgeHead_faultsLawful {s : State} {n : LinkId} (hs : s.faultsLawful) (hn : NoRecord s n) :
    (s.judgeHead n).faultsLawful := by
  unfold State.judgeHead
  split
  · exact hs
  · split
    · exact judgeAgainst_faultsLawful hs hn _ _
    · split
      · exact faultBurst_faultsLawful hs hn _ _
      · exact faultsLawful_of_faults rfl hs

/-- A lane judges while its stream is not HELD, so that its link has no record then (R102, R123). -/
theorem noRecord_of_mayJudge {s : State} {n : LinkId} (hs : s.faultsLawful) (h : s.mayJudge n = true) :
    NoRecord s n := by
  refine noRecord_of_stream hs ?_
  simp only [State.mayJudge, Bool.and_eq_true, bne_iff_ne] at h
  obtain ⟨⟨_, stream⟩, _⟩ := h
  exact stream

theorem reloadForJudging_faultsLawful {s : State} (hs : s.faultsLawful) (n : LinkId) (x : Extent) :
    (s.reloadForJudging n x).faultsLawful := by
  unfold State.reloadForJudging
  split
  · exact hs
  · split
    · exact hs
    · rename_i b _ _ may
      have hn : NoRecord s n := noRecord_of_mayJudge hs (Bool.not_eq_false _ ▸ may)
      have refilled : (s.refill n b.dir b.handle).faultsLawful := faultsLawful_of_faults rfl hs
      split
      · cases x with
        | whole => exact judgeHead_faultsLawful refilled hn
        | firstEvent => exact refilled
      · exact faultBurst_faultsLawful refilled hn _ b

theorem reloadForLength_faults (s : State) (n : LinkId) : (s.reloadForLength n).faults = s.faults := by
  unfold State.reloadForLength
  split
  · rfl
  · dsimp only
    split
    · exact takeCause_faults _ n _
    · split
      · exact (takeArrivals_faults n _ _).trans (afterLength_faults _ n _ _)
      · exact takeArrivals_faults n _ _

theorem reloadService_faultsLawful {s : State} (hs : s.faultsLawful) (n : LinkId) (x : Extent) :
    (s.reloadService n x).faultsLawful := by
  unfold State.reloadService
  split
  · exact hs
  · rename_i job rest _
    have served : ((s.served (.reload n)).modLane n fun l => { l with reloads := rest }).faultsLawful :=
      faultsLawful_of_faults rfl hs
    cases job with
    | judge => exact reloadForJudging_faultsLawful served n x
    | length => exact faultsLawful_of_faults (reloadForLength_faults _ n) served
    | discarded => exact served

/-! ## Law 9 for RESOLVE -/

/-- A record that leaves the queue with its stream (R127, R131, R133, R134, R163). -/
theorem unheld_faultsLawful {s : State} (hs : s.faultsLawful) (n : LinkId) (f : LinkFaults → LinkFaults) :
    ((s.removeRecord n).modFaults n f).faultsLawful :=
  modFaults_faultsLawful (removeRecord_faultsLawful hs n) (noRecord_removeRecord s n) f

theorem skip_faultsLawful {s : State} (hs : s.faultsLawful) (n : LinkId) (r : FaultRecord) :
    (s.skip n r).faultsLawful := by
  refine faultsLawful_of_faults ?_ (unheld_faultsLawful hs n fun f => { f with stream := .flowing })
  rw [State.skip, releaseResponses_faults, sendResumed_faults, post_faults]
  rfl

theorem flush_faultsLawful {s : State} (hs : s.faultsLawful) (n : LinkId) (r : FaultRecord) :
    (s.flush n r).faultsLawful := by
  refine faultsLawful_of_faults ?_ (unheld_faultsLawful hs n fun f => { f with stream := .flowing })
  rw [State.flush, releaseResponses_faults, sendResumed_faults, post_faults]
  rfl

theorem beginRetry_faultsLawful {s : State} (hs : s.faultsLawful) (n : LinkId) (r : FaultRecord) :
    (s.beginRetry n r).faultsLawful :=
  faultsLawful_of_faults rfl (unheld_faultsLawful hs n fun f => { f with stream := .retrying })

/-! ## Law 9 for what follows an event -/

theorem finishTeardown_faultsLawful {s : State} (hs : s.faultsLawful) (n : LinkId) :
    (s.finishTeardown n).faultsLawful := by
  refine faultsLawful_of_faults ?_ (unheld_faultsLawful hs n fun f => { f with stream := .flowing })
  obtain ⟨⟨faults, _⟩, _⟩ := removeClaims_spares (GrantOrder.unrecorded s n) n
  exact faults

theorem finishTeardowns_faultsLawful (k : Nat) :
    ∀ {s : State}, s.faultsLawful → (s.finishTeardowns k).faultsLawful := by
  induction k with
  | zero => exact fun hs => hs
  | succ k ih =>
    intro s hs
    rw [State.finishTeardowns]
    split
    · exact hs
    · exact ih (finishTeardown_faultsLawful hs _)

theorem settle_faultsLawful {s : State} (hs : s.faultsLawful) : s.settle.faultsLawful := by
  have ended := finishTeardowns_faultsLawful 6 hs
  have filled := finishTeardowns_faultsLawful 6 (faultsLawful_of_faults (fillRun_faults _) ended)
  exact faultsLawful_of_faults (takeNext_faults _) filled

/-! ## Every step keeps law 9 -/

/-- Every state that an answer gives meets law 9. -/
def AnswersLawful (o : Host.Outcome State Fault Refusal) : Prop := ∀ t, o = .next t → t.faultsLawful

theorem AnswersLawful.next {t : State} (h : t.faultsLawful) : AnswersLawful (.next t) := by
  rintro _ ⟨⟩
  exact h

theorem AnswersLawful.settled {t : State} (h : t.faultsLawful) : AnswersLawful (settled t) :=
  .next (settle_faultsLawful h)

theorem LeavesFaults.answersLawful {s : State} {o : Host.Outcome State Fault Refusal} (h : LeavesFaults s o)
    (hs : s.faultsLawful) : AnswersLawful o := by
  obtain ⟨u, hu, rfl | rfl⟩ := h
  · exact .next (faultsLawful_of_faults hu hs)
  · exact .settled (faultsLawful_of_faults hu hs)

theorem writeSysControl_faultsLawful {s : State} (hs : s.faultsLawful) (w : Word) :
    (s.writeSysControl w).faultsLawful := by
  unfold State.writeSysControl
  split
  · exact faultsLawful_of_reset rfl
  · exact hs

theorem writeFaultPolicy_faultsLawful {s : State} (hs : s.faultsLawful) (n : LinkId) (w : Word) :
    (s.writeFaultPolicy n w).faultsLawful := by
  unfold State.writeFaultPolicy
  split
  · exact hs
  · exact modFaults_faultsLawful_of_stream hs fun _ => rfl

theorem writeLinkControl_faults (s : State) (n : LinkId) (w : Word) : (s.writeLinkControl n w).faults = s.faults := by
  unfold State.writeLinkControl
  split
  · dsimp only; split <;> simp
  · simp

theorem writeLinkBlock_faultsLawful {s : State} (hs : s.faultsLawful) (n : LinkId) (k : Nat) (w : Word) :
    (s.writeLinkBlock n k w).faultsLawful := by
  unfold State.writeLinkBlock
  split
  · exact faultsLawful_of_faults (writeLinkControl_faults s n w) hs
  · exact writeFaultPolicy_faultsLawful hs n w
  · exact hs

theorem hostWrite_faultsLawful {s : State} (hs : s.faultsLawful) (a : BitVec 10) (w : Word) :
    (s.hostWrite a w).faultsLawful := by
  have leaves : ∀ {t : State}, t.faults = s.faults → t.faultsLawful := fun h => faultsLawful_of_faults h hs
  unfold State.hostWrite
  dsimp only
  split
  · exact leaves rfl
  · split
    · exact leaves (writeSubmit_faults s w)
    · exact leaves (writePop_faults s)
    · exact leaves rfl
    · exact leaves rfl
    · exact leaves rfl
    · exact leaves rfl
    · exact leaves (writeComplThresh_faults s w)
    · exact writeSysControl_faultsLawful hs w
    · exact leaves (writeLinkEvents_faults s false w)
    · exact leaves (writeLinkEvents_faults s true w)
    · split
      · split
        · exact writeLinkBlock_faultsLawful hs _ _ w
        · exact hs
      · exact hs

theorem execResolveRetry_lawful {s : State} (hs : s.faultsLawful) (x : Extent) :
    AnswersLawful (execResolveRetry x s) := by
  unfold execResolveRetry
  split
  · exact .settled (faultsLawful_of_faults (post_faults s _ _) hs)
  · rename_i n r _
    have taken := beginRetry_faultsLawful hs n r
    cases x with
    | whole => exact .settled (judgeHead_faultsLawful taken (noRecord_removeRecord s n))
    | firstEvent => exact .settled taken
  · split
    · split
      · rename_i may
        exact .settled (judgeHead_faultsLawful hs (noRecord_of_mayJudge hs may))
      · exact .next hs
    · exact .next hs

theorem execResolveSkip_lawful {s : State} (hs : s.faultsLawful) : AnswersLawful (execResolveSkip s) := by
  unfold execResolveSkip
  split
  · exact .settled (faultsLawful_of_faults (post_faults s _ _) hs)
  · exact .settled (skip_faultsLawful hs _ _)
  · exact .next hs

theorem execResolveFlush_lawful {s : State} (hs : s.faultsLawful) : AnswersLawful (execResolveFlush s) := by
  unfold execResolveFlush
  split
  · exact .settled (faultsLawful_of_faults (post_faults s _ _) hs)
  · exact .settled (flush_faultsLawful hs _ _)
  · exact .next hs

/-- Every command keeps law 9: most leave the Fault Unit alone, the others are those of `changesFaults`. -/
theorem exec_answersLawful {s : State} (hs : s.faultsLawful) (c : Instr) : AnswersLawful (exec c s) := by
  cases hc : changesFaults c with
  | false => exact (exec_leavesFaults hc s).answersLawful hs
  | true =>
    cases c with
    | powerOn strap => exact .next (faultsLawful_of_reset rfl)
    | softReset w => exact .next (writeSysControl_faultsLawful hs w)
    | registerWrite a w => exact .settled (hostWrite_faultsLawful hs a w)
    | faultPolicyWrite n w => exact .next (writeFaultPolicy_faultsLawful hs n w)
    | resolveRetry x => exact execResolveRetry_lawful hs x
    | resolveSkip => exact execResolveSkip_lawful hs
    | resolveFlush => exact execResolveFlush_lawful hs
    | teardownRemoval n =>
      show AnswersLawful (execTeardownRemoval n s)
      unfold execTeardownRemoval
      split
      · exact .settled (finishTeardown_faultsLawful hs n)
      · exact .next hs
    | burstJudging n =>
      show AnswersLawful (execBurstJudging n s)
      unfold execBurstJudging
      split
      · rename_i may
        exact .settled (judgeHead_faultsLawful hs (noRecord_of_mayJudge hs may))
      · exact .next hs
    | reload n x =>
      show AnswersLawful (execReload n x s)
      unfold execReload
      split
      · exact .settled (reloadService_faultsLawful hs n x)
      · exact .next hs
    | _ => cases hc

/-- A microsecond of the reference clock changes the Fault Unit only in what follows a tick. -/
theorem microsecond_faultsLawful {s : State} (hs : s.faultsLawful) : s.microsecond.faultsLawful := by
  unfold State.microsecond
  split
  · exact faultsLawful_of_faults rfl hs
  · exact settle_faultsLawful (faultsLawful_of_faults (leaseTick_faults _) hs)

/-- Settles O57: a record is appended for a link without one only, its stream becoming HELD, and a stream leaves HELD
only with its record. -/
theorem stepKeepsOneRecordPerHeldLink : Obligations.StepKeepsOneRecordPerHeldLink := by
  unfold Obligations.StepKeepsOneRecordPerHeldLink
  intro s t hs h
  unfold step at h
  split at h
  · cases h
    exact microsecond_faultsLawful hs
  · rename_i c rest _
    have waiting : ({ s with pending := rest } : State).faultsLawful := hs
    exact exec_answersLawful waiting c t h

end Sys2Proof.Machine.FaultQueue

/-! PROOFS. The Fault Unit after a reset (R138), the checks of RESOLVE (R130), and RESOLVE SKIP and FLUSH (R133,
R134). -/

namespace Sys2Proof.Machine.FaultQueue

open ChangeTracking (place_getLsbD)

/-! ## After a reset (R138) -/

/-- What either reset leaves of the blocks that R138 and the enabling of a link speak of. -/
structure ResetBlocks (t : State) : Prop where
  faults : t.faults = FaultUnit.reset
  cmd : t.cmd = CommandEngine.reset
  fill : t.fill = FillEngine.reset
  lane : ∀ n, t.lane n = Lane.reset
  link : ∀ n, ∃ session, t.link n = Link.reset session

theorem powerOn_resetBlocks (strap : BitVec 2) (s : State) : ResetBlocks (s.powerOn strap) where
  faults := rfl
  cmd := rfl
  fill := rfl
  lane n := by simp [State.powerOn, State.reset, State.lane]
  link n := ⟨0, by simp [State.powerOn, State.reset, State.link]⟩

theorem softReset_resetBlocks (s : State) : ResetBlocks s.softReset where
  faults := rfl
  cmd := rfl
  fill := rfl
  lane n := by simp [State.softReset, State.lane]
  link n := ⟨(s.link n).session, by simp [State.softReset, State.link]⟩

theorem exec_reset {c : Instr} (h : (∃ strap, c = .powerOn strap) ∨ ∃ w, c = .softReset w ∧ flag w 0 = true)
    (s : State) : ∃ t, exec c s = .next t ∧ ResetBlocks t := by
  rcases h with ⟨strap, rfl⟩ | ⟨w, rfl, hw⟩
  · exact ⟨s.powerOn strap, rfl, powerOn_resetBlocks strap s⟩
  · refine ⟨s.softReset, ?_, softReset_resetBlocks s⟩
    show execSoftReset w s = _
    rw [execSoftReset, State.writeSysControl, if_pos hw]

theorem ResetBlocks.linkFaults {t : State} (h : ResetBlocks t) (n : LinkId) : t.linkFaults n = LinkFaults.reset := by
  simp [State.linkFaults, h.faults, FaultUnit.reset]

theorem ResetBlocks.records {t : State} (h : ResetBlocks t) : t.faults.queue = [] := by rw [h.faults]; rfl

/-- A link enabled after a reset is OFFLINE (R151), and nothing follows at the same event. -/
theorem ResetBlocks.exec_enable {t : State} (h : ResetBlocks t) (n : LinkId) :
    exec (.enable n true) t = .next (t.modLink n fun l => { l with enable := true, state := .offline }) := by
  obtain ⟨session, hn⟩ := h.link n
  have written : t.writeEnable n true = t.modLink n fun l => { l with enable := true, state := .offline } := by
    simp [State.writeEnable, hn, Link.reset]
  generalize hv : (t.modLink n fun l => { l with enable := true, state := .offline }) = v at *
  have running : ∀ m, (v.link m).state ≠ .teardown := by
    intro m
    rw [← hv]
    by_cases e : m = n
    · rw [e, modLink_self]; nofun
    · obtain ⟨session', hm⟩ := h.link m
      rw [modLink_other _ _ e, hm]; nofun
  have idle : v.fill.state ≠ .writing := by rw [← hv, modLink_fill, h.fill]; decide
  have empty : v.cmd = CommandEngine.reset := by rw [← hv, modLink_cmd, h.cmd]
  show execEnable n true t = _
  rw [execEnable, settled, written, settle_eq_takeNext running idle]
  simp only [State.takeNext, empty, CommandEngine.reset]

/-- Settles O7: the Fault Unit's part of the state that each reset leaves, and a link enabled in it. -/
theorem eitherResetClearsTheFaultUnit : Obligations.EitherResetClearsTheFaultUnit := by
  unfold Obligations.EitherResetClearsTheFaultUnit
  intro s c hc
  obtain ⟨t, ht, h⟩ := exec_reset hc s
  refine ⟨t, ht, h.records, fun j => ?_, fun n => ?_, ?_, by rw [h.cmd]; rfl, by rw [h.cmd]; rfl,
    fun n => ⟨_, h.exec_enable n, by rw [modLink_self], ?_, ?_, by rw [modLink_faults, h.records]⟩⟩
  · simp only [State.readFaultHead, h.records]
  · obtain ⟨session, hl⟩ := h.link n
    rw [h.linkFaults, hl, h.lane]
    exact ⟨rfl, rfl, rfl, rfl, rfl, rfl, rfl⟩
  · rw [State.faultPending, h.records]; rfl
  · rw [modLink_linkFaults, h.linkFaults]; rfl
  · rw [modLink_linkFaults, h.linkFaults]; rfl

/-! ## The checks of RESOLVE (R130) -/

/-- The command that stages action `a` (log 18). -/
def resolveInstr (a : ResolveAction) (x : Extent) : Instr :=
  match a with
  | .retry => .resolveRetry x
  | .skip => .resolveSkip
  | .flush => .resolveFlush

/-- At each of the three rows a refused RESOLVE only completes. -/
theorem exec_resolve_refused {s : State} {r : CmdRecord} {a : ResolveAction} {v : Verdict} {ws : List Word}
    (h : s.executes .resolve r) (hr : s.resolveStart a = .refused v ws) (x : Extent) :
    exec (resolveInstr a x) s = .next (s.completing r v ws).settle := by
  cases a with
  | retry =>
    show execResolveRetry x s = _
    simp only [execResolveRetry, hr, settled, post_completing h.1]
  | skip =>
    show execResolveSkip s = _
    simp only [execResolveSkip, hr, settled, post_completing h.1]
  | flush =>
    show execResolveFlush s = _
    simp only [execResolveFlush, hr, settled, post_completing h.1]

theorem linkOf_eq_none {k : Nat} (h : k = 0 ∨ 6 < k) : linkOf k = none := dif_neg (by omega)

theorem linkOf_linkNumber (n : LinkId) : linkOf (n.val + 1) = some n := by
  revert n; decide

theorem linkOf_eq_some {k : Nat} (h1 : 1 ≤ k) (h6 : k ≤ 6) : ∃ n : LinkId, n.val + 1 = k ∧ linkOf k = some n :=
  ⟨⟨k - 1, by omega⟩, by dsimp only; omega, dif_pos ⟨h1, h6⟩⟩

theorem actionOf_code (a : ResolveAction) : actionOf a.code = some a := by cases a <;> rfl

theorem actionOf_eq_none {k : Nat} (h : 3 ≤ k) : actionOf k = none := by
  unfold actionOf
  split
  · omega
  · omega
  · omega
  · rfl

/-- The checks of a RESOLVE at its first event, at the row of the action it stages or with an action that names none. -/
theorem resolveStart_eq {s : State} {r : CmdRecord} {a : ResolveAction} (h : s.executes .resolve r)
    (ha : resolveAction r.stage = some a ∨ resolveAction r.stage = none) : s.resolveStart a =
      match resolveLink r.stage, resolveAction r.stage with
      | Option.none, _ => .refused .badParam [1]
      | some _, Option.none => .refused .badParam [2]
      | some n, some _ =>
        match s.recordOf n with
        | Option.none => .refused .noFault []
        | some q => if (s.link n).state = .teardown then .refused .noFault [] else .passed n q := by
  have own : ((resolveAction r.stage).any fun b => b != a) = false := by
    rcases ha with ha | ha <;> simp [ha]
  simp only [State.resolveStart, executingAs_eq h.1 h.2, own]
  rfl

theorem recordOf_link {s : State} {n : LinkId} {q : FaultRecord} (h : s.recordOf n = some q) : q.link = n := by
  simpa using List.find?_some h

/-- A link in TEARDOWN, or one without a record, has nothing to resolve. -/
theorem resolveStart_noFault {s : State} {r : CmdRecord} {a : ResolveAction} {n : LinkId} (h : s.executes .resolve r)
    (hl : resolveLink r.stage = some n) (ha : resolveAction r.stage = some a)
    (hn : NoRecord s n ∨ (s.link n).state = .teardown) : s.resolveStart a = .refused .noFault [] := by
  rw [resolveStart_eq h (.inl ha), hl, ha]
  dsimp only
  split
  · rfl
  · rename_i q hq
    rcases hn with hn | hn
    · exact absurd (recordOf_link hq) (hn q (List.mem_of_find?_eq_some hq))
    · rw [if_pos hn]

/-- Settles O24: each check is reached when those before it pass, and at each row a refusal only completes. -/
theorem resolveIsRefusedAtItsFirstFailedCheck : Obligations.ResolveIsRefusedAtItsFirstFailedCheck := by
  unfold Obligations.ResolveIsRefusedAtItsFirstFailedCheck
  intro s r a x c h hrow hc k
  have row : exec c s = exec (resolveInstr a x) s := by rw [hc]; rfl
  rw [row]
  have named : (r.stage[0].extractLsb' 8 8).toNat = a.code → resolveAction r.stage = some a := fun e =>
    (congrArg actionOf e).trans (actionOf_code a)
  have unnamed : 3 ≤ (r.stage[0].extractLsb' 8 8).toNat → resolveAction r.stage = none := actionOf_eq_none
  have checks := resolveStart_eq h (hrow.imp named unnamed)
  refine ⟨fun hk => ?badLink, fun h1 h6 => ?_⟩
  case badLink =>
    have hl : resolveLink r.stage = none := linkOf_eq_none hk
    exact exec_resolve_refused h (by rw [checks, hl]) x
  obtain ⟨n, hn, hl⟩ := linkOf_eq_some h1 h6
  have hl : resolveLink r.stage = some n := hl
  refine ⟨fun h3 => ?badAction, fun ha => ⟨fun hnone => ?noRecord, fun _ hdown => ?teardown⟩⟩
  case badAction => exact exec_resolve_refused h (by rw [checks, hl, unnamed h3]) x
  case noRecord =>
    have bare : NoRecord s n := fun q hq e => hnone q hq (e ▸ hn)
    exact exec_resolve_refused h (resolveStart_noFault h hl (named ha) (.inl bare)) x
  case teardown =>
    obtain ⟨m, hm, hdown⟩ := hdown
    obtain rfl : m = n := Fin.ext (by omega)
    exact exec_resolve_refused h (resolveStart_noFault h hl (named ha) (.inr hdown)) x

/-! ## The responses of a lane with none in flight (R116) -/

theorem modLane_eq_self {s : State} {n : LinkId} {f : Lane → Lane} (h : f (s.lane n) = s.lane n) :
    s.modLane n f = s := by
  rw [State.modLane, h]
  simp [State.lane]

theorem modLink_eq_self {s : State} {n : LinkId} {f : Link → Link} (h : f (s.link n) = s.link n) :
    s.modLink n f = s := by
  rw [State.modLink, h]
  simp [State.link]

theorem handOverAccess_online {s : State} {n : LinkId} {m : Message} (ho : (s.link n).state = .online)
    (hm : m.session = (s.link n).session) :
    s.handOverAccess n m = s.modLink n fun l => { l with accOut := l.accOut ++ [m] } := by
  simp only [State.handOverAccess, if_pos (And.intro ho hm.symm)]

/-- A response that is READY to leave as the message given. -/
def readyAs (m : Message) : Response := .ready m.tag m.session m.body

/-- The lane's responses `ms` have been handed to its link controller, and none is left. -/
def released (s : State) (n : LinkId) (ms : List Message) : State :=
  (s.modLane n fun l => { l with responseQ := [] }).modLink n fun l => { l with accOut := l.accOut ++ ms }

/-- The READY response at the head of a lane's queue leaves first. -/
theorem releaseResponses_cons {s : State} {n : LinkId} {m : Message} {rest : List Response}
    (hq : (s.lane n).responseQ = readyAs m :: rest) (ho : (s.link n).state = .online)
    (hm : m.session = (s.link n).session ∧ m.notice = false) : s.releaseResponses n =
      ((s.modLane n fun l => { l with responseQ := rest }).modLink n fun l =>
        { l with accOut := l.accOut ++ [m] }).releaseResponses n := by
  have message : (⟨m.tag, m.session, false, m.body⟩ : Message) = m := by rw [← hm.2]
  simp only [State.releaseResponses, hq, readyAs, State.releaseFrom, message, modLink_lane, modLane_self]
  rw [handOverAccess_online (by rw [modLane_link, ho]) (by rw [modLane_link, hm.1])]

/-- A queue of READY responses of the link's session leaves whole, in order. -/
theorem releaseResponses_ready {n : LinkId} (ms : List Message) : ∀ {s : State},
    (s.lane n).responseQ = ms.map readyAs → (s.link n).state = .online →
    (∀ m ∈ ms, m.session = (s.link n).session ∧ m.notice = false) → s.releaseResponses n = released s n ms := by
  induction ms with
  | nil =>
    intro s hq _ _
    have lane : (s.modLane n fun l => { l with responseQ := [] }) = s :=
      modLane_eq_self (by rw [← show (s.lane n).responseQ = [] from hq])
    rw [released, lane, modLink_eq_self (by simp), State.releaseResponses, hq]
    rfl
  | cons m rest ih =>
    intro s hq ho hm
    obtain ⟨head, behind⟩ := List.forall_mem_cons.1 hm
    rw [releaseResponses_cons hq ho head, ih (by simp) (by simpa using ho) (by simpa using behind)]
    simp [released, State.modLane, State.modLink, State.lane, State.link]

/-! ## RESOLVE SKIP and FLUSH (R133, R134) -/

/-- Four values placed at the bytes of a word, the lower three in range. -/
theorem placeBytes_eq {a b c : Nat} (ha : a < 256) (hb : b < 256) (hc : c < 256) (d : Nat) :
    place 0 a ||| place 8 b ||| place 16 c ||| place 24 d =
      (BitVec.ofNat 8 d ++ BitVec.ofNat 8 c ++ BitVec.ofNat 8 b ++ BitVec.ofNat 8 a : BitVec 32) := by
  have clear : ∀ {v : Nat}, v < 256 → ∀ {j : Nat}, 8 ≤ j → v.testBit j = false := fun hv _ hj =>
    Nat.testBit_lt_two_pow (Nat.lt_of_lt_of_le hv (Nat.pow_le_pow_right (by decide : 0 < 2) hj))
  apply BitVec.eq_of_getLsbD_eq
  intro i hi
  simp only [BitVec.getLsbD_or, place_getLsbD _ _ hi, BitVec.getLsbD_append, BitVec.getLsbD_ofNat]
  have above : 8 ≤ i → a.testBit i = false := clear ha
  have aboveB : 16 ≤ i → b.testBit (i - 8) = false := fun h => clear hb (by omega)
  have aboveC : 24 ≤ i → c.testBit (i - 16) = false := fun h => clear hc (by omega)
  obtain h | ⟨h, h'⟩ | ⟨h, h'⟩ | h : i < 8 ∨ (8 ≤ i ∧ i < 16) ∨ (16 ≤ i ∧ i < 24) ∨ 24 ≤ i := by omega
  · simp [h, show ¬8 ≤ i by omega, show ¬16 ≤ i by omega, show ¬24 ≤ i by omega]
  · simp [above h, h, show ¬i < 8 by omega, show i - 8 < 8 by omega, show ¬16 ≤ i by omega, show ¬24 ≤ i by omega]
  · simp [above (by omega), aboveB h, h, show ¬i < 8 by omega, show 8 ≤ i by omega, show ¬i - 8 < 8 by omega,
      show i - 16 < 8 by omega, show ¬24 ≤ i by omega, Nat.sub_sub]
  · simp [above (by omega), aboveB (by omega), aboveC h, h, show ¬i < 8 by omega, show ¬i - 8 < 8 by omega,
      show ¬i - 16 < 8 by omega, show 8 ≤ i by omega, show 16 ≤ i by omega, show i - 24 < 8 by omega, Nat.sub_sub]

/-- The two result words of a RESOLVE (11.3). -/
theorem resolveWords_eq (n : LinkId) (a : ResolveAction) (q : FaultRecord) (k : Nat) : resolveWords n a q k =
    [(BitVec.ofNat 8 q.attempt ++ q.tag ++ BitVec.ofNat 8 a.code ++ BitVec.ofNat 8 (n.val + 1) : BitVec 32),
      BitVec.ofNat 32 k] := by
  have code : a.code < 256 := by cases a <;> decide
  rw [resolveWords, linkNumber, placeBytes_eq (by omega) code q.tag.isLt, BitVec.ofNat_toNat, BitVec.setWidth_eq]

/-- RESOLVE `r` has answered the bursts of link `n` by the messages `ms`, and its lane is then `l`: the record `q` is
gone, the stream FLOWING, RESUMED sent, and the RESOLVE completed (R128, R133, R134). -/
def answered (s : State) (r : CmdRecord) (n : LinkId) (q : FaultRecord) (a : ResolveAction) (count : Nat) (l : Lane)
    (ms : List Message) : State :=
  { s with
    cmd := s.cmd.completed r .ok (resolveWords n a q count)
    lanes := s.lanes.set n.val l
    faults := ⟨s.faults.queue.filter fun q => q.link != n,
      s.faults.links.set n.val { s.linkFaults n with stream := .flowing }⟩
    links := s.links.set n.val { s.link n with
      ctrlOut := (s.link n).ctrlOut ++ [⟨q.tag, (s.link n).session, true, .resumed a count⟩]
      accOut := (s.link n).accOut ++ ms } }

/-- Link `n`'s record is gone, its lane changed by `g` and its stream FLOWING. -/
def unheld (s : State) (n : LinkId) (g : Lane → Lane) : State :=
  ((s.removeRecord n).modLane n g).modFaults n fun f => { f with stream := .flowing }

/-- What SKIP and FLUSH do once the lane's part `g` is given, before the responses leave. -/
def resolving (s : State) (n : LinkId) (q : FaultRecord) (a : ResolveAction) (count : Nat) (g : Lane → Lane) : State :=
  ((unheld s n g).post .ok (resolveWords n a q count)).sendResumed n q.tag a count

theorem skip_eq (s : State) (n : LinkId) (q : FaultRecord) :
    s.skip n q = (resolving s n q .skip 1 (Lane.answerHead q.kind)).releaseResponses n := rfl

theorem flush_eq (s : State) (n : LinkId) (q : FaultRecord) : s.flush n q =
    (resolving s n q .flush (s.lane n).accessQ.length (Lane.answerAll q.kind)).releaseResponses n := rfl

theorem resolving_eq {s : State} {r : CmdRecord} {n : LinkId} (h : s.executes .resolve r)
    (hh : (s.link n).hears (s.link n).session) (q : FaultRecord) (a : ResolveAction) (count : Nat) (g : Lane → Lane) :
    resolving s n q a count g = ((unheld s n g).completing r .ok (resolveWords n a q count)).modLink n fun l =>
      l.queued ⟨q.tag, (s.link n).session, true, .resumed a count⟩ := by
  rw [resolving, post_completing (s := unheld s n g) h.1]
  exact handOver_hears (s := (unheld s n g).completing r .ok (resolveWords n a q count)) hh

/-- The answers leave in order when every response of the lane is READY, in the link's session. -/
theorem resolving_releases {s : State} {r : CmdRecord} {n : LinkId} {g : Lane → Lane} {ms : List Message}
    (h : s.executes .resolve r) (hh : (s.link n).hears (s.link n).session)
    (hq : (g (s.lane n)).responseQ = ms.map readyAs)
    (hm : ∀ m ∈ ms, m.session = (s.link n).session ∧ m.notice = false) (q : FaultRecord) (a : ResolveAction)
    (count : Nat) : (resolving s n q a count g).releaseResponses n =
      answered s r n q a count { g (s.lane n) with responseQ := [] } ms := by
  have resumed := resolving_eq h hh q a count g
  have lane : (resolving s n q a count g).lane n = g (s.lane n) := by
    rw [resumed, modLink_lane]
    exact modLane_self _ n g
  have link : (resolving s n q a count g).link n =
      (s.link n).queued ⟨q.tag, (s.link n).session, true, .resumed a count⟩ := by
    rw [resumed, modLink_self]
    rfl
  rw [releaseResponses_ready ms (lane ▸ hq) (by rw [link]; exact hh.1) (by rw [link]; exact hm), released, resumed]
  simp [answered, unheld, State.completing, State.removeRecord, State.setRecords, State.modFaults, State.modLane,
    State.modLink, State.lane, State.link, State.linkFaults, Link.queued]

/-- A RESOLVE that passes the checks of R130. -/
theorem resolveStart_passed {s : State} {r : CmdRecord} {n : LinkId} {q : FaultRecord} {a : ResolveAction}
    (h : s.executes .resolve r) (hl : (r.stage[0].extractLsb' 0 8).toNat = n.val + 1)
    (ha : resolveAction r.stage = some a) (hq : s.recordOf n = some q) (ho : (s.link n).state ≠ .teardown) :
    s.resolveStart a = .passed n q := by
  have link : resolveLink r.stage = some n := (congrArg linkOf hl).trans (linkOf_linkNumber n)
  rw [resolveStart_eq h (.inl ha), link, ha]
  dsimp only
  rw [hq]
  exact if_neg ho

/-- An action staged by its code. -/
theorem resolveAction_eq {r : CmdRecord} {a : ResolveAction} (h : r.stage[0].extractLsb' 8 8 = BitVec.ofNat 8 a.code) :
    resolveAction r.stage = some a := by
  have code : (r.stage[0].extractLsb' 8 8).toNat = a.code := by rw [h]; cases a <;> rfl
  exact (congrArg actionOf code).trans (actionOf_code a)

/-- The answer to a burst, as a message of its session (R133, R134). -/
def answerTo (session : BitVec 8) (b : Burst) (kind : LinkCode) : Message :=
  ⟨b.tag, session, false, .accessError kind⟩

/-- SKIP answers the held burst with the kind of its record (R133). -/
theorem exec_resolveSkip {s : State} {r : CmdRecord} {n : LinkId} {q : FaultRecord} {b : Burst} {rest : List Burst}
    (h : s.executes .resolve r) (hs : s.resolveStart .skip = .passed n q) (hb : (s.lane n).accessQ = b :: rest)
    (hr : (s.lane n).responseQ = []) (hh : (s.link n).hears (s.link n).session) (he : b.session = (s.link n).session) :
    exec .resolveSkip s = .next (answered s r n q .skip 1 { s.lane n with accessQ := rest }
      [answerTo (s.link n).session b q.kind]).settle := by
  have ready : (Lane.answerHead q.kind (s.lane n)).responseQ =
      [answerTo (s.link n).session b q.kind].map readyAs := by
    simp [Lane.answerHead, hb, Lane.toResponses, hr, readyAs, answerTo, he]
  have lane : { Lane.answerHead q.kind (s.lane n) with responseQ := [] } = { s.lane n with accessQ := rest } := by
    simp [Lane.answerHead, hb, Lane.toResponses, hr]
  show execResolveSkip s = _
  simp only [execResolveSkip, hs, settled]
  rw [skip_eq, resolving_releases h hh ready (by simp [answerTo]), lane]

/-- FLUSH answers the held burst with the kind of its record and those behind it FLUSHED (R134). -/
theorem exec_resolveFlush {s : State} {r : CmdRecord} {n : LinkId} {q : FaultRecord} {b : Burst} {rest : List Burst}
    (h : s.executes .resolve r) (hs : s.resolveStart .flush = .passed n q) (hb : (s.lane n).accessQ = b :: rest)
    (hr : (s.lane n).responseQ = []) (hh : (s.link n).hears (s.link n).session)
    (he : ∀ c ∈ b :: rest, c.session = (s.link n).session) :
    exec .resolveFlush s = .next (answered s r n q .flush (rest.length + 1) { s.lane n with accessQ := [] }
      (answerTo (s.link n).session b q.kind :: rest.map fun c => answerTo (s.link n).session c .flushed)).settle := by
  obtain ⟨head, behind⟩ := List.forall_mem_cons.1 he
  have ready : (Lane.answerAll q.kind (s.lane n)).responseQ = (answerTo (s.link n).session b q.kind ::
      rest.map fun c => answerTo (s.link n).session c .flushed).map readyAs := by
    simpa [Lane.answerAll, hb, hr, readyAs, answerTo, head] using behind
  have lane : { Lane.answerAll q.kind (s.lane n) with responseQ := [] } = { s.lane n with accessQ := [] } := by
    simp [Lane.answerAll, hb, hr]
  show execResolveFlush s = _
  simp only [execResolveFlush, hs, settled]
  rw [flush_eq, resolving_releases h hh ready (by simp [answerTo]), lane, hb, List.length_cons]

section Answered

variable (s : State) (r : CmdRecord) (n : LinkId) (q : FaultRecord) (a : ResolveAction) (count : Nat) (l : Lane)
  (ms : List Message)

theorem answered_link : (answered s r n q a count l ms).link n = { s.link n with
    ctrlOut := (s.link n).ctrlOut ++ [⟨q.tag, (s.link n).session, true, .resumed a count⟩]
    accOut := (s.link n).accOut ++ ms } := by simp [answered, State.link]

theorem answered_lane : (answered s r n q a count l ms).lane n = l := by simp [answered, State.lane]

theorem answered_linkFaults :
    (answered s r n q a count l ms).linkFaults n = { s.linkFaults n with stream := .flowing } := by
  simp [answered, State.linkFaults]

theorem answered_other {m : LinkId} (h : m ≠ n) : (answered s r n q a count l ms).link m = s.link m ∧
    (answered s r n q a count l ms).lane m = s.lane m ∧
    (answered s r n q a count l ms).linkFaults m = s.linkFaults m := by
  have apart : n.val ≠ m.val := fun e => h (Fin.ext e.symm)
  simp [answered, State.link, State.lane, State.linkFaults, apart]

end Answered

/-- Settles O26: both answer bursts into a lane without responses, so that the answers leave at once. -/
theorem skipAndFlushAnswerWithoutJudging : Obligations.SkipAndFlushAnswerWithoutJudging := by
  unfold Obligations.SkipAndFlushAnswerWithoutJudging
  intro s r n q b rest h hl hq hb hr hh he answer after
  have done : ∀ a count l ms, l.responseQ = [] → after (answered s r n q a count l ms) a count := fun a count l ms hl =>
    ⟨rfl, rfl, answered_linkFaults .., by rw [answered_link], by rw [← resolveWords_eq]; rfl, by rw [answered_lane, hl],
      fun m hm => answered_other s r n q a count l ms hm⟩
  have passed : ∀ a, resolveAction r.stage = some a → s.resolveStart a = .passed n q := fun a ha =>
    resolveStart_passed h hl ha hq (by rw [hh.1]; nofun)
  refine ⟨fun ha => ?skip, fun ha => ?flush⟩
  case skip =>
    exact ⟨_, exec_resolveSkip h (passed .skip (resolveAction_eq ha)) hb hr hh (he b (List.mem_cons_self ..)),
      done _ _ _ _ hr, by rw [answered_lane], by rw [answered_link]; rfl⟩
  case flush =>
    exact ⟨_, exec_resolveFlush h (passed .flush (resolveAction_eq ha)) hb hr hh he,
      done _ _ _ _ hr, by rw [answered_lane], by rw [answered_link]; rfl⟩

end Sys2Proof.Machine.FaultQueue

/-! PROOFS. The taking of the next host command (R172), the FILL that starts a job (R140), and STOP_FILL with the
withdrawal of the engine's claim (R145). -/

namespace Sys2Proof.Machine.FillCommands

open GrantOrder (releasing modClaim_eq)

/-! ## The taking of the next command (R172) -/

/-- With no teardown due and no fill WRITING only the taking of the next command follows an event. -/
theorem settle_eq_takeNext_of_quiet {s : State} (h : ∀ n, ¬ s.removalDue n) (hf : s.fill.state ≠ .writing) :
    s.settle = s.takeNext := by
  have quiet : s.finishTeardowns 6 = s :=
    finishTeardowns_quiet (fun n => Bool.eq_false_iff.2 fun e => h n ((removalDue_iff s n).1 e)) 6
  rw [State.settle, quiet, fillRun_idle hf, quiet]

theorem takeNext_of_empty {s : State} (h : s.cmd.queue = []) : s.takeNext = s := by
  unfold State.takeNext
  split
  · rename_i hq; rw [h] at hq; cases hq
  · rfl

theorem takeNext_of_free {s : State} {r : CmdRecord} {rest : List CmdRecord} (hq : s.cmd.queue = r :: rest)
    (he : s.cmd.executing = none) (hc : s.cmd.completions.length + s.cmd.reserved < 32) :
    s.takeNext = { s with cmd := { s.cmd with
      executing := some ⟨r, .fresh⟩, queue := rest, reserved := s.cmd.reserved + 1 } } := by
  simp only [State.takeNext, he, hq, if_pos hc]

theorem takeNext_of_blocked {s : State}
    (h : s.cmd.executing ≠ none ∨ 32 ≤ s.cmd.completions.length + s.cmd.reserved) : s.takeNext = s := by
  unfold State.takeNext
  split
  · rename_i he _
    exact if_neg (Nat.not_lt.2 (h.resolve_left fun ne => ne he))
  · rfl

/-- Settles O4: what follows the event is the taking of the next command, by the queue and R172's other conditions. -/
theorem nextCommandIsTakenWhenItCan : Obligations.NextCommandIsTakenWhenItCan := by
  unfold Obligations.NextCommandIsTakenWhenItCan
  intro s hdue hfill
  rw [settle_eq_takeNext_of_quiet hdue hfill]
  exact ⟨takeNext_of_empty, fun r rest hq => ⟨takeNext_of_free hq, takeNext_of_blocked⟩⟩

/-! ## FILL (R140) -/

/-- The rectangle `p` asks for has no pixel or does not lie inside the surface (R140, check 4). -/
def outside (p : FillParams) (d : Desc) : Prop :=
  p.w = 0 ∨ p.h = 0 ∨ d.width < p.x + p.w ∨ d.height < p.y + p.h

/-- The service moves the arbiter's pointer only: the record it reads is the one that stands. -/
theorem fillService_reads (s : State) (r : CmdRecord) :
    (s.served .fillEngine).classify (fillParams r.stage).handle = s.classify (stagedHandle r.stage) := rfl

section Fill

variable {s : State} {r : CmdRecord} (h : s.executes .fill r)

include h

theorem exec_fill_busy (hs : s.fill.state ≠ .idle) :
    exec .fill s = .next (s.completing r (.busy .engine) [1]).settle := by
  show execFill s = _
  simp only [execFill, executingAs_eq h.1 h.2, if_pos hs, settled, post_completing h.1]

theorem exec_fill_indexZero (hs : s.fill.state = .idle) (hi : (stagedHandle r.stage).index = 0) :
    exec .fill s = .next (s.completing r .staleHandle []).settle := by
  show execFill s = _
  simp only [execFill, executingAs_eq h.1 h.2, hs, ne_eq, not_true, if_false, if_pos hi, settled, post_completing h.1]

theorem exec_fill_served (hs : s.fill.state = .idle) (hi : (stagedHandle r.stage).index ≠ 0)
    (ht : s.portTurn = some .fillEngine) : exec .fill s = .next (s.fillService r).settle := by
  show execFill s = _
  simp only [execFill, executingAs_eq h.1 h.2, hs, ne_eq, not_true, if_false, if_neg hi, if_pos ht, settled]

theorem served_post (v : Verdict) :
    (s.served .fillEngine).post v [] = (s.pointing (.reload 0)).completing r v [] :=
  post_completing (s := s.served .fillEngine) h.1 v []

theorem fillService_stale (hc : s.classify (stagedHandle r.stage) = .stale) :
    s.fillService r = (s.pointing (.reload 0)).completing r .staleHandle [] := by
  simp only [State.fillService, fillService_reads, hc, served_post h]

theorem fillService_retiring {d : Desc} (hc : s.classify (stagedHandle r.stage) = .retiring d) :
    s.fillService r = (s.pointing (.reload 0)).completing r .notLive [] := by
  simp only [State.fillService, fillService_reads, hc, served_post h]

theorem fillService_outside {d : Desc} (hc : s.classify (stagedHandle r.stage) = .current d)
    (ho : outside (fillParams r.stage) d) :
    s.fillService r = (s.pointing (.reload 0)).completing r .bounds [] := by
  simp only [State.fillService, fillService_reads, hc, served_post h]
  exact if_pos ho

omit h in
theorem fillService_inside {d : Desc} (hc : s.classify (stagedHandle r.stage) = .current d)
    (ho : ¬ outside (fillParams r.stage) d) : s.fillService r = (s.served .fillEngine).acceptFill r d := by
  simp only [State.fillService, fillService_reads, hc]
  exact if_neg ho

/-- The command that starts the job becomes background (R174). -/
theorem acceptFill_eq (d : Desc) : (s.served .fillEngine).acceptFill r d =
    let p := fillParams r.stage
    { s.pointing (.reload 0) with
      fill := ⟨.waiting, some {
        tag := r.tag, handle := p.handle, x := p.x, y := p.y, w := p.w, h := p.h, value := p.value
        publish := p.publish, waitLimit := p.waitLimit, nextRow := p.y, nextX := p.x, burst := none, stop := false
        copy := copyOf p.handle (s.entry p.handle.index).stamp d, outdated := false, reading := false
        withdrawAsked := false, withdrawTaken := false }, r.tag, p.handle, 0⟩
      claims := { s.claims with line := s.claims.line ++ [.fill] }
      cmd := { s.cmd with
        executing := none, background := s.cmd.background ++ [⟨r.tag, r.kind, p.handle⟩] } } := by
  simp only [State.acceptFill, State.toBackground, State.setLine, served_cmd, h.1]
  rfl

end Fill

/-- Settles O27: the checks in their order, the last of them and the acceptance on a LIVE surface. -/
theorem fillIsRefusedOrStartsAJob : Obligations.FillIsRefusedOrStartsAJob := by
  unfold Obligations.FillIsRefusedOrStartsAJob
  intro s r h hd x y w ht
  refine ⟨exec_fill_busy h, exec_fill_indexZero h, fun hs hi hturn => ?service⟩
  case service =>
    intro s'
    rw [exec_fill_served h hs hi hturn]
    refine ⟨fun hc => by rw [fillService_stale h hc], fun d => ⟨fun hc => by rw [fillService_retiring h hc],
      fun hc => ⟨fun ho => by rw [fillService_outside h hc ho], fun hw hht hx hy => ?accepted⟩⟩⟩
    case accepted =>
      have inside : ¬ (w = 0 ∨ ht = 0 ∨ d.width < x + w ∨ d.height < y + ht) := by omega
      rw [fillService_inside hc inside, acceptFill_eq h]
      rfl

/-! ## The release of the engine's claim (R41, R144) -/

/-- The FILL `b` with job `j` is in progress in state `s` under the claim `cl`, and its surface has the change part
`p`. -/
structure Filling (s : State) (j : FillJob) (cl : Claim) (p : ChangePart) (b : Background) : Prop where
  job : s.fill.job = some j
  claim : s.claims.filler = some cl
  handle : cl.handle = j.handle
  part : s.partOf j.handle = some p
  command : s.cmd.background.find? (fun b => b.kind == 9) = some b

/-- The engine's slot holds the claim given. -/
def claimedAs (s : State) (cl : Claim) : State := { s with claims := { s.claims with filler := some cl } }

theorem releaseClaim_fill_eq {s : State} {cl : Claim} (hf : s.claims.filler = some cl) (kind : ReleaseKind)
    (tag : Byte) : s.releaseClaim .fill 0 kind tag = (claimedAs s (releasing cl kind tag)).drainIfDone .fill 0 := by
  rw [State.releaseClaim, modClaim_eq (s := s) (c := .fill) (k := 0) hf]
  rfl

/-- The engine's claim with transactions outstanding becomes RELEASING. -/
theorem releaseClaim_fill_outstanding {s : State} {cl : Claim} (hf : s.claims.filler = some cl)
    (ho : 0 < cl.outstanding) (kind : ReleaseKind) (tag : Byte) :
    s.releaseClaim .fill 0 kind tag = claimedAs s (releasing cl kind tag) := by
  have hat : (claimedAs s (releasing cl kind tag)).claimAt .fill 0 = some (releasing cl kind tag) := rfl
  rw [releaseClaim_fill_eq hf]
  simp only [State.drainIfDone, hat]
  exact if_neg (Nat.ne_of_gt ho)

/-- The engine's claim with nothing outstanding ends its drain at once, and the fill with it. -/
theorem releaseClaim_fill_drained {s : State} {j : FillJob} {cl : Claim} {p : ChangePart} {b : Background}
    (h : Filling s j cl p b) (ho : cl.outstanding = 0) (kind : ReleaseKind) (tag : Byte) :
    s.releaseClaim .fill 0 kind tag = s.fillClosed j b kind s.fill.rowsDone (p.ended cl.mode kind) := by
  rw [releaseClaim_fill_eq h.claim]
  exact drainIfDone_fill (s := claimedAs s (releasing cl kind tag)) (cl := releasing cl kind tag) (kind := kind)
    rfl h.job h.handle h.part h.command rfl ho

/-! ## The withdrawal of the engine's claim (R145) -/

/-- The withdrawal that job `j` asked for has been taken. -/
def withdrawalTaken (s : State) (j : FillJob) : State :=
  { s with fill := { s.fill with job := some { j with withdrawTaken := true } } }

theorem modJob_eq {s : State} {j : FillJob} (h : s.fill.job = some j) (f : FillJob → FillJob) :
    s.modJob f = { s with fill := { s.fill with job := some (f j) } } := by
  rw [State.modJob, h, Option.map_some]

theorem fillWithdraw_undecided {s : State} {j : FillJob} (hj : s.fill.job = some j) (hf : s.claims.filler = none) :
    s.fillWithdraw = withdrawalTaken s j := by
  simp only [State.fillWithdraw, modJob_eq hj, hf, withdrawalTaken]

theorem fillWithdraw_releasing {s : State} {j : FillJob} {cl : Claim} {kind : ReleaseKind} (hj : s.fill.job = some j)
    (hf : s.claims.filler = some cl) (hs : cl.state = .releasing kind) : s.fillWithdraw = withdrawalTaken s j := by
  simp only [State.fillWithdraw, modJob_eq hj, hf, hs, withdrawalTaken]

theorem fillWithdraw_held {s : State} {j : FillJob} {cl : Claim} (hj : s.fill.job = some j)
    (hf : s.claims.filler = some cl) (hs : cl.state = .held) :
    s.fillWithdraw = (withdrawalTaken s j).releaseClaim .fill 0 .plain 0 := by
  simp only [State.fillWithdraw, modJob_eq hj, hf, hs, withdrawalTaken]

/-- The fill whose WAITING claim is removed from surface `i` has ended CANCELLED, and the queue has been served
(R145, R146). -/
def cancelled (s : State) (i : BitVec 8) (p : ChangePart) (b : Background) : State :=
  ((((s.unclaimed).modQueue i fun q => q.erase .fill).fillOver b .cancelled s.fill.rowsDone p).serve i).drainLooked i

theorem fillWithdraw_waiting {s : State} {j : FillJob} {cl : Claim} {p : ChangePart} {b : Background}
    (h : Filling s j cl p b) (hs : cl.state = .waiting) : s.fillWithdraw = cancelled s j.handle.index p b := by
  have dropped : ((withdrawalTaken s j).dropWaiting .fill 0 j.handle.index).fillEnd .cancelled =
      ((s.unclaimed).modQueue j.handle.index fun q => q.erase .fill).fillOver b .cancelled s.fill.rowsDone p :=
    fillEnd_over (s := (withdrawalTaken s j).dropWaiting .fill 0 j.handle.index)
      (j := { j with withdrawTaken := true }) rfl h.part h.command .cancelled
  rw [cancelled, ← dropped, ← examineDrain_eq, withdrawalTaken]
  simp only [State.fillWithdraw, modJob_eq h.job, h.claim, hs, h.handle]

/-! ## STOP_FILL (R145) -/

section StopFill

variable {s : State} {r : CmdRecord} {x : Extent} (h : s.executes .stopFill r)
  (first : ¬ (s.withdrawalDue = true ∧ x = .whole))

include h first

theorem exec_stopFill_notRunning (hs : s.fill.state = .idle ∨ s.fill.state = .draining) :
    exec (.stopFill x) s = .next (s.completing r .notRunning []).settle := by
  show execStopFill x s = _
  rcases hs with hs | hs <;>
    simp only [execStopFill, executingAs_eq h.1 h.2, if_neg first, hs, settled, post_completing h.1]

theorem exec_stopFill_waiting (hs : s.fill.state = .waiting) :
    exec (.stopFill x) s = .next (s.stopWaiting x).settle := by
  show execStopFill x s = _
  simp only [execStopFill, executingAs_eq h.1 h.2, if_neg first, hs, settled]

theorem exec_stopFill_writing (hs : s.fill.state = .writing) : exec (.stopFill x) s = .next s.stopWriting.settle := by
  show execStopFill x s = _
  simp only [execStopFill, executingAs_eq h.1 h.2, if_neg first, hs, settled]

end StopFill

theorem executingAs_eq_some {s : State} {k : CmdKind} {r : CmdRecord} {st : Stage}
    (h : s.executingAs k = some (r, st)) : s.cmd.executing = some ⟨r, st⟩ ∧ r.command = some k := by
  unfold State.executingAs at h
  split at h
  · rename_i e he
    split at h
    · rename_i hk; cases h; exact ⟨he, hk⟩
    · cases h
  · cases h

/-- A withdrawal that is due is taken, unless another STOP_FILL makes its own event first. -/
theorem exec_stopFill_withdraws {s : State} {x : Extent} (due : s.withdrawalDue = true)
    (turn : ∀ e, s.cmd.executing = some e → e.cmd.command ≠ some .stopFill ∨ (e.stage = .fresh ∧ x = .whole)) :
    exec (.stopFill x) s = .next s.fillWithdraw.settle := by
  show execStopFill x s = _
  unfold execStopFill
  split
  · rename_i r he
    obtain ⟨hexec, hkind⟩ := executingAs_eq_some he
    obtain ⟨_, whole⟩ := (turn _ hexec).resolve_left fun ne => ne hkind
    rw [if_pos ⟨due, whole⟩, settled]
  · rw [if_pos due, settled]

/-- The STOP_FILL `r` has completed OK, and the engine is DRAINING with the job given. -/
def stopped (s : State) (r : CmdRecord) (j : FillJob) : State :=
  { s.completing r .ok [] with fill := { s.fill with state := .draining, job := some j } }

/-- A job that STOP_FILL has stopped in WAITING: the withdrawal of its claim is asked for. -/
abbrev withdrawalAsked (j : FillJob) : FillJob := { j with stop := true, withdrawAsked := true }

theorem stop_eq {s : State} {r : CmdRecord} {j : FillJob} (h : s.executes .stopFill r) (hj : s.fill.job = some j)
    (f : FillJob → FillJob) : ((s.modJob f).setFillState .draining).post .ok [] = stopped s r (f j) := by
  rw [modJob_eq hj]
  exact post_completing (s := State.setFillState .draining { s with fill := { s.fill with job := some (f j) } }) h.1 _ _

theorem stopWaiting_firstEvent {s : State} {r : CmdRecord} {j : FillJob} (h : s.executes .stopFill r)
    (hj : s.fill.job = some j) : s.stopWaiting .firstEvent = stopped s r (withdrawalAsked j) := stop_eq h hj _

theorem stopWaiting_whole {s : State} {r : CmdRecord} {j : FillJob} (h : s.executes .stopFill r)
    (hj : s.fill.job = some j) : s.stopWaiting .whole = (stopped s r (withdrawalAsked j)).fillWithdraw :=
  congrArg State.fillWithdraw (stop_eq h hj _)

/-- A stop in WRITING releases the claim PLAIN where it is HELD. -/
theorem stopWriting_eq {s : State} {r : CmdRecord} {j : FillJob} {cl : Claim} (h : s.executes .stopFill r)
    (hj : s.fill.job = some j) (hf : s.claims.filler = some cl) : s.stopWriting =
      if cl.state = .held then (stopped s r { j with stop := true }).releaseClaim .fill 0 .plain 0
      else stopped s r { j with stop := true } := by
  have filler : (stopped s r { j with stop := true }).claims.filler = some cl := hf
  simp only [State.stopWriting, stop_eq h hj, filler, Option.any_some, beq_iff_eq]

/-- Settles O28: STOP_FILL at the engine by its state, and the withdrawal by the state of the engine's claim. -/
theorem stopFillActsByTheEnginesState : Obligations.StopFillActsByTheEnginesState := by
  unfold Obligations.StopFillActsByTheEnginesState
  intro s r alone removed
  refine ⟨fun h => ⟨fun _ hs => exec_stopFill_notRunning h (by simp) hs, fun undue => ?engine⟩, ?withdrawal⟩
  case engine =>
    have first : ∀ x : Extent, ¬ (s.withdrawalDue = true ∧ x = .whole) := fun x e => by simp [undue] at e
    refine ⟨fun hs x => exec_stopFill_notRunning h (first x) hs, fun j hj => ?running⟩
    case running =>
      intro i
      refine ⟨fun hs => ?inWaiting, fun hs x => ?inWriting⟩
      case inWaiting =>
        rw [exec_stopFill_waiting h (first _) hs, exec_stopFill_waiting h (first _) hs, stopWaiting_firstEvent h hj,
          stopWaiting_whole h hj]
        refine ⟨rfl, fun hf => ?undecided, fun cl p b ⟨hf, hh, hp, hb⟩ hw => ?waiting⟩
        case undecided =>
          rw [fillWithdraw_undecided (s := stopped s r (withdrawalAsked j)) rfl hf]
          rfl
        case waiting =>
          have filling : Filling (stopped s r (withdrawalAsked j)) (withdrawalAsked j) cl p b := ⟨rfl, hf, hh, hp, hb⟩
          rw [fillWithdraw_waiting filling hw]
          rfl
      case inWriting =>
        intro stoppedJob v
        rw [exec_stopFill_writing h (first _) hs]
        refine ⟨fun cl kind hf hr => ?releasing, fun cl hf hheld ho => ?outstanding,
          fun cl p b ⟨hf, hh, hp, hb⟩ hheld ho => ?drained⟩
        case releasing =>
          rw [stopWriting_eq h hj hf, if_neg (by rw [hr]; nofun)]
          rfl
        case outstanding =>
          rw [stopWriting_eq h hj hf, if_pos hheld,
            releaseClaim_fill_outstanding (s := stopped s r stoppedJob) hf ho]
          rfl
        case drained =>
          have filling : Filling (stopped s r stoppedJob) stoppedJob cl p b := ⟨rfl, hf, hh, hp, hb⟩
          rw [stopWriting_eq h hj hf, if_pos hheld, releaseClaim_fill_drained filling ho]
          rfl
  case withdrawal =>
    intro x j turn hj asked untaken i taken
    rw [exec_stopFill_withdraws (by simp [State.withdrawalDue, hj, asked, untaken]) turn]
    refine ⟨fun hf => ?undecided, fun cl kind hf hr => ?releasing, fun cl p b ⟨hf, hh, hp, hb⟩ =>
      ⟨fun hw => ?waiting, fun hheld ho => ?outstanding, fun hheld ho => ?drained⟩⟩
    case undecided => rw [fillWithdraw_undecided hj hf]; rfl
    case releasing => rw [fillWithdraw_releasing hj hf hr]; rfl
    case waiting => rw [fillWithdraw_waiting ⟨hj, hf, hh, hp, hb⟩ hw]; rfl
    case outstanding =>
      rw [fillWithdraw_held hj hf hheld, releaseClaim_fill_outstanding (s := withdrawalTaken s j) hf ho]
      rfl
    case drained =>
      have filling : Filling (withdrawalTaken s j) { j with withdrawTaken := true } cl p b := ⟨rfl, hf, hh, hp, hb⟩
      rw [fillWithdraw_held hj hf hheld, releaseClaim_fill_drained filling ho]
      rfl

end Sys2Proof.Machine.FillCommands

/-! PROOFS. Law 11 (R172, R174, R175): the reservation count is that of the executing and the background commands, and
with the queued completions it is at most 32. -/

namespace Sys2Proof.Machine.CommandCounts

/-! ## Operations that leave the Command Engine alone -/

section Leaves

variable (s : State)

@[simp] theorem modClaim_cmd (c : Client) (k : Fin 16) (f : Claim → Claim) : (s.modClaim c k f).cmd = s.cmd := by
  unfold State.modClaim; split <;> simp

@[simp] theorem markBand_cmd (i : BitVec 8) (w : Bool) (b : Nat) : (s.markBand i w b).cmd = s.cmd := by
  unfold State.markBand; split <;> rfl

@[simp] theorem fillGranted_cmd : s.fillGranted.cmd = s.cmd := by
  unfold State.fillGranted; split <;> rfl

@[simp] theorem settleChanges_cmd (cl : Claim) (k : ReleaseKind) : (s.settleChanges cl k).cmd = s.cmd := by
  unfold State.settleChanges
  split
  · rfl
  · split <;> rfl

@[simp] theorem updateEntry_cmd (i : BitVec 8) (f : Entry → Entry) : (s.updateEntry i f).cmd = s.cmd := rfl

@[simp] theorem dropWaiting_cmd (c : Client) (k : Fin 16) (i : BitVec 8) : (s.dropWaiting c k i).cmd = s.cmd := by
  simp [State.dropWaiting]

@[simp] theorem removeClaim_cmd (n : LinkId) (k : Fin 16) : (s.removeClaim n k).cmd = s.cmd := by
  unfold State.removeClaim
  split
  · rfl
  · dsimp only
    split
    · simp
    · split <;> simp

@[simp] theorem handOverAccess_cmd (n : LinkId) (m : Message) : (s.handOverAccess n m).cmd = s.cmd := by
  simp only [State.handOverAccess]; split <;> rfl

theorem releaseFrom_cmd (n : LinkId) (l : List Response) : ∀ s : State, (s.releaseFrom n l).cmd = s.cmd := by
  induction l with
  | nil => exact fun _ => rfl
  | cons r rest ih =>
    intro s
    cases r with
    | inFlight b w ps => rfl
    | ready t ss b => rw [State.releaseFrom, ih, handOverAccess_cmd, modLane_cmd]

@[simp] theorem releaseResponses_cmd (n : LinkId) : (s.releaseResponses n).cmd = s.cmd := releaseFrom_cmd n _ s

@[simp] theorem accept_cmd (n : LinkId) (b : Burst) (c : Copy) (k : Fin 16) : (s.accept n b c k).cmd = s.cmd := by
  simp [State.accept, State.raiseOutstanding]

@[simp] theorem issueBurst_cmd (j : FillJob) : (s.issueBurst j).cmd = s.cmd := by
  simp only [State.issueBurst]; split <;> simp [State.raiseOutstanding]

@[simp] theorem startScrub_cmd : s.startScrub.cmd = s.cmd := by
  unfold State.startScrub; split <;> rfl

end Leaves

/-! ## The counts and what changes them -/

/-- Law 11 with the bounds of R171 and R182. -/
def Counted (s : State) : Prop := s.accounted ∧ s.bounded

theorem Counted.of_cmd {s t : State} (h : Counted s) (e : t.cmd = s.cmd) : Counted t := by
  unfold Counted State.accounted State.bounded at *
  rw [e]
  exact h

theorem counted_of_reset {s : State} (e : s.cmd = CommandEngine.reset) : Counted s := by
  unfold Counted State.accounted State.bounded
  rw [e]
  decide

section Kept

variable {s : State} (h : Counted s)
include h

/-- The completion takes the reservation of the command that posts it (R175). -/
theorem Counted.post (v : Verdict) (ws : List Word) : Counted (s.post v ws) := by
  unfold State.post
  split
  · exact h
  · rename_i e he
    obtain ⟨⟨reserved, room⟩, bounds⟩ := h
    simp only [he, Option.isSome_some, bit] at reserved
    refine ⟨⟨?_, ?_⟩, bounds⟩
    · simp only [Option.isSome_none, bit]; omega
    · simp only [List.length_append, List.length_singleton]; omega

/-- A command that becomes background takes its reservation along (R174). -/
theorem Counted.toBackground (a : Handle) : Counted (s.toBackground a) := by
  unfold State.toBackground
  split
  · exact h
  · rename_i e he
    obtain ⟨⟨reserved, room⟩, bounds⟩ := h
    simp only [he, Option.isSome_some, bit] at reserved
    refine ⟨⟨?_, room⟩, bounds⟩
    simp only [Option.isSome_none, bit, List.length_append, List.length_singleton]; omega

/-- A background command's completion takes its reservation (R174, R175). -/
theorem Counted.postBackground (p : Background → Bool) (v : Verdict) (ws : List Word) :
    Counted (s.postBackground p v ws) := by
  unfold State.postBackground
  split
  · exact h
  · rename_i b hb
    have erased := List.length_eraseP_of_mem (List.mem_of_find?_eq_some hb) (List.find?_some hb)
    have present := List.length_pos_of_mem (List.mem_of_find?_eq_some hb)
    obtain ⟨⟨reserved, room⟩, bounds⟩ := h
    refine ⟨⟨?_, ?_⟩, bounds⟩
    · dsimp only; omega
    · simp only [List.length_append, List.length_singleton]; omega

/-- A command is taken when a completion slot is left for it (R172). -/
theorem Counted.takeNext : Counted s.takeNext := by
  unfold State.takeNext
  split
  · rename_i r rest he hq
    split
    · rename_i free
      obtain ⟨⟨reserved, room⟩, waiting, thresh⟩ := h
      simp only [he, Option.isSome_none, bit] at reserved
      simp only [hq, List.length_cons] at waiting
      refine ⟨⟨?_, ?_⟩, ?_, thresh⟩
      · simp only [Option.isSome_some, bit]; omega
      · dsimp only; omega
      · dsimp only; omega
    · exact h
  · exact h

theorem Counted.setStage (st : Stage) : Counted (s.setStage st) := by
  obtain ⟨⟨reserved, room⟩, bounds⟩ := h
  exact ⟨⟨by simpa [State.setStage] using reserved, room⟩, bounds⟩

theorem Counted.foldl {α : Type} {op : State → α → State} (l : List α)
    (step : ∀ {s : State}, Counted s → ∀ a, Counted (op s a)) : Counted (l.foldl op s) :=
  List.foldlRecOn l op h fun _ hs a _ => step hs a

/-! ## Teardown starts and messages to a link -/

theorem Counted.beginTeardown (n : LinkId) (c : Cause) : Counted (s.beginTeardown n c) := by
  have begun : Counted (((s.modLink n (Link.startTeardown c)).modLane n Lane.startTeardown).withdrawLine n) := h
  unfold State.beginTeardown State.abandonRetry
  split
  · split
    · exact begun.post _ _
    · exact begun
  · exact begun

theorem Counted.takeCause (n : LinkId) (c : Cause) : Counted (s.takeCause n c) := by
  unfold State.takeCause
  split
  · exact h.beginTeardown n c
  · exact h
  · exact h

theorem Counted.handOver (n : LinkId) (m : Message) : Counted (s.handOver n m) := by
  simp only [State.handOver]
  split
  · split
    · exact h
    · exact h.beginTeardown n _
  · exact h

theorem Counted.respond (n : LinkId) (tag : Byte) (session : BitVec 8) (b : Body) :
    Counted (s.respond n tag session b) := h.handOver n _

theorem Counted.sendResumed (n : LinkId) (tag : Byte) (a : ResolveAction) (k : Nat) :
    Counted (s.sendResumed n tag a k) := h.handOver n _

/-! ## Claims -/

theorem Counted.setClaim (c : Client) (k : Fin 16) (v : Option Claim) : Counted (s.setClaim c k v) :=
  h.of_cmd (setClaim_cmd s c k v)

/-- A drain end that is due is no count of the Command Engine (R23). -/
theorem Counted.examineDrain (i : BitVec 8) : Counted (s.examineDrain i) := by
  unfold State.examineDrain
  split
  · split
    · exact h
    · exact h
  · exact h

theorem Counted.fillEnd (v : Verdict) : Counted (s.fillEnd v) := by
  unfold State.fillEnd
  split
  · exact h
  · rename_i j _
    have idle : Counted { s with fill := { s.fill with state := .idle, job := none } } := h
    dsimp only
    split
    · exact idle.postBackground _ v _
    · exact idle.postBackground (fun b => b.kind == 9) v _

theorem Counted.fillDrained (k : ReleaseKind) : Counted (s.fillDrained k) := by
  unfold State.fillDrained
  split
  · exact h
  · exact h.fillEnd _

theorem Counted.grant (i : BitVec 8) (c : Client) (k : Fin 16) (cl : Claim) : Counted (s.grant i c k cl) := by
  have held := Counted.setClaim (s := s.modQueue i List.tail) h c k (some cl.granted)
  cases c with
  | fill => exact held.of_cmd (fillGranted_cmd _)
  | link n => exact held.handOver n _

omit h in
theorem Counted.serveFrom (i : BitVec 8) (q : List Client) :
    ∀ {s : State}, Counted s → Counted (s.serveFrom i q) := by
  induction q with
  | nil => exact id
  | cons c rest ih =>
    intro s h
    unfold State.serveFrom
    split
    · exact h
    · split
      · exact ih (h.grant i c _ _)
      · exact h

theorem Counted.serve (i : BitVec 8) : Counted (s.serve i) := Counted.serveFrom i _ h

theorem Counted.afterLoss (i : BitVec 8) : Counted (s.afterLoss i) := (h.serve i).examineDrain i

theorem Counted.reportDrain (c : Client) (k : Fin 16) (cl : Claim) (kind : ReleaseKind) :
    Counted (s.reportDrain c k cl kind) := by
  cases c with
  | fill => exact h
  | link n => cases kind <;> exact h.handOver n _

theorem Counted.finishDrain (c : Client) (k : Fin 16) : Counted (s.finishDrain c k) := by
  unfold State.finishDrain
  split
  · exact h
  · split
    · exact ((h.of_cmd (settleChanges_cmd s _ _)).setClaim c k none).reportDrain c k _ _
    · exact h

theorem Counted.reportFill (c : Client) (kind : ReleaseKind) : Counted (s.reportFill c kind) := by
  cases c with
  | fill => exact h.fillDrained kind
  | link n => exact h

theorem Counted.drainIfDone (c : Client) (k : Fin 16) : Counted (s.drainIfDone c k) := by
  unfold State.drainIfDone
  split
  · exact h
  · split
    · split
      · exact ((h.finishDrain c k).afterLoss _).reportFill c _
      · exact h
    · exact h

theorem Counted.releaseClaim (c : Client) (k : Fin 16) (kind : ReleaseKind) (tag : Byte) :
    Counted (s.releaseClaim c k kind tag) := (h.of_cmd (modClaim_cmd s c k _)).drainIfDone c k

/-! ## Revocation, the lease tick and the removal of a link's claims -/

theorem Counted.revokeWaiting (i : BitVec 8) (r : Reason) (sel : Client → Claim → Bool) (c : Client) :
    Counted (s.revokeWaiting i r sel c) := by
  unfold State.revokeWaiting
  split
  · exact h
  · split
    · have dropped := fun k => h.of_cmd (dropWaiting_cmd s c k i)
      cases c with
      | fill => exact (dropped _).fillEnd _
      | link n => exact (dropped _).handOver n _
    · exact h

theorem Counted.revokeHeld (i : BitVec 8) (r : Reason) (sel : Client → Claim → Bool) (c : Client) :
    Counted (s.revokeHeld i r sel c) := by
  unfold State.revokeHeld
  split
  · exact h
  · split
    · have releasing := h.setClaim c
      dsimp only
      split
      · exact (releasing _ _).finishDrain c _
      · exact releasing _ _
    · exact h

theorem Counted.revoke (i : BitVec 8) (r : Reason) (sel : Client → Claim → Bool) : Counted (s.revoke i r sel) := by
  have waiting := h.foldl allClients fun h => Counted.revokeWaiting h i r sel
  have lost := (waiting.foldl allClients fun h => Counted.revokeHeld h i r sel).afterLoss i
  unfold State.revoke
  dsimp only
  split
  · exact lost.fillDrained _
  · exact lost

theorem Counted.expire (p : Client × Fin 16) : Counted (s.expire p) := by
  unfold State.expire
  split
  · exact h
  · split
    · have releasing := h.setClaim p.1 p.2
      dsimp only
      split
      · exact ((releasing _).finishDrain p.1 p.2).reportFill p.1 _
      · exact releasing _
    · exact h

theorem Counted.timeOut (p : Client × Fin 16) : Counted (s.timeOut p) := by
  obtain ⟨c, k⟩ := p
  unfold State.timeOut
  split
  · exact h
  · split
    · have dropped := fun i => h.of_cmd (dropWaiting_cmd s c k i)
      cases c with
      | fill => exact (dropped _).fillEnd _
      | link n => exact (dropped _).handOver n _
    · exact h

theorem Counted.warn (w : Nat) (p : Client × Fin 16) : Counted (s.warn w p) := by
  obtain ⟨c, k⟩ := p
  unfold State.warn
  split
  · exact h
  · split
    · have warned := h.setClaim c k
      cases c with
      | fill => exact warned _
      | link n => exact (warned _).handOver n _
    · exact h

theorem Counted.leaseTick : Counted s.leaseTick :=
  (((((h.foldl allPlaces fun h p => h.of_cmd (modClaim_cmd _ p.1 p.2 _)).foldl allPlaces Counted.expire).foldl allPlaces
    Counted.timeOut).foldl allPlaces fun h => Counted.warn h _).foldl _ Counted.serve).foldl _ Counted.examineDrain

theorem Counted.removeClaims (n : LinkId) : Counted (s.removeClaims n) :=
  ((h.foldl allSlots fun h k => h.of_cmd (removeClaim_cmd _ n k)).foldl _ Counted.serve).foldl _ Counted.examineDrain

/-! ## The Access Path -/

theorem Counted.retryAccepted (n : LinkId) (b : Burst) : Counted (s.retryAccepted n b) := by
  have flowing : Counted (s.modFaults n fun f => { f with stream := .flowing }) := h
  unfold State.retryAccepted
  split
  · dsimp only
    split
    · exact (flowing.post _ _).sendResumed n _ _ _
    · exact flowing.sendResumed n _ _ _
  · exact h

theorem Counted.retryRefaulted (n : LinkId) (kind : LinkCode) (k : Nat) : Counted (s.retryRefaulted n kind k) := by
  unfold State.retryRefaulted
  split
  · exact h.post _ _
  · exact h

theorem Counted.faultAnswered (n : LinkId) (kind : LinkCode) (b : Burst) : Counted (s.faultAnswered n kind b) := by
  have answered : Counted ((s.modLane n fun l => l.toResponses (.ready b.tag b.session (.accessError kind))).modFaults n
    fun f => { f with stream := .flowing, lastKind := kind, lastHandle := b.handle }) := h
  refine Counted.of_cmd ?_ (releaseResponses_cmd _ n)
  split
  · exact (answered.retryRefaulted n kind 1).sendResumed n _ _ _
  · exact answered

theorem Counted.faultHeld (n : LinkId) (kind : LinkCode) (b : Burst) : Counted (s.faultHeld n kind b) := by
  have held : Counted ((s.modFaults n fun f => { f with stream := .held }).setRecords
    (s.faults.queue ++ [⟨n, kind, b.handle, b.x, b.y, b.n, b.dir, b.tag, s.nextAttempt n⟩])) := h
  exact (held.retryRefaulted n kind _).handOver n _

theorem Counted.faultBurst (n : LinkId) (kind : LinkCode) (b : Burst) : Counted (s.faultBurst n kind b) := by
  unfold State.faultBurst
  split
  · exact h.faultAnswered n kind b
  · exact h.faultHeld n kind b

theorem Counted.judgeAgainst (n : LinkId) (b : Burst) (c : Copy) : Counted (s.judgeAgainst n b c) := by
  unfold State.judgeAgainst
  split
  · exact h.faultBurst n _ b
  · exact ((h.of_cmd (accept_cmd s n b c _)).retryAccepted n b).of_cmd (releaseResponses_cmd _ n)

theorem Counted.judgeHead (n : LinkId) : Counted (s.judgeHead n) := by
  unfold State.judgeHead
  split
  · exact h
  · split
    · exact h.judgeAgainst n _ _
    · split
      · exact h.faultBurst n _ _
      · exact h

theorem Counted.reloadForJudging (n : LinkId) (x : Extent) : Counted (s.reloadForJudging n x) := by
  unfold State.reloadForJudging
  split
  · exact h
  · rename_i b _ _
    have refilled : Counted (s.refill n b.dir b.handle) := h
    split
    · exact h
    · split
      · cases x with
        | whole => exact refilled.judgeHead n
        | firstEvent => exact refilled
      · exact refilled.faultBurst n _ b

theorem Counted.surfaceDone (i : BitVec 8) : Counted (s.surfaceDone i) := by
  have lowered : Counted (s.lower i) := h
  simp only [State.surfaceDone]
  split
  · exact lowered.examineDrain i
  · exact lowered

theorem Counted.claimDone (c : Client) (a : Handle) : Counted (s.claimDone c a) := by
  unfold State.claimDone
  split
  · exact h
  · exact (h.of_cmd (modClaim_cmd s c _ _)).drainIfDone c _

theorem Counted.reportMemoryError (block : Nat) : Counted (s.reportMemoryError block) := by
  unfold State.reportMemoryError Counted
  dsimp only
  split <;> exact h

theorem Counted.laneCompletion (n : LinkId) (t : Txn) (a : Handle) (err : Bool) :
    Counted (s.laneCompletion n t a err) := by
  have finished : Counted (s.setFmi (s.fmi.finish t.id)) := h
  refine Counted.of_cmd (Counted.of_cmd ?_ (modLane_cmd _ n _)) (releaseResponses_cmd _ n)
  split
  · exact ((finished.reportMemoryError _).surfaceDone _).claimDone _ a
  · exact (finished.surfaceDone _).claimDone _ a

/-! ## The Fill Engine -/

theorem Counted.fillRelease (j : FillJob) : Counted (s.fillRelease j) :=
  Counted.releaseClaim (s := s.setFillState .draining) h _ _ _ _

omit h in
theorem Counted.issueBursts (k : Nat) : ∀ {s : State}, Counted s → Counted (s.issueBursts k) := by
  induction k with
  | zero => exact id
  | succ k ih =>
    intro s h
    unfold State.issueBursts
    split
    · exact h
    · rename_i j _
      have issued := h.of_cmd (issueBurst_cmd s j)
      split
      · exact h
      · split
        · exact h
        · split
          · exact h
          · dsimp only
            split
            · exact issued.fillRelease j
            · exact ih issued

theorem Counted.fillRun : Counted s.fillRun := by
  unfold State.fillRun
  split
  · exact h
  · exact Counted.issueBursts _ h

theorem Counted.fillTxnDone (t : Txn) (a : Handle) : Counted (s.fillTxnDone t a) := by
  unfold State.fillTxnDone
  refine Counted.claimDone (Counted.surfaceDone ?_ _) _ _
  dsimp only
  split
  · exact h
  · split
    · exact h
    · split
      · split <;> exact h
      · exact h

theorem Counted.fillWithdraw : Counted s.fillWithdraw := by
  have taken : Counted (s.modJob fun j => { j with withdrawTaken := true }) := h
  unfold State.fillWithdraw
  dsimp only
  split
  · exact taken
  · split
    · exact (((taken.of_cmd (dropWaiting_cmd _ _ _ _)).fillEnd _).serve _).examineDrain _
    · exact taken.releaseClaim _ _ _ _
    · exact taken

/-! ## What follows an event -/

theorem Counted.finishTeardown (n : LinkId) : Counted (s.finishTeardown n) := by
  have unrecorded : Counted (GrantOrder.unrecorded s n) := h
  exact (unrecorded.removeClaims n).of_cmd rfl

omit h in
theorem Counted.finishTeardowns (k : Nat) : ∀ {s : State}, Counted s → Counted (s.finishTeardowns k) := by
  induction k with
  | zero => exact id
  | succ k ih =>
    intro s h
    unfold State.finishTeardowns
    split
    · exact h
    · exact ih (h.finishTeardown _)

theorem Counted.settle : Counted s.settle :=
  (Counted.finishTeardowns 6 (Counted.finishTeardowns 6 h).fillRun).takeNext

end Kept

/-! ## What an answer gives -/

/-- Every state that an answer gives meets law 11 and the bounds. -/
def AnswersCounted (o : Host.Outcome State Fault Refusal) : Prop := ∀ t, o = .next t → Counted t

theorem Counted.next {t : State} (h : Counted t) : AnswersCounted (.next t) := by
  rintro _ ⟨⟩
  exact h

theorem Counted.settled {t : State} (h : Counted t) : AnswersCounted (settled t) := h.settle.next

/-- An event that occurs under a condition only. -/
theorem AnswersCounted.ite {p : Prop} [Decidable p] {o o' : Host.Outcome State Fault Refusal} (h : AnswersCounted o)
    (h' : AnswersCounted o') : AnswersCounted (if p then o else o') := by
  split
  · exact h
  · exact h'

section Commands

variable {s : State} (h : Counted s)
include h

/-! ## Host writes -/

/-- A record joins the queue while it holds fewer than 16 (R171). -/
theorem Counted.writeSubmit (w : Word) : Counted (s.writeSubmit w) := by
  unfold State.writeSubmit
  split
  · obtain ⟨accounted, waiting, thresh⟩ := h
    refine ⟨accounted, ?_, thresh⟩
    simp only [List.length_append, List.length_singleton]; omega
  · exact h

theorem Counted.writePop : Counted s.writePop := by
  unfold State.writePop
  split
  · exact h
  · rename_i head rest hc
    obtain ⟨⟨reserved, room⟩, bounds⟩ := h
    simp only [hc, List.length_cons] at room
    refine ⟨⟨reserved, ?_⟩, bounds⟩
    dsimp only; omega

/-- COMPL_THRESH takes 1 to 32 only (R182). -/
theorem Counted.writeComplThresh (w : Word) : Counted (s.writeComplThresh w) := by
  unfold State.writeComplThresh
  split
  · rename_i range
    obtain ⟨accounted, waiting, _⟩ := h
    exact ⟨accounted, waiting, range⟩
  · exact h

theorem Counted.writeSysControl (w : Word) : Counted (s.writeSysControl w) := by
  unfold State.writeSysControl
  split
  · exact counted_of_reset rfl
  · exact h

theorem Counted.writeEnable (n : LinkId) (b : Bool) : Counted (s.writeEnable n b) := by
  unfold State.writeEnable
  split
  · exact h
  · split
    · exact h
    · exact h
    · exact h
    · exact h
    · exact h.takeCause n _

theorem Counted.writeReset (n : LinkId) (b : Bool) : Counted (s.writeReset n b) := by
  unfold State.writeReset
  split
  · exact h.takeCause n _
  · exact h

theorem Counted.writeLinkControl (n : LinkId) (w : Word) : Counted (s.writeLinkControl n w) := by
  unfold State.writeLinkControl
  split
  · dsimp only
    split
    · exact (h.writeEnable n false).writeReset n true
    · exact (h.writeReset n true).writeEnable n false
  · exact (h.writeEnable n _).writeReset n _

theorem Counted.writeLinkEvents (second : Bool) (w : Word) : Counted (s.writeLinkEvents second w) :=
  h.foldl allLinks fun h _ => h

theorem Counted.writeFaultPolicy (n : LinkId) (w : Word) : Counted (s.writeFaultPolicy n w) := by
  unfold State.writeFaultPolicy
  split <;> exact h

theorem Counted.writeLinkBlock (n : LinkId) (k : Nat) (w : Word) : Counted (s.writeLinkBlock n k w) := by
  unfold State.writeLinkBlock
  split
  · exact h.writeLinkControl n w
  · exact h.writeFaultPolicy n w
  · exact h

omit h in
theorem Counted.hostWrite (kept : Counted s) (a : BitVec 10) (w : Word) : Counted (s.hostWrite a w) := by
  unfold State.hostWrite
  dsimp only
  split
  · exact kept
  · split
    · exact kept.writeSubmit w
    · exact kept.writePop
    · exact kept
    · exact kept
    · exact kept
    · exact kept
    · exact kept.writeComplThresh w
    · exact kept.writeSysControl w
    · exact kept.writeLinkEvents false w
    · exact kept.writeLinkEvents true w
    · split
      · split
        · exact kept.writeLinkBlock _ _ w
        · exact kept
      · exact kept

/-! ## Host commands -/

theorem Counted.execCreate : AnswersCounted (execCreate s) := by
  unfold Machine.execCreate
  split
  · split
    · exact (h.post _ _).settled
    · refine .ite (Counted.settled (Counted.post ?_ _ _)) h.next
      exact h.of_cmd (by simp)
  · exact h.next

theorem Counted.modifyRevoke (a : Handle) (stamp : BitVec 16) : Counted (s.modifyRevoke a stamp) := by
  unfold State.modifyRevoke
  split
  · exact h.post _ _
  · exact (h.revoke _ _ _).post _ _

theorem Counted.modifyService (r : CmdRecord) (x : Extent) : Counted (s.modifyService r x) := by
  have served : Counted (s.served .commandEngine) := h
  unfold State.modifyService
  dsimp only
  split
  · exact served.post _ _
  · exact served.post _ _
  · rename_i d _
    split
    · exact served.post _ _
    · rename_i d' _
      have updated : Counted ((s.served .commandEngine).updateEntry (stagedHandle r.stage).index
        fun e => { e with state := .live d' }) := h
      cases x with
      | whole => exact updated.modifyRevoke _ _
      | firstEvent => exact updated.setStage _

theorem Counted.execModify (x : Extent) : AnswersCounted (execModify x s) := by
  unfold Machine.execModify
  split
  · exact (h.modifyRevoke _ _).settled
  · exact .ite (h.post _ _).settled (.ite (h.modifyService _ x).settled h.next)
  · exact h.next

theorem Counted.retireAt (a : Handle) (d : Desc) : Counted (s.retireAt a d) := by
  unfold State.retireAt
  refine Counted.revoke (Counted.toBackground ?_ a) _ _ _
  exact h.of_cmd (by simp)

theorem Counted.retireService (a : Handle) : Counted (s.retireService a) := by
  have served : Counted (s.served .commandEngine) := h
  unfold State.retireService
  dsimp only
  split
  · exact served.post _ _
  · exact served.post _ _
  · exact served.retireAt a _

theorem Counted.execRetire : AnswersCounted (execRetire s) := by
  unfold Machine.execRetire
  split
  · exact .ite (h.post _ _).settled (.ite (h.retireService _).settled h.next)
  · exact h.next

theorem Counted.drainEndAt (i : BitVec 8) (d : Desc) : Counted (s.drainEndAt i d) := by
  refine Counted.postBackground (h.of_cmd ?_) _ _ _
  exact startScrub_cmd _

theorem Counted.execDrainEnd : AnswersCounted (execDrainEnd s) := by
  unfold Machine.execDrainEnd
  split
  · exact h.next
  · rename_i i rest _
    have taken : Counted { s with cmd := { s.cmd with drainEnds := rest } } := h
    refine .ite ?_ h.next
    dsimp only
    split
    · exact Counted.settled (Counted.drainEndAt (taken.of_cmd (served_cmd _ _)) i _)
    · exact taken.settled

theorem Counted.fillInspection (r : CmdRecord) (state : Byte) (gen : BitVec 8) (data : List Word) :
    Counted (s.fillInspection r state gen data) := by
  refine Counted.post ?_ _ _
  exact h.of_cmd rfl

theorem Counted.inspectService (r : CmdRecord) (x : Extent) : Counted (s.inspectService r x) := by
  have served : Counted (s.served .commandEngine) := h
  unfold State.inspectService
  dsimp only
  split
  · exact served.fillInspection _ _ _ _
  · split
    · exact served.fillInspection _ _ _ _
    · exact served.fillInspection _ _ _ _
    · cases x with
      | whole => exact served.fillInspection _ _ _ _
      | firstEvent => exact served.setStage _

theorem Counted.execInspect (x : Extent) : AnswersCounted (execInspect x s) := by
  unfold Machine.execInspect
  split
  · exact (h.fillInspection _ _ _ _).settled
  · exact .ite (h.post _ _).settled (.ite (h.post _ _).settled (.ite (h.inspectService _ x).settled h.next))
  · exact h.next

theorem Counted.execChanges : AnswersCounted (execChanges s) := by
  unfold Machine.execChanges
  split
  · dsimp only
    split <;> exact (h.post _ _).settled
  · exact h.next

theorem Counted.beginRetry (n : LinkId) (r : FaultRecord) : Counted (s.beginRetry n r) := by
  refine Counted.setStage ?_ _
  exact h

theorem Counted.execResolveRetry (x : Extent) : AnswersCounted (execResolveRetry x s) := by
  unfold Machine.execResolveRetry
  split
  · exact (h.post _ _).settled
  · cases x with
    | whole => exact ((h.beginRetry _ _).judgeHead _).settled
    | firstEvent => exact (h.beginRetry _ _).settled
  · split
    · exact .ite (h.judgeHead _).settled h.next
    · exact h.next

/-- What SKIP and FLUSH have in common: the command completes and RESUMED is sent (R133, R134). -/
theorem Counted.resumed (n : LinkId) (ws : List Word) (tag : Byte) (a : ResolveAction) (k : Nat) :
    Counted (((s.post .ok ws).sendResumed n tag a k).releaseResponses n) :=
  ((h.post _ _).sendResumed n _ _ _).of_cmd (releaseResponses_cmd _ n)

theorem Counted.execResolveSkip : AnswersCounted (execResolveSkip s) := by
  unfold Machine.execResolveSkip
  split
  · exact (h.post _ _).settled
  · refine Counted.settled (Counted.resumed ?_ _ _ _ _ _)
    exact h
  · exact h.next

theorem Counted.execResolveFlush : AnswersCounted (execResolveFlush s) := by
  unfold Machine.execResolveFlush
  split
  · exact (h.post _ _).settled
  · refine Counted.settled (Counted.resumed ?_ _ _ _ _ _)
    exact h
  · exact h.next

theorem Counted.revokeNow (r : CmdRecord) : Counted (s.revokeNow r) := by
  unfold State.revokeNow
  split
  · exact h.post _ _
  · exact (h.revoke _ _ _).post _ _

theorem Counted.revokeService (r : CmdRecord) (x : Extent) : Counted (s.revokeService r x) := by
  have served : Counted (s.served .commandEngine) := h
  unfold State.revokeService
  dsimp only
  split
  · exact served.post _ _
  · exact served.post _ _
  · cases x with
    | whole => exact served.revokeNow r
    | firstEvent => exact served.setStage _

theorem Counted.execRevoke (x : Extent) : AnswersCounted (execRevoke x s) := by
  unfold Machine.execRevoke
  split
  · exact (h.revokeNow _).settled
  · exact .ite (h.post _ _).settled (.ite (h.post _ _).settled (.ite (h.revokeService _ x).settled h.next))
  · exact h.next

theorem Counted.execSpace : AnswersCounted (execSpace s) := by
  unfold Machine.execSpace
  split
  · exact (h.post _ _).settled
  · exact h.next

theorem Counted.fillService (r : CmdRecord) : Counted (s.fillService r) := by
  have served : Counted (s.served .fillEngine) := h
  unfold State.fillService
  dsimp only
  split
  · exact served.post _ _
  · exact served.post _ _
  · split
    · exact served.post _ _
    · refine Counted.toBackground ?_ _
      exact h

theorem Counted.execFill : AnswersCounted (execFill s) := by
  unfold Machine.execFill
  split
  · exact .ite (h.post _ _).settled (.ite (h.post _ _).settled (.ite (h.fillService _).settled h.next))
  · exact h.next

/-- The completion of a STOP_FILL that stops the engine (R145). -/
theorem Counted.stopped (f : FillJob → FillJob) :
    Counted (((s.modJob f).setFillState .draining).post .ok []) :=
  Counted.post (s := (s.modJob f).setFillState .draining) h _ _

theorem Counted.stopWaiting (x : Extent) : Counted (s.stopWaiting x) := by
  cases x with
  | whole => exact (h.stopped _).fillWithdraw
  | firstEvent => exact h.stopped _

theorem Counted.stopWriting : Counted s.stopWriting := by
  unfold State.stopWriting
  dsimp only
  split
  · exact (h.stopped _).releaseClaim _ _ _ _
  · exact h.stopped _

theorem Counted.execStopFill (x : Extent) : AnswersCounted (execStopFill x s) := by
  unfold Machine.execStopFill
  split
  · refine .ite h.fillWithdraw.settled ?_
    split
    · exact (h.post _ _).settled
    · exact (h.post _ _).settled
    · exact (h.stopWaiting x).settled
    · exact h.stopWriting.settled
  · exact .ite h.fillWithdraw.settled h.next

theorem Counted.execUnknownCommand : AnswersCounted (execUnknownCommand s) := by
  unfold Machine.execUnknownCommand
  split
  · exact .ite (h.post _ _).settled h.next
  · exact h.next

/-! ## Frames -/

theorem Counted.frameArrives (n : LinkId) {online : State → State} (ho : Counted (online s)) :
    Counted (s.frameArrives n online) := by
  unfold State.frameArrives
  split
  · exact ho
  · exact h
  · exact h
  · exact h

theorem Counted.execAttach (n : LinkId) (f : Frame) : AnswersCounted (execAttach n f s) := by
  unfold Machine.execAttach
  split
  · split
    · refine Counted.settled (Counted.handOver ?_ n _)
      exact h
    · exact Counted.settled h
  · exact (h.takeCause n _).settled
  · exact h.settled
  · exact h.settled

theorem Counted.takeControl (n : LinkId) (k : ControlKind) (f : Frame) : Counted (s.takeControl n k f) := by
  unfold State.takeControl
  split
  · exact h.takeCause n _
  · split
    · exact h.takeCause n _
    · exact h

theorem Counted.execUndefinedKindFrame (n : LinkId) (kind : Byte) :
    AnswersCounted (execUndefinedKindFrame n kind s) :=
  .ite h.next (h.frameArrives n (h.takeCause n _)).settled

theorem Counted.afterLength (n : LinkId) (b : Burst) (ok : Bool) : Counted (s.afterLength n b ok) := by
  unfold State.afterLength
  split
  · exact h
  · exact h.takeCause n _

omit h in
theorem Counted.takeArrivals (n : LinkId) (l : List AccessFrame) :
    ∀ {s : State}, Counted s → Counted (s.takeArrivals n l) := by
  induction l with
  | nil => exact id
  | cons f rest ih =>
    intro s h
    have joined : ∀ b, Counted (s.enqueueBurst n b) := fun _ => h
    unfold State.takeArrivals
    split
    · exact h
    · split
      · exact h.takeCause n _
      · split
        · exact h.takeCause n _
        · split
          · exact ih (joined _)
          · split
            · exact ih (h.afterLength n _ _)
            · exact ih (joined _)
            · exact h

theorem Counted.accessArrives (n : LinkId) (f : AccessFrame) : Counted (s.accessArrives n f) := by
  unfold State.accessArrives
  split
  · exact Counted.takeArrivals n _ h
  · exact h

/-! ## A link's requests and its session -/

theorem Counted.claimDecision (n : LinkId) (tag : Byte) (session : BitVec 8) (a : Handle) (mode : Mode)
    (lease wait : Nat) : Counted (s.claimDecision n tag session a mode lease wait) := by
  unfold State.claimDecision
  split
  · exact h.respond n _ _ _
  · split
    · exact h.respond n _ _ _
    · exact (h.setClaim _ _ _).handOver n _
    · refine Counted.respond ?_ n _ _ _
      exact h.setClaim _ _ _

theorem Counted.serveClaim (n : LinkId) (session : BitVec 8) (tag : Byte) (a : Handle) (mode : Mode)
    (lease wait : Nat) (w : Bool) : Counted (s.serveClaim n session tag a mode lease wait w) := by
  have decided : Counted (s.popLine.decided n) := h
  unfold State.serveClaim
  split
  · exact h
  · exact decided.claimDecision n _ _ _ _ _ _

theorem Counted.joinLine (n : LinkId) (r : CtrlReq) : Counted (s.joinLine n r) := h

/-- A request refused at its taking (R9; log 14). -/
theorem Counted.refusedAtOnce (n : LinkId) (tag : Byte) (session : BitVec 8) (b : Body) :
    Counted ((s.takeRequest n none).respond n tag session b) :=
  Counted.respond (s := s.takeRequest n none) h n tag session b

theorem Counted.execClaim (n : LinkId) (x : Extent) : AnswersCounted (execClaim n x s) := by
  unfold Machine.execClaim
  split
  · exact (h.serveClaim n _ _ _ _ _ _ _).settled
  · split
    · refine .ite (h.refusedAtOnce n _ _ _).settled ?_
      dsimp only
      split
      · exact ((h.joinLine n _).serveClaim n _ _ _ _ _ _ _).settled
      · exact (h.joinLine n _).settled
    · exact h.next

theorem Counted.releaseDecision (n : LinkId) (tag : Byte) (slot : Nat) (publish : Bool) :
    Counted (s.releaseDecision n tag slot publish) := by
  unfold State.releaseDecision
  split
  · exact h.respond n _ _ _
  · split
    · exact h.respond n _ _ _
    · exact h.releaseClaim _ _ _ _

theorem Counted.execRelease (n : LinkId) : AnswersCounted (execRelease n s) := by
  unfold Machine.execRelease
  split
  · exact (Counted.releaseDecision (s := s.takeRequest n none) h n _ _ _).settled
  · exact h.next

theorem Counted.renewDecision (n : LinkId) (session : BitVec 8) (tag : Byte) (slot : Nat) (token : BitVec 8)
    (newLen : Option Nat) : Counted (s.renewDecision n session tag slot token newLen) := by
  unfold State.renewDecision
  split
  · exact h.respond n _ _ _
  · exact iteInduction (fun _ => h.respond n _ _ _) fun _ => iteInduction (fun _ => h.respond n _ _ _) fun _ =>
      iteInduction (fun _ => h.respond n _ _ _) fun _ => (h.setClaim _ _ _).respond n _ _ _

theorem Counted.serveRenew (n : LinkId) (session : BitVec 8) (tag : Byte) (slot : Nat) (token : BitVec 8)
    (newLen : Option Nat) (w : Bool) : Counted (s.serveRenew n session tag slot token newLen w) := by
  have decided : Counted (s.popLine.decided n) := h
  unfold State.serveRenew
  split
  · exact h
  · exact decided.renewDecision n _ _ _ _ _

theorem Counted.execRenew (n : LinkId) (x : Extent) : AnswersCounted (execRenew n x s) := by
  unfold Machine.execRenew
  split
  · exact (h.serveRenew n _ _ _ _ _ _).settled
  · split
    · refine .ite ?_ (Counted.renewDecision (s := s.takeRequest n none) h n _ _ _ _ _).settled
      dsimp only
      split
      · exact ((h.joinLine n _).serveRenew n _ _ _ _ _ _).settled
      · exact (h.joinLine n _).settled
    · exact h.next

theorem Counted.changesDecision (n : LinkId) (session : BitVec 8) (tag : Byte) (a : Handle) (since : Word) :
    Counted (s.changesDecision n session tag a since) := by
  have refused : ∀ b, Counted ((s.decided n).respond n tag session b) :=
    Counted.respond (s := s.decided n) h n tag session
  unfold State.changesDecision
  dsimp only
  split
  · exact refused _
  · exact iteInduction (fun _ => refused _) fun _ => h
  · exact iteInduction (fun _ => refused _) fun _ => h

theorem Counted.serveChanges (n : LinkId) (session : BitVec 8) (tag : Byte) (a : Handle) (since : Word) (w : Bool) :
    Counted (s.serveChanges n session tag a since w) := by
  have popped : Counted s.popLine := h
  unfold State.serveChanges
  split
  · exact popped
  · exact popped.changesDecision n _ _ _ _

theorem Counted.execChangesQuery (n : LinkId) (x : Extent) : AnswersCounted (execChangesQuery n x s) := by
  unfold Machine.execChangesQuery
  split
  · exact (h.serveChanges n _ _ _ _ _).settled
  · split
    · refine .ite (h.refusedAtOnce n _ _ _).settled ?_
      dsimp only
      split
      · exact ((h.joinLine n _).serveChanges n _ _ _ _ _).settled
      · exact (h.joinLine n _).settled
    · exact h.next

theorem Counted.execChangesAnswer (n : LinkId) : AnswersCounted (execChangesAnswer n s) := by
  have decided : Counted (s.decided n) := h
  unfold Machine.execChangesAnswer
  split
  · unfold State.changesAnswer
    split <;> exact (decided.respond n _ _ _).settled
  · exact h.next

theorem Counted.execDetach (n : LinkId) : AnswersCounted (execDetach n s) := by
  unfold Machine.execDetach
  split
  · refine Counted.settled (Counted.takeCause ?_ n _)
    exact h
  · exact h.next

theorem Counted.execTeardownRemoval (n : LinkId) : AnswersCounted (execTeardownRemoval n s) :=
  .ite (h.finishTeardown n).settled h.next

theorem Counted.execOutboundSend (n : LinkId) (c : Channel) : AnswersCounted (execOutboundSend n c s) :=
  .ite (Counted.settled h) h.next

/-! ## Drain ends, expiry, timeout, the lanes and the Fill Engine -/

theorem Counted.drainEndOf (kinds : ReleaseKind → Bool) (c : Client) (k : Fin 16) :
    Counted (s.drainEndOf kinds c k) := by
  unfold State.drainEndOf
  split
  · split
    · exact iteInduction (fun _ => h.drainIfDone c k) fun _ => h
    · exact h
  · exact h

theorem Counted.execLeaseExpiry (c : Client) (k : Fin 16) : AnswersCounted (execLeaseExpiry c k s) := by
  unfold Machine.execLeaseExpiry
  split
  · exact .ite ((h.expire _).afterLoss _).settled h.next
  · exact h.next

theorem Counted.execTimedOut (c : Client) (k : Fin 16) : AnswersCounted (execTimedOut c k s) := by
  unfold Machine.execTimedOut
  split
  · exact .ite ((h.timeOut _).afterLoss _).settled h.next
  · exact h.next

theorem Counted.execBurstJudging (n : LinkId) : AnswersCounted (execBurstJudging n s) :=
  .ite (h.judgeHead n).settled h.next

theorem Counted.reloadForLength (n : LinkId) : Counted (s.reloadForLength n) := by
  unfold State.reloadForLength
  split
  · exact h
  · dsimp only
    split
    · exact Counted.takeCause (s := s.modLink n _) h n _
    · split
      · refine Counted.takeArrivals n _ (Counted.afterLength ?_ n _ _)
        exact h
      · refine Counted.takeArrivals n _ ?_
        exact h

theorem Counted.reloadService (n : LinkId) (x : Extent) : Counted (s.reloadService n x) := by
  unfold State.reloadService
  split
  · exact h
  · rename_i job rest _
    have served : Counted ((s.served (.reload n)).modLane n fun l => { l with reloads := rest }) := h
    cases job with
    | judge => exact served.reloadForJudging n x
    | length => exact served.reloadForLength n
    | discarded => exact served

theorem Counted.execReload (n : LinkId) (x : Extent) : AnswersCounted (execReload n x s) :=
  .ite (h.reloadService n x).settled h.next

theorem Counted.execTransactionCompletion (n : LinkId) (k : Nat) (err : Bool) :
    AnswersCounted (execTransactionCompletion n k err s) := by
  unfold Machine.execTransactionCompletion
  split
  · split
    · exact (h.laneCompletion n _ _ err).settled
    · exact h.next
  · exact h.next

theorem Counted.fillClaimDecision (j : FillJob) : Counted (s.fillClaimDecision j) := by
  unfold State.fillClaimDecision
  split
  · exact h.fillEnd _
  · exact h.fillEnd _
  · split
    · exact h.fillEnd _
    · exact (h.setClaim _ _ _).of_cmd (fillGranted_cmd _)
    · exact h.setClaim .fill _ _

theorem Counted.fillClaimService : Counted s.fillClaimService := by
  have popped : Counted s.popLine := h
  unfold State.fillClaimService
  dsimp only
  split
  · exact popped
  · exact iteInduction (fun _ => popped.fillEnd _) fun _ => popped.fillClaimDecision _

theorem Counted.execFillClaim : AnswersCounted (execFillClaim s) := by
  unfold Machine.execFillClaim
  split
  · exact .ite h.fillClaimService.settled h.next
  · exact h.next

theorem Counted.fillReloadService (j : FillJob) : Counted (s.fillReloadService j) := by
  unfold State.fillReloadService
  dsimp only
  split
  · split <;> exact h
  · exact h

theorem Counted.execFillReload : AnswersCounted (execFillReload s) := by
  unfold Machine.execFillReload
  split
  · exact .ite (h.fillReloadService _).settled h.next
  · exact h.next

theorem Counted.execFillCompletion (k : Nat) : AnswersCounted (execFillCompletion k s) := by
  unfold Machine.execFillCompletion
  split
  · split
    · exact (h.fillTxnDone _ _).settled
    · exact h.next
  · exact h.next

theorem Counted.scrubDone (t : Txn) : Counted (s.scrubDone t) := by
  unfold State.scrubDone
  refine Counted.of_cmd ?_ (startScrub_cmd _)
  dsimp only
  split <;> exact h

theorem Counted.execScrubCompletion : AnswersCounted (execScrubCompletion s) := by
  unfold Machine.execScrubCompletion
  split
  · exact (h.scrubDone _).settled
  · exact h.next

/-! ## Every step keeps law 11 -/

theorem Counted.exec (c : Instr) : AnswersCounted (exec c s) := by
  cases c with
  | powerOn strap => exact (counted_of_reset rfl).next
  | softReset w => exact (h.writeSysControl w).next
  | submit w => exact (h.writeSubmit w).settled
  | complPop w => exact h.writePop.settled
  | interruptStatusWrite w => exact Counted.next h
  | interruptEnableWrite w => exact Counted.next h
  | tickDivWrite w => exact Counted.next h
  | warnEighthsWrite w => exact Counted.next h
  | complThreshWrite w => exact (h.writeComplThresh w).next
  | enable n b => exact (h.writeEnable n b).settled
  | reset n b => exact (h.writeReset n b).settled
  | linkEventClear second w => exact (h.writeLinkEvents second w).next
  | faultPolicyWrite n w => exact (h.writeFaultPolicy n w).next
  | registerWrite a w => exact (h.hostWrite a w).settled
  | create => exact h.execCreate
  | modify x => exact h.execModify x
  | retire => exact h.execRetire
  | drainEnd => exact h.execDrainEnd
  | inspect x => exact h.execInspect x
  | changes => exact h.execChanges
  | resolveRetry x => exact h.execResolveRetry x
  | resolveSkip => exact h.execResolveSkip
  | resolveFlush => exact h.execResolveFlush
  | revoke x => exact h.execRevoke x
  | space => exact h.execSpace
  | fill => exact h.execFill
  | stopFill x => exact h.execStopFill x
  | unknownCommand => exact h.execUnknownCommand
  | attach n f => exact h.execAttach n f
  | controlRequest n k f => exact (h.frameArrives n (h.takeControl n k f)).settled
  | undefinedKindFrame n kind => exact h.execUndefinedKindFrame n kind
  | read n f => exact (h.frameArrives n (h.accessArrives n _)).settled
  | write n f => exact (h.frameArrives n (h.accessArrives n _)).settled
  | claim n x => exact h.execClaim n x
  | release n => exact h.execRelease n
  | renew n x => exact h.execRenew n x
  | changesQuery n x => exact h.execChangesQuery n x
  | changesAnswer n => exact h.execChangesAnswer n
  | detach n => exact h.execDetach n
  | lost n => exact (h.takeCause n .lost).settled
  | teardownRemoval n => exact h.execTeardownRemoval n
  | outboundSend n c => exact h.execOutboundSend n c
  | burstJudging n => exact h.execBurstJudging n
  | reload n x => exact h.execReload n x
  | transactionCompletion n k err => exact h.execTransactionCompletion n k err
  | claimDrainEnd c slot => exact (h.drainEndOf _ c slot).settled
  | revokedDrainEnd c slot => exact (h.drainEndOf _ c slot).settled
  | tick => exact (Counted.leaseTick (s := s.startInterval) h).settled
  | leaseExpiry c slot => exact h.execLeaseExpiry c slot
  | timedOut c slot => exact h.execTimedOut c slot
  | fillClaim => exact h.execFillClaim
  | fillReload => exact h.execFillReload
  | fillCompletion k => exact h.execFillCompletion k
  | scrubCompletion => exact h.execScrubCompletion

theorem Counted.microsecond : Counted s.microsecond := by
  unfold State.microsecond
  split
  · exact h
  · exact (Counted.leaseTick (s := s.startInterval) h).settle

end Commands

/-- Settles O54: a reservation is taken with a command, passes to the background with it, and is given back with its
completion. -/
theorem stepKeepsTheCommandCounts : Obligations.StepKeepsTheCommandCounts := by
  unfold Obligations.StepKeepsTheCommandCounts
  intro s t accounted bounded hstep
  have h : Counted s := ⟨accounted, bounded⟩
  unfold step at hstep
  split at hstep
  · cases hstep
    exact h.microsecond
  · rename_i c rest _
    exact Counted.exec (s := { s with pending := rest }) h c t hstep

end Sys2Proof.Machine.CommandCounts

/-! PROOFS. The host's register writes: SUBMIT and COMPL_POP (R171, R176), the interrupt registers (R179 to R181), and
REGISTER_WRITE at every offset of the window (R169, R170). -/

namespace Sys2Proof.Machine.RegisterWindow

open FaultQueue (exec_reset linkOf_eq_none linkOf_eq_some linkOf_linkNumber)

/-! ## SUBMIT and COMPL_POP (R171, R176) -/

/-- Settles O9: both sides of 16 records for SUBMIT, and of an empty completion queue for COMPL_POP. -/
theorem submitAppendsAndPopRemoves : Obligations.SubmitAppendsAndPopRemoves := by
  unfold Obligations.SubmitAppendsAndPopRemoves
  intro w s
  have submit : exec (.submit w) s = .next (s.writeSubmit w).settle := rfl
  have pop : exec (.complPop w) s = .next s.writePop.settle := rfl
  rw [submit, pop]
  refine ⟨fun room => ?_, fun full => ?_, fun head rest hc => ?_, fun hc => ?_⟩
  · rw [State.writeSubmit, if_pos room]
  · rw [State.writeSubmit, if_neg (Nat.not_lt.2 full)]
  · simp only [State.writePop, hc]
  · simp only [State.writePop, hc]

/-! ## The interrupt registers (R179 to R181) -/

/-- The seven sources at their positions (R179, 11.6). -/
def sources (s : State) : List Bool :=
  [s.completionPending, s.faultPending, s.linkPending, s.cmd.scrubIdle, s.cmd.memoryError, s.cmd.submitOverflow,
    s.cmd.popEmpty]

theorem interruptStatus_getLsbD (s : State) {k : Nat} (hk : k < 7) :
    s.interruptStatus.getLsbD k = (sources s).getD k false := by
  simp only [State.interruptStatus, BitVec.getLsbD_append, BitVec.getLsbD_ofBool]
  obtain rfl | rfl | rfl | rfl | rfl | rfl | rfl :
    k = 0 ∨ k = 1 ∨ k = 2 ∨ k = 3 ∨ k = 4 ∨ k = 5 ∨ k = 6 := by omega
  all_goals simp [sources]

/-- Settles O10: the write changes the four sticky sources of `sources` and MEMORY_ERROR_MORE, each by its bit. -/
theorem statusWriteClearsStickySources : Obligations.StatusWriteClearsStickySources := by
  unfold Obligations.StatusWriteClearsStickySources
  intro w s
  refine ⟨s.writeInterruptStatus w, rfl, fun k h3 h6 => ?sticky, fun k h3 => ?level, rfl, rfl⟩
  case sticky =>
    rw [interruptStatus_getLsbD _ (by omega), interruptStatus_getLsbD _ (by omega)]
    obtain rfl | rfl | rfl | rfl : k = 3 ∨ k = 4 ∨ k = 5 ∨ k = 6 := by omega
    all_goals rfl
  case level =>
    rw [interruptStatus_getLsbD _ (by omega), interruptStatus_getLsbD _ (by omega)]
    obtain rfl | rfl | rfl : k = 0 ∨ k = 1 ∨ k = 2 := by omega
    all_goals rfl

theorem and_ne_zero_iff {n : Nat} (x y : BitVec n) :
    x &&& y ≠ 0 ↔ ∃ k, k < n ∧ x.getLsbD k = true ∧ y.getLsbD k = true := by
  constructor
  · intro ne
    refine Classical.byContradiction fun never => ne (BitVec.eq_of_getLsbD_eq fun k hk => ?_)
    have clear : ¬ (x.getLsbD k = true ∧ y.getLsbD k = true) := fun both => never ⟨k, hk, both⟩
    simpa using clear
  · rintro ⟨k, _, hx, hy⟩ zero
    have bit := congrArg (·.getLsbD k) zero
    simp [hx, hy] at bit

/-- The output is asserted exactly while a source is both pending and enabled (R180). -/
theorem interruptOutput_iff (s : State) : s.interruptOutput = true ↔
    ∃ k, k < 7 ∧ s.interruptStatus.getLsbD k = true ∧ s.cmd.enables.getLsbD k = true := by
  rw [State.interruptOutput, bne_iff_ne]
  exact and_ne_zero_iff _ _

/-- Settles O11: the enables at their register, the output, and the enables after a reset, which are 0. -/
theorem enablesDriveTheInterruptOutput : Obligations.EnablesDriveTheInterruptOutput := by
  unfold Obligations.EnablesDriveTheInterruptOutput
  refine ⟨fun w s => ⟨s.writeInterruptEnable w, rfl, rfl, fun k hk => ?stored, rfl, rfl⟩, interruptOutput_iff,
    fun s c hc => ?reset⟩
  case stored => simp [State.writeInterruptEnable, hk]
  case reset =>
    obtain ⟨t, ht, reset⟩ := exec_reset hc s
    have enables : t.cmd.enables = 0 := by rw [reset.cmd]; rfl
    refine ⟨t, ht, enables, Bool.eq_false_iff.2 fun asserted => ?_⟩
    obtain ⟨k, _, _, enabled⟩ := (interruptOutput_iff t).1 asserted
    simp [enables] at enabled

/-! ## The registers of the window (R169, R170, 11.6) -/

theorem exec_registerWrite (a : BitVec 10) (w : Word) (s : State) :
    exec (.registerWrite a w) s = .next (s.hostWrite a w).settle := rfl

theorem hostWrite_stage {a : BitVec 10} (h : a.toNat < 8) (w : Word) (s : State) :
    s.hostWrite a w = { s with cmd := { s.cmd with stage := s.cmd.stage.set a.toNat w h } } := dif_pos h

/-- What follows a write leaves the staging words as they are. -/
theorem settle_stage (s : State) : s.settle.cmd.stage = s.cmd.stage := congrArg Fixed.stage (fixed_settle s)

/-- Between the staging words and the link blocks a write has an effect at the registers of a row only. -/
theorem hostWrite_unnamed {a : BitVec 10} (h9 : 9 ≤ a.toNat) (h256 : a.toNat < 256)
    (h : a.toNat ∉ [22, 32, 33, 48, 49, 50, 51, 192, 193]) (w : Word) (s : State) : s.hostWrite a w = s := by
  simp only [List.mem_cons, List.not_mem_nil, not_or] at h
  unfold State.hostWrite
  dsimp only
  split
  · omega
  · split
    case h_11 => exact if_neg (Nat.not_le.2 h256)
    all_goals omega

theorem hostWrite_linkBlock {a : BitVec 10} (h256 : 256 ≤ a.toNat) (w : Word) (s : State) :
    s.hostWrite a w =
      (linkOf ((a.toNat - 256) / 32 + 1)).elim s fun n => s.writeLinkBlock n ((a.toNat - 256) % 32) w := by
  unfold State.hostWrite
  dsimp only
  split
  · omega
  · split
    case h_11 =>
      rw [if_pos h256]
      generalize linkOf _ = block
      cases block with
      | none => rfl
      | some n => simp only [Option.elim_some]
    all_goals omega

/-- The write at word `k` of the block of link `n`. -/
theorem hostWrite_linkRegister (n : LinkId) {k : Nat} (hk : k < 32) (w : Word) (s : State) :
    s.hostWrite (BitVec.ofNat 10 (256 + k + 32 * n.val)) w = s.writeLinkBlock n k w := by
  have address : (BitVec.ofNat 10 (256 + k + 32 * n.val)).toNat = 256 + k + 32 * n.val := by
    rw [BitVec.toNat_ofNat]; omega
  have block : (256 + k + 32 * n.val - 256) / 32 = n.val := by omega
  have word : (256 + k + 32 * n.val - 256) % 32 = k := by omega
  rw [hostWrite_linkBlock (by omega), address, block, word, linkOf_linkNumber, Option.elim_some]

/-- Past the two registers of a link block that can be written, and past the six blocks, a write is ignored. -/
theorem hostWrite_ignored {a : BitVec 10} (h256 : 256 ≤ a.toNat) (h : 448 ≤ a.toNat ∨ 2 ≤ a.toNat % 32) (w : Word)
    (s : State) : s.hostWrite a w = s := by
  rw [hostWrite_linkBlock h256]
  rcases Nat.lt_or_ge a.toNat 448 with below | past
  · obtain ⟨n, _, hn⟩ := linkOf_eq_some (k := (a.toNat - 256) / 32 + 1) (by omega) (by omega)
    rw [hn, Option.elim_some]
    unfold State.writeLinkBlock
    split
    · omega
    · omega
    · rfl
  · rw [linkOf_eq_none (by omega), Option.elim_none]

/-! ## A link's ENABLE and RESET (R151, R161) -/

theorem modLink_congr {s : State} {n : LinkId} {f g : Link → Link} (h : f (s.link n) = g (s.link n)) :
    s.modLink n f = s.modLink n g := by rw [State.modLink, h, State.modLink]

theorem modLink_modLink (s : State) (n : LinkId) (f g : Link → Link) :
    (s.modLink n f).modLink n g = s.modLink n fun l => g (f l) := by
  rw [State.modLink, modLink_self]
  simp [State.modLink]

theorem takeCause_teardown {s : State} {n : LinkId} (h : (s.link n).state = .teardown) (c : Cause) :
    s.takeCause n c = s.modLink n fun l => { l with
      causes := if c ∈ l.causes then l.causes else l.causes ++ [c], enable := l.enable && c != .disable } := by
  simp only [State.takeCause, h, List.contains_iff_mem]

theorem takeCause_outside {s : State} {n : LinkId} (h : (s.link n).state = .disabled ∨ (s.link n).state = .offline)
    (c : Cause) : s.takeCause n c = s := by
  rcases h with h | h <;> simp only [State.takeCause, h]

theorem writeEnable_same {s : State} {n : LinkId} {b : Bool} (h : (s.link n).enable = b) : s.writeEnable n b = s :=
  if_pos h

/-- ENABLE raised outside DISABLED is stored only. -/
theorem writeEnable_raised {s : State} {n : LinkId} (he : (s.link n).enable = false)
    (hs : (s.link n).state ≠ .disabled) : s.writeEnable n true = s.modLink n fun l => { l with enable := true } := by
  unfold State.writeEnable
  rw [if_neg (by simp [he])]
  cases state : (s.link n).state with
  | disabled => exact absurd state hs
  | _ => rfl

/-- ENABLE lowered during a session or its teardown is the cause DISABLE. -/
theorem writeEnable_lowered {s : State} {n : LinkId} (he : (s.link n).enable = true)
    (hs : (s.link n).state = .online ∨ (s.link n).state = .teardown) :
    s.writeEnable n false = s.takeCause n .disable := by
  unfold State.writeEnable
  rw [if_neg (by simp [he])]
  rcases hs with hs | hs <;> rw [hs]

/-- A write of ENABLE leaves a link that has no session without one. -/
theorem writeEnable_outside {s : State} {n : LinkId} (h : (s.link n).state = .disabled ∨ (s.link n).state = .offline)
    (b : Bool) : ((s.writeEnable n b).link n).state = .disabled ∨ ((s.writeEnable n b).link n).state = .offline := by
  unfold State.writeEnable
  split
  · exact h
  · rcases h with h | h <;> cases b <;> simp [h]

/-! ## A write to a link control register (R151, R188) -/

theorem writeReset_false (s : State) (n : LinkId) : s.writeReset n false = s := rfl

theorem writeReset_true (s : State) (n : LinkId) : s.writeReset n true = s.takeCause n .host := rfl

/-- Unless both fields begin the teardown of the link, ENABLE is written first. -/
theorem writeLinkControl_inOrder {s : State} {n : LinkId} {w : Word}
    (h : ¬ ((s.link n).state = .online ∧ (s.link n).enable = true ∧ w.getLsbD 0 = false ∧ w.getLsbD 1 = true)) :
    s.writeLinkControl n w = (s.writeEnable n (w.getLsbD 0)).writeReset n (w.getLsbD 1) := if_neg h

/-- The link once the teardown that `c` began has taken a second cause. -/
theorem takeCause_second {v s : State} {n : LinkId} {c d : Cause} (begun : teardownBegun s v n c) (hd : d ≠ c) :
    v.takeCause n d = v.modLink n fun l => { l with enable := l.enable && d != .disable, causes := [c, d] } := by
  obtain ⟨link, _⟩ := begun
  rw [takeCause_teardown (by rw [link])]
  refine modLink_congr ?_
  rw [link]
  simp [hd]

/-- Both fields begin the teardown of the link: which cause is the first is a free choice (log 9). -/
theorem writeLinkControl_both {s : State} {n : LinkId} {w : Word} (hs : (s.link n).state = .online)
    (he : (s.link n).enable = true) (h0 : w.getLsbD 0 = false) (h1 : w.getLsbD 1 = true) : ∃ v : State,
      (teardownBegun s v n .disable ∧ s.writeLinkControl n w = { v.modLink n fun l => { l with
        causes := [.disable, .host] } with draws := s.draws + 1 }) ∨
      (teardownBegun s v n .host ∧ s.writeLinkControl n w = { v.modLink n fun l => { l with
        enable := false, causes := [.host, .disable] } with draws := s.draws + 1 }) := by
  have both : s.writeLinkControl n w = { (if Config.disableBeforeHost s.draws
      then (s.writeEnable n false).writeReset n true
      else (s.writeReset n true).writeEnable n false) with draws := s.draws + 1 } := if_pos ⟨hs, he, h0, h1⟩
  rw [both, writeReset_true, writeReset_true, writeEnable_lowered he (.inl hs), takeCause_online hs,
    takeCause_online hs]
  cases Config.disableBeforeHost s.draws with
  | true =>
    have begun := beginTeardown_begun s n .disable
    refine ⟨_, .inl ⟨begun, ?_⟩⟩
    have kept : (Cause.host != .disable) = true := rfl
    rw [if_pos rfl, takeCause_second begun (by decide)]
    simp only [kept, Bool.and_true]
  | false =>
    have begun := beginTeardown_begun s n .host
    have link := begun.1
    refine ⟨_, .inr ⟨begun, ?_⟩⟩
    rw [if_neg Bool.false_ne_true, writeEnable_lowered (by rw [link]; simp [he]) (.inr (by rw [link])),
      takeCause_second begun (by decide)]
    simp

section Control

variable {s : State} {n : LinkId} {w : Word}

theorem writeLinkControl_enable (h1 : w.getLsbD 1 = false) :
    s.writeLinkControl n w = s.writeEnable n (w.getLsbD 0) := by
  rw [writeLinkControl_inOrder fun ⟨_, _, _, one⟩ => Bool.false_ne_true (h1.symm.trans one), h1, writeReset_false]

theorem writeLinkControl_reset (h0 : w.getLsbD 0 = (s.link n).enable) :
    s.writeLinkControl n w = s.writeReset n (w.getLsbD 1) := by
  rw [writeLinkControl_inOrder fun ⟨_, he, zero, _⟩ => Bool.false_ne_true (zero.symm.trans (h0.trans he)),
    writeEnable_same h0.symm]

variable (h1 : w.getLsbD 1 = true)
include h1

theorem writeLinkControl_outside (hs : (s.link n).state = .disabled ∨ (s.link n).state = .offline) :
    s.writeLinkControl n w = s.writeEnable n (w.getLsbD 0) := by
  rw [writeLinkControl_inOrder (by rintro ⟨online, _⟩; simp [online] at hs), h1, writeReset_true,
    takeCause_outside (writeEnable_outside hs _)]

theorem writeLinkControl_teardown (h0 : w.getLsbD 0 ≠ (s.link n).enable) (hs : (s.link n).state = .teardown) :
    s.writeLinkControl n w = s.modLink n fun l => { l with
      enable := !l.enable
      causes := (if l.enable = false ∨ .disable ∈ l.causes then l.causes else l.causes ++ [.disable]) ++
        if .host ∈ l.causes then [] else [.host] } := by
  rw [writeLinkControl_inOrder (by simp [hs]), h1, writeReset_true]
  cases he : (s.link n).enable with
  | false =>
    have raised : w.getLsbD 0 = true := by simpa [he] using h0
    rw [raised, writeEnable_raised he (by simp [hs]), takeCause_teardown (by simpa using hs), modLink_modLink]
    refine modLink_congr ?_
    by_cases hc : Cause.host ∈ (s.link n).causes <;> simp [he, hc]
  | true =>
    have lowered : w.getLsbD 0 = false := by simpa [he] using h0
    rw [lowered, writeEnable_lowered he (.inr hs), takeCause_teardown hs, takeCause_teardown (by simpa using hs),
      modLink_modLink]
    refine modLink_congr ?_
    by_cases hc : Cause.host ∈ (s.link n).causes <;> by_cases hd : Cause.disable ∈ (s.link n).causes <;>
      simp [he, hc, hd]

/-- A link that is ONLINE with ENABLE 0 takes both fields, the cause HOST alone. -/
theorem writeLinkControl_halfOpen (h0 : w.getLsbD 0 ≠ (s.link n).enable) (hs : (s.link n).state = .online)
    (he : (s.link n).enable = false) :
    s.writeLinkControl n w = (s.modLink n fun l => { l with enable := true }).beginTeardown n .host := by
  have raised : w.getLsbD 0 = true := by simpa [he] using h0
  rw [writeLinkControl_inOrder (by simp [he]), h1, writeReset_true, raised, writeEnable_raised he (by simp [hs]),
    takeCause_online (by simpa using hs)]

end Control

/-- Settles O15: the staging words, the registers with a row, the offsets that are ignored, and the link blocks. -/
theorem registerWriteStoresOrIsIgnored : Obligations.RegisterWriteStoresOrIsIgnored := by
  unfold Obligations.RegisterWriteStoresOrIsIgnored
  intro a w s
  refine ⟨fun h => ⟨_, exec_registerWrite a w s, hostWrite_stage h w s, ?staged⟩, rfl, rfl, ?rows,
    fun h9 h256 h => ?unnamed, fun h256 h => ?ignored, fun n => ⟨?policy, ?control⟩⟩
  case staged =>
    rw [State.hostRead, dif_pos h]
    simp only [settle_stage, hostWrite_stage h, Vector.getElem_set_self]
  case rows =>
    simp only [List.forall_mem_cons]
    exact ⟨⟨_, rfl, rfl⟩, ⟨_, rfl, rfl⟩, ⟨_, rfl, rfl⟩, ⟨_, rfl, rfl⟩, ⟨_, rfl, rfl⟩, ⟨_, rfl, rfl⟩, ⟨_, rfl, rfl⟩,
      ⟨_, rfl, rfl⟩, List.forall_mem_nil _⟩
  case unnamed => rw [exec_registerWrite, hostWrite_unnamed h9 h256 h]
  case ignored => rw [exec_registerWrite, hostWrite_ignored h256 h]
  case policy =>
    refine ⟨_, rfl, ?_⟩
    rw [exec_registerWrite, hostWrite_linkRegister n (k := 1) (by decide)]
    rfl
  case control =>
    intro control l
    have written : control = .next (s.writeLinkControl n w).settle := by
      show exec _ s = _
      rw [exec_registerWrite, hostWrite_linkRegister n (k := 0) (by decide)]
      rfl
    refine ⟨fun h1 => ?enable, fun h0 => ?reset, fun h0 h1 => ⟨fun hs => ?outside, fun hs => ?teardown,
      fun hs he => ?halfOpen, fun hs he => ?online⟩⟩
    case enable => rw [written, writeLinkControl_enable h1]; rfl
    case reset => rw [written, writeLinkControl_reset h0]; rfl
    case outside => rw [written, writeLinkControl_outside h1 hs]; rfl
    case teardown => exact ⟨_, written, writeLinkControl_teardown h1 h0 hs⟩
    case halfOpen =>
      refine ⟨_, written, ?_⟩
      rw [writeLinkControl_halfOpen h1 h0 hs he]
      exact beginTeardown_begun _ n .host
    case online =>
      have lowered : w.getLsbD 0 = false := Bool.eq_false_iff.2 fun one => h0 (one.trans he.symm)
      obtain ⟨v, begun⟩ := writeLinkControl_both hs he lowered h1
      exact ⟨_, v, written, begun⟩

end Sys2Proof.Machine.RegisterWindow

/-! PROOFS. One step and the queue of waiting commands: what a step runs, and that every command answers a next state
with that queue as it was (logs 3, 29 and 33). -/

namespace Sys2Proof.Machine.CommandQueue

/-- Settles O1: the first arm of `step` with a command waiting. -/
theorem stepRunsTheFrontCommand : Obligations.StepRunsTheFrontCommand := by
  unfold Obligations.StepRunsTheFrontCommand
  intro s c rest h
  rw [step, h]

/-! ## What an answer gives -/

/-- The queue of waiting commands is in the fixed part of the state. -/
theorem pending_of_fixed {s t : State} (h : t.fixed = s.fixed) : t.pending = s.pending := congrArg Fixed.pending h

/-- An answer is a next state with the waiting commands as they were. -/
def KeepsQueue (s : State) (o : Host.Outcome State Fault Refusal) : Prop := ∃ t, o = .next t ∧ t.pending = s.pending

section Answers

variable {s u : State}

theorem KeepsQueue.next (h : u.pending = s.pending) : KeepsQueue s (.next u) := ⟨u, rfl, h⟩

/-- What follows at the same event keeps the queue. -/
theorem KeepsQueue.settled (h : u.pending = s.pending) : KeepsQueue s (settled u) :=
  .next ((pending_of_fixed (fixed_settle u)).trans h)

theorem KeepsQueue.settled_fixed (h : u.fixed = s.fixed) : KeepsQueue s (Machine.settled u) :=
  .settled (pending_of_fixed h)

theorem KeepsQueue.noEvent (s : State) : KeepsQueue s (noEvent s) := .next rfl

/-- An event that occurs under a condition only. -/
theorem KeepsQueue.ite {p : Prop} [Decidable p] {o o' : Host.Outcome State Fault Refusal} (h : KeepsQueue s o)
    (h' : KeepsQueue s o') : KeepsQueue s (if p then o else o') := by
  split
  · exact h
  · exact h'

end Answers

section Commands

variable (s : State)

/-! ## Operations that change other parts of the fixed state -/

@[simp] theorem post_pending (v : Verdict) (ws : List Word) : (s.post v ws).pending = s.pending :=
  pending_of_fixed (fixed_post s v ws)

@[simp] theorem revoke_pending (i : BitVec 8) (r : Reason) (sel : Client → Claim → Bool) :
    (s.revoke i r sel).pending = s.pending := pending_of_fixed (fixed_revoke s i r sel)

@[simp] theorem updateEntry_pending (i : BitVec 8) (f : Entry → Entry) : (s.updateEntry i f).pending = s.pending := rfl

@[simp] theorem startScrub_pending : s.startScrub.pending = s.pending := by
  unfold State.startScrub; split <;> rfl

/-- A completed transaction lowers its surface's in-flight count and its claim's outstanding count (R7, R40). -/
@[simp] theorem transactionDone_pending (i : BitVec 8) (c : Client) (h : Handle) :
    ((s.surfaceDone i).claimDone c h).pending = s.pending := pending_of_fixed (by simp)

/-! ## Host writes -/

theorem writeSubmit_pending (w : Word) : (s.writeSubmit w).pending = s.pending := by
  unfold State.writeSubmit; split <;> rfl

theorem writePop_pending : s.writePop.pending = s.pending := by
  unfold State.writePop; split <;> rfl

theorem writeComplThresh_pending (w : Word) : (s.writeComplThresh w).pending = s.pending := by
  unfold State.writeComplThresh; split <;> rfl

/-- The waiting commands outlast a soft reset (log 3). -/
theorem writeSysControl_pending (w : Word) : (s.writeSysControl w).pending = s.pending := by
  unfold State.writeSysControl; split <;> rfl

@[simp] theorem writeEnable_fixed (n : LinkId) (b : Bool) : (s.writeEnable n b).fixed = s.fixed := by
  unfold State.writeEnable
  split
  · rfl
  · split <;> simp

@[simp] theorem writeReset_fixed (n : LinkId) (b : Bool) : (s.writeReset n b).fixed = s.fixed := by
  unfold State.writeReset; split <;> simp

theorem writeLinkControl_fixed (n : LinkId) (w : Word) : (s.writeLinkControl n w).fixed = s.fixed := by
  unfold State.writeLinkControl
  split
  · rw [fixed_withDraws]
    split <;> simp
  · simp

theorem writeLinkEvents_fixed (second : Bool) (w : Word) : (s.writeLinkEvents second w).fixed = s.fixed :=
  fixed_foldl s _ (fun s n => fixed_modLink s n _) allLinks

theorem writeFaultPolicy_fixed (n : LinkId) (w : Word) : (s.writeFaultPolicy n w).fixed = s.fixed := by
  unfold State.writeFaultPolicy; split <;> rfl

theorem writeLinkBlock_fixed (n : LinkId) (k : Nat) (w : Word) : (s.writeLinkBlock n k w).fixed = s.fixed := by
  unfold State.writeLinkBlock
  split
  · exact writeLinkControl_fixed s n w
  · exact writeFaultPolicy_fixed s n w
  · rfl

theorem hostWrite_pending (a : BitVec 10) (w : Word) : (s.hostWrite a w).pending = s.pending := by
  unfold State.hostWrite
  dsimp only
  split
  · rfl
  · split
    · exact writeSubmit_pending s w
    · exact writePop_pending s
    · rfl
    · rfl
    · rfl
    · rfl
    · exact writeComplThresh_pending s w
    · exact writeSysControl_pending s w
    · exact pending_of_fixed (writeLinkEvents_fixed s false w)
    · exact pending_of_fixed (writeLinkEvents_fixed s true w)
    · split
      · split
        · exact pending_of_fixed (writeLinkBlock_fixed s _ _ w)
        · rfl
      · rfl

/-! ## Host commands -/

theorem execCreate_keepsQueue : KeepsQueue s (execCreate s) := by
  unfold execCreate
  split
  · split
    · exact .settled (post_pending s _ _)
    · exact .ite (.settled (by simp [State.createAt])) (.noEvent s)
  · exact .noEvent s

@[simp] theorem modifyRevoke_pending (h : Handle) (stamp : BitVec 16) :
    (s.modifyRevoke h stamp).pending = s.pending := by
  unfold State.modifyRevoke; split <;> simp

theorem modifyService_pending (r : CmdRecord) (x : Extent) : (s.modifyService r x).pending = s.pending := by
  simp only [State.modifyService]
  split
  · simp
  · simp
  · split
    · simp
    · cases x <;> simp

theorem execModify_keepsQueue (x : Extent) : KeepsQueue s (execModify x s) := by
  unfold execModify
  split
  · exact .settled (modifyRevoke_pending s _ _)
  · exact .ite (.settled (post_pending s _ _)) (.ite (.settled (modifyService_pending s _ x)) (.noEvent s))
  · exact .noEvent s

theorem retireAt_pending (h : Handle) (d : Desc) : (s.retireAt h d).pending = s.pending := by
  rw [State.retireAt, revoke_pending, pending_of_fixed (fixed_toBackground _ h)]
  rfl

theorem retireService_pending (h : Handle) : (s.retireService h).pending = s.pending := by
  simp only [State.retireService]
  split
  · simp
  · simp
  · exact retireAt_pending _ h _

theorem execRetire_keepsQueue : KeepsQueue s (execRetire s) := by
  unfold execRetire
  split
  · exact .ite (.settled (post_pending s _ _)) (.ite (.settled (retireService_pending s _)) (.noEvent s))
  · exact .noEvent s

theorem drainEndAt_pending (i : BitVec 8) (d : Desc) : (s.drainEndAt i d).pending = s.pending := by
  rw [State.drainEndAt, pending_of_fixed (fixed_postBackground _ _ _ _)]
  simp

theorem execDrainEnd_keepsQueue : KeepsQueue s (execDrainEnd s) := by
  unfold execDrainEnd
  split
  · exact .noEvent s
  · refine .ite ?_ (.noEvent s)
    dsimp only
    split
    · exact .settled (drainEndAt_pending _ _ _)
    · exact .settled rfl

@[simp] theorem fillInspection_pending (r : CmdRecord) (state : Byte) (gen : BitVec 8) (data : List Word) :
    (s.fillInspection r state gen data).pending = s.pending := post_pending _ _ _

theorem inspectService_pending (r : CmdRecord) (x : Extent) : (s.inspectService r x).pending = s.pending := by
  simp only [State.inspectService]
  split
  · simp
  · split
    · simp
    · simp
    · cases x <;> simp

theorem execInspect_keepsQueue (x : Extent) : KeepsQueue s (execInspect x s) := by
  unfold execInspect
  split
  · exact .settled (fillInspection_pending s _ _ _ _)
  · exact .ite (.settled (post_pending s _ _)) (.ite (.settled (post_pending s _ _))
      (.ite (.settled (inspectService_pending s _ x)) (.noEvent s)))
  · exact .noEvent s

theorem execChanges_keepsQueue : KeepsQueue s (execChanges s) := by
  unfold execChanges
  split
  · dsimp only
    split <;> exact .settled (post_pending s _ _)
  · exact .noEvent s

theorem execResolveRetry_keepsQueue (x : Extent) : KeepsQueue s (execResolveRetry x s) := by
  unfold execResolveRetry
  split
  · exact .settled (post_pending s _ _)
  · cases x with
    | whole => exact .settled_fixed (fixed_judgeHead _ _)
    | firstEvent => exact .settled rfl
  · split
    · exact .ite (.settled_fixed (fixed_judgeHead s _)) (.noEvent s)
    · exact .noEvent s

theorem execResolveSkip_keepsQueue : KeepsQueue s (execResolveSkip s) := by
  unfold execResolveSkip
  split
  · exact .settled (post_pending s _ _)
  · exact .settled_fixed (by simp [State.skip])
  · exact .noEvent s

theorem execResolveFlush_keepsQueue : KeepsQueue s (execResolveFlush s) := by
  unfold execResolveFlush
  split
  · exact .settled (post_pending s _ _)
  · exact .settled_fixed (by simp [State.flush])
  · exact .noEvent s

@[simp] theorem revokeNow_fixed (r : CmdRecord) : (s.revokeNow r).fixed = s.fixed := by
  unfold State.revokeNow; split <;> simp

theorem revokeService_fixed (r : CmdRecord) (x : Extent) : (s.revokeService r x).fixed = s.fixed := by
  simp only [State.revokeService]
  split
  · simp
  · simp
  · cases x <;> simp

theorem execRevoke_keepsQueue (x : Extent) : KeepsQueue s (execRevoke x s) := by
  unfold execRevoke
  split
  · exact .settled_fixed (revokeNow_fixed s _)
  · exact .ite (.settled (post_pending s _ _)) (.ite (.settled (post_pending s _ _))
      (.ite (.settled_fixed (revokeService_fixed s _ x)) (.noEvent s)))
  · exact .noEvent s

theorem execSpace_keepsQueue : KeepsQueue s (execSpace s) := by
  unfold execSpace
  split
  · exact .settled (post_pending s _ _)
  · exact .noEvent s

theorem acceptFill_fixed (r : CmdRecord) (d : Desc) : (s.acceptFill r d).fixed = s.fixed := fixed_toBackground _ _

theorem fillService_fixed (r : CmdRecord) : (s.fillService r).fixed = s.fixed := by
  simp only [State.fillService]
  split
  · simp
  · simp
  · split
    · simp
    · exact acceptFill_fixed _ r _

theorem execFill_keepsQueue : KeepsQueue s (execFill s) := by
  unfold execFill
  split
  · exact .ite (.settled (post_pending s _ _)) (.ite (.settled (post_pending s _ _))
      (.ite (.settled_fixed (fillService_fixed s _)) (.noEvent s)))
  · exact .noEvent s

theorem stopWaiting_fixed (x : Extent) : (s.stopWaiting x).fixed = s.fixed := by
  cases x <;> simp [State.stopWaiting]

theorem stopWriting_fixed : s.stopWriting.fixed = s.fixed := by
  simp only [State.stopWriting]; split <;> simp

theorem execStopFill_keepsQueue (x : Extent) : KeepsQueue s (execStopFill x s) := by
  have withdrawn : KeepsQueue s (settled s.fillWithdraw) := .settled_fixed (fixed_fillWithdraw s)
  unfold execStopFill
  split
  · refine .ite withdrawn ?_
    split
    · exact .settled (post_pending s _ _)
    · exact .settled (post_pending s _ _)
    · exact .settled_fixed (stopWaiting_fixed s x)
    · exact .settled_fixed (stopWriting_fixed s)
  · exact .ite withdrawn (.noEvent s)

theorem execUnknownCommand_keepsQueue : KeepsQueue s (execUnknownCommand s) := by
  unfold execUnknownCommand
  split
  · exact .ite (.settled (post_pending s _ _)) (.noEvent s)
  · exact .noEvent s

/-! ## Frames -/

theorem frameArrives_fixed (n : LinkId) (online : State → State) (h : (online s).fixed = s.fixed) :
    (s.frameArrives n online).fixed = s.fixed := by
  unfold State.frameArrives
  split
  · exact h
  · rfl
  · rfl
  · rfl

theorem execAttach_keepsQueue (n : LinkId) (f : Frame) : KeepsQueue s (execAttach n f s) := by
  unfold execAttach
  split
  · split
    · exact .settled_fixed (by simp [State.attach])
    · exact .settled rfl
  · exact .settled_fixed (fixed_takeCause s n _)
  · exact .settled rfl
  · exact .settled rfl

theorem takeControl_fixed (n : LinkId) (k : ControlKind) (f : Frame) : (s.takeControl n k f).fixed = s.fixed := by
  unfold State.takeControl
  split
  · exact fixed_takeCause s n _
  · split
    · exact fixed_takeCause s n _
    · rfl

theorem execUndefinedKindFrame_keepsQueue (n : LinkId) (kind : Byte) :
    KeepsQueue s (execUndefinedKindFrame n kind s) := by
  unfold execUndefinedKindFrame
  exact .ite (.noEvent s) (.settled_fixed (frameArrives_fixed s n _ (fixed_takeCause s n _)))

theorem afterLength_fixed (n : LinkId) (b : Burst) (ok : Bool) : (s.afterLength n b ok).fixed = s.fixed := by
  unfold State.afterLength
  split
  · rfl
  · exact fixed_takeCause s n _

theorem takeArrivals_fixed (n : LinkId) (l : List AccessFrame) :
    ∀ s : State, (s.takeArrivals n l).fixed = s.fixed := by
  induction l with
  | nil => exact fun _ => rfl
  | cons f rest ih =>
    intro s
    unfold State.takeArrivals
    split
    · rfl
    · split
      · exact fixed_takeCause s n _
      · split
        · exact fixed_takeCause s n _
        · split
          · exact ih _
          · split
            · exact (ih _).trans (afterLength_fixed s n _ _)
            · exact ih _
            · rfl

theorem accessArrives_fixed (n : LinkId) (f : AccessFrame) : (s.accessArrives n f).fixed = s.fixed := by
  unfold State.accessArrives
  split
  · exact takeArrivals_fixed n _ s
  · rfl

/-! ## A link's requests and its session -/

theorem claimDecision_fixed (n : LinkId) (tag : Byte) (session : BitVec 8) (h : Handle) (mode : Mode)
    (lease wait : Nat) : (s.claimDecision n tag session h mode lease wait).fixed = s.fixed := by
  unfold State.claimDecision
  split
  · simp
  · split <;> simp

theorem serveClaim_fixed (n : LinkId) (session : BitVec 8) (tag : Byte) (h : Handle) (mode : Mode) (lease wait : Nat)
    (w : Bool) : (s.serveClaim n session tag h mode lease wait w).fixed = s.fixed := by
  unfold State.serveClaim
  split
  · rfl
  · exact claimDecision_fixed _ n tag session h mode lease wait

theorem execClaim_keepsQueue (n : LinkId) (x : Extent) : KeepsQueue s (execClaim n x s) := by
  unfold execClaim
  split
  · exact .settled_fixed (serveClaim_fixed s n _ _ _ _ _ _ _)
  · split
    · refine .ite (.settled_fixed (by simp)) ?_
      dsimp only
      split
      · exact .settled_fixed (serveClaim_fixed _ n _ _ _ _ _ _ _)
      · exact .settled rfl
    · exact .noEvent s

theorem releaseDecision_fixed (n : LinkId) (tag : Byte) (slot : Nat) (publish : Bool) :
    (s.releaseDecision n tag slot publish).fixed = s.fixed := by
  unfold State.releaseDecision
  split
  · simp
  · split <;> simp

theorem execRelease_keepsQueue (n : LinkId) : KeepsQueue s (execRelease n s) := by
  unfold execRelease
  split
  · exact .settled_fixed (releaseDecision_fixed _ n _ _ _)
  · exact .noEvent s

theorem renewDecision_fixed (n : LinkId) (session : BitVec 8) (tag : Byte) (slot : Nat) (token : BitVec 8)
    (newLen : Option Nat) : (s.renewDecision n session tag slot token newLen).fixed = s.fixed := by
  unfold State.renewDecision
  split
  · simp
  · split
    · simp
    · split
      · simp
      · split <;> simp

theorem serveRenew_fixed (n : LinkId) (session : BitVec 8) (tag : Byte) (slot : Nat) (token : BitVec 8)
    (newLen : Option Nat) (w : Bool) : (s.serveRenew n session tag slot token newLen w).fixed = s.fixed := by
  unfold State.serveRenew
  split
  · rfl
  · exact renewDecision_fixed _ n session tag slot token newLen

theorem execRenew_keepsQueue (n : LinkId) (x : Extent) : KeepsQueue s (execRenew n x s) := by
  unfold execRenew
  split
  · exact .settled_fixed (serveRenew_fixed s n _ _ _ _ _ _)
  · split
    · refine .ite ?_ (.settled_fixed (renewDecision_fixed _ n _ _ _ _ _))
      dsimp only
      split
      · exact .settled_fixed (serveRenew_fixed _ n _ _ _ _ _ _)
      · exact .settled rfl
    · exact .noEvent s

theorem changesDecision_fixed (n : LinkId) (session : BitVec 8) (tag : Byte) (h : Handle) (since : Word) :
    (s.changesDecision n session tag h since).fixed = s.fixed := by
  simp only [State.changesDecision]
  split
  · simp
  · split <;> simp
  · split <;> simp

theorem serveChanges_fixed (n : LinkId) (session : BitVec 8) (tag : Byte) (h : Handle) (since : Word) (w : Bool) :
    (s.serveChanges n session tag h since w).fixed = s.fixed := by
  unfold State.serveChanges
  split
  · rfl
  · exact changesDecision_fixed _ n session tag h since

theorem execChangesQuery_keepsQueue (n : LinkId) (x : Extent) : KeepsQueue s (execChangesQuery n x s) := by
  unfold execChangesQuery
  split
  · exact .settled_fixed (serveChanges_fixed s n _ _ _ _ _)
  · split
    · refine .ite (.settled_fixed (by simp)) ?_
      dsimp only
      split
      · exact .settled_fixed (serveChanges_fixed _ n _ _ _ _ _)
      · exact .settled rfl
    · exact .noEvent s

theorem execChangesAnswer_keepsQueue (n : LinkId) : KeepsQueue s (execChangesAnswer n s) := by
  unfold execChangesAnswer
  split
  · refine .settled_fixed ?_
    unfold State.changesAnswer
    split <;> simp
  · exact .noEvent s

theorem execDetach_keepsQueue (n : LinkId) : KeepsQueue s (execDetach n s) := by
  unfold execDetach
  split
  · exact .settled_fixed (by simp [State.detach])
  · exact .noEvent s

/-! ## Drain ends, expiry and timeout -/

theorem drainEndOf_fixed (kinds : ReleaseKind → Bool) (c : Client) (k : Fin 16) :
    (s.drainEndOf kinds c k).fixed = s.fixed := by
  unfold State.drainEndOf
  split
  · split
    · split <;> simp
    · rfl
  · rfl

theorem execLeaseExpiry_keepsQueue (c : Client) (k : Fin 16) : KeepsQueue s (execLeaseExpiry c k s) := by
  unfold execLeaseExpiry
  split
  · exact .ite (.settled_fixed (by simp)) (.noEvent s)
  · exact .noEvent s

theorem execTimedOut_keepsQueue (c : Client) (k : Fin 16) : KeepsQueue s (execTimedOut c k s) := by
  unfold execTimedOut
  split
  · exact .ite (.settled_fixed (by simp)) (.noEvent s)
  · exact .noEvent s

/-! ## Lanes, the Fill Engine and the scrubber -/

theorem reloadForLength_fixed (n : LinkId) : (s.reloadForLength n).fixed = s.fixed := by
  unfold State.reloadForLength
  split
  · rfl
  · dsimp only
    split
    · exact fixed_takeCause _ n _
    · split
      · exact (takeArrivals_fixed n _ _).trans (afterLength_fixed _ n _ _)
      · exact takeArrivals_fixed n _ _

theorem reloadService_fixed (n : LinkId) (x : Extent) : (s.reloadService n x).fixed = s.fixed := by
  unfold State.reloadService
  split
  · rfl
  · rename_i job _ _
    cases job with
    | judge => exact fixed_reloadForJudging _ n x
    | length => exact reloadForLength_fixed _ n
    | discarded => rfl

theorem laneCompletion_pending (n : LinkId) (t : Txn) (h : Handle) (err : Bool) :
    (s.laneCompletion n t h err).pending = s.pending := by
  simp only [State.laneCompletion, pending_of_fixed (fixed_releaseResponses _ n), modLane_pending,
    transactionDone_pending]
  split <;> rfl

theorem execTransactionCompletion_keepsQueue (n : LinkId) (k : Nat) (err : Bool) :
    KeepsQueue s (execTransactionCompletion n k err s) := by
  unfold execTransactionCompletion
  split
  · split
    · exact .settled (laneCompletion_pending s n _ _ err)
    · exact .noEvent s
  · exact .noEvent s

theorem fillClaimDecision_fixed (j : FillJob) : (s.fillClaimDecision j).fixed = s.fixed := by
  unfold State.fillClaimDecision
  split
  · simp
  · simp
  · split <;> simp

theorem fillClaimService_fixed : s.fillClaimService.fixed = s.fixed := by
  simp only [State.fillClaimService]
  split
  · rfl
  · split
    · simp
    · exact fillClaimDecision_fixed _ _

theorem execFillClaim_keepsQueue : KeepsQueue s (execFillClaim s) := by
  unfold execFillClaim
  split
  · exact .ite (.settled_fixed (fillClaimService_fixed s)) (.noEvent s)
  · exact .noEvent s

theorem fillReloadService_fixed (j : FillJob) : (s.fillReloadService j).fixed = s.fixed := by
  simp only [State.fillReloadService]
  split
  · split <;> rfl
  · rfl

theorem execFillReload_keepsQueue : KeepsQueue s (execFillReload s) := by
  unfold execFillReload
  split
  · exact .ite (.settled_fixed (fillReloadService_fixed s _)) (.noEvent s)
  · exact .noEvent s

theorem fillTxnDone_pending (t : Txn) (h : Handle) : (s.fillTxnDone t h).pending = s.pending := by
  simp only [State.fillTxnDone, transactionDone_pending]
  split
  · rfl
  · split
    · rfl
    · split
      · split <;> rfl
      · rfl

theorem execFillCompletion_keepsQueue (k : Nat) : KeepsQueue s (execFillCompletion k s) := by
  unfold execFillCompletion
  split
  · split
    · exact .settled (fillTxnDone_pending s _ _)
    · exact .noEvent s
  · exact .noEvent s

theorem scrubDone_pending (t : Txn) : (s.scrubDone t).pending = s.pending := by
  simp only [State.scrubDone, startScrub_pending]; split <;> rfl

theorem execScrubCompletion_keepsQueue : KeepsQueue s (execScrubCompletion s) := by
  unfold execScrubCompletion
  split
  · exact .settled (scrubDone_pending s _)
  · exact .noEvent s

/-! ## Every command -/

theorem exec_keepsQueue (c : Instr) : KeepsQueue s (exec c s) := by
  cases c with
  | powerOn strap => exact .next rfl
  | softReset w => exact .next (writeSysControl_pending s w)
  | submit w => exact .settled (writeSubmit_pending s w)
  | complPop w => exact .settled (writePop_pending s)
  | interruptStatusWrite w => exact .next rfl
  | interruptEnableWrite w => exact .next rfl
  | tickDivWrite w => exact .next rfl
  | warnEighthsWrite w => exact .next rfl
  | complThreshWrite w => exact .next (writeComplThresh_pending s w)
  | enable n b => exact .settled_fixed (writeEnable_fixed s n b)
  | reset n b => exact .settled_fixed (writeReset_fixed s n b)
  | linkEventClear second w => exact .next (pending_of_fixed (writeLinkEvents_fixed s second w))
  | faultPolicyWrite n w => exact .next (pending_of_fixed (writeFaultPolicy_fixed s n w))
  | registerWrite a w => exact .settled (hostWrite_pending s a w)
  | create => exact execCreate_keepsQueue s
  | modify x => exact execModify_keepsQueue s x
  | retire => exact execRetire_keepsQueue s
  | drainEnd => exact execDrainEnd_keepsQueue s
  | inspect x => exact execInspect_keepsQueue s x
  | changes => exact execChanges_keepsQueue s
  | resolveRetry x => exact execResolveRetry_keepsQueue s x
  | resolveSkip => exact execResolveSkip_keepsQueue s
  | resolveFlush => exact execResolveFlush_keepsQueue s
  | revoke x => exact execRevoke_keepsQueue s x
  | space => exact execSpace_keepsQueue s
  | fill => exact execFill_keepsQueue s
  | stopFill x => exact execStopFill_keepsQueue s x
  | unknownCommand => exact execUnknownCommand_keepsQueue s
  | attach n f => exact execAttach_keepsQueue s n f
  | controlRequest n k f => exact .settled_fixed (frameArrives_fixed s n _ (takeControl_fixed s n k f))
  | undefinedKindFrame n kind => exact execUndefinedKindFrame_keepsQueue s n kind
  | read n f => exact .settled_fixed (frameArrives_fixed s n _ (accessArrives_fixed s n _))
  | write n f => exact .settled_fixed (frameArrives_fixed s n _ (accessArrives_fixed s n _))
  | claim n x => exact execClaim_keepsQueue s n x
  | release n => exact execRelease_keepsQueue s n
  | renew n x => exact execRenew_keepsQueue s n x
  | changesQuery n x => exact execChangesQuery_keepsQueue s n x
  | changesAnswer n => exact execChangesAnswer_keepsQueue s n
  | detach n => exact execDetach_keepsQueue s n
  | lost n => exact .settled_fixed (fixed_takeCause s n .lost)
  | teardownRemoval n => exact .ite (.settled_fixed (fixed_finishTeardown s n)) (.noEvent s)
  | outboundSend n c => exact .ite (.settled rfl) (.noEvent s)
  | burstJudging n => exact .ite (.settled_fixed (fixed_judgeHead s n)) (.noEvent s)
  | reload n x => exact .ite (.settled_fixed (reloadService_fixed s n x)) (.noEvent s)
  | transactionCompletion n k err => exact execTransactionCompletion_keepsQueue s n k err
  | claimDrainEnd c slot => exact .settled_fixed (drainEndOf_fixed s _ c slot)
  | revokedDrainEnd c slot => exact .settled_fixed (drainEndOf_fixed s _ c slot)
  | tick => exact .settled (pending_of_fixed (s := s.startInterval) (fixed_leaseTick _))
  | leaseExpiry c slot => exact execLeaseExpiry_keepsQueue s c slot
  | timedOut c slot => exact execTimedOut_keepsQueue s c slot
  | fillClaim => exact execFillClaim_keepsQueue s
  | fillReload => exact execFillReload_keepsQueue s
  | fillCompletion k => exact execFillCompletion_keepsQueue s k
  | scrubCompletion => exact execScrubCompletion_keepsQueue s

end Commands

/-- Settles O2: each command's own event keeps the queue, and so does what follows at the same event. -/
theorem everyCommandAnswersAndKeepsTheQueue : Obligations.EveryCommandAnswersAndKeepsTheQueue := by
  unfold Obligations.EveryCommandAnswersAndKeepsTheQueue
  exact fun c s => exec_keepsQueue s c

end Sys2Proof.Machine.CommandQueue
